-- ==== Sys2Proof/Word.lean ====
section
/-! DEFINITION. The words of the ZR2416: bytes and the counters that wrap. -/

namespace Sys2Proof

/-- One byte of the host link or of the bay loop (11_record_formats, R207, R209). -/
abbrev Byte := BitVec 8

/-- Uptime: a 32-bit count of seconds that wraps (R193). -/
abbrev Uptime := BitVec 32

/-- The cycle counter: 0 to 65535, then 0 again (R1). -/
abbrev CycleNumber := BitVec 16

/-- The sweep number: 0 to 255, compared modulo 256 (R13, R15). -/
abbrev SweepNumber := BitVec 8

/-- A set of zone numbers 0-15, bit n standing for zone n (R208). -/
abbrev ZoneSet := BitVec 16

/-- A set of numbers 0-7 (fan groups or fire lines), bit n standing for number n (R208). -/
abbrev OctetSet := BitVec 8

end Sys2Proof
end

