-- ==== Sys2Proof/Config.lean ====
section
/-! DEFINITION. What is fixed for the part, and the free values: constants with no body, for what the spec leaves open. -/

namespace Sys2Proof.Config

/-- The vendor code of Repnor (R193, R208). -/
def vendorCode : Nat := 0x3E51
/-- The part code (R193, R208). -/
def partCode : Nat := 0x2416
/-- The revision this manual describes (R193). -/
def revision : Nat := 1

/-- Room of the notice ring (R196). -/
def ringRoom : Nat := 64
/-- The loss count never exceeds this (R198). -/
def lossMax : Nat := 127
/-- Command slots of a command phase (R4, R17). -/
def commandSlots : Nat := 12
/-- The most polls of one cycle (R8). -/
def pollLimit : Nat := 48
/-- The grace loaded at LOAD_COMMIT and RESTART with KEEP (R57). -/
def graceSeconds : Nat := 120
/-- The collection timer (R161). -/
def collectionSeconds : Nat := 10
/-- Head time at which a stall is reported (R120). -/
def stallSeconds : Nat := 60
/-- Debounce of a line without a record, and of every line in BLANK and LOADING, in tenths (R127). -/
def defaultDebounce : Nat := 5
/-- Debounce of FEED, in tenths (R108). -/
def feedDebounce : Nat := 5
/-- Snapshot pages (R203). -/
def pages : Nat := 21

/-- FREE VALUE (log 12): the run state a VALID drive reply reports by a code that R75 does not list; the argument is the counter
`draws`. -/
opaque freeRunState : Nat → Fin 4
/-- FREE VALUE (log 12): the damper position a VALID drive reply reports by a code that R75 does not list. -/
opaque freeDamper : Nat → Fin 4
/-- FREE VALUE (log 13): the detail of a MIN_ABOVE_MAX violation, which R177 does not state. -/
opaque freeDetail : Nat → Option Nat

end Sys2Proof.Config
end

