-- ==== Sys2Proof/Syntax.lean ====
section
/-! DEFINITION. The commands of the part: one constructor of `Instr` for each row of spec/opcode_table.json.
A host request carries its tag and then its fields in the order of R208's table; a field that a presence mask may leave out is an
Option. Numbers are plain numbers: the owner of a request tests their range (R190), `WellFormed` says which fit their bytes. -/

namespace Sys2Proof

/-- The level of a logic input (chapter 11.3). -/
inductive PinLevel where
  | low | high
  deriving DecidableEq, Repr

/-- The levels of RATE1 and RATE0 when they are sampled (R185). -/
structure Straps where
  rate1 : PinLevel
  rate0 : PinLevel
  deriving DecidableEq, Repr

/-- LOAD_LOOP (R171): the period's code (0 for 0.5 s, 1 for 1 s, 2 for 2 s) and the miss limit. -/
structure LoadLoop where
  period : Option Nat
  missLimit : Option Nat
  deriving DecidableEq, Repr

/-- LOAD_FEEDER (R107): B and Br. -/
structure LoadFeeder where
  budget : Option Nat
  reduced : Option Nat
  deriving DecidableEq, Repr

/-- LOAD_HEAD (R25): `gases` is the gas set, bit 0 CO and bit 1 NO2. -/
structure LoadHead where
  head : Nat
  address : Option Nat
  gases : Option Byte
  zones : Option (List Nat)
  deriving DecidableEq, Repr

/-- LOAD_FAN (R72). -/
structure LoadFan where
  channel : Nat
  address : Option Nat
  groups : Option OctetSet
  cost : Option Nat
  settle : Option Nat
  damperTimeout : Option Nat
  coastTimeout : Option Nat
  min : Option Nat
  max : Option Nat
  deriving DecidableEq, Repr

/-- The four thresholds of one gas, each given or left out (R43). -/
structure LoadLimits where
  low1 : Option Nat
  high1 : Option Nat
  low2 : Option Nat
  high2 : Option Nat
  deriving DecidableEq, Repr

/-- LOAD_ZONE (R42, R43). -/
structure LoadZone where
  zone : Nat
  heads : Option (List Nat)
  fans : Option (List Nat)
  co : LoadLimits
  no2 : LoadLimits
  idle : Option Nat
  stage1 : Option Nat
  stage2 : Option Nat
  blind : Option Nat
  hold : Option Nat
  deriving DecidableEq, Repr

/-- LOAD_SLOT (R7): `kind` is the code 0 HEAD, 1 DRIVE. -/
structure LoadSlot where
  address : Nat
  kind : Option Nat
  divider : Option Nat
  phase : Option Nat
  deriving DecidableEq, Repr

/-- LOAD_LINE (R125): `trigger` is the code of R208, 0 DISABLED to 5 EITHER. -/
structure LoadLine where
  line : Nat
  trigger : Option Nat
  debounce : Option Nat
  extract : Option ZoneSet
  isolate : Option ZoneSet
  speed : Option Nat
  deriving DecidableEq, Repr

/-- The part's commands: the rows of opcode_table.json, in the table's order. -/
inductive Instr where
  /-- The supply rises; the straps as they stand when the power-on ends (R22, R185). -/
  | powerOn (straps : Straps)
  /-- RESET goes low (R22, R210). -/
  | pinReset
  /-- A byte on RX, with whether its stop bit read low (R186). -/
  | hostByteReceived (byte : Byte) (framingError : Bool)
  /-- More than 25 ms have passed between two bytes of a frame in progress (R186). -/
  | interByteGapTimeout
  /-- The last byte of the reply in progress has been sent (R191). -/
  | replySent
  | identify (tag : Nat)
  | linkStatus (tag : Nat)
  | fetch (tag count : Nat)
  | snapTake (tag : Nat)
  | snapRead (tag page : Nat)
  | snapRelease (tag : Nat)
  | loadBegin (tag : Nat)
  | loadLoop (tag : Nat) (record : LoadLoop)
  | loadFeeder (tag : Nat) (record : LoadFeeder)
  | loadHead (tag : Nat) (record : LoadHead)
  | loadFan (tag : Nat) (record : LoadFan)
  | loadZone (tag : Nat) (record : LoadZone)
  | loadSlot (tag : Nat) (record : LoadSlot)
  | loadLine (tag : Nat) (record : LoadLine)
  | loadAbandon (tag : Nat)
  | loadCommit (tag : Nat)
  | restartKeep (tag : Nat)
  | restartClear (tag : Nat)
  | manualEnter (tag : Nat)
  | manualLeave (tag : Nat)
  | discovered (tag : Nat)
  | getHead (tag head : Nat)
  | getZone (tag zone : Nat)
  | getFan (tag channel : Nat)
  | getGroup (tag group : Nat)
  | getQueue (tag : Nat)
  | boost (tag : Nat) (zones : ZoneSet) (speed duration : Nat)
  /-- `gas` is the code 0 CO, 1 NO2. -/
  | setLimits (tag zone gas low1 high1 low2 high2 : Nat)
  | setHold (tag zone preload : Nat)
  | setFan (tag channel setpoint : Nat)
  | clearFault (tag channel : Nat)
  /-- `state` is the code 0 NORMAL, 1 CONSTRAINED. -/
  | feeder (tag state : Nat)
  | fireReset (tag : Nat) (lines : OctetSet)
  | itemRead (tag address item : Nat)
  | itemWrite (tag address item value : Nat)
  | groupRead (tag group item : Nat)
  | groupWrite (tag group item value : Nat)
  | serviceCancel (tag : Nat)
  /-- A boundary of the cycle period (R1). -/
  | cycleBegin
  /-- The poll's slot ends; the bytes received in it, none for silence (R9). -/
  | pollSlotEnd (reply : List Byte)
  /-- The command exchange's slot ends; the bytes received in it (R18). -/
  | commandSlotEnd (reply : List Byte)
  /-- The service exchange's slot ends; the bytes received in it (R20). -/
  | serviceSlotEnd (reply : List Byte)
  | secondsTick
  | settleExpiry (channel : Nat)
  | damperTimerExpiry (channel : Nat)
  | coastTimerExpiry (channel : Nat)
  | holdExpiry (zone : Nat)
  | boostExpiry (zone : Nat)
  | graceExpiry (zone : Nat)
  | collectionExpiry
  | queueStall
  /-- The level at a fire line's pin changes (R127). -/
  | fireLineLevelChange (line : Nat) (level : PinLevel)
  /-- A fire line's level has held for the debounce time (R127, R128, R129). -/
  | fireLineAccepted (line : Nat)
  | commitLevelLatch
  | restartProvisionalMake
  | feedLevelChange (level : PinLevel)
  | feedAccepted
  /-- RESET returns high; the straps as they stand then (R22, R185). -/
  | pinResetEnd (straps : Straps)
  | supplyLoss
  deriving DecidableEq, Repr

end Sys2Proof
end

