-- ==== Sys2Proof/WellFormed.lean ====
section
/-! DEFINITION. Which commands can be sent: every number fits the bytes R208 gives its field, every list its room, and every
event names an object the part has. A command that is not well formed is still total in the machine; it only cannot arrive. -/

namespace Sys2Proof

/-- Fits a field of one byte. -/
def fits1 (n : Nat) : Bool := n < 256
/-- Fits a field of two bytes. -/
def fits2 (n : Nat) : Bool := n < 65536
/-- An optional field of one byte. -/
def fitsOpt1 (o : Option Nat) : Bool := o.all fits1
/-- An optional field of two bytes. -/
def fitsOpt2 (o : Option Nat) : Bool := o.all fits2
/-- An optional list of one-byte entries with its room (R208). -/
def fitsList (room : Nat) (o : Option (List Nat)) : Bool := o.all fun l => l.length ≤ room && l.all fits1

/-- Thresholds of CO take two bytes each, those of NO2 one (R208). -/
def LoadLimits.fits (f : Option Nat → Bool) (l : LoadLimits) : Bool := f l.low1 && f l.high1 && f l.low2 && f l.high2

def LoadLoop.wf (r : LoadLoop) : Bool := fitsOpt1 r.period && fitsOpt1 r.missLimit
def LoadFeeder.wf (r : LoadFeeder) : Bool := fitsOpt1 r.budget && fitsOpt1 r.reduced
def LoadHead.wf (r : LoadHead) : Bool := fits1 r.head && fitsOpt1 r.address && fitsList 2 r.zones
def LoadFan.wf (r : LoadFan) : Bool :=
  fits1 r.channel && fitsOpt1 r.address && fitsOpt1 r.cost && fitsOpt1 r.settle && fitsOpt1 r.damperTimeout
    && fitsOpt1 r.coastTimeout && fitsOpt1 r.min && fitsOpt1 r.max
def LoadZone.wf (r : LoadZone) : Bool :=
  fits1 r.zone && fitsList 8 r.heads && fitsList 4 r.fans && r.co.fits fitsOpt2 && r.no2.fits fitsOpt1
    && fitsOpt1 r.idle && fitsOpt1 r.stage1 && fitsOpt1 r.stage2 && fitsOpt1 r.blind && fitsOpt2 r.hold
def LoadSlot.wf (r : LoadSlot) : Bool := fits1 r.address && fitsOpt1 r.kind && fitsOpt1 r.divider && fitsOpt1 r.phase
def LoadLine.wf (r : LoadLine) : Bool := fits1 r.line && fitsOpt1 r.trigger && fitsOpt1 r.debounce && fitsOpt1 r.speed

/-- Whether a command can arrive as it stands. -/
def Instr.wf : Instr → Bool
  | .powerOn _ => true
  | .pinReset => true
  | .hostByteReceived _ _ => true
  | .interByteGapTimeout => true
  | .replySent => true
  | .identify tag => fits1 tag
  | .linkStatus tag => fits1 tag
  | .fetch tag count => fits1 tag && fits1 count
  | .snapTake tag => fits1 tag
  | .snapRead tag page => fits1 tag && fits1 page
  | .snapRelease tag => fits1 tag
  | .loadBegin tag => fits1 tag
  | .loadLoop tag r => fits1 tag && r.wf
  | .loadFeeder tag r => fits1 tag && r.wf
  | .loadHead tag r => fits1 tag && r.wf
  | .loadFan tag r => fits1 tag && r.wf
  | .loadZone tag r => fits1 tag && r.wf
  | .loadSlot tag r => fits1 tag && r.wf
  | .loadLine tag r => fits1 tag && r.wf
  | .loadAbandon tag => fits1 tag
  | .loadCommit tag => fits1 tag
  | .restartKeep tag => fits1 tag
  | .restartClear tag => fits1 tag
  | .manualEnter tag => fits1 tag
  | .manualLeave tag => fits1 tag
  | .discovered tag => fits1 tag
  | .getHead tag n => fits1 tag && fits1 n
  | .getZone tag n => fits1 tag && fits1 n
  | .getFan tag n => fits1 tag && fits1 n
  | .getGroup tag n => fits1 tag && fits1 n
  | .getQueue tag => fits1 tag
  | .boost tag _ speed duration => fits1 tag && fits1 speed && fits2 duration
  | .setLimits tag zone gas a b c d => fits1 tag && fits1 zone && fits1 gas && fits2 a && fits2 b && fits2 c && fits2 d
  | .setHold tag zone preload => fits1 tag && fits1 zone && fits2 preload
  | .setFan tag n setpoint => fits1 tag && fits1 n && fits1 setpoint
  | .clearFault tag n => fits1 tag && fits1 n
  | .feeder tag state => fits1 tag && fits1 state
  | .fireReset tag _ => fits1 tag
  | .itemRead tag address item => fits1 tag && fits1 address && fits1 item
  | .itemWrite tag address item value => fits1 tag && fits1 address && fits1 item && fits2 value
  | .groupRead tag group item => fits1 tag && fits1 group && fits1 item
  | .groupWrite tag group item value => fits1 tag && fits1 group && fits1 item && fits2 value
  | .serviceCancel tag => fits1 tag
  | .cycleBegin => true
  | .pollSlotEnd _ => true
  | .commandSlotEnd _ => true
  | .serviceSlotEnd _ => true
  | .secondsTick => true
  | .settleExpiry n => n < 24
  | .damperTimerExpiry n => n < 24
  | .coastTimerExpiry n => n < 24
  | .holdExpiry n => n < 16
  | .boostExpiry n => n < 16
  | .graceExpiry n => n < 16
  | .collectionExpiry => true
  | .queueStall => true
  | .fireLineLevelChange n _ => n < 8
  | .fireLineAccepted n => n < 8
  | .commitLevelLatch => true
  | .restartProvisionalMake => true
  | .feedLevelChange _ => true
  | .feedAccepted => true
  | .pinResetEnd _ => true
  | .supplyLoss => true

end Sys2Proof
end

