-- ==== Sys2Proof/Decode.lean ====
section
/-! DEFINITION. The block has no instruction words: no row of spec/opcode_table.json gives bits, so no word spells a command
(log 29). The frames of the host link, which do spell requests, are read in Machine/Link.lean. -/

namespace Sys2Proof

/-- The command a word of the opcode table spells: none, since the table gives no row any bits. -/
def decodeTableWord (_nbits _w : Nat) : Option Instr := none

end Sys2Proof
end

