-- ==== Sys2Proof/Machine/Types.lean ====
section
/-! DEFINITION. The types of everything the part holds: enumerations, table records with their runtime, notices, replies. -/

namespace Sys2Proof.Machine

/-! ## Enumerations, each in the order its rule lists it (R208 numbers them so) -/

/-- The device mode (R168). -/
inductive Mode where
  | blank | loading | run | manual
  deriving DecidableEq, Repr

/-- The latest reset (R193). -/
inductive ResetCause where
  | power | pin | restart
  deriving DecidableEq, Repr

/-- Supply and reset: running, held in reset (with the cause the reset will report when it ends), or without supply (R193, R210). -/
inductive Power where
  | running
  | inReset (cause : ResetCause)
  | off
  deriving DecidableEq, Repr

/-- The kind of a field device (R7, R14). -/
inductive DeviceKind where
  | head | drive
  deriving DecidableEq, Repr

/-- The cycle period: 0.5 s, 1 s or 2 s (R1). -/
inductive Period where
  | half | one | two
  deriving DecidableEq, Repr

/-- The loop state (R11). -/
inductive LoopState where
  | running | down
  deriving DecidableEq, Repr

/-- The class of a poll (R9); a service exchange has no WRONG_KIND (R20). -/
inductive PollClass where
  | silent | short | corrupt | wrongKind | valid
  deriving DecidableEq, Repr

/-- The gases (R25). -/
inductive Gas where
  | co | no2
  deriving DecidableEq, Repr

/-- The state of a head (R26). -/
inductive HeadState where
  | unseen | warming | live | lost | faulty
  deriving DecidableEq, Repr

/-- The state of a configured zone (R45). -/
inductive ZoneState where
  | quiet | purge1 | purge2 | runOn | blind | fireExtract | fireIsolate
  deriving DecidableEq, Repr

/-- The class of a claim and of a channel (R59, R77). -/
inductive ClaimClass where
  | normal | extract | isolate
  deriving DecidableEq, Repr

/-- The state of a channel (R74). -/
inductive FanState where
  | sync | off | opening | queued | starting | running | stopping | fault | lost
  deriving DecidableEq, Repr

/-- The cause of a channel's FAULT (R74). -/
inductive FaultCause where
  | trip | damper | noStart | stall
  deriving DecidableEq, Repr

/-- The damper of a command (R4, R209). -/
inductive DamperCmd where
  | opn | close
  deriving DecidableEq, Repr

/-- The fallback of a command (R4, R209). -/
inductive Fallback where
  | hold | extract | stop
  deriving DecidableEq, Repr

/-- The run state of a drive report (R75). -/
inductive RunState where
  | stopped | accelerating | running | decelerating
  deriving DecidableEq, Repr

/-- The damper of a drive report (R75). -/
inductive DamperReport where
  | closed | moving | opn | jammed
  deriving DecidableEq, Repr

/-- The class of a start queue entry (R105). -/
inductive QueueClass where
  | fire | normal
  deriving DecidableEq, Repr

/-- The class of a command candidate (R17). -/
inductive CandidateClass where
  | fire | stop | start | speed | refresh
  deriving DecidableEq, Repr

/-- Feeder state, feeder line and feeder host (R108 to R110). -/
inductive FeederState where
  | normal | constrained
  deriving DecidableEq, Repr

/-- The trigger of a fire line (R125). -/
inductive Trigger where
  | disabled | levelHigh | levelLow | rising | falling | either
  deriving DecidableEq, Repr

/-- The cause of a latch entry: the trigger in force, or FAILSAFE (R131). -/
inductive LatchCause where
  | trigger (t : Trigger)
  | failsafe
  deriving DecidableEq, Repr

/-- The service operations (R154). -/
inductive Operation where
  | itemRead | itemWrite | groupRead | groupWrite
  deriving DecidableEq, Repr

/-- The outcome of one member of a service operation (R153). -/
inductive MemberOutcome where
  | ok | rejected | noResponse
  deriving DecidableEq, Repr

/-- The cause of REMOTE_LAPSED (R163, R165). -/
inductive LapseCause where
  | collection | fire
  deriving DecidableEq, Repr

/-- The host link's bit rate (R185). -/
inductive BitRate where
  | b19200 | b38400 | b57600 | b115200
  deriving DecidableEq, Repr

/-! ## Timers -/

/-- A timer of whole seconds (R55, R74, R153). `remaining` is the count; the tick that would bring it to 0 leaves it at 1 and marks
it `due`, and the expiry event takes the last count (log 5). -/
structure Timer where
  remaining : Nat
  due : Bool
  deriving DecidableEq, Repr

/-! ## The bay loop -/

/-- A schedule entry (R7). -/
structure SlotEntry where
  address : Nat
  kind : DeviceKind
  divider : Nat
  phase : Nat
  deriving DecidableEq, Repr

/-- An entry of the discovered list (R14). -/
structure Discovered where
  address : Nat
  kind : DeviceKind
  seen : SweepNumber
  deriving DecidableEq, Repr

/-- The command image: what a command carries to a drive (R4, R74). -/
structure Image where
  setpoint : Nat
  damper : DamperCmd
  fallback : Fallback
  deriving DecidableEq, Repr

/-- What a poll asks for: a head reply, a drive reply, or, for a kind query, either (R3, R9). -/
inductive Expect where
  | only (kind : DeviceKind)
  | any
  deriving DecidableEq, Repr

/-- A poll: the address and what is expected there (R3). -/
structure Poll where
  address : Nat
  expect : Expect
  deriving DecidableEq, Repr

/-- A command exchange on the wire (R4). `channel` is absent when LOAD_COMMIT has discarded the channel it was sent for (log 20). -/
structure CommandExchange where
  channel : Option Nat
  address : Nat
  image : Image
  deriving DecidableEq, Repr

/-- A service exchange on the wire: a read-item frame, or a write-item frame with its value (R5, R20). -/
structure Attempt where
  address : Nat
  item : Nat
  value : Option Nat
  deriving DecidableEq, Repr

/-- The part of the cycle in progress: the exchange on the wire and what the part has still to send (R1, R3 to R5). -/
inductive Phase where
  | idle
  | polls (current : Poll) (rest : List Poll)
  | commands (current : CommandExchange) (rest : List Nat)
  | service (attempt : Attempt)
  deriving DecidableEq, Repr

/-- The cycle mark: cycle number and period (R2). -/
structure CycleMark where
  number : CycleNumber
  period : Period
  deriving DecidableEq, Repr

/-- An exchange that RESTART has left on the wire, by its kind (R3 to R5, R23); a command's drive still answers it (R18). -/
inductive Leftover where
  | poll
  | command (x : CommandExchange)
  | service
  deriving DecidableEq, Repr

/-- A drive that has taken a command since its power-up (R19, R21; log 24). -/
structure DriveSide where
  address : Nat
  /-- The stored image of its cyclic command (R21), the fallback among it. -/
  stored : Image
  /-- Missed cycles, held at 4 (R19). -/
  missed : Nat
  /-- Whether a command was taken since the previous cycle mark (R19). -/
  taken : Bool
  deriving DecidableEq, Repr

/-- The drives' side of the loop (R19, R21; log 24). The drives have their own supply: no reset of the part touches this. -/
structure Drives where
  /-- The period of the last cycle mark heard, 1 s before the first (R19). -/
  period : Period
  /-- Tenths of a second since the last cycle mark, or since the last lapse of a period without one. -/
  silent : Nat
  /-- Missed cycles of a drive that has taken no command since its power-up, held at 4. -/
  fresh : Nat
  /-- The drives that have taken one, ascending address. -/
  sides : List DriveSide
  deriving DecidableEq, Repr

/-- The Bay Loop Master's state (R22). -/
structure Loop where
  cycle : CycleNumber
  state : LoopState
  dead : Nat
  cyclePeriod : Period
  mark : CycleMark
  phase : Phase
  polled : Bool
  valid : Bool
  orphan : Bool
  pointer : Nat
  sweep : SweepNumber
  discovered : List Discovered
  draining : Option Leftover
  drives : Drives
  deriving DecidableEq, Repr

/-! ## Heads -/

/-- The gases a head is configured to sense (R25), or those a reply's mask names (R27). -/
structure Gases where
  co : Bool
  no2 : Bool
  deriving DecidableEq, Repr

/-- The flags of a head reply (R26, R27). -/
structure HeadFlags where
  warming : Bool
  cellFault : Bool
  calDue : Bool
  deriving DecidableEq, Repr

/-- The contents of a head reply (R27). -/
structure HeadReply where
  mask : Gases
  co : Nat
  no2 : Nat
  flags : HeadFlags
  deriving DecidableEq, Repr

/-- A head record (R25). -/
structure HeadRecord where
  head : Nat
  address : Nat
  gases : Gases
  zones : List Nat
  deriving DecidableEq, Repr

/-- A configured head: its record and its runtime (R26). The averages are computed from the windows (R36). -/
structure Head where
  record : HeadRecord
  state : HeadState
  coWindow : List Nat
  no2Window : List Nat
  misses : Nat
  recover : Nat
  flags : HeadFlags
  mismatch : Bool
  lastClass : Option PollClass
  lastValidCycle : Option CycleNumber
  deriving DecidableEq, Repr

/-! ## Zones -/

/-- The four thresholds of one gas in force (R43). -/
structure Limits where
  low1 : Nat
  high1 : Nat
  low2 : Nat
  high2 : Nat
  deriving DecidableEq, Repr

/-- A zone record (R42, R43). -/
structure ZoneRecord where
  zone : Nat
  heads : List Nat
  fans : List Nat
  co : Limits
  no2 : Limits
  idle : Nat
  stage1 : Nat
  stage2 : Nat
  blind : Nat
  hold : Nat
  deriving DecidableEq, Repr

/-- A zone's boost (R45, R63). -/
structure Boost where
  speed : Nat
  timer : Timer
  deriving DecidableEq, Repr

/-- A configured zone: its record, its runtime (R45), and the conflict set the Fire Input Unit keeps for it (R134), in latch order. -/
structure Zone where
  record : ZoneRecord
  state : ZoneState
  coLevel : Option Nat
  no2Level : Option Nat
  liveCount : Nat
  hold : Option Timer
  boost : Option Boost
  grace : Timer
  governing : Option Nat
  claim : Nat
  claimClass : ClaimClass
  conflict : List Nat
  deriving DecidableEq, Repr

/-- The latest claim handed over for a zone, as the Fan Channel Manager holds it (R61). -/
structure HandedClaim where
  zone : Nat
  speed : Nat
  cls : ClaimClass
  deriving DecidableEq, Repr

/-! ## Channels -/

/-- A channel record (R72), or the fixed record of a provisional channel (R73). -/
structure FanRecord where
  channel : Nat
  address : Nat
  groups : OctetSet
  cost : Nat
  settle : Nat
  damperTimeout : Nat
  coastTimeout : Nat
  min : Nat
  max : Nat
  deriving DecidableEq, Repr

/-- A drive report (R75). -/
structure Report where
  run : RunState
  speed : Nat
  damper : DamperReport
  trip : Option Nat
  deriving DecidableEq, Repr

/-- A channel: its record and its runtime (R74). -/
structure Channel where
  record : FanRecord
  provisional : Bool
  state : FanState
  faultCause : Option FaultCause
  cls : ClaimClass
  target : Nat
  command : Option Image
  acknowledged : Option Image
  report : Option Report
  misses : Nat
  recover : Nat
  holding : Bool
  startAcked : Bool
  reportedSinceGrant : Bool
  settle : Option Timer
  damper : Option Timer
  coast : Option Timer
  manual : Option Nat
  cyclesSince : Nat
  conflict : Bool
  mismatch : Bool
  deriving DecidableEq, Repr

/-- What the resolution of a channel reads: its class, its target outside FAULT, and the lowest isolating zone when the channel is in
conflict (R77, R78, R80). -/
structure Demand where
  cls : ClaimClass
  want : Nat
  conflict : Option Nat
  deriving DecidableEq, Repr

/-! ## Start queue and feeder -/

/-- A start queue entry (R105); `stalled` is whether this spell at the head has had its QUEUE_STALL (R120). -/
structure QueueEntry where
  channel : Nat
  cls : QueueClass
  cost : Nat
  waiting : Nat
  headTime : Option Nat
  stalled : Bool
  deriving DecidableEq, Repr

/-- A change of the start queue that the Fan Channel Manager reports (R111 to R114). -/
inductive QueueChange where
  | leave (channel : Nat)
  | move (channel : Nat) (cls : QueueClass)
  | join (channel : Nat) (cls : QueueClass) (cost : Nat)
  deriving DecidableEq, Repr

/-- The feeder's two sources and the debounce of FEED (R108, R109). -/
structure Feeder where
  host : FeederState
  line : FeederState
  pin : PinLevel
  accepted : Option PinLevel
  pendingLevel : Option PinLevel
  /-- Tenths the level has held. -/
  heldFor : Nat
  deriving DecidableEq, Repr

/-! ## Fire lines -/

/-- A fire line record (R125). -/
structure LineRecord where
  line : Nat
  trigger : Trigger
  debounce : Nat
  extract : ZoneSet
  isolate : ZoneSet
  speed : Nat
  deriving DecidableEq, Repr

/-- A fire line's runtime (R126), with the level at its pin and the measure of its initial debounce (R128; log 23). -/
structure FireLine where
  line : Nat
  pin : PinLevel
  accepted : Option PinLevel
  pendingLevel : Option PinLevel
  heldFor : Option Nat
  initialHeld : Nat
  deriving DecidableEq, Repr

/-- An entry of the latch list (R131). -/
structure Latch where
  line : Nat
  setAt : Uptime
  cause : LatchCause
  deriving DecidableEq, Repr

/-- The fire state a plan assigns a zone (6.5). -/
inductive Assignment where
  | extract (speed : Nat)
  | isolate
  deriving DecidableEq, Repr

/-! ## Service slot -/

/-- The key of a service operation (R154). -/
structure ServiceKey where
  op : Operation
  target : Nat
  item : Nat
  value : Option Nat
  deriving DecidableEq, Repr

/-- A member of a service operation (R153, R155). -/
structure Member where
  address : Nat
  channel : Option Nat
  deriving DecidableEq, Repr

/-- The result entry of a member done (R153). -/
structure ResultEntry where
  address : Nat
  outcome : MemberOutcome
  value : Option Nat
  deriving DecidableEq, Repr

/-- The service slot (R153): in each state exactly the fields the table lets stand. -/
inductive ServiceSlot where
  | idle
  | working (key : ServiceKey) (members : List Member) (attempts : Nat) (inFlight : Bool) (result : List ResultEntry)
  | ready (key : ServiceKey) (members : List Member) (result : List ResultEntry) (collection : Timer)
  deriving DecidableEq, Repr

/-! ## Configuration -/

/-- The staging tables: the records as they were given (R171, R173). -/
structure Staging where
  loop : Option LoadLoop
  feeder : Option LoadFeeder
  heads : List LoadHead
  fans : List LoadFan
  zones : List LoadZone
  slots : List LoadSlot
  lines : List LoadLine
  deriving DecidableEq, Repr

/-- The active tables that no block's runtime carries: loop record, feeder record, schedule, line records (R171). The active head,
zone and channel records stand in the runtime tables. -/
structure Active where
  period : Period
  missLimit : Nat
  budget : Nat
  reduced : Nat
  schedule : List SlotEntry
  lines : List LineRecord
  deriving DecidableEq, Repr

/-- The record kind of an INVALID reply (R177). -/
inductive RecordKind where
  | config | feeder | zone | head | fan | line | address | slot | residue
  deriving DecidableEq, Repr

/-- The reason of an INVALID reply, in the order in which the table of R177 first names each. -/
inductive Reason where
  | noZone | brAboveB | missingHead | headNotLinked | missingFan | thresholdOrder | missingZone | zoneNotLinked
  | minAboveMax | costAboveB | unbound | overbound | planOverlap | addressShared | noSlot | slotKind | orphanSlot | pollsOverLimit
  deriving DecidableEq, Repr

/-- A violation found by commit validation (R177). -/
structure Violation where
  kind : RecordKind
  key : Option Nat
  reason : Reason
  detail : Option Nat
  deriving DecidableEq, Repr

/-! ## Notices -/

/-- What a notice says: its kind with the subject and details the kind lays down (R196). -/
inductive NoticeBody where
  | zoneState (zone : Nat) (new : ZoneState) (co no2 : Option Nat)
  | boostEnd (zone speed : Nat) (state : ZoneState)
  | headState (head : Nat) (new previous : HeadState)
  | headCalDue (head : Nat) (state : HeadState) (address : Nat)
  | kindMismatch (address : Nat) (expected received : DeviceKind)
  | fanState (channel : Nat) (new previous : FanState)
  | fanFault (channel : Nat) (cause : FaultCause) (previous : FanState)
  /-- FIRE_CONFLICT of a zone: the line that joined (R134). -/
  | zoneConflict (zone line : Nat)
  /-- FIRE_CONFLICT of a channel: the lowest isolating zone (R80). -/
  | channelConflict (channel zone : Nat)
  | fireLatch (line : Nat) (cause : LatchCause) (position : Nat)
  | fireClear (line left : Nat) (setAt : Uptime)
  | loopState (state : LoopState) (cycle : CycleNumber)
  | queueStall (channel cost held : Nat)
  | feederState (state line host : FeederState)
  | remoteReady (target : Nat) (op : Operation) (notOk : Nat)
  | remoteLapsed (target : Nat) (op : Operation) (cause : LapseCause)
  | mode (new previous : Mode)
  deriving DecidableEq, Repr

/-- A notice in the ring (R196). -/
structure Notice where
  body : NoticeBody
  raisedAt : Uptime
  deriving DecidableEq, Repr

/-- The notice ring (R196, R198). -/
structure Ring where
  notices : List Notice
  lost : Nat
  saturated : Bool
  deriving DecidableEq, Repr

/-! ## What replies and snapshot pages carry -/

/-- A gas's window as GET_HEAD gives it: samples oldest first, and the average (R39). -/
structure WindowView where
  samples : List Nat
  average : Option Nat
  deriving DecidableEq, Repr

/-- GET_HEAD's record (R39). -/
structure HeadView where
  record : HeadRecord
  state : HeadState
  misses : Nat
  recover : Nat
  flags : HeadFlags
  mismatch : Bool
  lastClass : Option PollClass
  lastValidCycle : Option CycleNumber
  co : Option WindowView
  no2 : Option WindowView
  deriving DecidableEq, Repr

/-- GET_ZONE's record (R69). -/
structure ZoneView where
  record : ZoneRecord
  state : ZoneState
  coLevel : Option Nat
  no2Level : Option Nat
  liveCount : Nat
  grace : Nat
  hold : Option Nat
  boost : Option (Nat × Nat)
  governing : Option Nat
  claim : Nat
  claimClass : ClaimClass
  deriving DecidableEq, Repr

/-- GET_FAN's record (R101). -/
structure FanView where
  record : FanRecord
  provisional : Bool
  bound : List HandedClaim
  state : FanState
  faultCause : Option FaultCause
  cls : ClaimClass
  target : Nat
  conflict : Bool
  mismatch : Bool
  command : Option Image
  acknowledged : Option Image
  report : Option Report
  misses : Nat
  recover : Nat
  holding : Bool
  startAcked : Bool
  cyclesSince : Nat
  settle : Option Nat
  damper : Option Nat
  coast : Option Nat
  manual : Option Nat
  /-- Queue position, 1 for the head, and waiting time, while QUEUED. -/
  queued : Option (Nat × Nat)
  deriving DecidableEq, Repr

/-- An entry of GET_GROUP's list (R102). -/
structure GroupEntry where
  channel : Nat
  state : FanState
  speed : Option Nat
  faultCause : Option FaultCause
  deriving DecidableEq, Repr

/-- A holder in GET_QUEUE's reply (R121). -/
structure Holder where
  channel : Nat
  cost : Nat
  settle : Option Nat
  deriving DecidableEq, Repr

/-- GET_QUEUE's contents (R121). -/
structure QueueView where
  held : Nat
  budget : Nat
  reduced : Nat
  feeder : FeederState
  line : FeederState
  host : FeederState
  entries : List QueueEntry
  holders : List Holder
  deriving DecidableEq, Repr

/-- A line in FIRE_RESET's reply (R141). -/
structure LineView where
  trigger : Trigger
  accepted : Option PinLevel
  pendingStands : Bool
  deriving DecidableEq, Repr

/-- Snapshot page 0 (R204). -/
structure Summary where
  mode : Mode
  feeder : FeederState
  line : FeederState
  host : FeederState
  budget : Nat
  reduced : Nat
  held : Nat
  queue : List QueueEntry
  latches : List Latch
  loop : LoopState
  notices : Nat
  lost : Nat
  saturated : Bool
  deriving DecidableEq, Repr

/-- The image of a snapshot (R203, R204): the summary, 16 zones, 24 channels and 40 heads, absent where not configured. -/
structure SnapImage where
  summary : Summary
  zones : List (Option ZoneView)
  channels : List (Option FanView)
  heads : List (Option HeadView)
  deriving DecidableEq, Repr

/-- A held snapshot (R203); `read` is the page-read set, without repeats. -/
structure Snapshot where
  image : SnapImage
  takenAt : Uptime
  read : List Nat
  deriving DecidableEq, Repr

/-- A snapshot page (R204). -/
inductive Page where
  | summary (s : Summary)
  | zones (l : List (Option ZoneView))
  | channels (l : List (Option FanView))
  | heads (l : List (Option HeadView))
  deriving DecidableEq, Repr

/-- The reply statuses (9.5, R208). -/
inductive Status where
  | ok | deferred | busy | wrongMode | badField | unknownKind | notFound | full | invalid | refusedFire | refused | held
  deriving DecidableEq, Repr

/-- The slot as BUSY and SERVICE_CANCEL report it: operation, target, members done and members (R157, R164). -/
structure SlotView where
  ready : Bool
  op : Operation
  target : Nat
  done : Nat
  total : Nat
  deriving DecidableEq, Repr

/-- The fields of a reply, as the rule of its request lays them down for its status. -/
inductive ReplyBody where
  /-- No fields. -/
  | none
  /-- BAD_FIELD: the position of the failing field, 0 for LENGTH (R208). -/
  | badField (position : Nat)
  | identify (mode : Mode) (cause : ResetCause) (uptime : Uptime)
  | linkStatus (discards : Nat) (saturated : Bool) (rate : BitRate) (frames : Nat)
  | fetch (notices : List Notice) (remaining lost : Nat) (saturated : Bool)
  | snapTaken (takenAt : Uptime)
  | snapAge (age : Uptime)
  | snapPage (page : Page) (takenAt : Uptime) (unread : Nat)
  /-- SNAP_RELEASE: pages read when the buffer was HELD, absent when EMPTY (R206). -/
  | snapReleased (pagesRead : Option Nat)
  | loaded (replaced : Bool) (count : Nat)
  | loadedSlot (replaced : Bool) (count heads drives : Nat)
  | violation (v : Violation)
  | latchedLines (lines : List Nat)
  | mode (mode : Mode)
  | discovered (active : Bool) (sweep : SweepNumber) (pointer : Nat) (list : List Discovered)
  | head (view : HeadView)
  /-- GET_ZONE: absent for an INACTIVE zone (R69). -/
  | zone (view : Option ZoneView)
  | fan (view : FanView)
  | group (list : List GroupEntry)
  | queue (view : QueueView)
  /-- NOT_FOUND of BOOST: the first INACTIVE zone (R63). -/
  | zoneNumber (zone : Nat)
  | setFan (setpoint target : Nat)
  | channelState (state : FanState)
  | channelTrip (cause : FaultCause) (code : Nat)
  | feeder (state line host : FeederState)
  | fireReset (held : List Nat) (latches : List Latch) (lines : List LineView)
  | progress (done total : Nat)
  | slot (view : SlotView)
  /-- SERVICE_CANCEL: the slot as it was, absent when IDLE (R164). -/
  | cancelled (view : Option SlotView)
  | result (key : ServiceKey) (entries : List (Option Nat × ResultEntry))
  deriving DecidableEq, Repr

/-- A reply in progress on TX: the request's kind code and tag, the status and the fields (R191). -/
structure Reply where
  kind : Nat
  tag : Nat
  status : Status
  body : ReplyBody
  deriving DecidableEq, Repr

/-! ## Host link -/

/-- A good frame in the receive buffer (R188): kind, tag and field bytes. -/
structure Frame where
  kind : Nat
  tag : Nat
  fields : List Byte
  deriving DecidableEq, Repr

/-- The receiver (R186): `body` is what has come after the length byte, in order. -/
inductive Rx where
  | hunting
  | awaitLength
  | inFrame (length : Nat) (body : List Byte)
  deriving DecidableEq, Repr

/-- The Host Link Port (R195). The frame being answered is the one `reply` answers; `waiting` is the other held frame (R188). -/
structure Link where
  rx : Rx
  waiting : Option Frame
  reply : Option Reply
  discards : Nat
  saturated : Bool
  rate : BitRate
  deriving DecidableEq, Repr

end Sys2Proof.Machine
end

