-- ==== Sys2Proof/Machine/State.lean ====
section
/-! DEFINITION. The state of the part as plain data, the reasons a step could stop, and the state after reset. -/

namespace Sys2Proof.Machine

/-- The part's state, block by block, with the queue of commands waiting (INVENTORY.md, "State"). -/
structure State where
  /-- Supply and reset (R193, R210). -/
  power : Power
  /-- Level of the RESET pin (chapter 11.3). -/
  resetPin : PinLevel
  /-- Device mode (R168). -/
  mode : Mode
  /-- Latest reset (R193). -/
  resetCause : ResetCause
  /-- Seconds since power-on or pin reset (R193). -/
  uptime : Uptime
  /-- Staging tables, in LOADING (R170). -/
  staging : Option Staging
  /-- Active loop, feeder, schedule and line records, in RUN and MANUAL (R178). -/
  active : Option Active
  /-- Bay Loop Master (R22). -/
  loop : Loop
  /-- Head Monitor (R26), ascending head number. -/
  heads : List Head
  /-- Zone Engine (R45), ascending zone number. -/
  zones : List Zone
  /-- Latest claims handed over (R61), ascending zone number. -/
  handed : List HandedClaim
  /-- Fan Channel Manager (R74), ascending channel number. -/
  channels : List Channel
  /-- Start queue (R105). -/
  queue : List QueueEntry
  /-- Inrush units held (R106). -/
  held : Nat
  /-- Feeder sources (R108, R109). -/
  feeder : Feeder
  /-- Fire line runtimes (R126), lines 0 to 7. -/
  lines : List FireLine
  /-- Latch list (R131). -/
  latches : List Latch
  /-- Lines R130 has still to latch (log 21). -/
  levelLatchDue : List Nat
  /-- Whether a RESTART has left provisional channels to be made (R144; log 22). -/
  provisionalDue : Bool
  /-- Service slot (R153). -/
  slot : ServiceSlot
  /-- Notice ring (R196). -/
  ring : Ring
  /-- Snapshot buffer, EMPTY when absent (R203). -/
  snapshot : Option Snapshot
  /-- Host Link Port (R195). -/
  link : Link
  /-- The model's own counter of free values used (log 12). -/
  draws : Nat
  /-- Commands waiting, first in first out (log 29). -/
  pending : List Instr
  deriving DecidableEq, Repr

/-- Reasons to stop with a fault: none. The spec names no command and no condition that stops the part. -/
inductive Fault where
  deriving DecidableEq, Repr

/-- Reasons to refuse a command. -/
inductive Refusal where
  /-- Raised by an arm of `exec` for a command that has no meaning yet; no arm raises it. Safe. -/
  | notModelled (mnemonic : String)
  deriving DecidableEq, Repr

/-- The Bay Loop Master before its first cycle (R22); the drives' side stays as it stands. -/
def Loop.cleared (drives : Drives) : Loop where
  cycle := 0
  state := .running
  dead := 0
  cyclePeriod := .one
  mark := ⟨0, .one⟩
  phase := .idle
  polled := false
  valid := false
  orphan := false
  pointer := 0
  sweep := 0
  discovered := []
  draining := none
  drives := drives

/-- A fire line's runtime after power-on or pin reset (R126, R148), its pin as it stands. -/
def FireLine.cleared (line : Nat) (pin : PinLevel) : FireLine := ⟨line, pin, none, none, none, 0⟩

/-- The feeder after power-on or pin reset (R108, R123), FEED as it stands. -/
def Feeder.cleared (pin : PinLevel) : Feeder := ⟨.normal, .constrained, pin, none, none, 0⟩

/-- The host link after power-on or pin reset (R195). -/
def Link.cleared (rate : BitRate) : Link := ⟨.hunting, none, none, 0, false, rate⟩

/-- The part right after reset: power-on has ended and cycle 0 has begun with the kind query of address 1 on the wire (R22, R13).
The pins are open inputs, RESET is driven high and the straps read low (log 9); the drives have heard the first mark (log 24). -/
def State.reset : State where
  power := .running
  resetPin := .high
  mode := .blank
  resetCause := .power
  uptime := 0
  staging := none
  active := none
  loop := { Loop.cleared ⟨.one, 0, 1, []⟩ with
    phase := .polls ⟨1, .any⟩ ((List.range' 2 15).map fun a => ⟨a, .any⟩), polled := true }
  heads := []
  zones := []
  handed := []
  channels := []
  queue := []
  held := 0
  feeder := .cleared .low
  lines := (List.range 8).map fun n => .cleared n .low
  latches := []
  levelLatchDue := []
  provisionalDue := false
  slot := .idle
  ring := ⟨[], 0, false⟩
  snapshot := none
  link := .cleared .b19200
  draws := 0
  pending := []

end Sys2Proof.Machine
end

