-- ==== Sys2Proof/Machine/Tables.lean ====
section
/-! DEFINITION. Keyed tables as lists in ascending order of their key, and the small list operations the blocks share. -/

namespace Sys2Proof.Machine

variable {α : Type}

/-- The record under a key. -/
def lookup (key : α → Nat) (k : Nat) (l : List α) : Option α := l.find? fun a => key a == k

/-- Apply `f` to the record under a key. -/
def modify (key : α → Nat) (k : Nat) (f : α → α) (l : List α) : List α := l.map fun a => if key a = k then f a else a

/-- Insert a record at its place, or replace the record under its key. -/
def upsert (key : α → Nat) (a : α) : List α → List α
  | [] => [a]
  | b :: l => if key a < key b then a :: b :: l else if key a = key b then a :: l else b :: upsert key a l

/-- Whether a key has a record. -/
def hasKey (key : α → Nat) (k : Nat) (l : List α) : Bool := l.any fun a => key a == k

/-- Keys strictly ascending. -/
def sorted (key : α → Nat) (l : List α) : Prop := l.Pairwise fun a b => key a < key b

/-- A list without repeats. -/
def noDups [DecidableEq α] : List α → Bool
  | [] => true
  | a :: l => !l.contains a && noDups l

/-- A list of numbers in ascending order, for lists whose order the host chose. -/
def ascending (l : List Nat) : List Nat := l.foldr (fun n acc => acc.takeWhile (· < n) ++ n :: acc.dropWhile (· < n)) []

/-- The members of a set of numbers, ascending (R208). -/
def members {w : Nat} (set : BitVec w) : List Nat := (List.range w).filter fun n => set.getLsbD n

/-- The largest number of a list, 0 for the empty list. -/
def largest (l : List Nat) : Nat := l.foldl max 0

/-- The largest number of a list, absent for the empty list. -/
def largest? : List Nat → Option Nat
  | [] => none
  | n :: l => some (l.foldl max n)

end Sys2Proof.Machine
end

