-- ==== Sys2Proof/Machine/Ops.lean ====
section
/-! DEFINITION. The operations every block uses: running only with supply and out of reset, timers, raising notices, the records and
budgets in force. -/

namespace Sys2Proof.Machine

/-- An event of the part happens only while it has supply and is out of reset; otherwise the command changes nothing (log 7). -/
def powered (s : State) (f : State → State) : Host.Outcome State Fault Refusal :=
  match s.power with
  | .running => .next (f s)
  | .inReset _ => .next s
  | .off => .next s

/-! ## Timers (R55, R74, R153) -/

/-- A timer loaded with `n` seconds. -/
def Timer.load (n : Nat) : Timer := ⟨n, false⟩

/-- One seconds tick: the count goes down; the tick that would bring it to 0 makes the expiry due (log 5). -/
def Timer.tick (t : Timer) : Timer := if 1 < t.remaining then ⟨t.remaining - 1, false⟩ else ⟨t.remaining, t.remaining == 1⟩

/-- Whether an optional timer's expiry is due. -/
def expiryDue (t : Option Timer) : Bool := t.any Timer.due

/-! ## Notices (R196 to R198) -/

/-- FIRE_LATCH, FIRE_CLEAR and FIRE_CONFLICT are the fire notices (R196). -/
def NoticeBody.isFire : NoticeBody → Bool
  | .fireLatch _ _ _ => true
  | .fireClear _ _ _ => true
  | .zoneConflict _ _ => true
  | .channelConflict _ _ => true
  | _ => false

/-- One loss: the count rises to 127 and then sets the flag (R198). -/
def Ring.lose (r : Ring) : Ring :=
  if r.lost < Config.lossMax then { r with lost := r.lost + 1 } else { r with saturated := true }

/-- Remove the oldest non-fire notice (R198). -/
def dropOldestRoutine : List Notice → List Notice
  | [] => []
  | n :: l => if n.body.isFire then n :: dropOldestRoutine l else l

/-- A notice arrives at the ring (R197, R198). -/
def Ring.append (n : Notice) (r : Ring) : Ring :=
  if r.notices.length < Config.ringRoom then { r with notices := r.notices ++ [n] }
  else if n.body.isFire && r.notices.any (fun m => !m.body.isFire) then
    { r.lose with notices := dropOldestRoutine r.notices ++ [n] }
  else r.lose

/-- Raise a notice: it is stamped with the uptime and reaches the ring at once (R197). -/
def raise (n : NoticeBody) (s : State) : State := { s with ring := s.ring.append ⟨n, s.uptime⟩ }

/-- Raise the notices of one event, in order (R197). -/
def raiseAll (ns : List NoticeBody) (s : State) : State := ns.foldl (fun t n => raise n t) s

/-- Raise MODE when the mode has changed, as the last notice of the event (R169). -/
def raiseMode (previous : Mode) (s : State) : State := if s.mode = previous then s else raise (.mode s.mode previous) s

/-! ## What is in force -/

/-- The active tables govern in RUN and MANUAL (8.1). -/
def Mode.scheduled : Mode → Bool
  | .blank => false
  | .loading => false
  | .run => true
  | .manual => true

/-- The failsafe is in force in BLANK and LOADING (R143). -/
def State.failsafe (s : State) : Bool := !s.mode.scheduled

/-- The period in force for the next cycle (R1). -/
def State.period (s : State) : Period :=
  match s.active with
  | some a => if s.mode.scheduled then a.period else .one
  | none => .one

/-- The miss limit of heads and configured channels (R25, R72); a provisional channel's is 4 (R73). -/
def State.missLimit (s : State) : Nat :=
  match s.active with
  | some a => a.missLimit
  | none => 4

/-- B in force (R107). -/
def State.budget (s : State) : Nat :=
  match s.active with
  | some a => if s.mode.scheduled then a.budget else 1
  | none => 1

/-- Br in force (R107). -/
def State.reduced (s : State) : Nat :=
  match s.active with
  | some a => if s.mode.scheduled then a.reduced else 1
  | none => 1

/-- The active line record of a line, absent where the line has none (R125). -/
def State.lineRecord (s : State) (line : Nat) : Option LineRecord := s.active.bind fun a => lookup LineRecord.line line a.lines

/-- The trigger in force for a line (R125, R129, R143). -/
def State.triggerInForce (s : State) (line : Nat) : Trigger :=
  if s.failsafe then .levelHigh else
  match s.lineRecord line with
  | some r => r.trigger
  | none => .disabled

/-- The debounce in force for a line, in tenths (R127). -/
def State.debounceInForce (s : State) (line : Nat) : Nat :=
  if s.failsafe then Config.defaultDebounce else
  match s.lineRecord line with
  | some r => r.debounce
  | none => Config.defaultDebounce

/-- The effective feeder state: CONSTRAINED while either source says so (R110). -/
def Feeder.effective (f : Feeder) : FeederState :=
  match f.line, f.host with
  | .normal, .normal => .normal
  | .normal, .constrained => .constrained
  | .constrained, _ => .constrained

/-- Whether a line's latch is set (R131). -/
def State.latched (s : State) (line : Nat) : Bool := s.latches.any fun l => l.line == line

/-- Whether any latch is set. -/
def State.anyLatch (s : State) : Bool := !s.latches.isEmpty

end Sys2Proof.Machine
end

