-- ==== Sys2Proof/Machine/Answers.lean ====
section
/-! DEFINITION. The answer of a request's owner, and the reply the Host Link Port makes of it (R190, R191). -/

namespace Sys2Proof.Machine

/-- What an owner answers: the state its event leaves, the status and the fields (R190). -/
structure Answer where
  state : State
  status : Status
  body : ReplyBody

/-- OK, with fields. -/
def Answer.ok (s : State) (b : ReplyBody) : Answer := ⟨s, .ok, b⟩

/-- A refusal that changes nothing. -/
def Answer.refuse (s : State) (status : Status) (b : ReplyBody := .none) : Answer := ⟨s, status, b⟩

/-- BAD_FIELD with the position of the failing field (R208). -/
def Answer.badField (s : State) (position : Nat) : Answer := ⟨s, .badField, .badField position⟩

/-- Begin the reply of a request taken (R191): the request's kind code and tag, the owner's status and fields. -/
def respond (kind tag : Nat) (a : Answer) : State :=
  { a.state with link := { a.state.link with reply := some ⟨kind, tag, a.status, a.body⟩ } }

/-- A request is taken by its owner as one event and its reply begins (R190, R191; log 1). -/
def take (kind tag : Nat) (owner : State → Answer) (s : State) : State := respond kind tag (owner s)

end Sys2Proof.Machine
end

