-- ==== Sys2Proof/Machine/Operands.lean ====
section
/-! DEFINITION. The forms of the operands: the bytes of a loop reply and their class (R9, R18, R20, R209), the contents of a reply,
and the checks of a request's fields (R173, R190). -/

namespace Sys2Proof.Machine

/-! ## Loop replies -/

/-- The kinds of reply a device gives (R209). -/
inductive ReplyKind where
  | head | drive | ack | value | rejected
  deriving DecidableEq, Repr

/-- The reply kind a kind code names (R209). -/
def replyKind (code : Byte) : Option ReplyKind :=
  if code = 0x21 then some .head
  else if code = 0x22 then some .drive
  else if code = 0x23 then some .ack
  else if code = 0x24 then some .value
  else if code = 0x25 then some .rejected
  else none

/-- The full length of a reply, kind code and check byte included (R209; a head reply's fields need 8 bytes, log 10). -/
def ReplyKind.length : ReplyKind → Nat
  | .head => 8
  | .drive => 7
  | .ack => 3
  | .value => 5
  | .rejected => 3

/-- The sum of all bytes modulo 256, which a right check byte makes 0 (R209). -/
def byteSum (bytes : List Byte) : Byte := bytes.foldl (· + ·) 0

/-- What came in a slot: nothing, a reply that did not become complete, a complete reply with a wrong check byte or source, or a
complete and correct reply of some kind with the bytes after its address (R9). -/
inductive Received where
  | silent
  | short
  | damaged
  | complete (kind : ReplyKind) (data : List Byte)
  deriving DecidableEq, Repr

/-- Read the bytes of a slot, polled at an address: the tests of R9 that do not depend on the kind expected, in order. Bytes after
the full length are ignored (log 11). -/
def receive (address : Nat) (bytes : List Byte) : Received :=
  match bytes with
  | [] => .silent
  | code :: rest =>
    match replyKind code with
    | none => .short
    | some kind =>
      if bytes.length < kind.length then .short
      else
        let frame := bytes.take kind.length
        match rest with
        | [] => .short
        | source :: data =>
          if byteSum frame = 0 ∧ source.toNat = address then .complete kind (data.take (kind.length - 3)) else .damaged

/-- The device kind that gives a head reply or a drive reply. -/
def ReplyKind.device : ReplyKind → Option DeviceKind
  | .head => some .head
  | .drive => some .drive
  | .ack => none
  | .value => none
  | .rejected => none

/-- The class of a poll (R9). A kind query accepts a head reply and a drive reply alike. -/
def classifyPoll (expect : Expect) : Received → PollClass
  | .silent => .silent
  | .short => .short
  | .damaged => .corrupt
  | .complete kind _ =>
    match kind.device with
    | none => .corrupt
    | some d =>
      match expect with
      | .any => .valid
      | .only k => if d = k then .valid else .wrongKind

/-- Whether a command exchange is acknowledged (R18). -/
def acknowledged : Received → Bool
  | .complete .ack _ => true
  | _ => false

/-- A service reply: the value, or REJECTED (R20). -/
inductive ServiceReply where
  | value (v : Nat)
  | rejected
  deriving DecidableEq, Repr

/-- The byte at a place of a reply's data, 0 beyond it. -/
def dataByte (data : List Byte) (n : Nat) : Byte := data.getD n 0

/-- A two-byte field, most significant byte first (R209). -/
def dataWord (data : List Byte) (n : Nat) : Nat := (dataByte data n).toNat * 256 + (dataByte data (n + 1)).toNat

/-- A VALID service reply's contents, or absent for a failed exchange, with its class (R20). -/
def classifyService : Received → PollClass × Option ServiceReply
  | .silent => (.silent, none)
  | .short => (.short, none)
  | .damaged => (.corrupt, none)
  | .complete .value data => (.valid, some (.value (dataWord data 0)))
  | .complete .rejected _ => (.valid, some .rejected)
  | .complete .head _ => (.corrupt, none)
  | .complete .drive _ => (.corrupt, none)
  | .complete .ack _ => (.corrupt, none)

/-- The contents of a head reply (R27, R209): gas mask, CO reading, NO2 reading, flags. R209 names bits 0 and 1 of the gas mask and bits 0 to
2 of the flags and does not say what the bits above them do when set: the model's choice is that they are ignored (log 36). -/
def readHead (data : List Byte) : HeadReply where
  mask := ⟨(dataByte data 0).getLsbD 0, (dataByte data 0).getLsbD 1⟩
  co := min (dataWord data 1) 1000
  no2 := min (dataByte data 3).toNat 250
  flags := ⟨(dataByte data 4).getLsbD 0, (dataByte data 4).getLsbD 1, (dataByte data 4).getLsbD 2⟩

/-- The run state a code stands for (R75); a code beyond the list is the free value given. -/
def runStateOf (free : Fin 4) (code : Byte) : RunState :=
  match (if code.toNat < 4 then code.toNat else free.val) with
  | 0 => .stopped
  | 1 => .accelerating
  | 2 => .running
  | _ => .decelerating

/-- The damper position a code stands for (R75); a code beyond the list is the free value given. -/
def damperOf (free : Fin 4) (code : Byte) : DamperReport :=
  match (if code.toNat < 4 then code.toNat else free.val) with
  | 0 => .closed
  | 1 => .moving
  | 2 => .opn
  | _ => .jammed

/-- The contents of a drive reply (R75, R209): run state, speed (at most 100), damper, trip code (0 for absent). `draws` picks the
free values of codes that R75 does not list (log 12). -/
def readDrive (draws : Nat) (data : List Byte) : Report where
  run := runStateOf (Config.freeRunState draws) (dataByte data 0)
  speed := min (dataByte data 1).toNat 100
  damper := damperOf (Config.freeDamper draws) (dataByte data 2)
  trip := if dataByte data 3 = 0 then none else some (dataByte data 3).toNat

/-- Whether a drive reply used a free value. -/
def drawsFree (data : List Byte) : Bool := 4 ≤ (dataByte data 0).toNat || 4 ≤ (dataByte data 2).toNat

/-! ## Fields of requests -/

/-- A number within a range. -/
def within (lo hi n : Nat) : Bool := lo ≤ n && n ≤ hi

/-- A required field: given, and passing its check (R173). -/
def required {α : Type} (check : α → Bool) (o : Option α) : Bool := o.any check

/-- An optional field: left out, or passing its check (R173). -/
def optional {α : Type} (check : α → Bool) (o : Option α) : Bool := o.all check

/-- The position of the first field that fails its check (R172, R190, R208). -/
def firstBad : List (Nat × Bool) → Option Nat
  | [] => none
  | (position, ok) :: l => if ok then firstBad l else some position

/-- A list of `lo` to `hi` numbers up to `most`, without duplicates (R173). -/
def numbers (lo hi most : Nat) (l : List Nat) : Bool := within lo hi l.length && l.all (fun n => n ≤ most) && noDups l

/-- The highest value of a gas's range (R43). -/
def Gas.top : Gas → Nat
  | .co => 1000
  | .no2 => 250

/-- The gas a code stands for (R208). -/
def gasOf (code : Nat) : Option Gas :=
  match code with
  | 0 => some .co
  | 1 => some .no2
  | _ => none

/-- The order every gas's thresholds in force must have (R43). -/
def Limits.ordered (l : Limits) : Bool := l.low1 < l.high1 && l.high1 ≤ l.low2 && l.low2 < l.high2

/-- The feeder state a code stands for (R208). -/
def feederStateOf (code : Nat) : Option FeederState :=
  match code with
  | 0 => some .normal
  | 1 => some .constrained
  | _ => none

/-- The trigger a code stands for (R208). -/
def triggerOf (code : Nat) : Option Trigger :=
  match code with
  | 0 => some .disabled
  | 1 => some .levelHigh
  | 2 => some .levelLow
  | 3 => some .rising
  | 4 => some .falling
  | 5 => some .either
  | _ => none

/-- The device kind a code stands for (R208). -/
def deviceKindOf (code : Nat) : Option DeviceKind :=
  match code with
  | 0 => some .head
  | 1 => some .drive
  | _ => none

/-- The period a code stands for (R208). -/
def periodOf (code : Nat) : Option Period :=
  match code with
  | 0 => some .half
  | 1 => some .one
  | 2 => some .two
  | _ => none

/-- The bit rate the straps give (R185). -/
def bitRateOf (straps : Straps) : BitRate :=
  match straps.rate1, straps.rate0 with
  | .low, .low => .b19200
  | .low, .high => .b38400
  | .high, .low => .b57600
  | .high, .high => .b115200

end Sys2Proof.Machine
end

