-- ==== Sys2Proof/Machine/Fans.lean ====
section
/-! DEFINITION. The Fan Channel Manager (chapter 4) for one channel: target resolution and the state machine of 4.5. Each transition
gives the channel after it, its notices in order, and the changes it reports to the start queue. -/

namespace Sys2Proof.Machine

/-- What a transition of a channel does: the channel after, notices, changes of the start queue. -/
structure Eff where
  ch : Channel
  notices : List NoticeBody
  changes : List QueueChange
  deriving DecidableEq, Repr

/-- A transition that says nothing to other blocks. -/
def Eff.quiet (c : Channel) : Eff := ⟨c, [], []⟩

/-- One transition after another. -/
def Eff.andThen (e : Eff) (f : Channel → Eff) : Eff :=
  let r := f e.ch
  ⟨r.ch, e.notices ++ r.notices, e.changes ++ r.changes⟩

/-- A channel's key. -/
def Channel.number (c : Channel) : Nat := c.record.channel

/-- A channel with the initial values of R74. -/
def Channel.initial (r : FanRecord) (provisional : Bool) : Channel where
  record := r
  provisional := provisional
  state := .sync
  faultCause := none
  cls := .normal
  target := 0
  command := none
  acknowledged := none
  report := none
  misses := 0
  recover := 0
  holding := false
  startAcked := false
  reportedSinceGrant := false
  settle := none
  damper := none
  coast := none
  manual := none
  cyclesSince := 0
  conflict := false
  mismatch := false

/-- The fixed record of a provisional channel (R73). -/
def FanRecord.provisional (channel address : Nat) : FanRecord := ⟨channel, address, 0, 1, 5, 60, 30, 0, 100⟩

/-- The fallback that goes with a class (R77). -/
def ClaimClass.fallback : ClaimClass → Fallback
  | .normal => .hold
  | .extract => .extract
  | .isolate => .stop

/-- The start-queue class of a class (R77, R105). -/
def ClaimClass.queueClass : ClaimClass → QueueClass
  | .normal => .normal
  | .extract => .fire
  | .isolate => .normal

/-- A value brought into `min`..`max`; zero stays 0 (R78). -/
def FanRecord.clip (r : FanRecord) (v : Nat) : Nat := if v = 0 then 0 else Nat.min r.max (Nat.max r.min v)

/-- Set the command image; its fallback is that of the class (R77, R81). -/
def Channel.setImage (setpoint : Nat) (damper : DamperCmd) (c : Channel) : Channel :=
  { c with command := some ⟨setpoint, damper, c.cls.fallback⟩ }

/-- Set only the image's setpoint (an absent image is taken as 0, CLOSE). -/
def Channel.setSetpoint (setpoint : Nat) (c : Channel) : Channel :=
  c.setImage setpoint ((c.command.map Image.damper).getD .close)

/-- Load the settle timer when a start is left before its acknowledgement: once for each holding (R88, R93, R95). -/
def Channel.leaveStart (c : Channel) : Channel :=
  if c.state = .starting ∧ c.holding = true ∧ c.startAcked = false ∧ c.settle = none then
    { c with settle := some (.load c.record.settle) }
  else c

/-- The report that a QUEUED channel leaves the queue (R87, R112). -/
def Channel.leaves (c : Channel) : List QueueChange := if c.state = .queued then [.leave c.number] else []

/-! ## Entries into states -/

/-- Entry to QUEUED (R87). -/
def enterQueued (c : Channel) : Eff :=
  ⟨{ c.setImage 0 .opn with state := .queued, damper := none, coast := none }, [],
   [.join c.number c.cls.queueClass c.record.cost]⟩

/-- The start of the sequence from OFF (R85): QUEUED if the stored report shows the damper OPEN, else OPENING with its timer. -/
def startSequence (c : Channel) : Eff :=
  if (c.report.map Report.damper) = some .opn then enterQueued c
  else .quiet { c.setImage 0 .opn with state := .opening, damper := some (.load c.record.damperTimeout) }

/-- Entry to OFF (R85): setpoint 0, damper CLOSE, FAN_STATE; then the sequence when the target is above 0 and nothing is held. -/
def enterOff (c : Channel) : Eff :=
  let off := { c.setImage 0 .close with state := .off, faultCause := none, damper := none, coast := none }
  Eff.andThen ⟨off, [.fanState c.number .off c.state], c.leaves⟩ fun d =>
    if 0 < d.target ∧ d.holding = false then startSequence d else .quiet d

/-- Entry to STOPPING (R90, R91): setpoint 0, damper OPEN, coast timer loaded. -/
def enterStopping (c : Channel) : Eff :=
  .quiet { c.leaveStart.setImage 0 .opn with state := .stopping, coast := some (.load c.record.coastTimeout) }

/-- Entry to RUNNING, with FAN_STATE (R99). -/
def enterRunning (c : Channel) : Eff :=
  ⟨{ c.setImage c.target .opn with state := .running, damper := none, coast := none }, [.fanState c.number .running c.state], []⟩

/-- Entry to FAULT (R95). -/
def enterFault (cause : FaultCause) (c : Channel) : Eff :=
  let damper := match c.cls with
    | .isolate => .close
    | _ => (c.command.map Image.damper).getD .close
  ⟨{ c.leaveStart.setImage 0 damper with
      state := .fault, faultCause := some cause, target := 0, damper := none, coast := none },
   [.fanFault c.number cause c.state], c.leaves⟩

/-- Entry to LOST (R93). A channel that leaves FAULT is resolved again, so its target is what its claims want (R79; log 32). -/
def enterLost (want : Nat) (c : Channel) : Eff :=
  let image := c.command.getD ⟨0, .close, c.cls.fallback⟩
  ⟨{ c.leaveStart with
      state := .lost, faultCause := none, recover := 0, damper := none, coast := none, command := some image,
      target := if c.state = .fault then want else c.target },
   [.fanState c.number .lost c.state], c.leaves⟩

/-! ## Resolution (R77 to R80) -/

/-- The new target under the rule of the channel's state (R85 to R95): the class and the image's fallback are set already. -/
def applyTarget (c : Channel) : Eff :=
  match c.state with
  | .sync => .quiet c
  | .off => if 0 < c.target ∧ c.holding = false then startSequence c else .quiet c
  | .opening => if c.target = 0 then enterOff c else .quiet c
  | .queued => if c.target = 0 then enterOff c else .quiet c
  | .starting => if c.target = 0 then enterStopping c else .quiet (c.setImage c.target .opn)
  | .running => if c.target = 0 then enterStopping c else .quiet (c.setImage c.target .opn)
  | .stopping =>
    if c.target = 0 then .quiet c
    else if c.holding then .quiet { c.setImage c.target .opn with state := .starting, coast := none }
    else enterQueued c
  | .fault => .quiet (if c.cls = .isolate then c.setImage 0 .close else c)
  | .lost =>
    let setpoint := (c.command.map Image.setpoint).getD 0
    if c.cls = .isolate then .quiet (c.setImage 0 .close)
    else if c.target = 0 then .quiet (c.setSetpoint 0)
    else if 0 < setpoint then .quiet (c.setSetpoint c.target)
    else .quiet c

/-- FIRE_CONFLICT of a channel at the onset of a conflict, unless the resolution is that of a RESTART (R80). -/
def conflictNotice (silent : Bool) (d : Demand) (c : Channel) : List NoticeBody :=
  match d.conflict with
  | some zone => if c.conflict || silent then [] else [.channelConflict c.number zone]
  | none => []

/-- The move of a channel that stays QUEUED and changes between fire and normal class (R79, R113). -/
def queueMove (before after : Channel) : List QueueChange :=
  if before.state = .queued ∧ after.state = .queued ∧ before.cls.queueClass ≠ after.cls.queueClass then
    [.move after.number after.cls.queueClass]
  else []

/-- Resolve a channel (R78 to R80). A resolution that leaves class and target as they were changes nothing but `conflict`. -/
def resolve (silent : Bool) (d : Demand) (c : Channel) : Eff :=
  let noted := { c with conflict := d.conflict.isSome }
  let target := if c.state = .fault then 0 else d.want
  if c.cls = d.cls ∧ c.target = target then ⟨noted, conflictNotice silent d c, []⟩
  else
    let set := { noted with
      cls := d.cls, target := target, command := c.command.map fun i => { i with fallback := d.cls.fallback } }
    let e := applyTarget set
    ⟨e.ch, conflictNotice silent d c ++ e.notices, e.changes ++ queueMove c e.ch⟩

/-! ## Reports and polls -/

/-- Adopt the drive's condition, from SYNC or from LOST (R84, R94). -/
def adopt (r : Report) (c : Channel) : Eff :=
  if r.trip.isSome then enterFault .trip c
  else if (r.run = .running ∨ r.run = .accelerating) ∧ r.damper = .opn then
    (enterRunning c).andThen fun d => if d.target = 0 then enterStopping d else .quiet d
  else enterOff c

/-- A VALID report (R75), under the rule of the channel's state (R84 to R95). The model's choice for a report that two rules could take:
the trip is taken, straight from the state before the report, ahead of a jammed damper, of STOPPED in STOPPING (R91) and of an OPEN
damper in OPENING (R86) (log 15). -/
def takeReport (r : Report) (c : Channel) : Eff :=
  let d := { c with report := some r, misses := 0, mismatch := false, reportedSinceGrant := true }
  match c.state with
  | .sync => adopt r d
  | .off => if r.trip.isSome then enterFault .trip d else .quiet d
  | .opening =>
    if r.trip.isSome then enterFault .trip d
    else if r.damper = .opn then enterQueued d
    else if r.damper = .jammed then enterFault .damper d
    else .quiet d
  | .queued =>
    if r.trip.isSome then enterFault .trip d else if r.damper = .jammed then enterFault .damper d else .quiet d
  | .starting => if r.trip.isSome then enterFault .trip d else .quiet d
  | .running =>
    if r.trip.isSome then enterFault .trip d
    else if r.run = .stopped ∧ 0 < d.target then enterFault .stall d
    else .quiet d
  | .stopping =>
    if r.trip.isSome then enterFault .trip d else if r.run = .stopped then enterOff d else .quiet d
  | .fault => .quiet d
  | .lost => if c.recover = 0 then .quiet { d with recover := 1 } else adopt r { d with recover := 0 }

/-- The miss counting of a failed poll or an unacknowledged command (R76, R93). -/
def missPoll (limit want : Nat) (c : Channel) : Eff :=
  let misses := min (c.misses + 1) 255
  if c.state = .lost then .quiet { c with misses := misses, recover := 0 }
  else if limit ≤ misses then enterLost want { c with misses := misses }
  else .quiet { c with misses := misses }

/-- The KIND_MISMATCH of a WRONG_KIND poll (R76). -/
def mismatchPoll (cls : PollClass) (c : Channel) : Eff :=
  if cls = .wrongKind ∧ c.mismatch = false then
    ⟨{ c with mismatch := true }, [.kindMismatch c.record.address .drive .head], []⟩
  else .quiet c

/-- A failed poll of a channel, of the class given (R76). -/
def failPoll (limit want : Nat) (cls : PollClass) (c : Channel) : Eff := (missPoll limit want c).andThen (mismatchPoll cls)

/-- An acknowledged command (R83, R88). -/
def ackCommand (carried : Image) (c : Channel) : Channel :=
  let d := { c with acknowledged := some carried, cyclesSince := 0, misses := 0 }
  if c.state = .starting ∧ c.startAcked = false ∧ 0 < carried.setpoint then
    { d with startAcked := true, settle := if d.settle = none then some (.load d.record.settle) else d.settle }
  else d

/-! ## Grant and expiries -/

/-- A grant (R88). -/
def grantStart (c : Channel) : Channel :=
  { c.setImage c.target .opn with
    state := .starting, holding := true, startAcked := false, reportedSinceGrant := false }

/-- What settle expiry does to the channel before it acts on the state (R89). -/
def endHolding (c : Channel) : Channel := { c with holding := false, startAcked := false, settle := none }

/-- What settle expiry does by the channel's state, its units returned (R89). -/
def afterSettle (c : Channel) : Eff :=
  match c.state with
  | .starting =>
    match c.report.map Report.run with
    | some .running => if c.reportedSinceGrant then enterRunning c else enterFault .noStart c
    | some .accelerating => if c.reportedSinceGrant then enterRunning c else enterFault .noStart c
    | _ => enterFault .noStart c
  | .off => if 0 < c.target then startSequence c else .quiet c
  | _ => .quiet c

/-- Damper timer expiry (R86). -/
def damperExpired (c : Channel) : Eff :=
  match c.state with
  | .opening => enterFault .damper c
  | _ => .quiet c

/-- Coast timer expiry (R91). -/
def coastExpired (c : Channel) : Eff :=
  match c.state with
  | .stopping => enterOff c
  | _ => .quiet c

/-- CLEAR_FAULT on a FAULT channel (R96): OFF, resolved to what its claims want. -/
def clearedFault (d : Demand) (c : Channel) : Eff :=
  enterOff { c with target := d.want, cls := d.cls }

/-! ## Candidates (R82) -/

/-- The class of the candidate a channel offers, absent when it offers none (R82). -/
def Channel.candidate (c : Channel) : Option CandidateClass :=
  match c.state, c.command with
  | .sync, _ => none
  | _, none => none
  | _, some i =>
    let fire := decide (c.cls ≠ .normal)
    match c.acknowledged with
    | none => some (if fire then .fire else if i.setpoint = 0 then .stop else .speed)
    | some a =>
      if i = a then (if 3 ≤ c.cyclesSince then some .refresh else none)
      else if fire then some .fire
      else if (i.setpoint = 0 ∧ 0 < a.setpoint) ∨ (i.damper = .close ∧ a.damper = .opn) then some .stop
      else if (i.damper = .opn ∧ a.damper = .close) ∨ (0 < i.setpoint ∧ a.setpoint = 0) then some .start
      else some .speed

end Sys2Proof.Machine
end

