-- ==== Sys2Proof/Machine/Heads.lean ====
section
/-! DEFINITION. The Head Monitor (chapter 2): what a classified poll does to a head record. -/

namespace Sys2Proof.Machine

/-- A head's key. -/
def Head.number (h : Head) : Nat := h.record.head

/-- A head with the initial values of R26. -/
def Head.initial (r : HeadRecord) : Head where
  record := r
  state := .unseen
  coWindow := []
  no2Window := []
  misses := 0
  recover := 0
  flags := ⟨false, false, false⟩
  mismatch := false
  lastClass := none
  lastValidCycle := none

/-- The mean of a window, rounded down; absent for an empty one (R36). -/
def average (w : List Nat) : Option Nat := if w.isEmpty then none else some (w.sum / w.length)

/-- Append a sample, keeping the newest 4 (R36). -/
def appendSample (n : Nat) (w : List Nat) : List Nat := (w ++ [n]).drop (w.length + 1 - 4)

/-- The average a head offers for a gas: only a LIVE head offers one (R37). -/
def Head.offers (g : Gas) (h : Head) : Option Nat :=
  match h.state, g with
  | .live, .co => average h.coWindow
  | .live, .no2 => average h.no2Window
  | _, _ => none

/-- The state a VALID reply's flags select (R28). -/
def HeadFlags.selects (f : HeadFlags) : HeadState := if f.warming then .warming else if f.cellFault then .faulty else .live

/-- The state after a VALID reply: the selected one at once, but from LOST only at the second VALID reply in a row (R28, R33). -/
def Head.stateAfter (r : HeadReply) (h : Head) : HeadState :=
  match h.state with
  | .lost => if h.recover = 0 then .lost else r.flags.selects
  | _ => r.flags.selects

/-- A gas's window after a VALID reply (R27, R30): emptied outside LIVE, else the reading appended when the reply has one. -/
def windowAfter (before after : HeadState) (has : Bool) (reading : Nat) (w : List Nat) : List Nat :=
  match after with
  | .live =>
    let kept := if before = .live then w else []
    if has then appendSample reading kept else kept
  | _ => []

/-- HEAD_STATE on a change of state, but not from UNSEEN to LIVE or WARMING (R31, R38). -/
def headStateNotice (h : Head) (new : HeadState) : List NoticeBody :=
  if new = h.state then []
  else match h.state, new with
    | .unseen, .live => []
    | .unseen, .warming => []
    | _, _ => [.headState h.number new h.state]

/-- HEAD_CAL_DUE when CAL_DUE rises (R35). -/
def calDueNotice (h : Head) (r : HeadReply) (new : HeadState) : List NoticeBody :=
  if r.flags.calDue && !h.flags.calDue then [.headCalDue h.number new h.record.address] else []

/-- A VALID reply of a head (R27 to R36), in the cycle given; the notices in order (log 14). -/
def Head.valid (cycle : CycleNumber) (r : HeadReply) (h : Head) : Head × List NoticeBody :=
  let new := h.stateAfter r
  ({ h with
      state := new
      coWindow := windowAfter h.state new (r.mask.co && h.record.gases.co) r.co h.coWindow
      no2Window := windowAfter h.state new (r.mask.no2 && h.record.gases.no2) r.no2 h.no2Window
      misses := 0
      recover := if h.state = .lost ∧ h.recover = 0 then 1 else 0
      flags := r.flags
      mismatch := false
      lastClass := some .valid
      lastValidCycle := some cycle },
   calDueNotice h r new ++ headStateNotice h new)

/-- The miss counting of a failed poll (R31 to R33). -/
def Head.miss (limit : Nat) (h : Head) : Head × List NoticeBody :=
  match h.state with
  | .unseen => (h, [])
  | .lost => ({ h with misses := min (h.misses + 1) 255, recover := 0 }, [])
  | _ =>
    let misses := min (h.misses + 1) 255
    if limit ≤ misses then
      ({ h with misses := misses, state := .lost, recover := 0, coWindow := [], no2Window := [] },
       [.headState h.number .lost h.state])
    else ({ h with misses := misses }, [])

/-- The KIND_MISMATCH of a WRONG_KIND poll (R34). -/
def Head.mismatched (cls : PollClass) (h : Head) : Head × List NoticeBody :=
  if cls = .wrongKind ∧ h.mismatch = false then ({ h with mismatch := true }, [.kindMismatch h.record.address .head .drive])
  else (h, [])

/-- A failed poll of a head, of the class given (R31 to R34). -/
def Head.failed (limit : Nat) (cls : PollClass) (h : Head) : Head × List NoticeBody :=
  let (h1, n1) := h.miss limit
  let (h2, n2) := h1.mismatched cls
  ({ h2 with lastClass := some cls }, n1 ++ n2)

/-- A classified poll reaches the head at an address, if one is configured there (R10). -/
def deliverHead (address : Nat) (f : Head → Head × List NoticeBody) (s : State) : State :=
  match s.heads.find? fun h => h.record.address == address with
  | none => s
  | some h => raiseAll (f h).2 { s with heads := modify Head.number h.number (fun _ => (f h).1) s.heads }

end Sys2Proof.Machine
end

