-- ==== Sys2Proof/Machine/Zones.lean ====
section
/-! DEFINITION. The Zone Engine (chapter 3) for one zone: levels, decision, claims, fire changes. -/

namespace Sys2Proof.Machine

/-- A zone's key. -/
def Zone.number (z : Zone) : Nat := z.record.zone

/-- The fire states (R45). -/
def ZoneState.isFire : ZoneState → Bool
  | .fireExtract => true
  | .fireIsolate => true
  | _ => false

/-- A configured zone with the initial values of R45. -/
def Zone.initial (r : ZoneRecord) : Zone where
  record := r
  state := .quiet
  coLevel := none
  no2Level := none
  liveCount := 0
  hold := none
  boost := none
  grace := .load Config.graceSeconds
  governing := none
  claim := r.idle
  claimClass := .normal
  conflict := []

/-! ## Claims (R59, R60) -/

/-- The table's claim of a NORMAL state (R59). -/
def ZoneRecord.claimOf (r : ZoneRecord) : ZoneState → Nat
  | .quiet => r.idle
  | .purge1 => r.stage1
  | .purge2 => r.stage2
  | .runOn => r.stage1
  | .blind => r.blind
  | .fireExtract => 0
  | .fireIsolate => 0

/-- Recompute the claim: in the NORMAL states the larger of the table's claim and the boost; a fire claim stays as it is (R60). -/
def Zone.reclaim (z : Zone) : Zone :=
  if z.state.isFire then z
  else { z with claim := max (z.record.claimOf z.state) ((z.boost.map Boost.speed).getD 0), claimClass := .normal }

/-- Bring a zone to a NORMAL state: the hold is loaded on entry to RUN_ON and absent elsewhere (R56), the fire fields are absent,
the claim follows. -/
def Zone.enter (new : ZoneState) (z : Zone) : Zone :=
  Zone.reclaim { z with
    state := new
    hold := if new = .runOn then some (.load z.record.hold) else none
    governing := none
    conflict := [] }

/-- Bring a zone to the fire state a line's plan assigns (R59, R62): boost, grace, levels and live count are kept. -/
def Zone.enterFire (line : Nat) (a : Assignment) (z : Zone) : Zone :=
  match a with
  | .extract speed =>
    { z with state := .fireExtract, governing := some line, hold := none, claim := speed, claimClass := .extract, conflict := [] }
  | .isolate =>
    { z with state := .fireIsolate, governing := some line, hold := none, claim := 0, claimClass := .isolate, conflict := [] }

/-! ## Levels (R46) -/

/-- Refresh a zone's live count and levels from the heads as they stand (R46). -/
def Zone.refresh (heads : List Head) (z : Zone) : Zone :=
  let own := heads.filter fun h => z.record.heads.contains h.number
  { z with
    liveCount := (own.filter fun h => h.state = .live).length
    coLevel := largest? (own.filterMap (Head.offers .co))
    no2Level := largest? (own.filterMap (Head.offers .no2)) }

/-- The levels present, each with its gas's thresholds (R48). -/
def Zone.present (z : Zone) : List (Nat × Limits) :=
  (z.coLevel.toList.map fun v => (v, z.record.co)) ++ z.no2Level.toList.map fun v => (v, z.record.no2)

/-- Some level present is at or above its gas's `high2`. -/
def Zone.risingTwo (z : Zone) : Bool := z.present.any fun p => p.2.high2 ≤ p.1
/-- Some level present is at or above its gas's `high1`. -/
def Zone.risingOne (z : Zone) : Bool := z.present.any fun p => p.2.high1 ≤ p.1
/-- Every level present is below its gas's `low1`. -/
def Zone.belowOne (z : Zone) : Bool := z.present.all fun p => p.1 < p.2.low1
/-- Every level present is below its gas's `low2`. -/
def Zone.belowTwo (z : Zone) : Bool := z.present.all fun p => p.1 < p.2.low2

/-- The grace has expired (R57). -/
def Zone.graceOver (z : Zone) : Bool := z.grace.remaining == 0

/-! ## Decision (R48 to R54) -/

/-- The state a zone moves to on its levels, absent when it stays (R50 to R54). -/
def Zone.moveOnLevels (z : Zone) : Option ZoneState :=
  match z.state with
  | .quiet => if z.risingTwo then some .purge2 else if z.risingOne then some .purge1 else none
  | .purge1 => if z.risingTwo then some .purge2 else if z.belowOne then some .runOn else none
  | .purge2 => if z.belowOne then some .runOn else if z.belowTwo then some .purge1 else none
  | .runOn => if z.risingTwo then some .purge2 else if z.risingOne then some .purge1 else none
  | .blind => if z.risingTwo then some .purge2 else if z.risingOne then some .purge1 else some .runOn
  | .fireExtract => none
  | .fireIsolate => none

/-- The state a zone moves to at an evaluation, absent when it stays (R47 to R49). -/
def Zone.move (z : Zone) : Option ZoneState :=
  if z.state.isFire then none
  else if z.liveCount = 0 then
    if z.graceOver && decide (z.state ≠ .blind) then some .blind else none
  else if z.present.isEmpty then none
  else z.moveOnLevels

/-- The decision of an evaluation (R48 to R54). -/
def Zone.decided (z : Zone) : Zone :=
  match z.move with
  | some new => z.enter new
  | none => z

/-- The ZONE_STATE notice of a zone that has moved (R67). -/
def Zone.notice (z : Zone) : NoticeBody := .zoneState z.number z.state z.coLevel z.no2Level

/-- Whether the claim's value or class differs (R61). -/
def Zone.claimDiffers (before after : Zone) : Bool :=
  !(before.claim == after.claim) || decide (before.claimClass ≠ after.claimClass)

/-- The zones of an event whose claims have changed (R61): the two tables in step. -/
def claimsChanged (before after : List Zone) : List Nat :=
  ((before.zip after).filter fun p => p.1.claimDiffers p.2).map fun p => p.2.number

/-- ZONE_STATE for each zone of an event whose state has changed, in ascending order (R67). -/
def stateNotices (before after : List Zone) : List NoticeBody :=
  ((before.zip after).filter fun p => decide (p.1.state ≠ p.2.state)).map fun p => p.2.notice

/-! ## Fire plans (6.5) -/

/-- What a line's plan assigns a zone, absent when it does not name it (6.5). -/
def LineRecord.assigns (r : LineRecord) (zone : Nat) : Option Assignment :=
  if r.extract.getLsbD zone then some (.extract r.speed)
  else if r.isolate.getLsbD zone then some .isolate
  else none

/-- What the plan of a line assigns a zone, read from the records in force. -/
def assignment (records : List LineRecord) (line zone : Nat) : Option Assignment :=
  (lookup LineRecord.line line records).bind fun r => r.assigns zone

/-- What a newly latched line does to a zone (R133, R134): the zone after, and the zone's FIRE_CONFLICT. -/
def Zone.latch (records : List LineRecord) (line : Nat) (z : Zone) : Zone × List NoticeBody :=
  match assignment records line z.number with
  | none => (z, [])
  | some a =>
    if z.state.isFire then
      match z.governing with
      | none => (z, [])
      | some g =>
        if assignment records g z.number = some a then (z, [])
        else ({ z with conflict := z.conflict ++ [line] }, [.zoneConflict z.number line])
    else (z.enterFire line a, [])

/-- The conflict set R134 defines for a zone governed by `g` under a latch list. -/
def conflictSet (records : List LineRecord) (latched : List Nat) (g zone : Nat) : List Nat :=
  latched.filter fun l =>
    decide (l ≠ g) && (assignment records l zone).isSome && decide (assignment records l zone ≠ assignment records g zone)

/-- The earliest latched line whose plan names a zone, with its assignment (R133, R139). -/
def governor (records : List LineRecord) (latched : List Nat) (zone : Nat) : Option (Nat × Assignment) :=
  latched.findSome? fun l => (assignment records l zone).map fun a => (l, a)

/-- What the clearing of lines does to a zone (R139, R140), with the lines still latched in list order: the zone after, and the
FIRE_CONFLICTs of the lines that join its set. -/
def Zone.release (records : List LineRecord) (cleared latched : List Nat) (z : Zone) : Zone × List NoticeBody :=
  match z.governing with
  | none => (z, [])
  | some g =>
    if cleared.contains g then
      match governor records latched z.number with
      | some (g', a) =>
        let set := conflictSet records latched g' z.number
        ({ z.enterFire g' a with conflict := set },
         (set.filter fun l => !z.conflict.contains l).map fun l => .zoneConflict z.number l)
      | none => (z.enter (if z.liveCount = 0 ∧ z.graceOver = true then .blind else .runOn), [])
    else ({ z with conflict := z.conflict.filter fun l => !cleared.contains l }, [])

/-- A zone at RESTART with KEEP in RUN or MANUAL (R70, R149): initial values, or the fire state of its earliest latched line, with
its conflict set rebuilt. -/
def Zone.restarted (records : List LineRecord) (latched : List Nat) (z : Zone) : Zone :=
  match governor records latched z.number with
  | some (g, a) => { (Zone.initial z.record).enterFire g a with conflict := conflictSet records latched g z.number }
  | none => Zone.initial z.record

end Sys2Proof.Machine
end

