-- ==== Sys2Proof/Machine/Arbiter.lean ====
section
/-! DEFINITION. The Start Arbiter (chapter 5), the events of the Fan Channel Manager over all channels, and the hand-over of claims
(R61, R79). -/

namespace Sys2Proof.Machine

/-! ## The queue (R105, R111 to R114, R119) -/

/-- Count the spell at the head anew for a new head, and end it for every other entry (R119). -/
def fixHead : List QueueEntry → List QueueEntry
  | [] => []
  | e :: q =>
    { e with headTime := some (e.headTime.getD 0) } :: q.map fun f => { f with headTime := none, stalled := false }

/-- Whether an entry is of the FIRE class. -/
def QueueEntry.isFire (e : QueueEntry) : Bool := decide (e.cls = .fire)

/-- Place an entry at the end of its class (R111, R113). -/
def placeEntry (e : QueueEntry) (q : List QueueEntry) : List QueueEntry :=
  match e.cls with
  | .fire => q.takeWhile QueueEntry.isFire ++ e :: q.dropWhile QueueEntry.isFire
  | .normal => q ++ [e]

/-- Remove a channel's entry (R112). -/
def removeEntry (channel : Nat) (q : List QueueEntry) : List QueueEntry := q.filter fun e => e.channel != channel

/-- Apply one change to the queue (R111 to R113). A leave or move of a channel without an entry changes nothing. -/
def applyChange (q : List QueueEntry) : QueueChange → List QueueEntry
  | .leave channel => fixHead (removeEntry channel q)
  | .join channel cls cost => fixHead (placeEntry ⟨channel, cls, cost, 0, none, false⟩ q)
  | .move channel cls =>
    match lookup QueueEntry.channel channel q with
    | none => q
    | some e => fixHead (placeEntry { e with cls := cls } (removeEntry channel q))

/-- The rank of a change within one event: leaves, then moves, then joins (R114). -/
def QueueChange.isLeave : QueueChange → Bool
  | .leave _ => true
  | _ => false
def QueueChange.isMove : QueueChange → Bool
  | .move _ _ => true
  | _ => false
def QueueChange.isJoin : QueueChange → Bool
  | .join _ _ _ => true
  | _ => false

/-- The changes of one event in the order of R114; within a rank the channels come in ascending order, as the table has them. -/
def ordered (cs : List QueueChange) : List QueueChange :=
  cs.filter QueueChange.isLeave ++ cs.filter QueueChange.isMove ++ cs.filter QueueChange.isJoin

/-- Whether the changes of an event call for a look: a join, a move, or a leave of the head (R115). -/
def callsLook (q : List QueueEntry) (cs : List QueueChange) : Bool :=
  cs.any QueueChange.isJoin || cs.any QueueChange.isMove ||
    match q with
    | [] => false
    | e :: _ => cs.contains (.leave e.channel)

/-! ## Looks and grants (R115 to R117) -/

/-- The limit that applies to an entry (R116). -/
def State.limit (s : State) (e : QueueEntry) : Nat :=
  match e.cls, s.feeder.effective with
  | .fire, _ => s.budget
  | .normal, .normal => s.budget
  | .normal, .constrained => s.reduced

/-- The grant test, with the lone start (R116). -/
def State.grantable (s : State) (e : QueueEntry) : Bool := s.held == 0 || s.held + e.cost ≤ s.limit e

/-- Grant the head (R116): it leaves the queue, its cost is held, its channel starts. -/
def grant (e : QueueEntry) (rest : List QueueEntry) (s : State) : State :=
  { s with
    queue := fixHead rest
    held := s.held + e.cost
    channels := modify Channel.number e.channel grantStart s.channels }

/-- Grant heads one after another until one is not granted (R115); `fuel` is the number of entries. -/
def lookFrom : Nat → State → State
  | 0, s => s
  | fuel + 1, s =>
    match s.queue with
    | [] => s
    | e :: rest => if s.grantable e then lookFrom fuel (grant e rest s) else s

/-- A look at the queue (R115). -/
def look (s : State) : State := lookFrom s.queue.length s

/-- Units are returned, and the queue is looked at (R118). -/
def returnUnits (cost : Nat) (s : State) : State := look { s with held := s.held - cost }

/-- Apply the changes of one event, then look once if they call for it (R114, R115). -/
def applyChanges (cs : List QueueChange) (s : State) : State :=
  let t := { s with queue := (ordered cs).foldl applyChange s.queue }
  if callsLook s.queue cs then look t else t

/-! ## Events of the Fan Channel Manager -/

/-- One event over the channels: their notices are raised, then the start queue takes their changes together. The model's choice of
order (log 14): channels ascending, each channel's FIRE_CONFLICT just before its own FAN_STATE. -/
def fanEvent (f : Channel → Eff) (s : State) : State :=
  let effs := s.channels.map f
  applyChanges (effs.flatMap Eff.changes) <|
    raiseAll (effs.flatMap Eff.notices) { s with channels := effs.map Eff.ch }

/-- One event of one channel. -/
def fanEventAt (n : Nat) (f : Channel → Eff) (s : State) : State :=
  fanEvent (fun c => if c.number = n then f c else .quiet c) s

/-! ## Demands (R77, R78, R145) -/

/-- Whether a zone binds a channel (R73). -/
def Zone.binds (channel : Nat) (z : Zone) : Bool := z.record.fans.contains channel

/-- The latest claims handed over for a channel's bound zones, in ascending zone order (R73, R78). -/
def State.boundClaims (s : State) (channel : Nat) : List HandedClaim :=
  s.handed.filter fun h => s.zones.any fun z => z.number == h.zone && z.binds channel

/-- The speeds of the claims of one class. -/
def speedsOf (cls : ClaimClass) (claims : List HandedClaim) : List Nat :=
  (claims.filter fun h => decide (h.cls = cls)).map HandedClaim.speed

/-- The class the bound zones' claims give (R77). -/
def classOf (claims : List HandedClaim) : ClaimClass :=
  if claims.any fun h => decide (h.cls = .extract) then .extract
  else if claims.any fun h => decide (h.cls = .isolate) then .isolate
  else .normal

/-- The target outside FAULT (R78, steps 2 to 5). -/
def wantOf (mode : Mode) (c : Channel) (claims : List HandedClaim) : Nat :=
  match classOf claims with
  | .extract => Nat.max c.record.min (largest (speedsOf .extract claims))
  | .isolate => 0
  | .normal =>
    match mode with
    | .manual => c.record.clip (c.manual.getD 0)
    | _ => c.record.clip (largest (speedsOf .normal claims))

/-- The lowest isolating zone of a channel in conflict (R80). -/
def conflictOf (claims : List HandedClaim) : Option Nat :=
  if claims.any fun h => decide (h.cls = .extract) then
    ((claims.filter fun h => decide (h.cls = .isolate)).map HandedClaim.zone).min?
  else none

/-- What a channel's resolution reads: the bound zones' claims, or under the failsafe the values of R145. -/
def State.demand (s : State) (c : Channel) : Demand :=
  if s.failsafe then (if s.anyLatch then ⟨.extract, 100, none⟩ else ⟨.normal, 0, none⟩)
  else
    let claims := s.boundClaims c.number
    ⟨classOf claims, wantOf s.mode c claims, conflictOf claims⟩

/-- Resolve the channels chosen, in one event (R79). -/
def resolveChannels (silent : Bool) (choose : Channel → Bool) (s : State) : State :=
  fanEvent (fun c => if choose c then resolve silent (s.demand c) c else .quiet c) s

/-! ## Hand-over of claims (R61) -/

/-- The claim of a zone as it is handed over. -/
def Zone.handedClaim (z : Zone) : HandedClaim := ⟨z.number, z.claim, z.claimClass⟩

/-- Hand over the claims of the zones numbered, together, and resolve the channels bound to them (R61, R79). -/
def handOver (silent : Bool) (changed : List Nat) (s : State) : State :=
  let given := s.zones.filter fun z => changed.contains z.number
  resolveChannels silent (fun c => given.any (Zone.binds c.number))
    { s with handed := given.foldl (fun l z => upsert HandedClaim.zone z.handedClaim l) s.handed }

/-- Put a new zone table in place, with the claims it changes handed over together and then ZONE_STATE for the zones whose state
changed (R47, R61, R67, R133, R141). -/
def commitZones (zones : List Zone) (s : State) : State :=
  raiseAll (stateNotices s.zones zones) (handOver false (claimsChanged s.zones zones) { s with zones := zones })

/-- Apply `f` to one zone and commit the result. -/
def changeZone (n : Nat) (f : Zone → Zone) (s : State) : State := commitZones (modify Zone.number n f s.zones) s

/-- The evaluation at a cycle completion (R47). -/
def evaluate (s : State) : State := commitZones (s.zones.map fun z => (z.refresh s.heads).decided) s

/-! ## Feeder (R108 to R110) -/

/-- Set the feeder's sources; a change of the effective state raises FEEDER_STATE, unless silent, and causes a look (R110). -/
def setFeeder (silent : Bool) (f : Feeder) (s : State) : State :=
  let t := { s with feeder := f }
  if f.effective = s.feeder.effective then t
  else if silent then look t
  else look (raise (.feederState f.effective f.line f.host) t)

end Sys2Proof.Machine
end

