-- ==== Sys2Proof/Machine/Service.lean ====
section
/-! DEFINITION. The Service Channel (chapter 7). -/

namespace Sys2Proof.Machine

/-- Whether an operation writes (R154). -/
def Operation.writes : Operation → Bool
  | .itemRead => false
  | .itemWrite => true
  | .groupRead => false
  | .groupWrite => true

/-- Whether an operation names a group (R154). -/
def Operation.isGroup : Operation → Bool
  | .itemRead => false
  | .itemWrite => false
  | .groupRead => true
  | .groupWrite => true

/-- The configured members of a group, in ascending channel order (R102, R155). -/
def State.groupMembers (s : State) (group : Nat) : List Channel :=
  s.channels.filter fun c => !c.provisional && c.record.groups.getLsbD group

/-- The members of a new operation (R155). -/
def State.membersOf (s : State) (key : ServiceKey) : List Member :=
  if key.op.isGroup then (s.groupMembers key.target).map fun c => ⟨c.record.address, some c.number⟩
  else [⟨key.target, none⟩]

/-- Whether an address may be accessed: discovered in BLANK and LOADING, configured in RUN and MANUAL (R156, tests 5 and 6). -/
def State.reachable (s : State) (address : Nat) : Bool :=
  if s.failsafe then hasKey Discovered.address address s.loop.discovered
  else s.heads.any (fun h => h.record.address == address)
    || s.channels.any fun c => !c.provisional && c.record.address == address

/-- The slot's key, absent in IDLE (R153). -/
def ServiceSlot.key : ServiceSlot → Option ServiceKey
  | .idle => none
  | .working k _ _ _ _ => some k
  | .ready k _ _ _ => some k

/-- The slot as BUSY and SERVICE_CANCEL report it (R157, R164). -/
def ServiceSlot.view : ServiceSlot → Option SlotView
  | .idle => none
  | .working k ms _ _ result => some ⟨false, k.op, k.target, result.length, ms.length⟩
  | .ready k ms result _ => some ⟨true, k.op, k.target, result.length, ms.length⟩

/-- The entries of a collected result: a group's with its channel numbers (R162). -/
def collected (ms : List Member) (result : List ResultEntry) : List (Option Nat × ResultEntry) :=
  (ms.zip result).map fun p => (p.1.channel, p.2)

/-- A repeat of the slot's key, or a different key that has passed the tests, answered by the slot's state (R157, R158, R162). -/
def slotAnswer (key : ServiceKey) (s : State) : Answer :=
  match s.slot with
  | .idle =>
    let ms := s.membersOf key
    ⟨{ s with slot := .working key ms 0 false [] }, .deferred, .progress 0 ms.length⟩
  | .working k ms _ _ result =>
    if k = key then ⟨s, .deferred, .progress result.length ms.length⟩
    else .refuse s .busy (.slot ⟨false, k.op, k.target, result.length, ms.length⟩)
  | .ready k ms result _ =>
    if k = key then .ok { s with slot := .idle } (.result k (collected ms result))
    else .refuse s .busy (.slot ⟨true, k.op, k.target, result.length, ms.length⟩)

/-- The range of a key's target: an address 1-63 or a group 0-7 (R156, test 1). -/
def ServiceKey.targetOk (key : ServiceKey) : Bool := if key.op.isGroup then within 0 7 key.target else within 1 63 key.target

/-- Take a service request through the tests of R156, in order. -/
def serviceRequest (key : ServiceKey) (s : State) : Answer :=
  if key.targetOk = false then .badField s 1
  else if key.op.writes = true ∧ key.item ≤ 7 then .badField s 2
  else if s.slot.key = some key then slotAnswer key s
  else if key.op.isGroup = true ∧ s.failsafe = true then .refuse s .wrongMode
  else if key.op.isGroup = false ∧ s.reachable key.target = false then .refuse s .notFound
  else if key.op.isGroup = true ∧ s.groupMembers key.target = [] then .refuse s .notFound
  else if key.op.writes = true ∧ s.anyLatch = true then .refuse s .refusedFire
  else slotAnswer key s

/-- SERVICE_CANCEL (R164). -/
def serviceCancel (s : State) : Answer := .ok { s with slot := .idle } (.cancelled s.slot.view)

/-! ## Working (R159 to R161) -/

/-- The attempt the Service Channel hands over at the start of a service exchange (R159). -/
def ServiceSlot.attempt : ServiceSlot → Option Attempt
  | .working k ms _ false result => (ms[result.length]?).map fun m => ⟨m.address, k.item, k.value⟩
  | _ => none

/-- The slot once its attempt has been handed over (R159). -/
def ServiceSlot.handedOver : ServiceSlot → ServiceSlot
  | .working k ms attempts _ result => .working k ms attempts true result
  | other => other

/-- The members of a result whose outcome is not OK (R161). -/
def notOk (result : List ResultEntry) : Nat := (result.filter fun e => decide (e.outcome ≠ .ok)).length

/-- The current member is done with an entry; the last one completes the operation (R160, R161). -/
def memberDone (k : ServiceKey) (ms : List Member) (result : List ResultEntry) (s : State) : State :=
  if ms.length ≤ result.length then
    raise (.remoteReady k.target k.op (notOk result)) { s with slot := .ready k ms result (.load Config.collectionSeconds) }
  else { s with slot := .working k ms 0 false result }

/-- The delivery of a service exchange (R160): one that does not belong to the slot's operation is discarded. -/
def deliverService (reply : Option ServiceReply) (s : State) : State :=
  match s.slot with
  | .working k ms attempts true result =>
    let address := (ms[result.length]?.map Member.address).getD 0
    match reply with
    | some (.value v) => memberDone k ms (result ++ [⟨address, .ok, some v⟩]) s
    | some .rejected => memberDone k ms (result ++ [⟨address, .rejected, none⟩]) s
    | none =>
      if attempts < 2 then { s with slot := .working k ms (attempts + 1) false result }
      else memberDone k ms (result ++ [⟨address, .noResponse, none⟩]) s
  | _ => s

/-- The setting of a latch ends a write in WORKING (R165). -/
def lapseWrite (s : State) : State :=
  match s.slot with
  | .working k _ _ _ _ => if k.op.writes then raise (.remoteLapsed k.target k.op .fire) { s with slot := .idle } else s
  | _ => s

/-- The expiry of the collection timer (R163), when it is due. -/
def lapseResult (s : State) : State :=
  match s.slot with
  | .ready k _ _ t => if t.due then raise (.remoteLapsed k.target k.op .collection) { s with slot := .idle } else s
  | _ => s

/-- The collection timer at a seconds tick (R153). -/
def ServiceSlot.tick : ServiceSlot → ServiceSlot
  | .ready k ms result t => .ready k ms result t.tick
  | other => other

/-! ## Meanings -/

/-- ITEM_READ taken (R156). -/
def takeItemRead (tag address item : Nat) : State → State := take 0x40 tag (serviceRequest ⟨.itemRead, address, item, none⟩)
/-- ITEM_WRITE taken (R156). -/
def takeItemWrite (tag address item value : Nat) : State → State :=
  take 0x41 tag (serviceRequest ⟨.itemWrite, address, item, some value⟩)
/-- GROUP_READ taken (R156). -/
def takeGroupRead (tag group item : Nat) : State → State := take 0x42 tag (serviceRequest ⟨.groupRead, group, item, none⟩)
/-- GROUP_WRITE taken (R156). -/
def takeGroupWrite (tag group item value : Nat) : State → State :=
  take 0x43 tag (serviceRequest ⟨.groupWrite, group, item, some value⟩)
/-- SERVICE_CANCEL taken (R164). -/
def takeServiceCancel (tag : Nat) : State → State := take 0x44 tag serviceCancel

def execItemRead (tag address item : Nat) (s : State) : Host.Outcome State Fault Refusal := powered s (takeItemRead tag address item)
def execItemWrite (tag address item value : Nat) (s : State) : Host.Outcome State Fault Refusal :=
  powered s (takeItemWrite tag address item value)
def execGroupRead (tag group item : Nat) (s : State) : Host.Outcome State Fault Refusal := powered s (takeGroupRead tag group item)
def execGroupWrite (tag group item value : Nat) (s : State) : Host.Outcome State Fault Refusal :=
  powered s (takeGroupWrite tag group item value)
def execServiceCancel (tag : Nat) (s : State) : Host.Outcome State Fault Refusal := powered s (takeServiceCancel tag)

/-- COLLECTION_EXPIRY (R163). -/
def execCollectionExpiry (s : State) : Host.Outcome State Fault Refusal := powered s lapseResult

end Sys2Proof.Machine
end

