-- ==== Sys2Proof/Machine/Fire.lean ====
section
/-! DEFINITION. The Fire Input Unit (chapter 6): debounce, triggers, latches, plans, FIRE_RESET, the failsafe. -/

namespace Sys2Proof.Machine

/-- The line records in force, none in BLANK and LOADING (R143). -/
def State.lineRecords (s : State) : List LineRecord :=
  match s.active with
  | some a => a.lines
  | none => []

/-- The latched lines in list order (R131). -/
def State.latchedLines (s : State) : List Nat := s.latches.map Latch.line

/-! ## Provisional channels (R144, R145) -/

/-- The lowest channel number not held (R144). -/
def freeNumber (channels : List Channel) : Option Nat := (List.range 24).find? fun n => !hasKey Channel.number n channels

/-- Make a provisional channel for a drive that has none, while fewer than 24 exist (R144). -/
def addProvisional (channels : List Channel) (address : Nat) : List Channel :=
  if channels.any fun c => c.record.address == address then channels
  else match freeNumber channels with
    | none => channels
    | some n => upsert Channel.number (.initial (.provisional n address) true) channels

/-- The drives of the discovered list, in ascending address order (R14, R144). -/
def State.discoveredDrives (s : State) : List Nat :=
  (s.loop.discovered.filter fun d => decide (d.kind = .drive)).map Discovered.address

/-- Make the provisional channels missing for the addresses given (R144), and hand every provisional channel the failsafe's values
(R145). -/
def makeProvisional (addresses : List Nat) (s : State) : State :=
  resolveChannels false (fun _ => true) { s with channels := addresses.foldl addProvisional s.channels }

/-! ## Setting a latch (R132 to R134) -/

/-- Apply a latched line's plan to the zones it names (R133, R134): zone conflicts, hand-over, ZONE_STATE. -/
def applyPlan (line : Nat) (s : State) : State :=
  let rs := s.zones.map (Zone.latch s.lineRecords line)
  commitZones (rs.map Prod.fst) (raiseAll (rs.flatMap Prod.snd) s)

/-- The cause a latch is entered with (R131). -/
def State.causeFor (s : State) (line : Nat) : LatchCause := if s.failsafe then .failsafe else .trigger (s.triggerInForce line)

/-- A latch sets, as one event (R132): the list, FIRE_LATCH, the plan or the failsafe, and the end of a write in work (R165). The rules do
not place the REMOTE_LAPSED of that write among the event's other notices: the model's choice is the last place (log 14). -/
def setLatch (line : Nat) (s : State) : State :=
  let listed := { s with latches := s.latches ++ [⟨line, s.uptime, s.causeFor line⟩] }
  let noticed := raise (.fireLatch line (s.causeFor line) listed.latches.length) listed
  lapseWrite (if s.failsafe then makeProvisional s.discoveredDrives noticed else applyPlan line noticed)

/-! ## Debounce and triggers (R127 to R130) -/

/-- The level at a line's pin changes (R127, R128). -/
def FireLine.change (level : PinLevel) (l : FireLine) : FireLine :=
  match l.accepted with
  | none => if level = l.pin then l else { l with pin := level, initialHeld := 0 }
  | some a =>
    if level = a then { l with pin := level, pendingLevel := none, heldFor := none }
    else if l.pendingLevel = some level then { l with pin := level }
    else { l with pin := level, pendingLevel := some level, heldFor := some 0 }

/-- A tenth of a second passes for a line's debounce (R127, R128); `held for` runs to 25. -/
def FireLine.tenth (l : FireLine) : FireLine :=
  match l.accepted with
  | none => { l with initialHeld := min (l.initialHeld + 1) 25 }
  | some _ => { l with heldFor := l.heldFor.map fun n => min (n + 1) 25 }

/-- Whether an acceptance of a level meets a trigger; an initial acceptance is no change (R128, R129). -/
def Trigger.sets (t : Trigger) (initial : Bool) (level : PinLevel) : Bool :=
  match t, level with
  | .disabled, _ => false
  | .levelHigh, .high => true
  | .levelHigh, .low => false
  | .levelLow, .low => true
  | .levelLow, .high => false
  | .rising, .high => !initial
  | .rising, .low => false
  | .falling, .low => !initial
  | .falling, .high => false
  | .either, _ => !initial

/-- Whether a level trigger is met by an accepted level (R129); an edge trigger has no met condition. -/
def Trigger.met (t : Trigger) (accepted : Option PinLevel) : Bool :=
  match t, accepted with
  | .levelHigh, some .high => true
  | .levelLow, some .low => true
  | _, _ => false

/-- The acceptance due at a line under a debounce: the level, and whether it is the initial one. A level is due once it has held for
the debounce (R127, R128). -/
def FireLine.acceptance (debounce : Nat) (l : FireLine) : Option (PinLevel × Bool) :=
  match l.accepted with
  | none => if debounce ≤ l.initialHeld then some (l.pin, true) else none
  | some _ => if l.heldFor.any fun n => debounce ≤ n then l.pendingLevel.map fun p => (p, false) else none

/-- A line's runtime after an acceptance (R127). -/
def FireLine.accept (level : PinLevel) (l : FireLine) : FireLine :=
  { l with accepted := some level, pendingLevel := none, heldFor := none, initialHeld := 0 }

/-- A fire line's level that has held for the debounce in force is accepted and goes to the trigger (R127 to R129; log 4). -/
def acceptLine (line : Nat) (s : State) : State :=
  match (lookup FireLine.line line s.lines).bind (FireLine.acceptance (s.debounceInForce line)) with
  | none => s
  | some (level, initial) =>
    let t := { s with lines := modify FireLine.line line (FireLine.accept level) s.lines }
    if s.latched line = false ∧ (s.triggerInForce line).sets initial level = true then setLatch line t else t

/-- Whether a line's level trigger in force is met by its accepted level (R129, R137). -/
def State.levelMet (s : State) (line : Nat) : Bool :=
  (s.triggerInForce line).met ((lookup FireLine.line line s.lines).bind FireLine.accepted)

/-- The unlatched lines whose level trigger in force is met, ascending (R130). -/
def State.linesToLatch (s : State) : List Nat := (List.range 8).filter fun l => !s.latched l && s.levelMet l

/-- One of the latches R130 sets after a commit or a RESTART with CLEAR: the first line due that is still to be latched (log 21). -/
def levelLatch (s : State) : State :=
  match s.levelLatchDue with
  | [] => s
  | line :: rest =>
    let t := { s with levelLatchDue := rest }
    if t.latched line = false ∧ t.levelMet line = true then setLatch line t else t

/-- The provisional channels that a RESTART into BLANK leaves to be made (R144; log 22). -/
def restartMake (s : State) : State :=
  let t := { s with provisionalDue := false }
  if s.provisionalDue = true ∧ s.failsafe = true ∧ s.anyLatch = true then makeProvisional s.discoveredDrives t else t

/-! ## FIRE_RESET (R137 to R141) -/

/-- Whether FIRE_RESET clears a latch entry: its line is named and no level trigger in force is met (R137). -/
def State.clears (s : State) (lines : OctetSet) (l : Latch) : Bool := lines.getLsbD l.line && !s.levelMet l.line

/-- The reassignment and the conflict sets after lines have been cleared, with the hand-over and ZONE_STATE (R139 to R141). -/
def releaseZones (cleared : List Nat) (s : State) : State :=
  let rs := s.zones.map (Zone.release s.lineRecords cleared s.latchedLines)
  commitZones (rs.map Prod.fst) (raiseAll (rs.flatMap Prod.snd) s)

/-- The lines as FIRE_RESET's reply gives them (R141). -/
def State.lineViews (s : State) : List LineView :=
  s.lines.map fun l => ⟨s.triggerInForce l.line, l.accepted, l.pendingLevel.isSome⟩

/-- FIRE_RESET (R137, R141). -/
def fireReset (lines : OctetSet) (s : State) : Answer :=
  let cleared := s.latches.filter (s.clears lines)
  let held := (List.range 8).filter fun l => lines.getLsbD l && s.latched l && s.levelMet l
  let left := s.latches.filter fun l => !s.clears lines l
  let t := raiseAll (cleared.map fun l => .fireClear l.line left.length l.setAt) { s with latches := left }
  let u :=
    if cleared.isEmpty then t
    else if s.failsafe then (if left.isEmpty then resolveChannels false (fun _ => true) t else t)
    else releaseZones (cleared.map Latch.line) t
  .ok u (.fireReset held u.latches u.lineViews)

/-! ## The discovered list's reports (R14, R15, R144, R146) -/

/-- A drive joins the discovered list (R144). -/
def driveJoins (address : Nat) (s : State) : State := if s.anyLatch then makeProvisional [address] s else s

/-- A drive leaves the discovered list: its provisional channel goes LOST, unless it is (R146). -/
def driveLeaves (address : Nat) (s : State) : State :=
  fanEvent (fun c => if c.provisional = true ∧ c.record.address = address ∧ c.state ≠ .lost then enterLost (s.demand c).want c
    else .quiet c) s

/-! ## Meanings -/

/-- A level change reaches the pin whether or not the part runs; the debounce works only while it does (R127, R148; log 7). -/
def changeLine (level : PinLevel) (s : State) (l : FireLine) : FireLine :=
  match s.power with
  | .running => l.change level
  | _ => { l with pin := level }

/-- FIRE_LINE_LEVEL_CHANGE (R127). -/
def execFireLineLevelChange (line : Nat) (level : PinLevel) (s : State) : Host.Outcome State Fault Refusal :=
  .next { s with lines := modify FireLine.line line (changeLine level s) s.lines }

/-- FIRE_LINE_ACCEPTED (R129). -/
def execFireLineAccepted (line : Nat) (s : State) : Host.Outcome State Fault Refusal := powered s (acceptLine line)

/-- COMMIT_LEVEL_LATCH (R130). -/
def execCommitLevelLatch (s : State) : Host.Outcome State Fault Refusal := powered s levelLatch

/-- RESTART_PROVISIONAL_MAKE (R144). -/
def execRestartProvisionalMake (s : State) : Host.Outcome State Fault Refusal := powered s restartMake

/-- FIRE_RESET taken (R137). -/
def takeFireReset (tag : Nat) (lines : OctetSet) : State → State := take 0x36 tag (fireReset lines)
def execFireReset (tag : Nat) (lines : OctetSet) (s : State) : Host.Outcome State Fault Refusal := powered s (takeFireReset tag lines)

end Sys2Proof.Machine
end

