-- ==== Sys2Proof/Machine/Loop.lean ====
section
/-! DEFINITION. The Bay Loop Master (chapter 1): the parts of a cycle, what each slot's end does, discovery, the loop state, cycle
completion, and the drive's side of the command exchange. -/

namespace Sys2Proof.Machine

/-- Set the part of the cycle in progress. -/
def setPhase (p : Phase) (s : State) : State := { s with loop := { s.loop with phase := p } }

/-! ## Loop state (R11, R12) -/

/-- The loop-state check on the cycle just ended (R11). -/
def loopCheck (s : State) : State :=
  if s.loop.valid then { s with loop := { s.loop with dead := 0 } }
  else if s.loop.polled then
    let dead := min (s.loop.dead + 1) 3
    if s.loop.state = .running ∧ dead = 3 then
      raise (.loopState .down s.loop.cycle) { s with loop := { s.loop with dead := dead, state := .down } }
    else { s with loop := { s.loop with dead := dead } }
  else s

/-- A VALID reply of any exchange (R10 to R12). -/
def noteValid (s : State) : State :=
  match s.loop.state with
  | .running => { s with loop := { s.loop with valid := true } }
  | .down =>
    raise (.loopState .running s.loop.cycle) { s with loop := { s.loop with valid := true, state := .running, dead := 0 } }

/-! ## Cycle completion (R6) -/

/-- Close a discovery cycle: the pointer moves on, and after the fourth cycle the sweep number advances (R13). -/
def Loop.closeDiscovery (l : Loop) : Loop :=
  if l.pointer = 3 then { l with pointer := 0, sweep := l.sweep + 1 } else { l with pointer := l.pointer + 1 }

/-- One more completed cycle since the channel was commanded (R83). -/
def Channel.countCycle (c : Channel) : Channel := { c with cyclesSince := min (c.cyclesSince + 1) 255 }

/-- Whether a completion is delivered to the Zone Engine: in RUN and MANUAL, but not that of the cycle in progress at LOAD_COMMIT
(R6, R178). -/
def State.evaluates (s : State) : Bool := s.mode.scheduled && !s.loop.orphan

/-- Cycle completion (R6): loop-state check, evaluation, the channels' counts, the close of discovery, the counter. -/
def completeCycle (s : State) : State :=
  let checked := loopCheck s
  let evaluated := if s.evaluates then evaluate checked else checked
  let loop := if s.failsafe then evaluated.loop.closeDiscovery else evaluated.loop
  { evaluated with
    channels := evaluated.channels.map Channel.countCycle
    loop := { loop with cycle := loop.cycle + 1, phase := .idle } }

/-! ## Fourth part: the service exchange (R5) -/

/-- The service exchange begins if the Service Channel has an attempt; otherwise the cycle is complete (R5, R159). -/
def startService (s : State) : State :=
  match s.slot.attempt with
  | some a => setPhase (.service a) { s with slot := s.slot.handedOver }
  | none => completeCycle s

/-! ## Third part: the command phase (R4, R17) -/

/-- The channels that offer a candidate of a class, in ascending order (R17, R82). -/
def State.offering (cls : CandidateClass) (s : State) : List Channel :=
  s.channels.filter fun c => decide (c.candidate = some cls)

/-- Insert a channel behind those with the same or a larger count of cycles since commanded. -/
def insertRefresh (c : Channel) : List Channel → List Channel
  | [] => [c]
  | d :: l => if c.cyclesSince > d.cyclesSince then c :: d :: l else d :: insertRefresh c l

/-- Refreshes: the largest count first, the lowest channel number first among equals (R17). -/
def refreshOrder (l : List Channel) : List Channel := l.foldl (fun acc c => insertRefresh c acc) []

/-- The channels allotted the slots of a command phase, in the order they are sent (R17). -/
def State.allotted (s : State) : List Nat :=
  ((s.offering .fire ++ s.offering .stop ++ s.offering .start ++ s.offering .speed ++ refreshOrder (s.offering .refresh)).take
    Config.commandSlots).map Channel.number

/-- The exchange of a channel as it begins: the image as it stands then (R4). -/
def State.commandFor (s : State) (n : Nat) : Option CommandExchange :=
  (lookup Channel.number n s.channels).bind fun c => c.command.map fun i => ⟨some n, c.record.address, i⟩

/-- The next allotted command goes out; after the last the service exchange follows (R4, R5). -/
def nextCommand : List Nat → State → State
  | [], s => startService s
  | n :: rest, s =>
    match s.commandFor n with
    | some x => setPhase (.commands x rest) s
    | none => nextCommand rest s

/-- The command phase begins (R4). -/
def startCommands (s : State) : State := nextCommand s.allotted s

/-! ## The drives' side (R18, R19, R21; log 24) -/

/-- A drive's missed cycles go up by 1, held at 4 (R19). -/
def missedMore (n : Nat) : Nat := min (n + 1) 4

/-- A drive hears a cycle mark (R19). -/
def DriveSide.hear (d : DriveSide) : DriveSide :=
  { d with missed := if d.taken then d.missed else missedMore d.missed, taken := false }

/-- The drives hear a cycle mark and take the period it carries (R2, R19). -/
def Drives.hear (period : Period) (d : Drives) : Drives := ⟨period, 0, missedMore d.fresh, d.sides.map DriveSide.hear⟩

/-- A period lapses without a cycle mark (R19). -/
def Drives.lapse (d : Drives) : Drives :=
  { d with fresh := missedMore d.fresh, sides := d.sides.map fun x => { x with missed := missedMore x.missed } }

/-- The length of a period, in tenths of a second (R1). -/
def Period.tenths : Period → Nat
  | .half => 5
  | .one => 10
  | .two => 20

/-- A tenth of a second passes on the loop; one that goes beyond a whole period without a mark makes it a lapse (log 24). -/
def Drives.tenth (d : Drives) : Drives :=
  if d.period.tenths ≤ d.silent then { d.lapse with silent := 1 } else { d with silent := d.silent + 1 }

/-- The drive at an address takes a command: all three fields at once, and its count starts anew (R18, R19). -/
def Drives.takes (address : Nat) (image : Image) (d : Drives) : Drives :=
  { d with sides := upsert DriveSide.address ⟨address, image, 0, true⟩ d.sides }

/-- The missed cycles of the drive at an address (R19). -/
def Drives.missed (address : Nat) (d : Drives) : Nat :=
  ((lookup DriveSide.address address d.sides).map DriveSide.missed).getD d.fresh

/-- The fallback the drive at an address stores, HOLD before its first command (R19). -/
def Drives.fallback (address : Nat) (d : Drives) : Fallback :=
  ((lookup DriveSide.address address d.sides).map fun x => x.stored.fallback).getD .hold

/-- The setpoint and damper that the drive at an address obeys: its stored command's until four cycles are missed, then what its
fallback says; absent where no command has told it one (R18, R19). -/
def Drives.obeys (address : Nat) (d : Drives) : Option (Nat × DamperCmd) :=
  let stored := (lookup DriveSide.address address d.sides).map fun x => (x.stored.setpoint, x.stored.damper)
  if d.missed address < 4 then stored
  else match d.fallback address with
    | .hold => stored
    | .extract => some (100, .opn)
    | .stop => some (0, .close)

/-! ## First and second part: the mark and the polls (R1 to R3, R7, R13) -/

/-- The addresses of a discovery cycle (R13). -/
def queryAddresses (pointer : Nat) : List Nat := List.range' (16 * pointer + 1) (if pointer = 3 then 15 else 16)

/-- Whether a schedule entry is due in a cycle (R7). -/
def SlotEntry.dueIn (cycle : Nat) (e : SlotEntry) : Bool := cycle % e.divider == e.phase

/-- The polls of the cycle that begins (R3). -/
def State.duePolls (s : State) : List Poll :=
  match s.active with
  | some a =>
    if s.mode.scheduled then (a.schedule.filter (SlotEntry.dueIn s.loop.cycle.toNat)).map fun e => ⟨e.address, .only e.kind⟩
    else (queryAddresses s.loop.pointer).map fun a => ⟨a, .any⟩
  | none => (queryAddresses s.loop.pointer).map fun a => ⟨a, .any⟩

/-- The next poll is issued; after the last the command phase follows (R3, R4). -/
def nextPoll : List Poll → State → State
  | [], s => startCommands s
  | p :: rest, s => setPhase (.polls p rest) s

/-- A cycle begins: its mark, then its polls (R1 to R3). -/
def beginCycle (s : State) : State :=
  nextPoll s.duePolls { s with
    loop := { s.loop with
      cyclePeriod := s.period
      mark := ⟨s.loop.cycle, s.period⟩
      polled := !s.duePolls.isEmpty
      valid := false
      orphan := false
      drives := s.loop.drives.hear s.period } }

/-- A boundary of the period: a cycle begins if none is in progress (R1; log 6). -/
def cycleBoundary (s : State) : State :=
  match s.loop.phase with
  | .idle => beginCycle s
  | _ => s

/-! ## Discovery (R14, R15) -/

/-- Put an entry in the discovered list. -/
def recordDevice (d : Discovered) (s : State) : State :=
  { s with loop := { s.loop with discovered := upsert Discovered.address d s.loop.discovered } }

/-- A VALID kind query (R14), with the report of a drive that joins or leaves. -/
def discover (address : Nat) (kind : DeviceKind) (s : State) : State :=
  let t := recordDevice ⟨address, kind, s.loop.sweep⟩ s
  match (lookup Discovered.address address s.loop.discovered).map Discovered.kind, kind with
  | none, .drive => driveJoins address t
  | some .head, .drive => driveJoins address t
  | some .drive, .head => driveLeaves address t
  | _, _ => t

/-- A failed kind query (R15): an entry not seen for two sweeps is removed, a drive's removal reported. -/
def miss (address : Nat) (s : State) : State :=
  match lookup Discovered.address address s.loop.discovered with
  | none => s
  | some d =>
    if 2 ≤ (s.loop.sweep - d.seen).toNat then
      let t := { s with loop := { s.loop with discovered := s.loop.discovered.filter fun e => e.address != address } }
      match d.kind with
      | .drive => driveLeaves address t
      | .head => t
    else s

/-! ## Deliveries (R10) -/

/-- The miss limit of a channel (R72, R73). -/
def State.channelLimit (s : State) (c : Channel) : Nat := if c.provisional then 4 else s.missLimit

/-- A classified poll as a head takes it (R27 to R35). -/
def Head.polled (cycle : CycleNumber) (limit : Nat) (r : Received) (cls : PollClass) (h : Head) : Head × List NoticeBody :=
  match r, cls with
  | .complete .head data, .valid => h.valid cycle (readHead data)
  | _, _ => h.failed limit cls

/-- A classified poll as a channel takes it (R75, R76). -/
def Channel.polled (draws limit want : Nat) (r : Received) (cls : PollClass) (c : Channel) : Eff :=
  match r, cls with
  | .complete .drive data, .valid => takeReport (readDrive draws data) c
  | _, _ => failPoll limit want cls c

/-- A VALID drive reply that used a free value advances the counter of free values (log 12). -/
def countDraws (r : Received) (s : State) : State :=
  match r with
  | .complete .drive data => if drawsFree data then { s with draws := s.draws + 1 } else s
  | _ => s

/-- A classified poll reaches one channel (R10). -/
def deliverChannel (c : Channel) (r : Received) (cls : PollClass) (s : State) : State :=
  countDraws r (fanEventAt c.number
    (fun d => d.polled s.draws (s.channelLimit d) (s.demand d).want r cls) s)

/-- The channel at an address. -/
def State.channelAt (s : State) (address : Nat) : Option Channel := s.channels.find? fun c => c.record.address == address

/-- What a kind query's class is for the provisional channel at its address: a head there is the wrong kind (R10, R146). -/
def queryClass (r : Received) (cls : PollClass) : PollClass :=
  match r, cls with
  | .complete .head _, .valid => .wrongKind
  | _, _ => cls

/-- Discovery's part of a kind query (R14, R15). -/
def discovery (address : Nat) (r : Received) (cls : PollClass) (s : State) : State :=
  match r, cls with
  | .complete .head _, .valid => discover address .head s
  | .complete .drive _, .valid => discover address .drive s
  | _, _ => miss address s

/-- A kind query is delivered: first to discovery, then to the provisional channel that held the address before it (R10). -/
def deliverQuery (address : Nat) (r : Received) (cls : PollClass) (s : State) : State :=
  let t := discovery address r cls s
  match s.channelAt address with
  | none => t
  | some c => deliverChannel c r (queryClass r cls) t

/-- The delivery of a classified poll (R10, R16). -/
def deliverPoll (p : Poll) (r : Received) (cls : PollClass) (s : State) : State :=
  match p.expect with
  | .only .head => deliverHead p.address (Head.polled s.loop.cycle s.missLimit r cls) s
  | .only .drive =>
    match s.channelAt p.address with
    | none => s
    | some c => deliverChannel c r cls s
  | .any => if s.failsafe then deliverQuery p.address r cls s else s

/-! ## Slot ends -/

/-- The exchange a RESTART left on the wire has run to the end of its slot; its reply is discarded (R23; log 19). -/
def drained (s : State) : State := { s with loop := { s.loop with draining := none } }

/-- Count a reply for the loop state when it is VALID (R11, R12). -/
def noteIf (valid : Bool) (s : State) : State := if valid then noteValid s else s

/-- A poll ends (R9, R10): it is classified and delivered, and the next one is issued. -/
def endPoll (p : Poll) (rest : List Poll) (reply : List Byte) (s : State) : State :=
  let r := receive p.address reply
  let cls := classifyPoll p.expect r
  nextPoll rest (deliverPoll p r cls (noteIf (decide (cls = .valid)) s))

/-- A poll's slot ends (R9). -/
def pollEnd (reply : List Byte) (s : State) : State :=
  match s.loop.draining, s.loop.phase with
  | some .poll, _ => drained s
  | _, .polls p rest => endPoll p rest reply s
  | _, _ => s

/-- The drive's side of an acknowledged command (R18, R19, R21). -/
def driveTakes (x : CommandExchange) (s : State) : State :=
  { s with loop := { s.loop with drives := s.loop.drives.takes x.address x.image } }

/-- The drive's side of a command exchange: an acknowledgement says that the drive has taken it (R18). Whether a drive has taken a command
whose acknowledgement came back short, corrupt, wrong or not at all, R18 does not say: the model's choice is that it has not, so its stored
image stays and its count runs on (log 24). -/
def driveAnswers (x : CommandExchange) (ok : Bool) (s : State) : State := if ok then driveTakes x s else s

/-- The outcome of a command exchange reaches its channel (R18, R76, R83). -/
def deliverCommand (x : CommandExchange) (ok : Bool) (s : State) : State :=
  match x.channel with
  | none => s
  | some n =>
    fanEventAt n
      (fun c => if ok then .quiet (ackCommand x.image c) else missPoll (s.channelLimit c) (s.demand c).want c) s

/-- A command exchange ends (R18): its outcome is delivered, and the next command goes out. -/
def endCommand (x : CommandExchange) (rest : List Nat) (reply : List Byte) (s : State) : State :=
  let ok := acknowledged (receive x.address reply)
  nextCommand rest (deliverCommand x ok (driveAnswers x ok (noteIf ok s)))

/-- A command exchange's slot ends (R18). A drained one reaches no channel, but its drive has taken it if it answered (R18, R23). -/
def commandEnd (reply : List Byte) (s : State) : State :=
  match s.loop.draining, s.loop.phase with
  | some (.command x), _ => drained (driveAnswers x (acknowledged (receive x.address reply)) s)
  | _, .commands x rest => endCommand x rest reply s
  | _, _ => s

/-- A service exchange ends (R20): it is classified and delivered, and the cycle is complete. The rules do not order the notices of the two
where one slot's end brings both: the model's choice is that those of the delivery (REMOTE_READY, R161) come before those of the completion
(LOOP_STATE DOWN, R11, among them) (log 14). -/
def endService (a : Attempt) (reply : List Byte) (s : State) : State :=
  let c := classifyService (receive a.address reply)
  completeCycle (deliverService c.2 (noteIf (decide (c.1 = .valid)) s))

/-- A service exchange's slot ends (R20). -/
def serviceEnd (reply : List Byte) (s : State) : State :=
  match s.loop.draining, s.loop.phase with
  | some .service, _ => drained s
  | _, .service a => endService a reply s
  | _, _ => s

/-! ## RESTART (R23) -/

/-- What a RESTART leaves on the wire (R23). -/
def Phase.leftover : Phase → Option Leftover
  | .idle => none
  | .polls _ _ => some .poll
  | .commands x _ => some (.command x)
  | .service _ => some .service

/-- What RESTART does to the loop before the new cycle begins (R23): discovery is kept or starts over. -/
def Loop.restarted (keepDiscovery : Bool) (l : Loop) : Loop :=
  { l with
    cycle := 0
    state := .running
    dead := 0
    phase := .idle
    draining := l.draining.or l.phase.leftover
    pointer := if keepDiscovery then l.pointer else 0
    sweep := if keepDiscovery then l.sweep else 0
    discovered := if keepDiscovery then l.discovered else [] }

/-! ## Meanings -/

/-- CYCLE_BEGIN (R1). -/
def execCycleBegin (s : State) : Host.Outcome State Fault Refusal := powered s cycleBoundary
/-- POLL_SLOT_END (R9). -/
def execPollSlotEnd (reply : List Byte) (s : State) : Host.Outcome State Fault Refusal := powered s (pollEnd reply)
/-- COMMAND_SLOT_END (R18). -/
def execCommandSlotEnd (reply : List Byte) (s : State) : Host.Outcome State Fault Refusal := powered s (commandEnd reply)
/-- SERVICE_SLOT_END (R20). -/
def execServiceSlotEnd (reply : List Byte) (s : State) : Host.Outcome State Fault Refusal := powered s (serviceEnd reply)

end Sys2Proof.Machine
end

