-- ==== Sys2Proof/Machine/Load.lean ====
section
/-! DEFINITION. The Configuration Store's staging (8.2): LOAD_BEGIN, the seven LOAD_* records, LOAD_ABANDON. -/

namespace Sys2Proof.Machine

/-! ## Keys of the staged tables (R171) -/

/-- The staging tables, all empty (R170). -/
def Staging.empty : Staging := ⟨none, none, [], [], [], [], []⟩

/-! ## Checks at loading (R173), each with the position of its field (R208; log 17) -/

/-- A percentage. -/
def percent (n : Nat) : Bool := n ≤ 100

def loopChecks (r : LoadLoop) : List (Nat × Bool) :=
  [(2, optional (fun n => (periodOf n).isSome) r.period), (3, optional (within 2 15) r.missLimit)]

def feederChecks (r : LoadFeeder) : List (Nat × Bool) :=
  [(2, optional (within 1 32) r.budget), (3, optional (within 0 32) r.reduced)]

/-- The gas set of a head: CO, NO2 or both. -/
def gasSet (b : Byte) : Bool := within 1 3 b.toNat

def headChecks (r : LoadHead) : List (Nat × Bool) :=
  [(1, within 0 39 r.head), (3, required (within 1 63) r.address), (4, required gasSet r.gases),
   (5, required (numbers 1 2 15) r.zones)]

def fanChecks (r : LoadFan) : List (Nat × Bool) :=
  [(1, within 0 23 r.channel), (3, required (within 1 63) r.address), (5, optional (within 1 16) r.cost),
   (6, optional (within 1 30) r.settle), (7, optional (within 10 120) r.damperTimeout),
   (8, optional (within 5 120) r.coastTimeout), (9, optional percent r.min), (10, optional percent r.max)]

/-- The four thresholds of a gas, from the position of the first. -/
def limitChecks (g : Gas) (position : Nat) (l : LoadLimits) : List (Nat × Bool) :=
  [(position, optional (within 0 g.top) l.low1), (position + 1, optional (within 0 g.top) l.high1),
   (position + 2, optional (within 0 g.top) l.low2), (position + 3, optional (within 0 g.top) l.high2)]

def zoneChecks (r : LoadZone) : List (Nat × Bool) :=
  [(1, within 0 15 r.zone), (3, required (numbers 1 8 39) r.heads), (4, required (numbers 1 4 23) r.fans)]
  ++ limitChecks .co 5 r.co ++ limitChecks .no2 9 r.no2
  ++ [(13, optional percent r.idle), (14, optional percent r.stage1), (15, optional percent r.stage2),
      (16, optional percent r.blind), (17, optional (within 10 3600) r.hold)]

/-- A divider: 1, 2, 4 or 8 (R7). -/
def dividerOk (n : Nat) : Bool := n == 1 || n == 2 || n == 4 || n == 8

/-- The divider in force of a schedule entry (R173). -/
def dividerInForce (r : LoadSlot) : Nat := r.divider.getD 1

def slotChecks (r : LoadSlot) : List (Nat × Bool) :=
  [(1, within 1 63 r.address), (3, required (fun n => (deviceKindOf n).isSome) r.kind), (4, optional dividerOk r.divider),
   (5, optional (fun n => n < dividerInForce r) r.phase)]

def lineChecks (r : LoadLine) : List (Nat × Bool) :=
  [(1, within 0 7 r.line), (3, required (fun n => (triggerOf n).isSome) r.trigger), (4, optional (within 1 25) r.debounce),
   (7, optional (within 1 100) r.speed)]

/-! ## The tests of R172 -/

/-- Take a LOAD_* request through the tests of R172: the fields, the mode, then what `store` answers from the staging tables. -/
def loadRecord (checks : List (Nat × Bool)) (store : Staging → Answer) (s : State) : Answer :=
  match firstBad checks with
  | some position => .badField s position
  | none =>
    match s.mode, s.staging with
    | .loading, some st => store st
    | _, _ => .refuse s .wrongMode

/-- The state with new staging tables. -/
def withStaging (st : Staging) (s : State) : State := { s with staging := some st }

/-- LOAD_LOOP (R172). -/
def loadLoop (r : LoadLoop) (s : State) : Answer :=
  loadRecord (loopChecks r) (fun st => .ok (withStaging { st with loop := some r } s) (.loaded st.loop.isSome 1)) s

/-- LOAD_FEEDER (R172). -/
def loadFeeder (r : LoadFeeder) (s : State) : Answer :=
  loadRecord (feederChecks r) (fun st => .ok (withStaging { st with feeder := some r } s) (.loaded st.feeder.isSome 1)) s

/-- LOAD_HEAD (R172). -/
def loadHead (r : LoadHead) (s : State) : Answer :=
  loadRecord (headChecks r) (fun st =>
    let heads := upsert LoadHead.head r st.heads
    .ok (withStaging { st with heads := heads } s) (.loaded (hasKey LoadHead.head r.head st.heads) heads.length)) s

/-- LOAD_FAN (R172). -/
def loadFan (r : LoadFan) (s : State) : Answer :=
  loadRecord (fanChecks r) (fun st =>
    let fans := upsert LoadFan.channel r st.fans
    .ok (withStaging { st with fans := fans } s) (.loaded (hasKey LoadFan.channel r.channel st.fans) fans.length)) s

/-- LOAD_ZONE (R172). -/
def loadZone (r : LoadZone) (s : State) : Answer :=
  loadRecord (zoneChecks r) (fun st =>
    let zones := upsert LoadZone.zone r st.zones
    .ok (withStaging { st with zones := zones } s) (.loaded (hasKey LoadZone.zone r.zone st.zones) zones.length)) s

/-- The staged entries of a kind (R171). -/
def slotsOf (kind : DeviceKind) (slots : List LoadSlot) : Nat :=
  (slots.filter fun r => decide (r.kind.bind deviceKindOf = some kind)).length

/-- Whether a staged schedule is within the capacity of R171: 40 HEAD and 24 DRIVE entries. -/
def slotsFit (slots : List LoadSlot) : Bool := slotsOf .head slots ≤ 40 && slotsOf .drive slots ≤ 24

/-- LOAD_SLOT (R171, R172). -/
def loadSlot (r : LoadSlot) (s : State) : Answer :=
  loadRecord (slotChecks r) (fun st =>
    let slots := upsert LoadSlot.address r st.slots
    if slotsFit slots then
      .ok (withStaging { st with slots := slots } s)
        (.loadedSlot (hasKey LoadSlot.address r.address st.slots) slots.length (slotsOf .head slots) (slotsOf .drive slots))
    else .refuse s .full) s

/-- LOAD_LINE (R172). -/
def loadLine (r : LoadLine) (s : State) : Answer :=
  loadRecord (lineChecks r) (fun st =>
    let lines := upsert LoadLine.line r st.lines
    .ok (withStaging { st with lines := lines } s) (.loaded (hasKey LoadLine.line r.line st.lines) lines.length)) s

/-- LOAD_BEGIN (R170). -/
def loadBegin (s : State) : Answer :=
  match s.mode with
  | .blank => .ok (raiseMode s.mode { s with mode := .loading, staging := some .empty }) .none
  | _ => .refuse s .wrongMode

/-- LOAD_ABANDON (R174). -/
def loadAbandon (s : State) : Answer :=
  match s.mode with
  | .loading => .ok (raiseMode s.mode { s with mode := .blank, staging := none }) .none
  | _ => .refuse s .wrongMode

/-! ## Meanings -/

/-- LOAD_BEGIN taken (R170). -/
def takeLoadBegin (tag : Nat) : State → State := take 0x10 tag loadBegin
/-- LOAD_LOOP taken (R172). -/
def takeLoadLoop (tag : Nat) (r : LoadLoop) : State → State := take 0x11 tag (loadLoop r)
/-- LOAD_FEEDER taken (R172). -/
def takeLoadFeeder (tag : Nat) (r : LoadFeeder) : State → State := take 0x12 tag (loadFeeder r)
/-- LOAD_HEAD taken (R172). -/
def takeLoadHead (tag : Nat) (r : LoadHead) : State → State := take 0x13 tag (loadHead r)
/-- LOAD_FAN taken (R172). -/
def takeLoadFan (tag : Nat) (r : LoadFan) : State → State := take 0x14 tag (loadFan r)
/-- LOAD_ZONE taken (R172). -/
def takeLoadZone (tag : Nat) (r : LoadZone) : State → State := take 0x15 tag (loadZone r)
/-- LOAD_SLOT taken (R172). -/
def takeLoadSlot (tag : Nat) (r : LoadSlot) : State → State := take 0x16 tag (loadSlot r)
/-- LOAD_LINE taken (R172). -/
def takeLoadLine (tag : Nat) (r : LoadLine) : State → State := take 0x17 tag (loadLine r)
/-- LOAD_ABANDON taken (R174). -/
def takeLoadAbandon (tag : Nat) : State → State := take 0x18 tag loadAbandon

def execLoadBegin (tag : Nat) (s : State) : Host.Outcome State Fault Refusal := powered s (takeLoadBegin tag)
def execLoadLoop (tag : Nat) (r : LoadLoop) (s : State) : Host.Outcome State Fault Refusal := powered s (takeLoadLoop tag r)
def execLoadFeeder (tag : Nat) (r : LoadFeeder) (s : State) : Host.Outcome State Fault Refusal := powered s (takeLoadFeeder tag r)
def execLoadHead (tag : Nat) (r : LoadHead) (s : State) : Host.Outcome State Fault Refusal := powered s (takeLoadHead tag r)
def execLoadFan (tag : Nat) (r : LoadFan) (s : State) : Host.Outcome State Fault Refusal := powered s (takeLoadFan tag r)
def execLoadZone (tag : Nat) (r : LoadZone) (s : State) : Host.Outcome State Fault Refusal := powered s (takeLoadZone tag r)
def execLoadSlot (tag : Nat) (r : LoadSlot) (s : State) : Host.Outcome State Fault Refusal := powered s (takeLoadSlot tag r)
def execLoadLine (tag : Nat) (r : LoadLine) (s : State) : Host.Outcome State Fault Refusal := powered s (takeLoadLine tag r)
def execLoadAbandon (tag : Nat) (s : State) : Host.Outcome State Fault Refusal := powered s (takeLoadAbandon tag)

end Sys2Proof.Machine
end

