-- ==== Sys2Proof/Machine/Commit.lean ====
section
/-! DEFINITION. LOAD_COMMIT (8.3): the values in force of the staged records, validation, and the commit. -/

namespace Sys2Proof.Machine

/-! ## Values in force (R176) -/

/-- The values in force of a staged configuration (R176). -/
structure Loaded where
  period : Period
  missLimit : Nat
  budget : Nat
  reduced : Nat
  heads : List HeadRecord
  fans : List FanRecord
  zones : List ZoneRecord
  slots : List SlotEntry
  lines : List LineRecord
  deriving DecidableEq, Repr

def headInForce (r : LoadHead) : HeadRecord where
  head := r.head
  address := r.address.getD 0
  gases := ⟨(r.gases.getD 0).getLsbD 0, (r.gases.getD 0).getLsbD 1⟩
  zones := r.zones.getD []

def fanInForce (r : LoadFan) : FanRecord where
  channel := r.channel
  address := r.address.getD 0
  groups := r.groups.getD 0
  cost := r.cost.getD 1
  settle := r.settle.getD 10
  damperTimeout := r.damperTimeout.getD 45
  coastTimeout := r.coastTimeout.getD 30
  min := r.min.getD 20
  max := r.max.getD 100

/-- The defaults of a gas's thresholds (R43). -/
def Gas.defaults : Gas → Limits
  | .co => ⟨15, 30, 60, 90⟩
  | .no2 => ⟨5, 10, 20, 30⟩

def limitsInForce (g : Gas) (l : LoadLimits) : Limits :=
  ⟨l.low1.getD g.defaults.low1, l.high1.getD g.defaults.high1, l.low2.getD g.defaults.low2, l.high2.getD g.defaults.high2⟩

def zoneInForce (r : LoadZone) : ZoneRecord where
  zone := r.zone
  heads := r.heads.getD []
  fans := r.fans.getD []
  co := limitsInForce .co r.co
  no2 := limitsInForce .no2 r.no2
  idle := r.idle.getD 0
  stage1 := r.stage1.getD 50
  stage2 := r.stage2.getD 100
  blind := r.blind.getD 60
  hold := r.hold.getD 300

def slotInForce (r : LoadSlot) : SlotEntry :=
  ⟨r.address, (r.kind.bind deviceKindOf).getD .head, dividerInForce r, r.phase.getD 0⟩

def lineInForce (r : LoadLine) : LineRecord where
  line := r.line
  trigger := (r.trigger.bind triggerOf).getD .disabled
  debounce := r.debounce.getD Config.defaultDebounce
  extract := r.extract.getD 0
  isolate := r.isolate.getD 0
  speed := r.speed.getD 100

/-- The values in force of the staging tables (R176). -/
def Staging.inForce (st : Staging) : Loaded where
  period := ((st.loop.bind LoadLoop.period).bind periodOf).getD .one
  missLimit := (st.loop.bind LoadLoop.missLimit).getD 4
  budget := (st.feeder.bind LoadFeeder.budget).getD 4
  reduced := (st.feeder.bind LoadFeeder.reduced).getD 2
  heads := st.heads.map headInForce
  fans := st.fans.map fanInForce
  zones := st.zones.map zoneInForce
  slots := st.slots.map slotInForce
  lines := st.lines.map lineInForce

/-! ## Validation (R177), one list of violations for each check, each in the order the check finds them (log 16) -/

/-- A violation when a condition holds. -/
def violatedIf (bad : Bool) (kind : RecordKind) (key : Option Nat) (reason : Reason) (detail : Option Nat) : List Violation :=
  if bad then [⟨kind, key, reason, detail⟩] else []

/-- Check 1: CONFIG. -/
def Loaded.checkConfig (c : Loaded) : List Violation := violatedIf c.zones.isEmpty .config none .noZone none

/-- Check 2: FEEDER. -/
def Loaded.checkFeeder (c : Loaded) : List Violation :=
  violatedIf (c.budget < c.reduced) .feeder none .brAboveB (some c.reduced)

/-- Check 3 for one head of a zone. -/
def Loaded.checkZoneHead (c : Loaded) (zone head : Nat) : List Violation :=
  match lookup HeadRecord.head head c.heads with
  | none => [⟨.zone, some zone, .missingHead, some head⟩]
  | some r => violatedIf (!r.zones.contains zone) .zone (some zone) .headNotLinked (some head)

/-- Check 3 for one zone: heads, fans, CO, NO2. -/
def Loaded.checkZone (c : Loaded) (z : ZoneRecord) : List Violation :=
  (ascending z.heads).flatMap (c.checkZoneHead z.zone)
  ++ (ascending z.fans).flatMap (fun n =>
      violatedIf (!hasKey FanRecord.channel n c.fans) .zone (some z.zone) .missingFan (some n))
  ++ violatedIf (!z.co.ordered) .zone (some z.zone) .thresholdOrder (some 0)
  ++ violatedIf (!z.no2.ordered) .zone (some z.zone) .thresholdOrder (some 1)

/-- Check 4 for one zone of a head. -/
def Loaded.checkHeadZone (c : Loaded) (head zone : Nat) : List Violation :=
  match lookup ZoneRecord.zone zone c.zones with
  | none => [⟨.head, some head, .missingZone, some zone⟩]
  | some z => violatedIf (!z.heads.contains head) .head (some head) .zoneNotLinked (some zone)

/-- Check 4 for one head. -/
def Loaded.checkHead (c : Loaded) (h : HeadRecord) : List Violation := (ascending h.zones).flatMap (c.checkHeadZone h.head)

/-- The zones that bind a channel (R73). -/
def Loaded.binders (c : Loaded) (channel : Nat) : Nat := (c.zones.filter fun z => z.fans.contains channel).length

/-- Check 5 for one channel; `free` is the detail of MIN_ABOVE_MAX (log 13). -/
def Loaded.checkFan (free : Option Nat) (c : Loaded) (f : FanRecord) : List Violation :=
  violatedIf (f.max < f.min) .fan (some f.channel) .minAboveMax free
  ++ violatedIf (c.budget < f.cost) .fan (some f.channel) .costAboveB (some f.cost)
  ++ violatedIf (c.binders f.channel == 0) .fan (some f.channel) .unbound (some 0)
  ++ violatedIf (4 < c.binders f.channel) .fan (some f.channel) .overbound (some (c.binders f.channel))

/-- Check 6 for one line: each zone its plan names, ascending. -/
def Loaded.checkLine (c : Loaded) (l : LineRecord) : List Violation :=
  (members (l.extract ||| l.isolate)).flatMap fun zone =>
    violatedIf (!hasKey ZoneRecord.zone zone c.zones) .line (some l.line) .missingZone (some zone)
    ++ violatedIf (l.extract.getLsbD zone && l.isolate.getLsbD zone) .line (some l.line) .planOverlap (some zone)

/-- The head and fan records at an address. -/
def Loaded.sharers (c : Loaded) (address : Nat) : Nat :=
  (c.heads.filter fun h => h.address == address).length + (c.fans.filter fun f => f.address == address).length

/-- Check 7 for one address. -/
def Loaded.checkAddress (c : Loaded) (address : Nat) : List Violation :=
  violatedIf (1 < c.sharers address) .address (some address) .addressShared (some (c.sharers address))

/-- Check 8 for one head or channel. -/
def Loaded.checkSlotOf (c : Loaded) (kind : RecordKind) (device : DeviceKind) (key address : Nat) : List Violation :=
  match lookup SlotEntry.address address c.slots with
  | none => [⟨kind, some key, .noSlot, some address⟩]
  | some e => violatedIf (decide (e.kind ≠ device)) kind (some key) .slotKind (some address)

/-- The code of a device kind (R208). -/
def DeviceKind.code : DeviceKind → Nat
  | .head => 0
  | .drive => 1

/-- Check 9 for one schedule entry. -/
def Loaded.checkSlot (c : Loaded) (e : SlotEntry) : List Violation :=
  violatedIf (c.sharers e.address == 0) .slot (some e.address) .orphanSlot (some e.kind.code)

/-- The poll count of a residue (R8). -/
def Loaded.pollCount (c : Loaded) (residue : Nat) : Nat := (c.slots.filter (SlotEntry.dueIn residue)).length

/-- Check 10 for one residue. -/
def Loaded.checkResidue (c : Loaded) (residue : Nat) : List Violation :=
  violatedIf (Config.pollLimit < c.pollCount residue) .residue (some residue) .pollsOverLimit (some (c.pollCount residue))

/-- Every violation of a configuration, in the order of R177. -/
def Loaded.violations (free : Option Nat) (c : Loaded) : List Violation :=
  c.checkConfig ++ c.checkFeeder ++ c.zones.flatMap c.checkZone ++ c.heads.flatMap c.checkHead
  ++ c.fans.flatMap (c.checkFan free) ++ c.lines.flatMap c.checkLine ++ (List.range' 1 63).flatMap c.checkAddress
  ++ c.heads.flatMap (fun h => c.checkSlotOf .head .head h.head h.address)
  ++ c.fans.flatMap (fun f => c.checkSlotOf .fan .drive f.channel f.address)
  ++ c.slots.flatMap c.checkSlot ++ (List.range 8).flatMap c.checkResidue

/-! ## The commit (R178) -/

/-- Whether a violation used the free detail. -/
def Violation.usesFree (v : Violation) : Bool := decide (v.reason = .minAboveMax)

/-- The active tables of a configuration (R178, step 1). -/
def Loaded.active (c : Loaded) : Active := ⟨c.period, c.missLimit, c.budget, c.reduced, c.slots, c.lines⟩

/-- A command phase in progress loses its channels (R178, step 4; log 20). -/
def Phase.orphaned : Phase → Phase
  | .commands x _ => .commands { x with channel := none } []
  | other => other

/-- The Bay Loop Master at a commit (R16, R178, step 3): the cycle in progress, if there is one, ends as a discovery cycle. -/
def Loop.committed (l : Loop) : Loop :=
  { l with discovered := [], orphan := decide (l.phase ≠ .idle), phase := l.phase.orphaned }

/-- The commit of R178: tables, mode, loop, starting values, hand-over of the initial claims, MODE, and the lines R130 has to latch. -/
def commit (c : Loaded) (s : State) : State :=
  let t := { s with
    active := some c.active
    staging := none
    mode := .run
    loop := s.loop.committed
    queue := []
    held := 0
    heads := c.heads.map Head.initial
    channels := c.fans.map fun r => .initial r false
    zones := c.zones.map Zone.initial
    handed := []
    provisionalDue := false }
  let u := raiseMode s.mode (handOver false (t.zones.map Zone.number) t)
  { u with levelLatchDue := u.linesToLatch }

/-- LOAD_COMMIT (R175). -/
def loadCommit (s : State) : Answer :=
  match s.mode, s.staging with
  | .loading, some st =>
    if s.anyLatch then .refuse s .refusedFire (.latchedLines s.latchedLines)
    else match (st.inForce.violations (Config.freeDetail s.draws)).head? with
      | some v => .refuse { s with draws := if v.usesFree then s.draws + 1 else s.draws } .invalid (.violation v)
      | none => .ok (commit st.inForce s) .none
  | _, _ => .refuse s .wrongMode

/-- LOAD_COMMIT taken (R175). -/
def takeLoadCommit (tag : Nat) : State → State := take 0x19 tag loadCommit
def execLoadCommit (tag : Nat) (s : State) : Host.Outcome State Fault Refusal := powered s (takeLoadCommit tag)

end Sys2Proof.Machine
end

