-- ==== Sys2Proof/Machine/Modes.lean ====
section
/-! DEFINITION. MANUAL mode (8.4), RESTART (8.5) and DISCOVERED (8.6). -/

namespace Sys2Proof.Machine

/-! ## MANUAL mode (R97, R179) -/

/-- MANUAL_ENTER (R179): the targets become the manual setpoints. -/
def manualEnter (s : State) : Answer :=
  match s.mode with
  | .run =>
    .ok (raiseMode s.mode (resolveChannels false (fun _ => true)
      { s with mode := .manual, channels := s.channels.map fun c => { c with manual := some c.target } })) .none
  | _ => .refuse s .wrongMode

/-- MANUAL_LEAVE (R179): the manual setpoints are dropped and every channel resolved. -/
def manualLeave (s : State) : Answer :=
  match s.mode with
  | .manual =>
    .ok (raiseMode s.mode (resolveChannels false (fun _ => true)
      { s with mode := .run, channels := s.channels.map fun c => { c with manual := none } })) .none
  | _ => .refuse s .wrongMode

/-! ## RESTART (R180 to R182) -/

/-- What every RESTART resets (R180): slot, snapshot, queue, units, staging, reset cause. -/
def restartCommon (s : State) : State :=
  { s with slot := .idle, snapshot := none, resetCause := .restart, queue := [], held := 0, staging := none }

/-- RESTART with KEEP in RUN or MANUAL (R181): the kept tables from their starting values, the latched lines' zones in their fire
states, the initial claims handed over together, without notices (R70, R80, R149). -/
def restartScheduled (s : State) : State :=
  let t := { restartCommon s with
    mode := .run
    loop := s.loop.restarted true
    heads := s.heads.map fun h => .initial h.record
    zones := s.zones.map (Zone.restarted s.lineRecords s.latchedLines)
    channels := s.channels.map fun c => .initial c.record c.provisional
    handed := []
    provisionalDue := false }
  handOver true (t.zones.map Zone.number) t

/-- RESTART with KEEP in LOADING or BLANK (R181): the provisional channels are discarded, to be made again as an event of its own;
in LOADING discovery goes on with its list. -/
def restartUnconfigured (s : State) : State :=
  { restartCommon s with
    mode := .blank
    loop := s.loop.restarted (decide (s.mode = .loading))
    channels := []
    provisionalDue := s.anyLatch }

/-- RESTART with CLEAR (R182). -/
def restartCleared (s : State) : State :=
  { restartCommon s with
    mode := .blank
    active := none
    loop := s.loop.restarted false
    heads := []
    zones := []
    handed := []
    channels := []
    provisionalDue := s.anyLatch }

/-- The new cycle begins at once, and MODE is raised if the mode changed (R23, R169). -/
def afterRestart (previous : Mode) (s : State) : State := raiseMode previous (beginCycle s)

/-- RESTART with KEEP (R181). -/
def restartKeep (s : State) : Answer :=
  let t := afterRestart s.mode (if s.mode.scheduled then restartScheduled s else restartUnconfigured s)
  .ok t (.mode t.mode)

/-- RESTART with CLEAR (R182), after which R130 latches the lines whose accepted level is HIGH (R150). -/
def restartClear (s : State) : Answer :=
  let t := afterRestart s.mode (restartCleared s)
  .ok { t with levelLatchDue := t.linesToLatch } (.mode t.mode)

/-! ## DISCOVERED (R183) -/

/-- The cycle of the sweep that the next discovery cycle will poll (R183; log 33). -/
def State.nextSweepCycle (s : State) : Nat :=
  if s.failsafe ∧ s.loop.phase ≠ .idle then (s.loop.pointer + 1) % 4 else s.loop.pointer

/-- DISCOVERED (R183). -/
def discoveredList (s : State) : Answer :=
  .ok s (.discovered s.failsafe s.loop.sweep s.nextSweepCycle s.loop.discovered)

/-! ## Meanings -/

/-- RESTART with KEEP taken (R180). -/
def takeRestartKeep (tag : Nat) : State → State := take 0x1A tag restartKeep
/-- RESTART with CLEAR taken (R180). -/
def takeRestartClear (tag : Nat) : State → State := take 0x1A tag restartClear
/-- MANUAL_ENTER taken (R179). -/
def takeManualEnter (tag : Nat) : State → State := take 0x1B tag manualEnter
/-- MANUAL_LEAVE taken (R179). -/
def takeManualLeave (tag : Nat) : State → State := take 0x1C tag manualLeave
/-- DISCOVERED taken (R183). -/
def takeDiscovered (tag : Nat) : State → State := take 0x20 tag discoveredList

def execRestartKeep (tag : Nat) (s : State) : Host.Outcome State Fault Refusal := powered s (takeRestartKeep tag)
def execRestartClear (tag : Nat) (s : State) : Host.Outcome State Fault Refusal := powered s (takeRestartClear tag)
def execManualEnter (tag : Nat) (s : State) : Host.Outcome State Fault Refusal := powered s (takeManualEnter tag)
def execManualLeave (tag : Nat) (s : State) : Host.Outcome State Fault Refusal := powered s (takeManualLeave tag)
def execDiscovered (tag : Nat) (s : State) : Host.Outcome State Fault Refusal := powered s (takeDiscovered tag)

end Sys2Proof.Machine
end

