-- ==== Sys2Proof/Machine/Views.lean ====
section
/-! DEFINITION. The records that live reads and snapshot pages carry (R39, R69, R101, R102, R121, R204), and the requests that read
them. -/

namespace Sys2Proof.Machine

/-! ## Records -/

/-- A gas's window as GET_HEAD gives it, absent for a gas the head is not configured for (R39). -/
def windowView (sensed : Bool) (w : List Nat) : Option WindowView := if sensed then some ⟨w, average w⟩ else none

/-- GET_HEAD's record (R39). -/
def Head.view (h : Head) : HeadView where
  record := h.record
  state := h.state
  misses := h.misses
  recover := h.recover
  flags := h.flags
  mismatch := h.mismatch
  lastClass := h.lastClass
  lastValidCycle := h.lastValidCycle
  co := windowView h.record.gases.co h.coWindow
  no2 := windowView h.record.gases.no2 h.no2Window

/-- GET_ZONE's record (R69). -/
def Zone.view (z : Zone) : ZoneView where
  record := z.record
  state := z.state
  coLevel := z.coLevel
  no2Level := z.no2Level
  liveCount := z.liveCount
  grace := z.grace.remaining
  hold := z.hold.map Timer.remaining
  boost := z.boost.map fun b => (b.speed, b.timer.remaining)
  governing := z.governing
  claim := z.claim
  claimClass := z.claimClass

/-- A queued channel's position, 1 for the head, and its waiting time (R101, R121). -/
def queuePlace (channel : Nat) (q : List QueueEntry) : Option (Nat × Nat) :=
  (lookup QueueEntry.channel channel q).map fun e => (q.findIdx (fun f => f.channel == channel) + 1, e.waiting)

/-- GET_FAN's record (R101). -/
def State.fanView (s : State) (c : Channel) : FanView where
  record := c.record
  provisional := c.provisional
  bound := s.boundClaims c.number
  state := c.state
  faultCause := c.faultCause
  cls := c.cls
  target := c.target
  conflict := c.conflict
  mismatch := c.mismatch
  command := c.command
  acknowledged := c.acknowledged
  report := c.report
  misses := c.misses
  recover := c.recover
  holding := c.holding
  startAcked := c.startAcked
  cyclesSince := c.cyclesSince
  settle := c.settle.map Timer.remaining
  damper := c.damper.map Timer.remaining
  coast := c.coast.map Timer.remaining
  manual := c.manual
  queued := queuePlace c.number s.queue

/-- The head of a number, as GET_HEAD gives it. -/
def State.headView? (s : State) (n : Nat) : Option HeadView := (lookup Head.number n s.heads).map Head.view
/-- The zone of a number, as GET_ZONE gives it; absent for INACTIVE. -/
def State.zoneView? (s : State) (n : Nat) : Option ZoneView := (lookup Zone.number n s.zones).map Zone.view
/-- The channel of a number, as GET_FAN gives it. -/
def State.fanView? (s : State) (n : Nat) : Option FanView := (lookup Channel.number n s.channels).map s.fanView

/-- The channels that hold units, ascending (R121). -/
def State.holders (s : State) : List Holder :=
  (s.channels.filter Channel.holding).map fun c => ⟨c.number, c.record.cost, c.settle.map Timer.remaining⟩

/-- GET_QUEUE's contents (R121). -/
def State.queueView (s : State) : QueueView :=
  ⟨s.held, s.budget, s.reduced, s.feeder.effective, s.feeder.line, s.feeder.host, s.queue, s.holders⟩

/-- Snapshot page 0 (R204). -/
def State.summary (s : State) : Summary where
  mode := s.mode
  feeder := s.feeder.effective
  line := s.feeder.line
  host := s.feeder.host
  budget := s.budget
  reduced := s.reduced
  held := s.held
  queue := s.queue
  latches := s.latches
  loop := s.loop.state
  notices := s.ring.notices.length
  lost := s.ring.lost
  saturated := s.ring.saturated

/-- The image of the part (R203, R204). -/
def State.image (s : State) : SnapImage :=
  ⟨s.summary, (List.range 16).map s.zoneView?, (List.range 24).map s.fanView?, (List.range 40).map s.headView?⟩

/-- A page of an image (R204): 0 the summary, 1-4 zones, 5-12 channels, 13-20 heads. -/
def SnapImage.page (i : SnapImage) (n : Nat) : Page :=
  if n = 0 then .summary i.summary
  else if n ≤ 4 then .zones ((i.zones.drop (4 * (n - 1))).take 4)
  else if n ≤ 12 then .channels ((i.channels.drop (3 * (n - 5))).take 3)
  else .heads ((i.heads.drop (5 * (n - 13))).take 5)

/-! ## Live reads -/

/-- A read of a numbered record: BAD_FIELD beyond the highest number, then WRONG_MODE where the mode has no such table, then
NOT_FOUND or the record. -/
def readRecord (most : Nat) (inMode : Bool) (n : Nat) (record : Option ReplyBody) (s : State) : Answer :=
  if most < n then .badField s 1
  else if inMode = false then .refuse s .wrongMode
  else match record with
    | none => .refuse s .notFound
    | some b => .ok s b

/-- GET_HEAD (R39). -/
def getHead (n : Nat) (s : State) : Answer := readRecord 39 s.mode.scheduled n ((s.headView? n).map ReplyBody.head) s

/-- GET_ZONE (R69): an INACTIVE zone is answered OK. -/
def getZone (n : Nat) (s : State) : Answer := readRecord 15 s.mode.scheduled n (some (.zone (s.zoneView? n))) s

/-- GET_FAN (R101), taken in every mode. -/
def getFan (n : Nat) (s : State) : Answer := readRecord 23 true n ((s.fanView? n).map ReplyBody.fan) s

/-- GET_GROUP's list (R102). -/
def State.groupList (s : State) (group : Nat) : List GroupEntry :=
  (s.groupMembers group).map fun c => ⟨c.number, c.state, c.report.map Report.speed, c.faultCause⟩

/-- GET_GROUP (R102). -/
def getGroup (group : Nat) (s : State) : Answer := readRecord 7 s.mode.scheduled group (some (.group (s.groupList group))) s

/-- GET_QUEUE (R121). -/
def getQueue (s : State) : Answer := .ok s (.queue s.queueView)

/-! ## Meanings -/

/-- GET_HEAD taken (R39). -/
def takeGetHead (tag n : Nat) : State → State := take 0x21 tag (getHead n)
/-- GET_ZONE taken (R69). -/
def takeGetZone (tag n : Nat) : State → State := take 0x22 tag (getZone n)
/-- GET_FAN taken (R101). -/
def takeGetFan (tag n : Nat) : State → State := take 0x23 tag (getFan n)
/-- GET_GROUP taken (R102). -/
def takeGetGroup (tag n : Nat) : State → State := take 0x24 tag (getGroup n)
/-- GET_QUEUE taken (R121). -/
def takeGetQueue (tag : Nat) : State → State := take 0x25 tag getQueue

def execGetHead (tag head : Nat) (s : State) : Host.Outcome State Fault Refusal := powered s (takeGetHead tag head)
def execGetZone (tag zone : Nat) (s : State) : Host.Outcome State Fault Refusal := powered s (takeGetZone tag zone)
def execGetFan (tag channel : Nat) (s : State) : Host.Outcome State Fault Refusal := powered s (takeGetFan tag channel)
def execGetGroup (tag group : Nat) (s : State) : Host.Outcome State Fault Refusal := powered s (takeGetGroup tag group)
def execGetQueue (tag : Nat) (s : State) : Host.Outcome State Fault Refusal := powered s (takeGetQueue tag)

end Sys2Proof.Machine
end

