-- ==== Sys2Proof/Machine/Requests.lean ====
section
/-! DEFINITION. The link's own requests (9.6), FETCH (10.3), the snapshot requests (10.6), and the requests that tune zones, channels
and the feeder (R63 to R66, R96, R98, R109). -/

namespace Sys2Proof.Machine

/-! ## Link requests (R193, R194) -/

/-- IDENTIFY (R193). -/
def identify (s : State) : Answer := .ok s (.identify s.mode s.resetCause s.uptime)

/-- The frames held when a request is taken: its own, and the one behind it (R194). -/
def Link.frames (l : Link) : Nat := if l.waiting.isSome then 2 else 1

/-- LINK_STATUS (R194): the discard counter and its flag are reported and cleared. -/
def linkStatus (s : State) : Answer :=
  .ok { s with link := { s.link with discards := 0, saturated := false } }
    (.linkStatus s.link.discards s.link.saturated s.link.rate s.link.frames)

/-! ## FETCH (R199) -/

/-- FETCH (R199). -/
def fetch (count : Nat) (s : State) : Answer :=
  match firstBad [(1, within 1 8 count)] with
  | some position => .badField s position
  | none =>
    let rest := s.ring.notices.drop count
    .ok { s with ring := ⟨rest, 0, false⟩ } (.fetch (s.ring.notices.take count) rest.length s.ring.lost s.ring.saturated)

/-! ## Snapshots (R203 to R206) -/

/-- SNAP_TAKE (R203). -/
def snapTake (s : State) : Answer :=
  if s.failsafe then .refuse s .wrongMode
  else match s.snapshot with
    | some held => .refuse s .held (.snapAge (s.uptime - held.takenAt))
    | none => .ok { s with snapshot := some ⟨s.image, s.uptime, []⟩ } (.snapTaken s.uptime)

/-- The page-read set with a page added. -/
def addPage (page : Nat) (read : List Nat) : List Nat := if read.contains page then read else read ++ [page]

/-- SNAP_READ (R205). -/
def snapRead (page : Nat) (s : State) : Answer :=
  match firstBad [(1, within 0 20 page)], s.snapshot with
  | some position, _ => .badField s position
  | none, none => .refuse s .notFound
  | none, some held =>
    let read := addPage page held.read
    .ok { s with snapshot := if Config.pages ≤ read.length then none else some { held with read := read } }
      (.snapPage (held.image.page page) held.takenAt (Config.pages - read.length))

/-- SNAP_RELEASE (R206). -/
def snapRelease (s : State) : Answer :=
  .ok { s with snapshot := none } (.snapReleased (s.snapshot.map fun held => held.read.length))

/-! ## Zones (R63 to R66) -/

/-- The boost a BOOST gives each named zone: absent for a duration of 0 (R63). -/
def boostOf (speed duration : Nat) : Option Boost := if duration = 0 then none else some ⟨speed, .load duration⟩

/-- The first named zone that is INACTIVE (R63). -/
def State.firstInactive (s : State) (zones : ZoneSet) : Option Nat :=
  (members zones).find? fun n => !hasKey Zone.number n s.zones

/-- Set the boost of the named zones and recompute their claims (R60, R63). -/
def boostZones (zones : ZoneSet) (b : Option Boost) (s : State) : State :=
  commitZones (s.zones.map fun z => if zones.getLsbD z.number then Zone.reclaim { z with boost := b } else z) s

/-- BOOST (R63). -/
def boost (zones : ZoneSet) (speed duration : Nat) (s : State) : Answer :=
  match firstBad [(1, decide (zones ≠ 0)), (2, duration == 0 || within 1 100 speed), (3, duration == 0 || within 60 7200 duration)] with
  | some position => .badField s position
  | none =>
    if s.failsafe then .refuse s .wrongMode
    else match s.firstInactive zones with
      | some n => .refuse s .notFound (.zoneNumber n)
      | none => .ok (boostZones zones (boostOf speed duration) s) .none

/-- Replace the thresholds of one gas in a zone's record (R65). -/
def Zone.setLimits (g : Gas) (l : Limits) (z : Zone) : Zone :=
  match g with
  | .co => { z with record := { z.record with co := l } }
  | .no2 => { z with record := { z.record with no2 := l } }

/-- The checks of SET_LIMITS, with the position of the field that fails (R65; log 17). -/
def limitsChecks (zone : Nat) (gas : Option Gas) (l : Limits) : List (Nat × Bool) :=
  let top := (gas.getD .co).top
  [(1, within 0 15 zone), (2, gas.isSome), (3, within 0 top l.low1), (4, within 0 top l.high1), (5, within 0 top l.low2),
   (6, within 0 top l.high2), (4, l.low1 < l.high1), (5, l.high1 ≤ l.low2), (6, l.low2 < l.high2)]

/-- Change the record of one configured zone: WRONG_MODE without a zone table, NOT_FOUND for an INACTIVE zone (R65, R66). -/
def tuneZone (zone : Nat) (f : Zone → Zone) (s : State) : Answer :=
  if s.failsafe then .refuse s .wrongMode
  else if hasKey Zone.number zone s.zones = false then .refuse s .notFound
  else .ok { s with zones := modify Zone.number zone f s.zones } .none

/-- SET_LIMITS (R65). -/
def setLimits (zone gas low1 high1 low2 high2 : Nat) (s : State) : Answer :=
  match firstBad (limitsChecks zone (gasOf gas) ⟨low1, high1, low2, high2⟩) with
  | some position => .badField s position
  | none => tuneZone zone (Zone.setLimits ((gasOf gas).getD .co) ⟨low1, high1, low2, high2⟩) s

/-- SET_HOLD (R66). -/
def setHold (zone preload : Nat) (s : State) : Answer :=
  match firstBad [(1, within 0 15 zone), (2, within 10 3600 preload)] with
  | some position => .badField s position
  | none => tuneZone zone (fun z => { z with record := { z.record with hold := preload } }) s

/-! ## Channels (R96, R98) -/

/-- Store a manual setpoint and resolve the channel (R98). -/
def applySetpoint (n setpoint : Nat) (s : State) : State :=
  resolveChannels false (fun c => c.number == n)
    { s with channels := modify Channel.number n (fun c => { c with manual := some setpoint }) s.channels }

/-- The target of a channel, 0 where there is none. -/
def State.targetOf (s : State) (n : Nat) : Nat := ((lookup Channel.number n s.channels).map Channel.target).getD 0

/-- SET_FAN (R98). -/
def setFan (n setpoint : Nat) (s : State) : Answer :=
  match firstBad [(1, within 0 23 n), (2, percent setpoint)] with
  | some position => .badField s position
  | none =>
    if s.mode ≠ .manual then .refuse s .wrongMode
    else if hasKey Channel.number n s.channels = false then .refuse s .notFound
    else .ok (applySetpoint n setpoint s) (.setFan setpoint ((applySetpoint n setpoint s).targetOf n))

/-- CLEAR_FAULT (R96). -/
def clearFault (n : Nat) (s : State) : Answer :=
  match firstBad [(1, within 0 23 n)] with
  | some position => .badField s position
  | none =>
    match lookup Channel.number n s.channels with
    | none => .refuse s .notFound
    | some c =>
      if c.state ≠ .fault then .refuse s .refused (.channelState c.state)
      else match c.report.bind Report.trip with
        | some code => .refuse s .refused (.channelTrip .trip code)
        | none => .ok (fanEventAt n (fun d => clearedFault (s.demand d) d) s) .none

/-! ## Feeder (R109) -/

/-- FEEDER (R109). -/
def feederRequest (code : Nat) (s : State) : Answer :=
  match feederStateOf code with
  | none => .badField s 1
  | some host =>
    let t := setFeeder false { s.feeder with host := host } s
    .ok t (.feeder t.feeder.effective t.feeder.line t.feeder.host)

/-! ## Meanings -/

/-- IDENTIFY taken (R193). -/
def takeIdentify (tag : Nat) : State → State := take 0x01 tag identify
/-- LINK_STATUS taken (R194). -/
def takeLinkStatus (tag : Nat) : State → State := take 0x02 tag linkStatus
/-- FETCH taken (R199). -/
def takeFetch (tag count : Nat) : State → State := take 0x03 tag (fetch count)
/-- SNAP_TAKE taken (R203). -/
def takeSnapTake (tag : Nat) : State → State := take 0x04 tag snapTake
/-- SNAP_READ taken (R205). -/
def takeSnapRead (tag page : Nat) : State → State := take 0x05 tag (snapRead page)
/-- SNAP_RELEASE taken (R206). -/
def takeSnapRelease (tag : Nat) : State → State := take 0x06 tag snapRelease
/-- BOOST taken (R63). -/
def takeBoost (tag : Nat) (zones : ZoneSet) (speed duration : Nat) : State → State := take 0x30 tag (boost zones speed duration)
/-- SET_LIMITS taken (R65). -/
def takeSetLimits (tag zone gas low1 high1 low2 high2 : Nat) : State → State :=
  take 0x31 tag (setLimits zone gas low1 high1 low2 high2)
/-- SET_HOLD taken (R66). -/
def takeSetHold (tag zone preload : Nat) : State → State := take 0x32 tag (setHold zone preload)
/-- SET_FAN taken (R98). -/
def takeSetFan (tag n setpoint : Nat) : State → State := take 0x33 tag (setFan n setpoint)
/-- CLEAR_FAULT taken (R96). -/
def takeClearFault (tag n : Nat) : State → State := take 0x34 tag (clearFault n)
/-- FEEDER taken (R109). -/
def takeFeeder (tag code : Nat) : State → State := take 0x35 tag (feederRequest code)

def execIdentify (tag : Nat) (s : State) : Host.Outcome State Fault Refusal := powered s (takeIdentify tag)
def execLinkStatus (tag : Nat) (s : State) : Host.Outcome State Fault Refusal := powered s (takeLinkStatus tag)
def execFetch (tag count : Nat) (s : State) : Host.Outcome State Fault Refusal := powered s (takeFetch tag count)
def execSnapTake (tag : Nat) (s : State) : Host.Outcome State Fault Refusal := powered s (takeSnapTake tag)
def execSnapRead (tag page : Nat) (s : State) : Host.Outcome State Fault Refusal := powered s (takeSnapRead tag page)
def execSnapRelease (tag : Nat) (s : State) : Host.Outcome State Fault Refusal := powered s (takeSnapRelease tag)
def execBoost (tag : Nat) (zones : ZoneSet) (speed duration : Nat) (s : State) : Host.Outcome State Fault Refusal :=
  powered s (takeBoost tag zones speed duration)
def execSetLimits (tag zone gas low1 high1 low2 high2 : Nat) (s : State) : Host.Outcome State Fault Refusal :=
  powered s (takeSetLimits tag zone gas low1 high1 low2 high2)
def execSetHold (tag zone preload : Nat) (s : State) : Host.Outcome State Fault Refusal := powered s (takeSetHold tag zone preload)
def execSetFan (tag channel setpoint : Nat) (s : State) : Host.Outcome State Fault Refusal :=
  powered s (takeSetFan tag channel setpoint)
def execClearFault (tag channel : Nat) (s : State) : Host.Outcome State Fault Refusal := powered s (takeClearFault tag channel)
def execFeeder (tag state : Nat) (s : State) : Host.Outcome State Fault Refusal := powered s (takeFeeder tag state)

end Sys2Proof.Machine
end

