-- ==== Sys2Proof/Machine/Time.lean ====
section
/-! DEFINITION. Time: the seconds tick, the timers' expiries, the stall, FEED's debounce, and the tenth of a second that passes on an
empty queue. -/

namespace Sys2Proof.Machine

/-! ## The seconds tick (R55, R74, R119, R153, R193) -/

/-- A boost at a tick. -/
def Boost.tick (b : Boost) : Boost := { b with timer := b.timer.tick }

/-- A zone's three timers at a tick (R55); the grace stays at 0 once it has expired (R57). -/
def Zone.tick (z : Zone) : Zone := { z with hold := z.hold.map Timer.tick, boost := z.boost.map Boost.tick, grace := z.grace.tick }

/-- A channel's three timers at a tick (R74). -/
def Channel.tick (c : Channel) : Channel :=
  { c with settle := c.settle.map Timer.tick, damper := c.damper.map Timer.tick, coast := c.coast.map Timer.tick }

/-- A queue entry's counts at a tick (R105, R119). -/
def QueueEntry.tick (e : QueueEntry) : QueueEntry :=
  { e with waiting := min (e.waiting + 1) 65535, headTime := e.headTime.map fun n => min (n + 1) 65535 }

/-- SECONDS_TICK: uptime and every timer of whole seconds. -/
def secondsTick (s : State) : State :=
  { s with
    uptime := s.uptime + 1
    zones := s.zones.map Zone.tick
    channels := s.channels.map Channel.tick
    queue := s.queue.map QueueEntry.tick
    slot := s.slot.tick }

/-! ## Expiries of a channel (R86, R89, R91); one that is not due changes nothing (log 5) -/

/-- Settle expiry (R89, R118): the units are returned and the queue is looked at, then the channel acts by its state (log 26). -/
def settleExpired (n : Nat) (s : State) : State :=
  match lookup Channel.number n s.channels with
  | none => s
  | some c =>
    if expiryDue c.settle then
      fanEventAt n afterSettle
        (returnUnits c.record.cost { s with channels := modify Channel.number n endHolding s.channels })
    else s

/-- Damper timer expiry (R86). -/
def damperTimeout (n : Nat) (s : State) : State :=
  fanEventAt n (fun c => if expiryDue c.damper then damperExpired c else .quiet c) s

/-- Coast timer expiry (R91). -/
def coastTimeout (n : Nat) (s : State) : State :=
  fanEventAt n (fun c => if expiryDue c.coast then coastExpired c else .quiet c) s

/-! ## Expiries of a zone (R56 to R58) -/

/-- Hold expiry (R56). -/
def Zone.holdExpired (z : Zone) : Zone :=
  match z.state with
  | .runOn => if expiryDue z.hold then z.enter .quiet else z
  | _ => z

/-- Hold expiry of a zone: the claim, its hand-over, ZONE_STATE (R56). -/
def holdTimeout (n : Nat) (s : State) : State := changeZone n Zone.holdExpired s

/-- Boost expiry of a zone (R58): the claim, its hand-over, BOOST_END. -/
def boostTimeout (n : Nat) (s : State) : State :=
  match lookup Zone.number n s.zones with
  | none => s
  | some z =>
    match z.boost with
    | none => s
    | some b =>
      if b.timer.due then
        raise (.boostEnd n b.speed z.state) (changeZone n (fun z => Zone.reclaim { z with boost := none }) s)
      else s

/-- Grace expiry (R57): the count is 0 from here on. -/
def Zone.graceExpired (z : Zone) : Zone := if z.grace.due then { z with grace := ⟨0, false⟩ } else z

/-- Grace expiry of a zone. -/
def graceTimeout (n : Nat) (s : State) : State := { s with zones := modify Zone.number n Zone.graceExpired s.zones }

/-! ## The stall (R120) -/

/-- QUEUE_STALL: one notice for each spell at the head that reaches 60 s. The model's choice of when the event acts: the seconds tick moves
the head time alone, and the command raises the notice at any head time of 60 or more of a spell not yet reported; a head granted or gone
between that tick and the command raises none (log 5). -/
def stall (s : State) : State :=
  match s.queue with
  | [] => s
  | e :: rest =>
    if Config.stallSeconds ≤ e.headTime.getD 0 ∧ e.stalled = false then
      raise (.queueStall e.channel e.cost s.held) { s with queue := { e with stalled := true } :: rest }
    else s

/-! ## FEED (R108) -/

/-- The level at FEED changes: a level that is not the accepted one begins its debounce (R108). -/
def Feeder.change (level : PinLevel) (f : Feeder) : Feeder :=
  if level = f.pin then f
  else { f with pin := level, pendingLevel := if f.accepted = some level then none else some level, heldFor := 0 }

/-- The feeder state a level gives (R108). -/
def lineState : PinLevel → FeederState
  | .low => .constrained
  | .high => .normal

/-- The level under debounce: before the first acceptance the level at the pin, later the pending level (R108). -/
def Feeder.measured (f : Feeder) : Option PinLevel :=
  match f.accepted with
  | none => some f.pin
  | some _ => f.pendingLevel

/-- The acceptance due at FEED: the level under debounce, once it has held for 0.5 s (R108). -/
def Feeder.acceptance (f : Feeder) : Option PinLevel := if Config.feedDebounce ≤ f.heldFor then f.measured else none

/-- The feeder after an acceptance (R108). -/
def Feeder.accept (level : PinLevel) (f : Feeder) : Feeder :=
  { f with line := lineState level, accepted := some level, pendingLevel := none, heldFor := 0 }

/-- A FEED level that has held is accepted; the first acceptance after a reset raises no notice (R108, R110; log 4). -/
def feedAccepted (s : State) : State :=
  match s.feeder.acceptance with
  | none => s
  | some level => setFeeder s.feeder.accepted.isNone (s.feeder.accept level) s

/-! ## A tenth of a second (R19, R108, R127, R128; log 3) -/

/-- The measure of FEED's debounce runs to the debounce time. -/
def Feeder.tenth (f : Feeder) : Feeder :=
  match f.measured with
  | none => f
  | some _ => { f with heldFor := min (f.heldFor + 1) Config.feedDebounce }

/-- A tenth of a second passes for the debounces. -/
def tenth (s : State) : State := { s with lines := s.lines.map FireLine.tenth, feeder := s.feeder.tenth }

/-- A tenth of a second passes for the drives on the loop. -/
def drivesTenth (s : State) : State := { s with loop := { s.loop with drives := s.loop.drives.tenth } }

/-- What a step does on an empty queue: a tenth of a second passes, for the drives whether or not the part runs (log 3, log 24). -/
def idleStep (s : State) : Host.Outcome State Fault Refusal := powered (drivesTenth s) tenth

/-! ## Meanings -/

/-- SECONDS_TICK (R55, R193). -/
def execSecondsTick (s : State) : Host.Outcome State Fault Refusal := powered s secondsTick
/-- SETTLE_EXPIRY (R89). -/
def execSettleExpiry (channel : Nat) (s : State) : Host.Outcome State Fault Refusal := powered s (settleExpired channel)
/-- DAMPER_TIMER_EXPIRY (R86). -/
def execDamperTimerExpiry (channel : Nat) (s : State) : Host.Outcome State Fault Refusal := powered s (damperTimeout channel)
/-- COAST_TIMER_EXPIRY (R91). -/
def execCoastTimerExpiry (channel : Nat) (s : State) : Host.Outcome State Fault Refusal := powered s (coastTimeout channel)
/-- HOLD_EXPIRY (R56). -/
def execHoldExpiry (zone : Nat) (s : State) : Host.Outcome State Fault Refusal := powered s (holdTimeout zone)
/-- BOOST_EXPIRY (R58). -/
def execBoostExpiry (zone : Nat) (s : State) : Host.Outcome State Fault Refusal := powered s (boostTimeout zone)
/-- GRACE_EXPIRY (R57). -/
def execGraceExpiry (zone : Nat) (s : State) : Host.Outcome State Fault Refusal := powered s (graceTimeout zone)
/-- QUEUE_STALL (R120). -/
def execQueueStall (s : State) : Host.Outcome State Fault Refusal := powered s stall

/-- A level change reaches FEED whether or not the part runs; the debounce works only while it does (R108; log 7). -/
def changeFeed (level : PinLevel) (s : State) : Feeder :=
  match s.power with
  | .running => s.feeder.change level
  | _ => { s.feeder with pin := level }

/-- FEED_LEVEL_CHANGE (R108). -/
def execFeedLevelChange (level : PinLevel) (s : State) : Host.Outcome State Fault Refusal :=
  .next { s with feeder := changeFeed level s }
/-- FEED_ACCEPTED (R108). -/
def execFeedAccepted (s : State) : Host.Outcome State Fault Refusal := powered s feedAccepted

end Sys2Proof.Machine
end

