-- ==== Sys2Proof/Machine/Resets.lean ====
section
/-! DEFINITION. Power-on, pin reset and loss of supply (R22, R185, R193, R195, R210). -/

namespace Sys2Proof.Machine

/-- Every block at its value after power-on or pin reset, before the first cycle (R22, R41, R70, R103, R123, R148, R167, R168, R195,
R202, R206). The pins and the drives' side of the loop stay as they stand (R19); the queue of commands and the counter of free values
are the model's own. -/
def State.cleared (s : State) : State where
  power := s.power
  resetPin := s.resetPin
  mode := .blank
  resetCause := s.resetCause
  uptime := 0
  staging := none
  active := none
  loop := .cleared s.loop.drives
  heads := []
  zones := []
  handed := []
  channels := []
  queue := []
  held := 0
  feeder := .cleared s.feeder.pin
  lines := s.lines.map fun l => .cleared l.line l.pin
  latches := []
  levelLatchDue := []
  provisionalDue := false
  slot := .idle
  ring := ⟨[], 0, false⟩
  snapshot := none
  link := .cleared s.link.rate
  draws := s.draws
  pending := s.pending

/-- A reset ends: the straps are sampled, the cause recorded, and cycle 0 begins (R22, R185, R193). -/
def endReset (cause : ResetCause) (straps : Straps) (s : State) : State :=
  beginCycle { s.cleared with power := .running, resetCause := cause, link := .cleared (bitRateOf straps) }

/-- The supply rises (R22): the power-on ends at once, or with the pin reset when RESET is held low (R193). -/
def powerOn (straps : Straps) (s : State) : State :=
  match s.resetPin with
  | .high => endReset .power straps s
  | .low => { s.cleared with power := .inReset .power }

/-- RESET goes low (R22, R210). Without supply only the pin changes; a reset in progress goes on under its cause (R193). -/
def pinReset (s : State) : State :=
  match s.power with
  | .running => { s.cleared with resetPin := .low, power := .inReset .pin }
  | .inReset _ => { s with resetPin := .low }
  | .off => { s with resetPin := .low }

/-- RESET returns high (R22, R185). -/
def pinResetEnd (straps : Straps) (s : State) : State :=
  match s.power with
  | .running => { s with resetPin := .high }
  | .inReset cause => endReset cause straps { s with resetPin := .high }
  | .off => { s with resetPin := .high }

/-- The supply falls below its operating range (R210); the part keeps nothing (8, opening). -/
def supplyLoss (s : State) : State := { s.cleared with power := .off }

/-! ## Meanings -/

/-- POWER_ON (R22). -/
def execPowerOn (straps : Straps) (s : State) : Host.Outcome State Fault Refusal := .next (powerOn straps s)
/-- PIN_RESET (R22). -/
def execPinReset (s : State) : Host.Outcome State Fault Refusal := .next (pinReset s)
/-- PIN_RESET_END (R185). -/
def execPinResetEnd (straps : Straps) (s : State) : Host.Outcome State Fault Refusal := .next (pinResetEnd straps s)
/-- SUPPLY_LOSS (R210). -/
def execSupplyLoss (s : State) : Host.Outcome State Fault Refusal := .next (supplyLoss s)

end Sys2Proof.Machine
end

