-- ==== Sys2Proof/Machine/Frames.lean ====
section
/-! DEFINITION. The frames the part sends on the bay loop (R2 to R5, R20, R209), and the CRC of the host link (R187). -/

namespace Sys2Proof.Machine

/-! ## Bytes -/

/-- A field of one byte. -/
def b1 (n : Nat) : List Byte := [BitVec.ofNat 8 n]
/-- A field of two bytes, most significant byte first (R208, R209). -/
def b2 (n : Nat) : List Byte := [BitVec.ofNat 8 (n / 256), BitVec.ofNat 8 n]
/-- A field of four bytes, most significant byte first (R208). -/
def b4 (n : Nat) : List Byte := b2 (n / 65536) ++ b2 n

/-! ## Codes of R209 -/

def Period.code : Period → Nat
  | .half => 0
  | .one => 1
  | .two => 2
def DamperCmd.code : DamperCmd → Nat
  | .opn => 0
  | .close => 1
def Fallback.code : Fallback → Nat
  | .hold => 0
  | .extract => 1
  | .stop => 2

/-! ## Bay-loop frames (R209) -/

/-- Close a frame with its check byte: the sum of every byte is 0 modulo 256. -/
def closed (bytes : List Byte) : List Byte := bytes ++ [-(byteSum bytes)]

/-- A frame of the part: kind code, destination, data, check byte. -/
def loopFrame (code address : Nat) (data : List Byte) : List Byte := closed (b1 code ++ b1 address ++ data)

/-- The cycle mark (R2). -/
def CycleMark.frame (m : CycleMark) : List Byte := loopFrame 0x01 0 (b2 m.number.toNat ++ b1 m.period.code)

/-- A poll, or a kind query (R3). -/
def Poll.frame (p : Poll) : List Byte :=
  match p.expect with
  | .only .head => loopFrame 0x02 p.address []
  | .only .drive => loopFrame 0x03 p.address []
  | .any => loopFrame 0x04 p.address []

/-- The data of a drive command (R4). -/
def Image.bytes (i : Image) : List Byte := b1 i.setpoint ++ b1 i.damper.code ++ b1 i.fallback.code

/-- A drive command (R4). -/
def CommandExchange.frame (x : CommandExchange) : List Byte := loopFrame 0x05 x.address x.image.bytes

/-- A read-item or write-item frame (R20). -/
def Attempt.frame (a : Attempt) : List Byte :=
  match a.value with
  | none => loopFrame 0x06 a.address (b1 a.item)
  | some v => loopFrame 0x07 a.address (b1 a.item ++ b2 v)

/-- The frame of the exchange in progress, none between cycles. -/
def Phase.frame : Phase → List Byte
  | .idle => []
  | .polls p _ => p.frame
  | .commands x _ => x.frame
  | .service a => a.frame

/-! ## CRC-16 (R187) -/

/-- One bit of the CRC: polynomial 1021h, most significant bit first. -/
def crcBit (c : BitVec 16) : BitVec 16 := if c.msb then (c <<< 1) ^^^ 0x1021 else c <<< 1

/-- One byte enters the CRC. -/
def crcByte (c : BitVec 16) (b : Byte) : BitVec 16 :=
  crcBit (crcBit (crcBit (crcBit (crcBit (crcBit (crcBit (crcBit (c ^^^ (b.setWidth 16 <<< 8)))))))))

/-- The CRC of a frame's bytes, from the register's FFFFh (R187). -/
def crc (bytes : List Byte) : BitVec 16 := bytes.foldl crcByte 0xFFFF

end Sys2Proof.Machine
end

