-- ==== Sys2Proof/Machine/Encode.lean ====
section
/-! DEFINITION. The bytes of a reply on TX (R191, R207, R208): codes, fields, notice records, frames. Widths follow the ranges of the
fields (log 18). -/

namespace Sys2Proof.Machine

/-! ## Absent values and lists (R208) -/

/-- A yes/no field. -/
def flag (b : Bool) : List Byte := b1 b.toNat
/-- A one-byte field that may be absent. -/
def opt1 (o : Option Nat) : List Byte := (o.map b1).getD [0xFF]
/-- A two-byte field that may be absent. -/
def opt2 (o : Option Nat) : List Byte := (o.map b2).getD [0xFF, 0xFF]
/-- A one-byte field with a presence byte. -/
def pre1 (o : Option Nat) : List Byte := (o.map fun n => flag true ++ b1 n).getD [0, 0]
/-- A two-byte field with a presence byte. -/
def pre2 (o : Option Nat) : List Byte := (o.map fun n => flag true ++ b2 n).getD [0, 0, 0]
/-- A list: a count byte, then the entries. -/
def listOf {α : Type} (f : α → List Byte) (l : List α) : List Byte := b1 l.length ++ l.flatMap f
/-- A record that may be absent, behind a presence byte (log 18). -/
def record {α : Type} (f : α → List Byte) (o : Option α) : List Byte := (o.map fun a => flag true ++ f a).getD (flag false)

/-! ## Codes (R208): each enumeration in the order of the table that defines it -/

def Mode.code : Mode → Nat
  | .blank => 0
  | .loading => 1
  | .run => 2
  | .manual => 3
def ResetCause.code : ResetCause → Nat
  | .power => 0
  | .pin => 1
  | .restart => 2
def LoopState.code : LoopState → Nat
  | .running => 0
  | .down => 1
def PollClass.code : PollClass → Nat
  | .silent => 0
  | .short => 1
  | .corrupt => 2
  | .wrongKind => 3
  | .valid => 4
def HeadState.code : HeadState → Nat
  | .unseen => 0
  | .warming => 1
  | .live => 2
  | .lost => 3
  | .faulty => 4
def ZoneState.code : ZoneState → Nat
  | .quiet => 0
  | .purge1 => 1
  | .purge2 => 2
  | .runOn => 3
  | .blind => 4
  | .fireExtract => 5
  | .fireIsolate => 6
def ClaimClass.code : ClaimClass → Nat
  | .normal => 0
  | .extract => 1
  | .isolate => 2
def FanState.code : FanState → Nat
  | .sync => 0
  | .off => 1
  | .opening => 2
  | .queued => 3
  | .starting => 4
  | .running => 5
  | .stopping => 6
  | .fault => 7
  | .lost => 8
def FaultCause.code : FaultCause → Nat
  | .trip => 0
  | .damper => 1
  | .noStart => 2
  | .stall => 3
def RunState.code : RunState → Nat
  | .stopped => 0
  | .accelerating => 1
  | .running => 2
  | .decelerating => 3
def DamperReport.code : DamperReport → Nat
  | .closed => 0
  | .moving => 1
  | .opn => 2
  | .jammed => 3
def QueueClass.code : QueueClass → Nat
  | .fire => 0
  | .normal => 1
def FeederState.code : FeederState → Nat
  | .normal => 0
  | .constrained => 1
def Trigger.code : Trigger → Nat
  | .disabled => 0
  | .levelHigh => 1
  | .levelLow => 2
  | .rising => 3
  | .falling => 4
  | .either => 5
def LatchCause.code : LatchCause → Nat
  | .trigger t => t.code
  | .failsafe => 6
def Operation.code : Operation → Nat
  | .itemRead => 0
  | .itemWrite => 1
  | .groupRead => 2
  | .groupWrite => 3
def MemberOutcome.code : MemberOutcome → Nat
  | .ok => 0
  | .rejected => 1
  | .noResponse => 2
def LapseCause.code : LapseCause → Nat
  | .collection => 0
  | .fire => 1
def BitRate.code : BitRate → Nat
  | .b19200 => 0
  | .b38400 => 1
  | .b57600 => 2
  | .b115200 => 3
/-- The code of a pin's level (R208); the level's type stands with the commands. -/
def levelCode : PinLevel → Nat
  | .low => 0
  | .high => 1
def RecordKind.code : RecordKind → Nat
  | .config => 0
  | .feeder => 1
  | .zone => 2
  | .head => 3
  | .fan => 4
  | .line => 5
  | .address => 6
  | .slot => 7
  | .residue => 8
def Reason.code : Reason → Nat
  | .noZone => 0
  | .brAboveB => 1
  | .missingHead => 2
  | .headNotLinked => 3
  | .missingFan => 4
  | .thresholdOrder => 5
  | .missingZone => 6
  | .zoneNotLinked => 7
  | .minAboveMax => 8
  | .costAboveB => 9
  | .unbound => 10
  | .overbound => 11
  | .planOverlap => 12
  | .addressShared => 13
  | .noSlot => 14
  | .slotKind => 15
  | .orphanSlot => 16
  | .pollsOverLimit => 17
def Status.code : Status → Nat
  | .ok => 0x00
  | .deferred => 0x01
  | .busy => 0x02
  | .wrongMode => 0x10
  | .badField => 0x11
  | .unknownKind => 0x12
  | .notFound => 0x13
  | .full => 0x14
  | .invalid => 0x15
  | .refusedFire => 0x16
  | .refused => 0x17
  | .held => 0x18

/-! ## The notice record (R208) -/

/-- The code of a notice's kind. -/
def NoticeBody.code : NoticeBody → Nat
  | .zoneState _ _ _ _ => 0x01
  | .fanState _ _ _ => 0x02
  | .fanFault _ _ _ => 0x03
  | .headState _ _ _ => 0x04
  | .kindMismatch _ _ _ => 0x05
  | .headCalDue _ _ _ => 0x06
  | .loopState _ _ => 0x07
  | .fireLatch _ _ _ => 0x08
  | .fireClear _ _ _ => 0x09
  | .zoneConflict _ _ => 0x0A
  | .channelConflict _ _ => 0x0A
  | .queueStall _ _ _ => 0x0B
  | .remoteReady _ _ _ => 0x0C
  | .remoteLapsed _ _ _ => 0x0D
  | .feederState _ _ _ => 0x0E
  | .mode _ _ => 0x0F
  | .boostEnd _ _ _ => 0x10

/-- Subject, `detail1` and the four bytes of `detail2` (R196, R208). -/
def NoticeBody.fields : NoticeBody → List Byte
  | .zoneState zone new co no2 => b1 zone ++ b1 new.code ++ opt2 co ++ opt1 no2 ++ b1 0
  | .fanState channel new previous => b1 channel ++ b1 new.code ++ b4 previous.code
  | .fanFault channel cause previous => b1 channel ++ b1 cause.code ++ b4 previous.code
  | .headState head new previous => b1 head ++ b1 new.code ++ b4 previous.code
  | .kindMismatch address expected received => b1 address ++ b1 expected.code ++ b4 received.code
  | .headCalDue head state address => b1 head ++ b1 state.code ++ b4 address
  | .loopState state cycle => b1 0 ++ b1 state.code ++ b4 cycle.toNat
  | .fireLatch line cause position => b1 line ++ b1 cause.code ++ b4 position
  | .fireClear line left setAt => b1 line ++ b1 left ++ b4 setAt.toNat
  | .zoneConflict zone line => b1 zone ++ b1 0 ++ b4 line
  | .channelConflict channel zone => b1 channel ++ b1 1 ++ b4 zone
  | .queueStall channel cost held => b1 channel ++ b1 cost ++ b4 held
  | .remoteReady target op notOk => b1 target ++ b1 op.code ++ b4 notOk
  | .remoteLapsed target op cause => b1 target ++ b1 op.code ++ b4 cause.code
  | .feederState state line host => b1 0 ++ b1 state.code ++ b2 0 ++ b1 line.code ++ b1 host.code
  | .mode new previous => b1 0 ++ b1 new.code ++ b4 previous.code
  | .boostEnd zone speed state => b1 zone ++ b1 speed ++ b4 state.code

/-- The notice record of 11 bytes (R208). -/
def Notice.bytes (n : Notice) : List Byte := b1 n.body.code ++ n.body.fields ++ b4 n.raisedAt.toNat

/-! ## Records -/

/-- A set of gases: CO bit 0, NO2 bit 1. -/
def Gases.bytes (g : Gases) : List Byte := b1 (g.co.toNat + 2 * g.no2.toNat)

/-- The three recorded flags. R39 names them and R208 does not say how the three stand: the model's choice is three yes/no bytes, WARMING,
CELL_FAULT and CAL_DUE, not the one byte of bits that R209 gives them on the bay loop (log 18). -/
def HeadFlags.bytes (f : HeadFlags) : List Byte := flag f.warming ++ flag f.cellFault ++ flag f.calDue

/-- A window: sample count, samples, average. A gas outside `gases` carries none, so it has no bytes in the record (R39). -/
def WindowView.bytes (sample : Nat → List Byte) (avg : Option Nat → List Byte) (w : Option WindowView) : List Byte :=
  match w with
  | none => []
  | some v => listOf sample v.samples ++ avg v.average

/-- GET_HEAD's record (R39). -/
def HeadView.bytes (v : HeadView) : List Byte :=
  b1 v.record.head ++ b1 v.record.address ++ v.record.gases.bytes ++ listOf b1 v.record.zones
  ++ b1 v.state.code ++ b1 v.misses ++ b1 v.recover ++ v.flags.bytes ++ flag v.mismatch
  ++ opt1 (v.lastClass.map PollClass.code) ++ pre2 (v.lastValidCycle.map fun c => c.toNat)
  ++ WindowView.bytes b2 opt2 v.co ++ WindowView.bytes b1 opt1 v.no2

/-- A gas's thresholds: two bytes each for CO, one for NO2 (R208). -/
def Limits.bytes (f : Nat → List Byte) (l : Limits) : List Byte := f l.low1 ++ f l.high1 ++ f l.low2 ++ f l.high2

/-- GET_ZONE's record of a configured zone (R69). -/
def ZoneView.bytes (v : ZoneView) : List Byte :=
  listOf b1 v.record.heads ++ listOf b1 v.record.fans ++ v.record.co.bytes b2 ++ v.record.no2.bytes b1
  ++ b1 v.record.idle ++ b1 v.record.stage1 ++ b1 v.record.stage2 ++ b1 v.record.blind ++ b2 v.record.hold
  ++ b1 v.state.code ++ opt2 v.coLevel ++ opt1 v.no2Level ++ b1 v.liveCount ++ b1 v.grace ++ opt2 v.hold
  ++ opt1 (v.boost.map Prod.fst) ++ opt2 (v.boost.map Prod.snd) ++ opt1 v.governing ++ b1 v.claim ++ b1 v.claimClass.code

/-- A command image, each field absent when the image is. -/
def imageBytes (o : Option Image) : List Byte := (o.map Image.bytes).getD [0xFF, 0xFF, 0xFF]

/-- A drive report; the trip code has a presence byte (R208). -/
def reportBytes (o : Option Report) : List Byte :=
  opt1 (o.map fun r => r.run.code) ++ opt1 (o.map Report.speed) ++ opt1 (o.map fun r => r.damper.code)
  ++ pre1 (o.bind Report.trip)

/-- A zone's claim as a channel holds it (R101). -/
def HandedClaim.bytes (h : HandedClaim) : List Byte := b1 h.zone ++ b1 h.speed ++ b1 h.cls.code

/-- GET_FAN's record (R101). The mark that tells a configured record from a provisional one has no code in R101 or R208: the model's choice
is 1 for a provisional record and 0 for a configured one, after the record's fields (log 18). -/
def FanView.bytes (v : FanView) : List Byte :=
  b1 v.record.channel ++ b1 v.record.address ++ b1 v.record.groups.toNat ++ b1 v.record.cost ++ b1 v.record.settle
  ++ b1 v.record.damperTimeout ++ b1 v.record.coastTimeout ++ b1 v.record.min ++ b1 v.record.max ++ flag v.provisional
  ++ listOf HandedClaim.bytes v.bound
  ++ b1 v.state.code ++ opt1 (v.faultCause.map FaultCause.code) ++ b1 v.cls.code ++ b1 v.target ++ flag v.conflict
  ++ flag v.mismatch ++ imageBytes v.command ++ imageBytes v.acknowledged ++ reportBytes v.report
  ++ b1 v.misses ++ b1 v.recover ++ flag v.holding ++ flag v.startAcked ++ b1 v.cyclesSince
  ++ opt1 v.settle ++ opt1 v.damper ++ opt1 v.coast ++ opt1 v.manual
  ++ opt1 (v.queued.map Prod.fst) ++ pre2 (v.queued.map Prod.snd)

/-- An entry of GET_GROUP's list (R102). -/
def GroupEntry.bytes (e : GroupEntry) : List Byte :=
  b1 e.channel ++ b1 e.state.code ++ opt1 e.speed ++ opt1 (e.faultCause.map FaultCause.code)

/-- A queue entry on page 0; the head carries its head time behind a presence byte (R204, R208; log 18). -/
def QueueEntry.bytes (e : QueueEntry) : List Byte :=
  b1 e.channel ++ b1 e.cls.code ++ b1 e.cost ++ b2 e.waiting ++ ((e.headTime.map fun n => flag true ++ b2 n).getD [])

/-- The entries of GET_QUEUE, each with its position (R121). -/
def positioned (q : List QueueEntry) : List Byte := b1 q.length ++ (q.zipIdx 1).flatMap fun p => b1 p.2 ++ p.1.bytes

/-- A holder (R121). -/
def Holder.bytes (h : Holder) : List Byte := b1 h.channel ++ b1 h.cost ++ opt1 h.settle

/-- GET_QUEUE's contents (R121). -/
def QueueView.bytes (v : QueueView) : List Byte :=
  b1 v.held ++ b1 v.budget ++ b1 v.reduced ++ b1 v.feeder.code ++ b1 v.line.code ++ b1 v.host.code
  ++ positioned v.entries ++ listOf Holder.bytes v.holders

/-- A latch entry (R131). -/
def Latch.bytes (l : Latch) : List Byte := b1 l.line ++ b4 l.setAt.toNat ++ b1 l.cause.code

/-- A line of FIRE_RESET's reply (R141). -/
def LineView.bytes (v : LineView) : List Byte := b1 v.trigger.code ++ opt1 (v.accepted.map levelCode) ++ flag v.pendingStands

/-- Snapshot page 0 (R204). -/
def Summary.bytes (v : Summary) : List Byte :=
  b1 v.mode.code ++ b1 v.feeder.code ++ b1 v.line.code ++ b1 v.host.code ++ b1 v.budget ++ b1 v.reduced ++ b1 v.held
  ++ listOf QueueEntry.bytes v.queue ++ listOf Latch.bytes v.latches ++ b1 v.loop.code ++ b1 v.notices ++ b1 v.lost
  ++ flag v.saturated

/-- A page (R204). Neither R204 nor R208 says whether the records of pages 1 to 20 stand behind a count byte: the model's choice is that
they follow one another without one, each behind a presence byte that marks it configured or not (log 18). -/
def Page.bytes : Page → List Byte
  | .summary v => v.bytes
  | .zones l => l.flatMap (record ZoneView.bytes)
  | .channels l => l.flatMap (record FanView.bytes)
  | .heads l => l.flatMap (record HeadView.bytes)

/-- An entry of the discovered list (R14, R183). -/
def Discovered.bytes (d : Discovered) : List Byte := b1 d.address ++ b1 d.kind.code ++ b1 d.seen.toNat

/-- The slot's state, operation, target and progress (R157, R164). -/
def SlotView.bytes (v : SlotView) : List Byte :=
  b1 (if v.ready then 2 else 1) ++ b1 v.op.code ++ b1 v.target ++ b1 v.done ++ b1 v.total

/-- A service key (R162): the value stands for a write only. -/
def ServiceKey.bytes (k : ServiceKey) : List Byte := b1 k.op.code ++ b1 k.target ++ b1 k.item ++ (k.value.map b2).getD []

/-- A result entry, a group's followed by its member's channel number, in the order R162 lists them (R208). -/
def resultBytes (p : Option Nat × ResultEntry) : List Byte :=
  b1 p.2.address ++ b1 p.2.outcome.code ++ pre2 p.2.value ++ (p.1.map b1).getD []

/-! ## Reply fields (R191, R208) -/

/-- The bytes of a reply's fields, in the order the request's rule lists them. The model's choices (log 18): a LOAD_* reply says 0 for a
new record and 1 for a replaced one; FIRE_RESET's held lines are a list behind a count byte, its eight line entries have none. -/
def ReplyBody.bytes : ReplyBody → List Byte
  | .none => []
  | .badField position => b1 position
  | .identify m cause uptime =>
    b2 Config.vendorCode ++ b2 Config.partCode ++ b1 Config.revision ++ b1 m.code ++ b1 cause.code ++ b4 uptime.toNat
  | .linkStatus discards saturated rate frames => b1 discards ++ flag saturated ++ b1 rate.code ++ b1 frames
  | .fetch notices remaining lost saturated => listOf Notice.bytes notices ++ b1 remaining ++ b1 lost ++ flag saturated
  | .snapTaken takenAt => b4 takenAt.toNat
  | .snapAge age => b4 age.toNat
  | .snapPage page takenAt unread => page.bytes ++ b4 takenAt.toNat ++ b1 unread
  | .snapReleased Option.none => b1 0
  | .snapReleased (some pagesRead) => b1 1 ++ b1 pagesRead
  | .loaded replaced count => flag replaced ++ b1 count
  | .loadedSlot replaced count heads drives => flag replaced ++ b1 count ++ b1 heads ++ b1 drives
  | .violation v => b1 v.kind.code ++ opt1 v.key ++ b1 v.reason.code ++ opt1 v.detail
  | .latchedLines lines => listOf b1 lines
  | .mode m => b1 m.code
  | .discovered active sweep pointer list => flag active ++ b1 sweep.toNat ++ b1 pointer ++ listOf Discovered.bytes list
  | .head view => view.bytes
  | .zone Option.none => b1 7
  | .zone (some view) => view.bytes
  | .fan view => view.bytes
  | .group list => listOf GroupEntry.bytes list
  | .queue view => view.bytes
  | .zoneNumber n => b1 n
  | .setFan setpoint target => b1 setpoint ++ b1 target
  | .channelState state => b1 state.code
  | .channelTrip cause code => b1 cause.code ++ pre1 (some code)
  | .feeder state line host => b1 state.code ++ b1 line.code ++ b1 host.code
  | .fireReset held latches lines => listOf b1 held ++ listOf Latch.bytes latches ++ lines.flatMap LineView.bytes
  | .progress finished total => b1 finished ++ b1 total
  | .slot view => view.bytes
  | .cancelled Option.none => b1 0
  | .cancelled (some view) => view.bytes
  | .result key entries => key.bytes ++ listOf resultBytes entries

/-! ## The reply frame (R191, R207) -/

/-- What the CRC covers: length, kind, tag, status, fields (R187). -/
def Reply.covered (r : Reply) : List Byte :=
  let content := b1 (r.kind + 0x80) ++ b1 r.tag ++ b1 r.status.code ++ r.body.bytes
  b1 content.length ++ content

/-- The whole reply frame as TX sends it. -/
def Reply.frame (r : Reply) : List Byte := [0xC3] ++ r.covered ++ b2 (crc r.covered).toNat

/-- The bytes the reply in progress puts on TX, none at rest (R191; log 30). -/
def Link.tx (l : Link) : List Byte := (l.reply.map Reply.frame).getD []

end Sys2Proof.Machine
end

