-- ==== Sys2Proof/Machine/Link.lean ====
section
/-! DEFINITION. The Host Link Port (chapter 9): the receiver, the receive buffer, the discards, the taking of a frame, and the end of a
reply; with the layouts of the requests (R208). -/

namespace Sys2Proof.Machine

/-! ## Fields of a request frame (R208) -/

/-- The byte at a place of the fields. -/
def byteAt (f : List Byte) (n : Nat) : Nat := (f.getD n 0).toNat
/-- The two bytes at a place, most significant byte first. -/
def wordAt (f : List Byte) (n : Nat) : Nat := byteAt f n * 256 + byteAt f (n + 1)
/-- The list at a place: a count byte, then the entries; those beyond the count are ignored. -/
def listAt (f : List Byte) (n : Nat) : List Nat := ((f.drop (n + 1)).take (byteAt f n)).map BitVec.toNat
/-- A field of a LOAD_* request: left out when its bit of the presence mask is clear (R208). What a bit set beyond the request's last field
does R208 does not say: the model's choice is that it is ignored (log 35). -/
def given {α : Type} (mask bit : Nat) (value : α) : Option α := if mask.testBit bit then some value else none

/-- The number of field bytes of a request kind, absent for a code that names none (R208). -/
def layout (kind : Nat) : Option Nat :=
  match kind with
  | 0x01 => some 0 | 0x02 => some 0 | 0x03 => some 1 | 0x04 => some 0 | 0x05 => some 1 | 0x06 => some 0
  | 0x10 => some 0 | 0x11 => some 4 | 0x12 => some 4 | 0x13 => some 8 | 0x14 => some 11 | 0x15 => some 35
  | 0x16 => some 6 | 0x17 => some 10 | 0x18 => some 0 | 0x19 => some 0 | 0x1A => some 1 | 0x1B => some 0
  | 0x1C => some 0 | 0x20 => some 0 | 0x21 => some 1 | 0x22 => some 1 | 0x23 => some 1 | 0x24 => some 1
  | 0x25 => some 0 | 0x30 => some 5 | 0x31 => some 10 | 0x32 => some 3 | 0x33 => some 2 | 0x34 => some 1
  | 0x35 => some 1 | 0x36 => some 1 | 0x40 => some 2 | 0x41 => some 4 | 0x42 => some 2 | 0x43 => some 4
  | 0x44 => some 0
  | _ => none

/-- Whether the lists of a frame are within their room (R208). -/
def listsFit (kind : Nat) (f : List Byte) : Bool :=
  if kind = 0x13 then byteAt f 5 ≤ 2
  else if kind = 0x15 then byteAt f 3 ≤ 8 && byteAt f 12 ≤ 4
  else true

def readLoadLoop (f : List Byte) : LoadLoop :=
  let m := wordAt f 0
  ⟨given m 0 (byteAt f 2), given m 1 (byteAt f 3)⟩

def readLoadFeeder (f : List Byte) : LoadFeeder :=
  let m := wordAt f 0
  ⟨given m 0 (byteAt f 2), given m 1 (byteAt f 3)⟩

def readLoadHead (f : List Byte) : LoadHead :=
  let m := wordAt f 1
  ⟨byteAt f 0, given m 0 (byteAt f 3), given m 1 (f.getD 4 0), given m 2 (listAt f 5)⟩

def readLoadFan (f : List Byte) : LoadFan :=
  let m := wordAt f 1
  ⟨byteAt f 0, given m 0 (byteAt f 3), given m 1 (f.getD 4 0), given m 2 (byteAt f 5), given m 3 (byteAt f 6),
   given m 4 (byteAt f 7), given m 5 (byteAt f 8), given m 6 (byteAt f 9), given m 7 (byteAt f 10)⟩

def readLoadZone (f : List Byte) : LoadZone :=
  let m := wordAt f 1
  { zone := byteAt f 0
    heads := given m 0 (listAt f 3)
    fans := given m 1 (listAt f 12)
    co := ⟨given m 2 (wordAt f 17), given m 3 (wordAt f 19), given m 4 (wordAt f 21), given m 5 (wordAt f 23)⟩
    no2 := ⟨given m 6 (byteAt f 25), given m 7 (byteAt f 26), given m 8 (byteAt f 27), given m 9 (byteAt f 28)⟩
    idle := given m 10 (byteAt f 29)
    stage1 := given m 11 (byteAt f 30)
    stage2 := given m 12 (byteAt f 31)
    blind := given m 13 (byteAt f 32)
    hold := given m 14 (wordAt f 33) }

def readLoadSlot (f : List Byte) : LoadSlot :=
  let m := wordAt f 1
  ⟨byteAt f 0, given m 0 (byteAt f 3), given m 1 (byteAt f 4), given m 2 (byteAt f 5)⟩

def readLoadLine (f : List Byte) : LoadLine :=
  let m := wordAt f 1
  ⟨byteAt f 0, given m 0 (byteAt f 3), given m 1 (byteAt f 4), given m 2 (BitVec.ofNat 16 (wordAt f 5)),
   given m 3 (BitVec.ofNat 16 (wordAt f 7)), given m 4 (byteAt f 9)⟩

/-- The request a frame of a known kind and right shape spells; none for a RESTART whose option is neither KEEP nor CLEAR (R180). -/
def requestOf (kind tag : Nat) (f : List Byte) : Option Instr :=
  match kind with
  | 0x01 => some (.identify tag)
  | 0x02 => some (.linkStatus tag)
  | 0x03 => some (.fetch tag (byteAt f 0))
  | 0x04 => some (.snapTake tag)
  | 0x05 => some (.snapRead tag (byteAt f 0))
  | 0x06 => some (.snapRelease tag)
  | 0x10 => some (.loadBegin tag)
  | 0x11 => some (.loadLoop tag (readLoadLoop f))
  | 0x12 => some (.loadFeeder tag (readLoadFeeder f))
  | 0x13 => some (.loadHead tag (readLoadHead f))
  | 0x14 => some (.loadFan tag (readLoadFan f))
  | 0x15 => some (.loadZone tag (readLoadZone f))
  | 0x16 => some (.loadSlot tag (readLoadSlot f))
  | 0x17 => some (.loadLine tag (readLoadLine f))
  | 0x18 => some (.loadAbandon tag)
  | 0x19 => some (.loadCommit tag)
  | 0x1A =>
    match byteAt f 0 with
    | 0 => some (.restartKeep tag)
    | 1 => some (.restartClear tag)
    | _ => none
  | 0x1B => some (.manualEnter tag)
  | 0x1C => some (.manualLeave tag)
  | 0x20 => some (.discovered tag)
  | 0x21 => some (.getHead tag (byteAt f 0))
  | 0x22 => some (.getZone tag (byteAt f 0))
  | 0x23 => some (.getFan tag (byteAt f 0))
  | 0x24 => some (.getGroup tag (byteAt f 0))
  | 0x25 => some (.getQueue tag)
  | 0x30 => some (.boost tag (BitVec.ofNat 16 (wordAt f 0)) (byteAt f 2) (wordAt f 3))
  | 0x31 => some (.setLimits tag (byteAt f 0) (byteAt f 1) (wordAt f 2) (wordAt f 4) (wordAt f 6) (wordAt f 8))
  | 0x32 => some (.setHold tag (byteAt f 0) (wordAt f 1))
  | 0x33 => some (.setFan tag (byteAt f 0) (byteAt f 1))
  | 0x34 => some (.clearFault tag (byteAt f 0))
  | 0x35 => some (.feeder tag (byteAt f 0))
  | 0x36 => some (.fireReset tag (f.getD 0 0))
  | 0x40 => some (.itemRead tag (byteAt f 0) (byteAt f 1))
  | 0x41 => some (.itemWrite tag (byteAt f 0) (byteAt f 1) (wordAt f 2))
  | 0x42 => some (.groupRead tag (byteAt f 0) (byteAt f 1))
  | 0x43 => some (.groupWrite tag (byteAt f 0) (byteAt f 1) (wordAt f 2))
  | 0x44 => some (.serviceCancel tag)
  | _ => none

/-! ## Taking a frame (R190) -/

/-- Hand a request to its owner (R190, step 4). Events are no requests and come in no frame. -/
def handToOwner : Instr → State → State
  | .identify tag => takeIdentify tag
  | .linkStatus tag => takeLinkStatus tag
  | .fetch tag count => takeFetch tag count
  | .snapTake tag => takeSnapTake tag
  | .snapRead tag page => takeSnapRead tag page
  | .snapRelease tag => takeSnapRelease tag
  | .loadBegin tag => takeLoadBegin tag
  | .loadLoop tag r => takeLoadLoop tag r
  | .loadFeeder tag r => takeLoadFeeder tag r
  | .loadHead tag r => takeLoadHead tag r
  | .loadFan tag r => takeLoadFan tag r
  | .loadZone tag r => takeLoadZone tag r
  | .loadSlot tag r => takeLoadSlot tag r
  | .loadLine tag r => takeLoadLine tag r
  | .loadAbandon tag => takeLoadAbandon tag
  | .loadCommit tag => takeLoadCommit tag
  | .restartKeep tag => takeRestartKeep tag
  | .restartClear tag => takeRestartClear tag
  | .manualEnter tag => takeManualEnter tag
  | .manualLeave tag => takeManualLeave tag
  | .discovered tag => takeDiscovered tag
  | .getHead tag n => takeGetHead tag n
  | .getZone tag n => takeGetZone tag n
  | .getFan tag n => takeGetFan tag n
  | .getGroup tag n => takeGetGroup tag n
  | .getQueue tag => takeGetQueue tag
  | .boost tag zones speed duration => takeBoost tag zones speed duration
  | .setLimits tag zone gas low1 high1 low2 high2 => takeSetLimits tag zone gas low1 high1 low2 high2
  | .setHold tag zone preload => takeSetHold tag zone preload
  | .setFan tag n setpoint => takeSetFan tag n setpoint
  | .clearFault tag n => takeClearFault tag n
  | .feeder tag code => takeFeeder tag code
  | .fireReset tag lines => takeFireReset tag lines
  | .itemRead tag address item => takeItemRead tag address item
  | .itemWrite tag address item value => takeItemWrite tag address item value
  | .groupRead tag group item => takeGroupRead tag group item
  | .groupWrite tag group item value => takeGroupWrite tag group item value
  | .serviceCancel tag => takeServiceCancel tag
  | _ => id

/-- One frame is lost (R189): the counter rises to 255 and then sets the flag. -/
def Link.discard (l : Link) : Link :=
  if l.discards < 255 then { l with discards := l.discards + 1 } else { l with saturated := true }

/-- A discard, counted. -/
def discard (s : State) : State := { s with link := s.link.discard }

/-- Take the oldest held frame (R190): reply kind, unknown kind, shape, hand-over. -/
def takeFrame (f : Frame) (s : State) : State :=
  if 0x80 ≤ f.kind then discard s
  else match layout f.kind with
    | none => take f.kind f.tag (fun t => .refuse t .unknownKind) s
    | some n =>
      if f.fields.length ≠ n ∨ listsFit f.kind f.fields = false then take f.kind f.tag (fun t => .badField t 0) s
      else match requestOf f.kind f.tag f.fields with
        | none => take f.kind f.tag (fun t => .badField t 1) s
        | some i => handToOwner i s

/-! ## Receiving (R186 to R188) -/

/-- Set the receiver's state. -/
def setRx (rx : Rx) (s : State) : State := { s with link := { s.link with rx := rx } }

/-- A good frame arrives at the receive buffer (R188): taken at once, held behind the frame being answered, or discarded. -/
def holdFrame (f : Frame) (s : State) : State :=
  match s.link.reply, s.link.waiting with
  | none, _ => takeFrame f s
  | some _, none => { s with link := { s.link with waiting := some f } }
  | some _, some _ => discard s

/-- The frame that the bytes after the length byte make, the CRC aside. -/
def frameOf (body : List Byte) : Frame := ⟨byteAt body 0, byteAt body 1, body.drop 2⟩

/-- A complete frame goes to the CRC check (R187): `content` is kind to last field, `check` the two CRC bytes. -/
def completeFrame (length : Nat) (content check : List Byte) (s : State) : State :=
  if b2 (crc (b1 length ++ content)).toNat = check then holdFrame (frameOf content) (setRx .hunting s)
  else discard (setRx .hunting s)

/-- A byte without a framing error is taken into the frame (R186). -/
def takeByte (length : Nat) (body : List Byte) (s : State) : State :=
  if body.length < length + 2 then setRx (.inFrame length body) s
  else completeFrame length (body.take length) (body.drop length) s

/-- A byte on RX (R186). -/
def receiveByte (byte : Byte) (framingError : Bool) (s : State) : State :=
  match s.link.rx with
  | .hunting => if byte = 0xC3 ∧ framingError = false then setRx .awaitLength s else s
  | .awaitLength =>
    if framingError = false ∧ within 2 250 byte.toNat = true then setRx (.inFrame byte.toNat []) s
    else discard (setRx .hunting s)
  | .inFrame length body =>
    if framingError then discard (setRx .hunting s) else takeByte length (body ++ [byte]) s

/-- More than 25 ms between two bytes of a frame (R186). -/
def gapTimeout (s : State) : State :=
  match s.link.rx with
  | .hunting => s
  | .awaitLength => discard (setRx .hunting s)
  | .inFrame _ _ => discard (setRx .hunting s)

/-- The last byte of a reply has been sent (R188, R191): its frame is released and the next held frame is taken. -/
def endReply (s : State) : State :=
  match s.link.reply with
  | none => s
  | some _ =>
    let t := { s with link := { s.link with reply := none, waiting := none } }
    match s.link.waiting with
    | none => t
    | some f => takeFrame f t

/-! ## Meanings -/

/-- HOST_BYTE_RECEIVED (R186; log 2). -/
def execHostByteReceived (byte : Byte) (framingError : Bool) (s : State) : Host.Outcome State Fault Refusal :=
  powered s (receiveByte byte framingError)
/-- INTER_BYTE_GAP_TIMEOUT (R186). -/
def execInterByteGapTimeout (s : State) : Host.Outcome State Fault Refusal := powered s gapTimeout
/-- REPLY_SENT (R191; log 2). -/
def execReplySent (s : State) : Host.Outcome State Fault Refusal := powered s endReply

end Sys2Proof.Machine
end

