-- ==== Sys2Proof/Machine/Dispatch.lean ====
section
/-! DEFINITION. One arm for each command: a direct call of its meaning. -/

namespace Sys2Proof.Machine

def exec (i : Instr) (s : State) : Host.Outcome State Fault Refusal :=
  match i with
  | .powerOn straps => Sys2Proof.Machine.execPowerOn straps s
  | .pinReset => Sys2Proof.Machine.execPinReset s
  | .hostByteReceived byte framingError => Sys2Proof.Machine.execHostByteReceived byte framingError s
  | .interByteGapTimeout => Sys2Proof.Machine.execInterByteGapTimeout s
  | .replySent => Sys2Proof.Machine.execReplySent s
  | .identify tag => Sys2Proof.Machine.execIdentify tag s
  | .linkStatus tag => Sys2Proof.Machine.execLinkStatus tag s
  | .fetch tag count => Sys2Proof.Machine.execFetch tag count s
  | .snapTake tag => Sys2Proof.Machine.execSnapTake tag s
  | .snapRead tag page => Sys2Proof.Machine.execSnapRead tag page s
  | .snapRelease tag => Sys2Proof.Machine.execSnapRelease tag s
  | .loadBegin tag => Sys2Proof.Machine.execLoadBegin tag s
  | .loadLoop tag record => Sys2Proof.Machine.execLoadLoop tag record s
  | .loadFeeder tag record => Sys2Proof.Machine.execLoadFeeder tag record s
  | .loadHead tag record => Sys2Proof.Machine.execLoadHead tag record s
  | .loadFan tag record => Sys2Proof.Machine.execLoadFan tag record s
  | .loadZone tag record => Sys2Proof.Machine.execLoadZone tag record s
  | .loadSlot tag record => Sys2Proof.Machine.execLoadSlot tag record s
  | .loadLine tag record => Sys2Proof.Machine.execLoadLine tag record s
  | .loadAbandon tag => Sys2Proof.Machine.execLoadAbandon tag s
  | .loadCommit tag => Sys2Proof.Machine.execLoadCommit tag s
  | .restartKeep tag => Sys2Proof.Machine.execRestartKeep tag s
  | .restartClear tag => Sys2Proof.Machine.execRestartClear tag s
  | .manualEnter tag => Sys2Proof.Machine.execManualEnter tag s
  | .manualLeave tag => Sys2Proof.Machine.execManualLeave tag s
  | .discovered tag => Sys2Proof.Machine.execDiscovered tag s
  | .getHead tag head => Sys2Proof.Machine.execGetHead tag head s
  | .getZone tag zone => Sys2Proof.Machine.execGetZone tag zone s
  | .getFan tag channel => Sys2Proof.Machine.execGetFan tag channel s
  | .getGroup tag group => Sys2Proof.Machine.execGetGroup tag group s
  | .getQueue tag => Sys2Proof.Machine.execGetQueue tag s
  | .boost tag zones speed duration => Sys2Proof.Machine.execBoost tag zones speed duration s
  | .setLimits tag zone gas low1 high1 low2 high2 => Sys2Proof.Machine.execSetLimits tag zone gas low1 high1 low2 high2 s
  | .setHold tag zone preload => Sys2Proof.Machine.execSetHold tag zone preload s
  | .setFan tag channel setpoint => Sys2Proof.Machine.execSetFan tag channel setpoint s
  | .clearFault tag channel => Sys2Proof.Machine.execClearFault tag channel s
  | .feeder tag state => Sys2Proof.Machine.execFeeder tag state s
  | .fireReset tag lines => Sys2Proof.Machine.execFireReset tag lines s
  | .itemRead tag address item => Sys2Proof.Machine.execItemRead tag address item s
  | .itemWrite tag address item value => Sys2Proof.Machine.execItemWrite tag address item value s
  | .groupRead tag group item => Sys2Proof.Machine.execGroupRead tag group item s
  | .groupWrite tag group item value => Sys2Proof.Machine.execGroupWrite tag group item value s
  | .serviceCancel tag => Sys2Proof.Machine.execServiceCancel tag s
  | .cycleBegin => Sys2Proof.Machine.execCycleBegin s
  | .pollSlotEnd reply => Sys2Proof.Machine.execPollSlotEnd reply s
  | .commandSlotEnd reply => Sys2Proof.Machine.execCommandSlotEnd reply s
  | .serviceSlotEnd reply => Sys2Proof.Machine.execServiceSlotEnd reply s
  | .secondsTick => Sys2Proof.Machine.execSecondsTick s
  | .settleExpiry channel => Sys2Proof.Machine.execSettleExpiry channel s
  | .damperTimerExpiry channel => Sys2Proof.Machine.execDamperTimerExpiry channel s
  | .coastTimerExpiry channel => Sys2Proof.Machine.execCoastTimerExpiry channel s
  | .holdExpiry zone => Sys2Proof.Machine.execHoldExpiry zone s
  | .boostExpiry zone => Sys2Proof.Machine.execBoostExpiry zone s
  | .graceExpiry zone => Sys2Proof.Machine.execGraceExpiry zone s
  | .collectionExpiry => Sys2Proof.Machine.execCollectionExpiry s
  | .queueStall => Sys2Proof.Machine.execQueueStall s
  | .fireLineLevelChange line level => Sys2Proof.Machine.execFireLineLevelChange line level s
  | .fireLineAccepted line => Sys2Proof.Machine.execFireLineAccepted line s
  | .commitLevelLatch => Sys2Proof.Machine.execCommitLevelLatch s
  | .restartProvisionalMake => Sys2Proof.Machine.execRestartProvisionalMake s
  | .feedLevelChange level => Sys2Proof.Machine.execFeedLevelChange level s
  | .feedAccepted => Sys2Proof.Machine.execFeedAccepted s
  | .pinResetEnd straps => Sys2Proof.Machine.execPinResetEnd straps s
  | .supplyLoss => Sys2Proof.Machine.execSupplyLoss s

end Sys2Proof.Machine
end

