-- ==== Sys2Proof/Machine/Step.lean ====
section
/-! DEFINITION. One step: the command at the front of the queue, or a tenth of a second when the queue is empty. -/

namespace Sys2Proof.Machine

/-- One step (log 3, log 29). -/
def step (s : State) : Host.Outcome State Fault Refusal :=
  match s.pending with
  | [] => Sys2Proof.Machine.idleStep s
  | i :: rest => exec i { s with pending := rest }

/-- The state with the command a word spells at the front of its queue; no word spells one (log 29). -/
def State.withFetchWord (s : State) (nbits w : Nat) : State :=
  match decodeTableWord nbits w with
  | some i => { s with pending := i :: s.pending }
  | none => s

end Sys2Proof.Machine
end

