-- ==== Sys2Proof/Machine/Flags.lean ====
section
/-! DEFINITION. The three status lines and the conditions behind them (R131, R200, R201, R210). They are computed from the state, so
each changes at the event that changes its condition. -/

namespace Sys2Proof.Machine

/-- A channel in FAULT or LOST holds a FAULT condition (R100). -/
def Channel.faulty (c : Channel) : Bool :=
  match c.state with
  | .fault => true
  | .lost => true
  | _ => false

/-- A head in LOST or FAULTY holds a FAULT condition (R38). -/
def Head.faulty (h : Head) : Bool :=
  match h.state with
  | .lost => true
  | .faulty => true
  | _ => false

/-- A zone in BLIND holds a FAULT condition (R68). -/
def Zone.faulty (z : Zone) : Bool :=
  match z.state with
  | .blind => true
  | _ => false

/-- Whether any FAULT condition stands (R201). -/
def State.faultStands (s : State) : Bool :=
  decide (s.loop.state = .down) || s.channels.any Channel.faulty || s.heads.any Head.faulty || s.zones.any Zone.faulty

/-- Whether the outputs are out of their reset levels (R210). -/
def State.outputsFree (s : State) : Bool := decide (s.power = .running)

/-- ATTN asserted: the ring holds a notice (R200). -/
def State.attn (s : State) : Bool := s.outputsFree && !s.ring.notices.isEmpty

/-- FAULT asserted (R201). -/
def State.fault (s : State) : Bool := s.outputsFree && s.faultStands

/-- FIRE_ON asserted: the latch list holds an entry (R131). -/
def State.fireOn (s : State) : Bool := s.outputsFree && s.anyLatch

/-- Level of the ATTN pin: open drain, active low (R210). -/
def State.attnPin (s : State) : PinLevel := if s.attn then .low else .high

/-- Level of the FAULT pin: open drain, active low (R210). -/
def State.faultPin (s : State) : PinLevel := if s.fault then .low else .high

/-- Level of the FIRE_ON pin: push-pull, active high (R210). -/
def State.fireOnPin (s : State) : PinLevel := if s.fireOn then .high else .low

end Sys2Proof.Machine
end

