-- ==== Sys2Proof/Safety.lean ====
section
/-! DEFINITION. What the part keeps at every step: the laws the spec states of its ring, its tables, its latch list, its fire states,
its command images, its inrush units, its start queue and its claims; and the runs they are about. -/

namespace Sys2Proof.Machine

/-! ## Laws -/

/-- The ring never holds more than 64 notices, the loss count never exceeds 127, and the flag stands only at 127 (R196, R198). -/
def State.ringOk (s : State) : Prop :=
  s.ring.notices.length ≤ 64 ∧ s.ring.lost ≤ 127 ∧ (s.ring.saturated = true → s.ring.lost = 127)

/-- Active tables exist in RUN and MANUAL alone, staging tables in LOADING alone; in BLANK and LOADING there are no heads and no zones,
and every channel is provisional; in RUN and MANUAL every channel is configured (8.1, R44, R73, R103). -/
def State.tablesOk (s : State) : Prop :=
  (s.active.isSome = s.mode.scheduled) ∧ (s.staging.isSome = decide (s.mode = .loading))
  ∧ (s.mode.scheduled = false → s.heads = [] ∧ s.zones = [] ∧ s.handed = [])
  ∧ ∀ c ∈ s.channels, c.provisional = !s.mode.scheduled

/-- The eight lines have their runtimes, and a line stands in the latch list at most once (R126, R131). -/
def State.latchesOk (s : State) : Prop :=
  s.lines.map FireLine.line = List.range 8 ∧ s.latchedLines.Nodup ∧ ∀ l ∈ s.latchedLines, l < 8

/-- What R133 and R134 say of one zone under a latch list: it is in a fire state exactly when a latched line's plan names it, and then
the earliest such line governs it, with that plan's fire state and claim, and its conflict set is the one R134 defines. -/
def Zone.fireOk (records : List LineRecord) (latched : List Nat) (z : Zone) : Prop :=
  match governor records latched z.number with
  | none => z.state.isFire = false ∧ z.governing = none ∧ z.conflict = []
  | some (g, .extract speed) =>
    z.state = .fireExtract ∧ z.governing = some g ∧ z.claim = speed ∧ z.claimClass = .extract
      ∧ z.conflict = conflictSet records latched g z.number
  | some (g, .isolate) =>
    z.state = .fireIsolate ∧ z.governing = some g ∧ z.claim = 0 ∧ z.claimClass = .isolate
      ∧ z.conflict = conflictSet records latched g z.number

/-- Every zone follows the latch list (R133, R134); no zone exists without active tables. -/
def State.firesOk (s : State) : Prop :=
  (s.active = none → s.zones = []) ∧ ∀ z ∈ s.zones, z.fireOk s.lineRecords s.latchedLines

/-- A nonzero setpoint is commanded only with the damper OPEN, and only in STARTING, RUNNING or LOST (R81). -/
def Channel.commandOk (c : Channel) : Prop :=
  ∀ i, c.command = some i → i.setpoint ≠ 0 → i.damper = .opn ∧ (c.state = .starting ∨ c.state = .running ∨ c.state = .lost)

/-- Every channel's command image is safe (R81). -/
def State.commandsOk (s : State) : Prop := ∀ c ∈ s.channels, c.commandOk

/-- The costs of the channels that hold units (R106). -/
def holdersCost (channels : List Channel) : Nat := ((channels.filter Channel.holding).map fun c => c.record.cost).sum

/-- A settle timer runs only in a holding, a channel that has still to be granted holds nothing, and a STARTING channel holds its
units (R74, R88). -/
def Channel.holdingOk (c : Channel) : Prop :=
  (c.settle.isSome = true → c.holding = true) ∧ (c.state = .opening ∨ c.state = .queued → c.holding = false)
  ∧ (c.state = .starting → c.holding = true)

/-- `held` is the sum of the costs of the channels whose `holding` is true; the queue has one entry, with the channel's cost, for each
QUEUED channel and no other; staged and active channels stand under their numbers once (R105, R106, R171). -/
def State.unitsOk (s : State) : Prop :=
  s.held = holdersCost s.channels
  ∧ sorted Channel.number s.channels
  ∧ (s.queue.map QueueEntry.channel).Nodup
  ∧ (∀ e ∈ s.queue, ∃ c ∈ s.channels, c.number = e.channel ∧ c.state = .queued ∧ c.record.cost = e.cost)
  ∧ (∀ c ∈ s.channels, c.state = .queued → c.number ∈ s.queue.map QueueEntry.channel)
  ∧ (∀ c ∈ s.channels, c.holdingOk)
  ∧ ∀ st, s.staging = some st → sorted LoadFan.channel st.fans

/-- The head of the start queue alone has a head time and a stall to report (R119, R120). -/
def headed : List QueueEntry → Prop
  | [] => True
  | e :: rest => e.headTime ≠ none ∧ ∀ f ∈ rest, f.headTime = none ∧ f.stalled = false

/-- The start queue has its FIRE entries ahead of its NORMAL ones, each entry of its channel's class, and a head; no channel costs more
than the B in force, Br is at most B, and `held` never exceeds the B in force, 1 under the failsafe (R105 to R107, R119, R122). -/
def State.queueOk (s : State) : Prop :=
  s.queue.Pairwise (fun a b => b.cls = .fire → a.cls = .fire)
  ∧ (∀ e ∈ s.queue, ∀ c ∈ s.channels, c.number = e.channel → e.cls = c.cls.queueClass)
  ∧ headed s.queue
  ∧ s.held ≤ s.budget ∧ s.reduced ≤ s.budget ∧ ∀ c ∈ s.channels, c.record.cost ≤ s.budget

/-- A channel is resolved: its class, its target and its conflict are what its bound zones' claims, or the failsafe, ask of it, the
target 0 in FAULT (R77 to R80, R145). -/
def State.resolved (s : State) (c : Channel) : Prop :=
  c.cls = (s.demand c).cls ∧ c.target = (if c.state = .fault then 0 else (s.demand c).want)
  ∧ c.conflict = (s.demand c).conflict.isSome

/-- Every zone's claim has been handed over and every channel is resolved (R61, R79); staged and active zones stand under their numbers
once (R171). -/
def State.claimsOk (s : State) : Prop :=
  s.handed = s.zones.map Zone.handedClaim
  ∧ (∀ c ∈ s.channels, s.resolved c)
  ∧ sorted Zone.number s.zones
  ∧ ∀ st, s.staging = some st → sorted LoadZone.zone st.zones

/-- A law that every step keeps: it holds in every next state of a state in which it holds. -/
def Kept (law : State → Prop) : Prop := ∀ s t, law s → step s = .next t → law t

/-! ## Runs -/

/-- The states a run of `n` steps can reach. -/
inductive Reaches : Nat → State → State → Prop where
  | refl (s : State) : Reaches 0 s s
  | step {n : Nat} {s t u : State} : Reaches n s t → step t = .next u → Reaches (n + 1) s u

end Sys2Proof.Machine
end

