-- ==== Sys2Proof/Certificates/Slice0/Obligations.lean ====
section
/-! DEFINITION. The statements for the provers: what the commands do, by the rules of spec/, and what every step keeps. The
statements name their next states in full wherever they can, so that each says its own frame. -/

namespace Sys2Proof.Claims

open Sys2Proof.Machine

/-! ## Words the statements share -/

/-- The reply a request ends with begins; nothing else of the state changes (R191). Where a reply is still in progress, which R190 rules
out for a frame, the new one takes its place: the model's choice for a request given as a command (log 1). -/
def replying (kind tag : Nat) (status : Status) (body : ReplyBody) (s : State) : State :=
  { s with link := { s.link with reply := some ⟨kind, tag, status, body⟩ } }

/-- One notice reaches the ring, stamped with the uptime (R197). -/
def noticed (n : NoticeBody) (s : State) : State := { s with ring := s.ring.append ⟨n, s.uptime⟩ }

/-- A frame is lost: the receiver hunts, the discard counter rises to 255 and then sets its flag (R186, R189). -/
def frameLost (s : State) : State :=
  { s with link := { s.link with
      rx := .hunting
      discards := if s.link.discards < 255 then s.link.discards + 1 else s.link.discards
      saturated := s.link.saturated || decide (255 ≤ s.link.discards) } }

/-- Every block empty and the loop before its first cycle; supply, RESET, cause and bit rate are given, the pins and the drives' side of
the loop stay as they are. -/
def bare (power : Power) (reset : PinLevel) (cause : ResetCause) (rate : BitRate) (s : State) : State :=
  { State.reset with
    power := power
    resetPin := reset
    resetCause := cause
    loop := { State.reset.loop with phase := .idle, polled := false, drives := s.loop.drives }
    feeder := ⟨.normal, .constrained, s.feeder.pin, none, none, 0⟩
    lines := s.lines.map fun l => ⟨l.line, l.pin, none, none, none, 0⟩
    link := ⟨.hunting, none, none, 0, false, rate⟩
    draws := s.draws
    pending := s.pending }

/-- The drives have heard a cycle mark (R19): each that took no command since the one before has missed a cycle more, at most 4. -/
def marked (period : Period) (d : Drives) : Drives where
  period := period
  silent := 0
  fresh := min (d.fresh + 1) 4
  sides := d.sides.map fun x => { x with missed := if x.taken then x.missed else min (x.missed + 1) 4, taken := false }

/-- The drive at an address has taken a command: its image stored, its count 0 (R18, R19). -/
def taken (address : Nat) (image : Image) (d : Drives) : Drives :=
  { d with sides := upsert DriveSide.address ⟨address, image, 0, true⟩ d.sides }

/-- The part as a reset ends: cycle 0 has begun, with the kind query of address 1 on the wire (R22, R13). -/
def risen (cause : ResetCause) (rate : BitRate) (s : State) : State :=
  { bare .running .high cause rate s with loop := { State.reset.loop with drives := marked .one s.loop.drives } }

/-- The commands that a part in reset or without supply still sees: its supply, its pins. -/
def reachesPins : Instr → Bool
  | .powerOn _ => true
  | .pinReset => true
  | .pinResetEnd _ => true
  | .supplyLoss => true
  | .fireLineLevelChange _ _ => true
  | .feedLevelChange _ => true
  | _ => false

/-- A presence mask: bit n is set when field n is given (R208). -/
def maskOf : List Bool → Nat
  | [] => 0
  | b :: l => b.toNat + 2 * maskOf l

/-- The ring after notices of one event, in order (R197). -/
def ringing (ns : List NoticeBody) (s : State) : Ring := ns.foldl (fun r n => r.append ⟨n, s.uptime⟩) s.ring

/-- Everything but the channels, the queue, the units and the ring is the same in two states, and the ring has taken nothing but FAN_STATE
and the channels' FIRE_CONFLICT. -/
def sameBesidesFans (s t : State) : Prop :=
  ∃ ns : List NoticeBody, (∀ n ∈ ns, (∃ c a b, n = .fanState c a b) ∨ ∃ c z, n = .channelConflict c z)
    ∧ t = { s with channels := t.channels, queue := t.queue, held := t.held, ring := ringing ns s }

/-- The miss limit in force for heads and configured channels (R25, R72). -/
def missLimitOf (s : State) : Nat :=
  match s.active with
  | some a => a.missLimit
  | none => 4

/-- What a start queue becomes when its head is given the head time and every other entry is without it (R119). -/
def headTimed : List QueueEntry → List QueueEntry
  | [] => []
  | e :: q => { e with headTime := some (e.headTime.getD 0) } :: q.map fun g => { g with headTime := none, stalled := false }

/-! ### What the channels do at one event -/

/-- One event over the channels: each does what `f` says, their notices are raised channel after channel (log 14), and the start queue
takes their changes together (R114). -/
def channelsDo (f : Channel → Eff) (s : State) : State :=
  applyChanges (s.channels.flatMap fun c => (f c).changes) { s with
    channels := s.channels.map fun c => (f c).ch
    ring := ringing (s.channels.flatMap fun c => (f c).notices) s }

/-- One event of the channel with a number. -/
def channelDoes (n : Nat) (f : Channel → Eff) : State → State :=
  channelsDo fun c => if c.record.channel = n then f c else ⟨c, [], []⟩

/-- The channels chosen are resolved in one event, each to what its claims, its manual setpoint or the failsafe ask (R79). -/
def resolving (choose : Channel → Bool) (s : State) : State :=
  channelsDo (fun c => if choose c then resolve false (s.demand c) c else ⟨c, [], []⟩) s

/-- The zones become `new`, zone for zone, in one event: the claims that differ are handed over together, the channels their zones bind are
resolved, and ZONE_STATE follows for each zone that has moved (R61, R67, R79). -/
def zonesBecome (new : List Zone) (s : State) : State :=
  let pairs := s.zones.zip new
  let changed := (pairs.filter fun p => p.1.claim ≠ p.2.claim ∨ p.1.claimClass ≠ p.2.claimClass).map fun p => p.2.record.zone
  let given := new.filter fun z => changed.contains z.record.zone
  let t := resolving (fun c => given.any fun z => z.record.fans.contains c.record.channel) { s with
    zones := new
    handed := given.foldl (fun l z => upsert HandedClaim.zone ⟨z.record.zone, z.claim, z.claimClass⟩ l) s.handed }
  { t with ring := ringing ((pairs.filter fun p => p.1.state ≠ p.2.state).map fun p =>
      .zoneState p.2.record.zone p.2.state p.2.coLevel p.2.no2Level) t }

/-- The settle timer of a channel that leaves its state: a start left before its acknowledgement loads it (R88, R93, R95). -/
def settleLeft (c : Channel) : Option Timer :=
  if c.state = .starting ∧ c.holding = true ∧ c.startAcked = false ∧ c.settle = none then some ⟨c.record.settle, false⟩ else c.settle

/-- A QUEUED channel that leaves its state leaves the start queue (R112). -/
def leaving (c : Channel) : List QueueChange := if c.state = .queued then [.leave c.record.channel] else []

/-- Entry to QUEUED (R87). -/
def toQueued (c : Channel) : Eff :=
  ⟨{ c with state := .queued, damper := none, coast := none, command := some ⟨0, .opn, c.cls.fallback⟩ }, [],
    [.join c.record.channel (if c.cls = .extract then .fire else .normal) c.record.cost]⟩

/-- The start sequence from OFF (R85): QUEUED where the last report shows the damper OPEN, else OPENING (R86). -/
def toStart (c : Channel) : Eff :=
  if c.report.map Report.damper = some .opn then toQueued c
  else ⟨{ c with
    state := .opening, damper := some ⟨c.record.damperTimeout, false⟩, command := some ⟨0, .opn, c.cls.fallback⟩ }, [], []⟩

/-- Entry to OFF (R85), and on at once where the target is above 0 and nothing is held. -/
def toOff (c : Channel) : Eff :=
  let off : Channel := { c with
    state := .off, faultCause := none, damper := none, coast := none, command := some ⟨0, .close, c.cls.fallback⟩ }
  let e : Eff := if 0 < c.target ∧ c.holding = false then toStart off else ⟨off, [], []⟩
  ⟨e.ch, .fanState c.record.channel .off c.state :: e.notices, leaving c ++ e.changes⟩

/-- Entry to STOPPING (R91). -/
def toStopping (c : Channel) : Channel :=
  { c with
    state := .stopping, settle := settleLeft c, coast := some ⟨c.record.coastTimeout, false⟩
    command := some ⟨0, .opn, c.cls.fallback⟩ }

/-- Entry to RUNNING (R90). -/
def toRunning (c : Channel) : Eff :=
  ⟨{ c with state := .running, damper := none, coast := none, command := some ⟨c.target, .opn, c.cls.fallback⟩ },
    [.fanState c.record.channel .running c.state], []⟩

/-- Entry to FAULT (R95). -/
def toFault (cause : FaultCause) (c : Channel) : Eff :=
  ⟨{ c with
      state := .fault, faultCause := some cause, target := 0, settle := settleLeft c, damper := none, coast := none
      command := some ⟨0, if c.cls = .isolate then .close else (c.command.map Image.damper).getD .close, c.cls.fallback⟩ },
    [.fanFault c.record.channel cause c.state], leaving c⟩

/-- Entry to LOST (R93); a channel that leaves FAULT has the target its claims want (the model's reading, log 32). -/
def toLost (want : Nat) (c : Channel) : Eff :=
  ⟨{ c with
      state := .lost, faultCause := none, recover := 0, settle := settleLeft c, damper := none, coast := none
      command := some (c.command.getD ⟨0, .close, c.cls.fallback⟩), target := if c.state = .fault then want else c.target },
    [.fanState c.record.channel .lost c.state], leaving c⟩

/-! ### What a latch does -/

/-- The channels after a drive without one has received a provisional channel under the lowest number free (R144). -/
def provided (channels : List Channel) (address : Nat) : List Channel :=
  if channels.any fun c => c.record.address == address then channels
  else match (List.range 24).find? fun n => !channels.any fun c => c.record.channel == n with
    | none => channels
    | some n => upsert (fun c => c.record.channel)
        ⟨⟨n, address, 0, 1, 5, 60, 30, 0, 100⟩, true, .sync, none, .normal, 0, none, none, none, 0, 0, false, false, false, none, none,
          none, none, 0, false, false⟩ channels

/-- The failsafe acts: every discovered drive has its channel while numbers last, and all are resolved (R144, R145). -/
def failsafeActs (s : State) : State :=
  resolving (fun _ => true) { s with
    channels := ((s.loop.discovered.filter fun d => d.kind = .drive).map Discovered.address).foldl provided s.channels }

/-- What the plan of a line assigns a zone (R132). -/
def planOf (s : State) (line zone : Nat) : Option Assignment :=
  match s.lineRecord line with
  | none => none
  | some r =>
    if r.extract.getLsbD zone then some (.extract r.speed) else if r.isolate.getLsbD zone then some .isolate else none

/-- A zone in the fire state that a line's plan assigns (R62, R133). -/
def inFire (line : Nat) (a : Assignment) (conflict : List Nat) (z : Zone) : Zone :=
  match a with
  | .extract speed =>
    { z with
      state := .fireExtract, governing := some line, hold := none, claim := speed, claimClass := .extract, conflict := conflict }
  | .isolate =>
    { z with
      state := .fireIsolate, governing := some line, hold := none, claim := 0, claimClass := .isolate, conflict := conflict }

/-- The plan of a line that has just latched is applied (R133, R134): the FIRE_CONFLICTs of the zones whose conflict set it joins, then
the zones it brings to a fire state. -/
def planActs (line : Nat) (s : State) : State :=
  let burning (z : Zone) : Bool := z.state = .fireExtract ∨ z.state = .fireIsolate
  let joins (z : Zone) : Bool := burning z && (planOf s line z.record.zone).isSome
    && z.governing.any fun g => planOf s g z.record.zone ≠ planOf s line z.record.zone
  zonesBecome
    (s.zones.map fun z => match planOf s line z.record.zone with
      | none => z
      | some a =>
        if joins z then { z with conflict := z.conflict ++ [line] } else if burning z then z else inFire line a [] z)
    { s with ring := ringing ((s.zones.filter joins).map fun z => .zoneConflict z.record.zone line) s }

/-- A latch sets, as one event (R131 to R134, R145, R165): the list, FIRE_LATCH, the plan or the failsafe, and the end of a write in
work, whose REMOTE_LAPSED stands last (the model's choice, log 14). -/
def latchSets (line : Nat) (cause : LatchCause) (s : State) : State :=
  let listed : State := { s with
    latches := s.latches ++ [⟨line, s.uptime, cause⟩], ring := ringing [.fireLatch line cause (s.latches.length + 1)] s }
  let t := if s.mode = .blank ∨ s.mode = .loading then failsafeActs listed else planActs line listed
  match t.slot with
  | .working k ms a f r =>
    if k.op = .itemWrite ∨ k.op = .groupWrite then { t with slot := .idle, ring := ringing [.remoteLapsed k.target k.op .fire] t }
    else { t with slot := .working k ms a f r }
  | _ => t

/-- Latches have been cleared (R139, R140): the zones whose governing line is gone pass to the earliest line left that names them, or
leave the fire states; the others lose the cleared lines from their conflict sets. The lines that join a set raise FIRE_CONFLICT in the
order of the list (log 28). -/
def zonesRelease (cleared : List Nat) (s : State) : State :=
  let left := s.latches.map Latch.line
  let passes (z : Zone) : Option (Nat × Assignment) :=
    left.findSome? fun l => (planOf s l z.record.zone).map fun a => (l, a)
  let against (g : Nat) (z : Zone) : List Nat :=
    left.filter fun l => l ≠ g ∧ planOf s l z.record.zone ≠ none ∧ planOf s l z.record.zone ≠ planOf s g z.record.zone
  let ungoverned (z : Zone) : Bool := z.governing.any fun g => cleared.contains g
  zonesBecome
    (s.zones.map fun z =>
      if z.governing = none then z
      else if ungoverned z then
        match passes z with
        | some (g, a) => inFire g a (against g z) z
        | none =>
          let blind := z.liveCount = 0 ∧ z.grace.remaining = 0
          { z with
            state := if blind then .blind else .runOn, governing := none, conflict := [], claimClass := .normal
            hold := if blind then none else some ⟨z.record.hold, false⟩
            claim := max (if blind then z.record.blind else z.record.stage1) ((z.boost.map Boost.speed).getD 0) }
      else { z with conflict := z.conflict.filter fun l => !cleared.contains l })
    { s with ring := ringing (s.zones.flatMap fun z =>
        if ungoverned z then match passes z with
          | some (g, _) => ((against g z).filter fun l => !z.conflict.contains l).map fun l => .zoneConflict z.record.zone l
          | none => []
        else []) s }

/-! ### The parts of a cycle -/

/-- What RESTART finds on the wire (R23). -/
def onTheWire (l : Loop) : Option Leftover :=
  match l.phase with
  | .idle => none
  | .polls _ _ => some .poll
  | .commands x _ => some (.command x)
  | .service _ => some .service

/-- `t` is `s` with its cycle completed (R6): the dead-cycle count and the loop state (R11), the next number, the close of a discovery
cycle in BLANK and LOADING (R13), the channels' counts of cycles, and in RUN and MANUAL, but for the commit's own cycle, the evaluation
of every zone (R47), whose notices are those of the channels and then ZONE_STATE for each zone that has moved (R67). LOOP_STATE stands
before them (log 14). -/
def CycleEnds (s t : State) : Prop :=
  let unloaded := s.mode = .blank ∨ s.mode = .loading
  let dark := s.loop.valid = false ∧ s.loop.polled = true
  let falls := dark ∧ s.loop.state = .running ∧ 2 ≤ s.loop.dead
  let loop : Loop := { s.loop with
    phase := .idle
    cycle := s.loop.cycle + 1
    dead := if s.loop.valid = true then 0 else if s.loop.polled = true then min (s.loop.dead + 1) 3 else s.loop.dead
    state := if falls then .down else s.loop.state
    pointer := if ¬ unloaded then s.loop.pointer else if s.loop.pointer = 3 then 0 else s.loop.pointer + 1
    sweep := if unloaded ∧ s.loop.pointer = 3 then s.loop.sweep + 1 else s.loop.sweep }
  let down : List NoticeBody := if falls then [.loopState .down s.loop.cycle] else []
  let counted (c : Channel) : Channel := { c with cyclesSince := min (c.cyclesSince + 1) 255 }
  let evaluated (z : Zone) : Zone := (z.refresh s.heads).decided
  (unloaded ∨ s.loop.orphan = true →
    t = { s with loop := loop, ring := ringing down s, channels := s.channels.map counted })
  ∧ (¬ unloaded → s.loop.orphan = false →
    t = { s with
      loop := loop, zones := s.zones.map evaluated, handed := t.handed, channels := t.channels, queue := t.queue, held := t.held
      ring := t.ring }
    ∧ t.channels.map (fun c => (c.record, c.cyclesSince)) = s.channels.map (fun c => (c.record, min (c.cyclesSince + 1) 255))
    ∧ (∃ fans : List NoticeBody,
        (∀ n ∈ fans, (∃ c a b, n = .fanState c a b) ∨ ∃ c z, n = .channelConflict c z)
        ∧ t.ring = ringing (down ++ fans ++ (s.zones.filter fun z => (evaluated z).state ≠ z.state).map fun z =>
            .zoneState z.record.zone (evaluated z).state (evaluated z).coLevel (evaluated z).no2Level) s)
    ∧ ((∀ z ∈ s.zones, (evaluated z).claim = z.claim ∧ (evaluated z).claimClass = z.claimClass) →
        t.handed = s.handed ∧ t.queue = s.queue ∧ t.held = s.held ∧ t.channels = s.channels.map counted)
    ∧ let u := zonesBecome (s.zones.map evaluated) { s with loop := loop, ring := ringing down s }
      t = { u with channels := u.channels.map counted })

/-- `t` is `s` with the fourth part of the cycle begun (R5, R159): the slot's attempt goes out and is marked as handed over; without one
the part is empty and the cycle is complete (R6). -/
def ServiceBegins (s t : State) : Prop :=
  (∀ k ms n r m, s.slot = .working k ms n false r → ms[r.length]? = some m →
    t = { s with
      loop := { s.loop with phase := .service ⟨m.address, k.item, k.value⟩ }, slot := .working k ms n true r })
  ∧ ((∀ k ms n r, s.slot = .working k ms n false r → ms[r.length]? = none) → CycleEnds s t)

/-- `t` is `s` with the command phase begun (R4, R17): the first command allotted goes out with its channel's image as it stands, the
others wait in order; with none allotted the fourth part begins. -/
def CommandsBegin (s t : State) : Prop :=
  (s.allotted = [] → ServiceBegins s t)
  ∧ ∀ n rest c i, s.allotted = n :: rest → lookup Channel.number n s.channels = some c → c.command = some i →
    t = { s with loop := { s.loop with phase := .commands ⟨some n, c.record.address, i⟩ rest } }

/-- The bytes of a frame after its length byte, last byte included, and what they say. -/
def frameFrom (bytes : List Byte) (length : Nat) : Frame :=
  ⟨((bytes.take length).getD 0 0).toNat, ((bytes.take length).getD 1 0).toNat, (bytes.take length).drop 2⟩

end Sys2Proof.Claims

section

open Sys2Proof Sys2Proof.Machine Sys2Proof.Claims

/-! ## The step, the resets and the status lines -/

/-- A step takes the command at the front of the queue and runs it on the state with the queue's rest. -/
def Obligations.StepRunsFrontCommand : Prop :=
  ∀ (c : Instr) (rest : List Instr) (s : State), s.pending = c :: rest → step s = exec c { s with pending := rest }

/-- The model's choice (log 3): on an empty queue a tenth of a second passes for the debounces of the fire lines and of FEED and, whether
or not the part runs, for the drives on the loop (log 24): a tenth beyond a whole period without a cycle mark is a lapse, at which every
drive has missed a cycle more (R19). Nothing else changes; in reset and without supply nothing of the part changes at all. -/
def Obligations.EmptyQueueStepIsATenth : Prop :=
  ∀ s : State, s.pending = [] →
    let d := s.loop.drives
    let whole := match d.period with | .half => 5 | .one => 10 | .two => 20
    let loop : Loop := { s.loop with drives :=
      if whole ≤ d.silent then { d with
        silent := 1, fresh := min (d.fresh + 1) 4, sides := d.sides.map fun x => { x with missed := min (x.missed + 1) 4 } }
      else { d with silent := d.silent + 1 } }
    (s.power = .running → step s = .next { s with
      loop := loop
      lines := s.lines.map fun l =>
        if l.accepted = none then { l with initialHeld := min (l.initialHeld + 1) 25 }
        else { l with heldFor := l.heldFor.map fun n => min (n + 1) 25 }
      feeder :=
        if s.feeder.accepted = none ∨ s.feeder.pendingLevel ≠ none then { s.feeder with heldFor := min (s.feeder.heldFor + 1) 5 }
        else s.feeder })
    ∧ (s.power ≠ .running → step s = .next { s with loop := loop })

/-- What reset leaves in every block, at the values the rules give. -/
def Obligations.ResetState : Prop :=
  State.reset.mode = .blank ∧ State.reset.resetCause = .power ∧ State.reset.uptime = 0
  ∧ State.reset.staging = none ∧ State.reset.active = none
  ∧ State.reset.loop.cycle = 0 ∧ State.reset.loop.state = .running ∧ State.reset.loop.dead = 0
  ∧ State.reset.loop.mark = ⟨0, .one⟩ ∧ State.reset.loop.pointer = 0 ∧ State.reset.loop.sweep = 0
  ∧ State.reset.loop.discovered = []
  ∧ State.reset.loop.phase = .polls ⟨1, .any⟩ ((List.range 15).map fun n => ⟨n + 2, .any⟩)
  ∧ State.reset.heads = [] ∧ State.reset.zones = [] ∧ State.reset.handed = [] ∧ State.reset.channels = []
  ∧ State.reset.queue = [] ∧ State.reset.held = 0
  ∧ State.reset.feeder.line = .constrained ∧ State.reset.feeder.host = .normal ∧ State.reset.feeder.accepted = none
  ∧ State.reset.lines.map FireLine.line = [0, 1, 2, 3, 4, 5, 6, 7]
  ∧ (∀ l ∈ State.reset.lines, l.accepted = none ∧ l.pendingLevel = none ∧ l.heldFor = none)
  ∧ State.reset.latches = [] ∧ State.reset.slot = .idle ∧ State.reset.ring = ⟨[], 0, false⟩ ∧ State.reset.snapshot = none
  ∧ State.reset.link.rx = .hunting ∧ State.reset.link.waiting = none ∧ State.reset.link.reply = none
  ∧ State.reset.link.discards = 0 ∧ State.reset.link.saturated = false ∧ State.reset.pending = []
  ∧ State.reset.attnPin = .high ∧ State.reset.faultPin = .high ∧ State.reset.fireOnPin = .low

/-- Power-on with RESET high empties every block, samples the straps, records POWER and begins cycle 0; with RESET low the part waits
in reset and will report POWER (log 8 names the values held meanwhile). -/
def Obligations.PowerOnBeginsCycleZero : Prop :=
  ∀ s : State,
    (s.resetPin = .high →
      exec (.powerOn ⟨.low, .low⟩) s = .next (risen .power .b19200 s)
      ∧ exec (.powerOn ⟨.low, .high⟩) s = .next (risen .power .b38400 s)
      ∧ exec (.powerOn ⟨.high, .low⟩) s = .next (risen .power .b57600 s)
      ∧ exec (.powerOn ⟨.high, .high⟩) s = .next (risen .power .b115200 s))
    ∧ (s.resetPin = .low → ∀ straps,
      exec (.powerOn straps) s = .next (bare (.inReset .power) .low s.resetCause s.link.rate s))

/-- A pin reset empties every block while RESET is low and ends with the straps sampled, the cause PIN (POWER when the reset was held
through a power-on) and cycle 0; the supply's loss empties every block; without supply RESET only changes its level. In reset and
without supply every command but the events of the supply and of the pins changes nothing (the model's choice, log 7). -/
def Obligations.PinResetAndSupplyLoss : Prop :=
  ∀ s : State,
    (s.power = .running → exec .pinReset s = .next (bare (.inReset .pin) .low s.resetCause s.link.rate s))
    ∧ (s.power ≠ .running → exec .pinReset s = .next { s with resetPin := .low })
    ∧ (∀ cause, s.power = .inReset cause →
        exec (.pinResetEnd ⟨.low, .low⟩) s = .next (risen cause .b19200 s)
        ∧ exec (.pinResetEnd ⟨.low, .high⟩) s = .next (risen cause .b38400 s)
        ∧ exec (.pinResetEnd ⟨.high, .low⟩) s = .next (risen cause .b57600 s)
        ∧ exec (.pinResetEnd ⟨.high, .high⟩) s = .next (risen cause .b115200 s))
    ∧ (∀ straps, (∀ cause, s.power ≠ .inReset cause) → exec (.pinResetEnd straps) s = .next { s with resetPin := .high })
    ∧ exec .supplyLoss s = .next (bare .off s.resetPin s.resetCause s.link.rate s)
    ∧ ∀ c : Instr, s.power ≠ .running → reachesPins c = false → exec c s = .next s

/-- ATTN is low exactly while a running part's ring holds a notice, FAULT exactly while a FAULT condition stands, and FIRE_ON is high
exactly while the latch list holds an entry; in reset and without supply all three rest. -/
def Obligations.StatusLinesFollowConditions : Prop :=
  ∀ s : State,
    (s.attnPin = .low ↔ s.power = .running ∧ s.ring.notices ≠ [])
    ∧ (s.faultPin = .low ↔ s.power = .running
        ∧ (s.loop.state = .down ∨ (∃ c ∈ s.channels, c.state = .fault ∨ c.state = .lost)
            ∨ (∃ h ∈ s.heads, h.state = .lost ∨ h.state = .faulty) ∨ ∃ z ∈ s.zones, z.state = .blind))
    ∧ (s.fireOnPin = .high ↔ s.power = .running ∧ s.latches ≠ [])

/-! ## The host link -/

/-- What the receiver does with a byte that does not complete a frame (R186). -/
def Obligations.ReceiverTakesBytes : Prop :=
  ∀ (b : Byte) (e : Bool) (s : State), s.power = .running →
    (s.link.rx = .hunting → b = 0xC3 → e = false →
      exec (.hostByteReceived b e) s = .next { s with link := { s.link with rx := .awaitLength } })
    ∧ (s.link.rx = .hunting → b ≠ 0xC3 ∨ e = true → exec (.hostByteReceived b e) s = .next s)
    ∧ (s.link.rx = .awaitLength → 2 ≤ b.toNat → b.toNat ≤ 250 → e = false →
      exec (.hostByteReceived b e) s = .next { s with link := { s.link with rx := .inFrame b.toNat [] } })
    ∧ (s.link.rx = .awaitLength → b.toNat < 2 ∨ 250 < b.toNat ∨ e = true →
      exec (.hostByteReceived b e) s = .next (frameLost s))
    ∧ ∀ n body, s.link.rx = .inFrame n body →
      (e = true → exec (.hostByteReceived b e) s = .next (frameLost s))
      ∧ (e = false → body.length + 1 < n + 2 →
        exec (.hostByteReceived b e) s = .next { s with link := { s.link with rx := .inFrame n (body ++ [b]) } })

/-- The byte that completes a frame: a wrong CRC loses the frame; a good frame is held behind the one being answered, and lost when
one is held there already (R187 to R189). -/
def Obligations.CompleteFrameIsCheckedAndHeld : Prop :=
  ∀ (b : Byte) (n : Nat) (body : List Byte) (s : State), s.power = .running → s.link.rx = .inFrame n body →
    (body ++ [b]).length = n + 2 →
      ((body ++ [b]).drop n ≠ b2 (crc (BitVec.ofNat 8 n :: (body ++ [b]).take n)).toNat →
        exec (.hostByteReceived b false) s = .next (frameLost s))
      ∧ ((body ++ [b]).drop n = b2 (crc (BitVec.ofNat 8 n :: (body ++ [b]).take n)).toNat → s.link.reply ≠ none →
        (s.link.waiting = none → exec (.hostByteReceived b false) s =
          .next { s with link := { s.link with rx := .hunting, waiting := some (frameFrom (body ++ [b]) n) } })
        ∧ (s.link.waiting ≠ none → exec (.hostByteReceived b false) s = .next (frameLost s)))

/-- A good frame that finds no reply in progress is taken at once: a reply kind is lost, a code that names no request is answered
UNKNOWN_KIND, a wrong shape BAD_FIELD with 0 (LENGTH), an option of RESTART beyond its list BAD_FIELD with 1, and any other frame does
exactly what the request it spells does (R190; log 2). -/
def Obligations.TakenFrameDoesItsRequest : Prop :=
  ∀ (b : Byte) (n : Nat) (body : List Byte) (s : State), s.power = .running → s.link.rx = .inFrame n body →
    (body ++ [b]).length = n + 2 →
    (body ++ [b]).drop n = b2 (crc (BitVec.ofNat 8 n :: (body ++ [b]).take n)).toNat → s.link.reply = none →
      let f := frameFrom (body ++ [b]) n
      let t : State := { s with link := { s.link with rx := .hunting } }
      (0x80 ≤ f.kind → exec (.hostByteReceived b false) s = .next (frameLost s))
      ∧ (f.kind < 0x80 → layout f.kind = none →
        exec (.hostByteReceived b false) s = .next (replying f.kind f.tag .unknownKind .none t))
      ∧ ∀ size, f.kind < 0x80 → layout f.kind = some size →
        (f.fields.length ≠ size ∨ listsFit f.kind f.fields = false →
          exec (.hostByteReceived b false) s = .next (replying f.kind f.tag .badField (.badField 0) t))
        ∧ (f.fields.length = size → listsFit f.kind f.fields = true →
          (requestOf f.kind f.tag f.fields = none →
            exec (.hostByteReceived b false) s = .next (replying f.kind f.tag .badField (.badField 1) t))
          ∧ ∀ i, requestOf f.kind f.tag f.fields = some i → exec (.hostByteReceived b false) s = exec i t)

/-- A gap of more than 25 ms loses a frame in progress and nothing else; the end of a reply releases its frame, and the frame held
behind it is taken as R190 says: a reply kind is lost, a code that names no request is answered UNKNOWN_KIND, a wrong shape BAD_FIELD with
0 (LENGTH), an option of RESTART beyond its list BAD_FIELD with 1, and any other frame does what its request does (R186, R188, R191;
log 2). -/
def Obligations.GapsAndReplyEnds : Prop :=
  ∀ s : State, s.power = .running →
    (s.link.rx = .hunting → exec .interByteGapTimeout s = .next s)
    ∧ (s.link.rx ≠ .hunting → exec .interByteGapTimeout s = .next (frameLost s))
    ∧ (s.link.reply = none → exec .replySent s = .next s)
    ∧ (s.link.reply ≠ none → s.link.waiting = none → exec .replySent s = .next { s with link := { s.link with reply := none } })
    ∧ ∀ f, s.link.reply ≠ none → s.link.waiting = some f →
        let t : State := { s with link := { s.link with reply := none, waiting := none } }
        (0x80 ≤ f.kind → exec .replySent s = .next { t with link := { (frameLost t).link with rx := s.link.rx } })
        ∧ (f.kind < 0x80 → layout f.kind = none → exec .replySent s = .next (replying f.kind f.tag .unknownKind .none t))
        ∧ ∀ size, f.kind < 0x80 → layout f.kind = some size →
          (f.fields.length ≠ size ∨ listsFit f.kind f.fields = false →
            exec .replySent s = .next (replying f.kind f.tag .badField (.badField 0) t))
          ∧ (f.fields.length = size → listsFit f.kind f.fields = true →
            (requestOf f.kind f.tag f.fields = none →
              exec .replySent s = .next (replying f.kind f.tag .badField (.badField 1) t))
            ∧ ∀ i, requestOf f.kind f.tag f.fields = some i → exec .replySent s = exec i t)

/-- The frames of the requests spell the requests they stand for, every operand at every value its bytes hold, those of LOAD_* with any
fields left out by their presence masks and any bytes in their places; a reply on TX is start byte, length, kind + 80h, tag, status,
fields and CRC; a notice is a record of 11 bytes: kind, subject, detail1, the four bytes of detail2 in the places R208 fixes, and raised-at
(R191, R207, R208). The kinds R208 lists, and no other code, name a request, each with the number of field bytes listed; a shape fails by a
list exactly where a count is above the list's room (whether or not the mask names the list: the model's choice, log 34). Every frame the
part sends on the bay loop has the kind code, destination and fields of R209 in its bytes, sums to 0 modulo 256 and has the length its kind
code fixes; the CRC of the nine ASCII digits is 29B1h (R187). -/
def Obligations.FramesSpellAndCheck : Prop :=
  (∀ n : Nat, b1 n = [BitVec.ofNat 8 n] ∧ b2 n = [BitVec.ofNat 8 (n / 256), BitVec.ofNat 8 n]
    ∧ b4 n = [BitVec.ofNat 8 (n / 16777216), BitVec.ofNat 8 (n / 65536), BitVec.ofNat 8 (n / 256), BitVec.ofNat 8 n])
  ∧ (∀ m : CycleMark, byteSum m.frame = 0 ∧ m.frame.length = 6
    ∧ m.frame.dropLast = b1 0x01 ++ b1 0x00 ++ b2 m.number.toNat ++ b1 (match m.period with | .half => 0 | .one => 1 | .two => 2))
  ∧ (∀ p : Poll, byteSum p.frame = 0 ∧ p.frame.length = 3
    ∧ p.frame.dropLast = b1 (match p.expect with | .only .head => 0x02 | .only .drive => 0x03 | .any => 0x04) ++ b1 p.address)
  ∧ (∀ x : CommandExchange, byteSum x.frame = 0 ∧ x.frame.length = 6
    ∧ x.frame.dropLast = b1 0x05 ++ b1 x.address ++ b1 x.image.setpoint
        ++ b1 (match x.image.damper with | .opn => 0 | .close => 1)
        ++ b1 (match x.image.fallback with | .hold => 0 | .extract => 1 | .stop => 2))
  ∧ (∀ a : Attempt, byteSum a.frame = 0 ∧ (a.frame.length = if a.value = none then 4 else 6)
    ∧ (a.value = none → a.frame.dropLast = b1 0x06 ++ b1 a.address ++ b1 a.item)
    ∧ ∀ v, a.value = some v → a.frame.dropLast = b1 0x07 ++ b1 a.address ++ b1 a.item ++ b2 v)
  ∧ (∀ code size : Nat, layout code = some size ↔
    (size = 0 ∧ code ∈ [0x01, 0x02, 0x04, 0x06, 0x10, 0x18, 0x19, 0x1B, 0x1C, 0x20, 0x25, 0x44])
    ∨ (size = 1 ∧ code ∈ [0x03, 0x05, 0x1A, 0x21, 0x22, 0x23, 0x24, 0x34, 0x35, 0x36])
    ∨ (size = 2 ∧ code ∈ [0x33, 0x40, 0x42]) ∨ (size = 3 ∧ code = 0x32) ∨ (size = 4 ∧ code ∈ [0x11, 0x12, 0x41, 0x43])
    ∨ (size = 5 ∧ code = 0x30) ∨ (size = 6 ∧ code = 0x16) ∨ (size = 8 ∧ code = 0x13) ∨ (size = 10 ∧ code ∈ [0x17, 0x31])
    ∨ (size = 11 ∧ code = 0x14) ∨ (size = 35 ∧ code = 0x15))
  ∧ (∀ (code : Nat) (fields : List Byte), listsFit code fields = false ↔
    (code = 0x13 ∧ 2 < (fields.getD 5 0).toNat)
    ∨ (code = 0x15 ∧ (8 < (fields.getD 3 0).toNat ∨ 4 < (fields.getD 12 0).toNat)))
  ∧ crc [0x31, 0x32, 0x33, 0x34, 0x35, 0x36, 0x37, 0x38, 0x39] = 0x29B1
  ∧ (∀ tag : Nat,
    requestOf 0x01 tag [] = some (.identify tag) ∧ requestOf 0x02 tag [] = some (.linkStatus tag)
    ∧ requestOf 0x04 tag [] = some (.snapTake tag) ∧ requestOf 0x06 tag [] = some (.snapRelease tag)
    ∧ requestOf 0x10 tag [] = some (.loadBegin tag) ∧ requestOf 0x18 tag [] = some (.loadAbandon tag)
    ∧ requestOf 0x19 tag [] = some (.loadCommit tag) ∧ requestOf 0x1A tag [0] = some (.restartKeep tag)
    ∧ requestOf 0x1A tag [1] = some (.restartClear tag) ∧ requestOf 0x1B tag [] = some (.manualEnter tag)
    ∧ requestOf 0x1C tag [] = some (.manualLeave tag) ∧ requestOf 0x20 tag [] = some (.discovered tag)
    ∧ requestOf 0x25 tag [] = some (.getQueue tag) ∧ requestOf 0x44 tag [] = some (.serviceCancel tag)
    ∧ (∀ n, n < 256 →
      requestOf 0x03 tag [BitVec.ofNat 8 n] = some (.fetch tag n)
      ∧ requestOf 0x05 tag [BitVec.ofNat 8 n] = some (.snapRead tag n)
      ∧ requestOf 0x21 tag [BitVec.ofNat 8 n] = some (.getHead tag n)
      ∧ requestOf 0x22 tag [BitVec.ofNat 8 n] = some (.getZone tag n)
      ∧ requestOf 0x23 tag [BitVec.ofNat 8 n] = some (.getFan tag n)
      ∧ requestOf 0x24 tag [BitVec.ofNat 8 n] = some (.getGroup tag n)
      ∧ requestOf 0x34 tag [BitVec.ofNat 8 n] = some (.clearFault tag n)
      ∧ requestOf 0x35 tag [BitVec.ofNat 8 n] = some (.feeder tag n))
    ∧ (∀ lines : OctetSet, requestOf 0x36 tag [lines] = some (.fireReset tag lines))
    ∧ (∀ a c, a < 256 → c < 256 →
      requestOf 0x33 tag [BitVec.ofNat 8 a, BitVec.ofNat 8 c] = some (.setFan tag a c)
      ∧ requestOf 0x40 tag [BitVec.ofNat 8 a, BitVec.ofNat 8 c] = some (.itemRead tag a c)
      ∧ requestOf 0x42 tag [BitVec.ofNat 8 a, BitVec.ofNat 8 c] = some (.groupRead tag a c))
    ∧ (∀ a v, a < 256 → v < 65536 → requestOf 0x32 tag (BitVec.ofNat 8 a :: b2 v) = some (.setHold tag a v))
    ∧ (∀ a c v, a < 256 → c < 256 → v < 65536 →
      requestOf 0x41 tag (BitVec.ofNat 8 a :: BitVec.ofNat 8 c :: b2 v) = some (.itemWrite tag a c v)
      ∧ requestOf 0x43 tag (BitVec.ofNat 8 a :: BitVec.ofNat 8 c :: b2 v) = some (.groupWrite tag a c v))
    ∧ (∀ (zones : ZoneSet) speed duration, speed < 256 → duration < 65536 →
      requestOf 0x30 tag (b2 zones.toNat ++ b1 speed ++ b2 duration) = some (.boost tag zones speed duration))
    ∧ (∀ zone gas p q r t, zone < 256 → gas < 256 → p < 65536 → q < 65536 → r < 65536 → t < 65536 →
      requestOf 0x31 tag (b1 zone ++ b1 gas ++ b2 p ++ b2 q ++ b2 r ++ b2 t) = some (.setLimits tag zone gas p q r t))
    ∧ ∀ (n : Nat) (fill : List Byte), n < 256 →
      let byte (o : Option Nat) (i : Nat) : List Byte := [match o with | some v => BitVec.ofNat 8 v | none => fill.getD i 0]
      let set (o : Option Byte) (i : Nat) : List Byte := [o.getD (fill.getD i 0)]
      let word (o : Option Nat) (i : Nat) : List Byte := match o with | some v => b2 v | none => [fill.getD i 0, fill.getD (i + 1) 0]
      let list (room : Nat) (o : Option (List Nat)) (i : Nat) : List Byte := match o with
        | some l => (b1 l.length ++ l.map (BitVec.ofNat 8) ++ fill).take (room + 1)
        | none => ((fill ++ List.replicate 64 0).drop i).take (room + 1)
      let one (o : Option Nat) := ∀ v, o = some v → v < 256
      let two (o : Option Nat) := ∀ v, o = some v → v < 65536
      let many (room : Nat) (o : Option (List Nat)) := ∀ l, o = some l → l.length ≤ room ∧ ∀ v ∈ l, v < 256
      (∀ a b, one a → one b →
        requestOf 0x11 tag (b2 (maskOf [a.isSome, b.isSome]) ++ byte a 0 ++ byte b 1) = some (.loadLoop tag ⟨a, b⟩)
        ∧ requestOf 0x12 tag (b2 (maskOf [a.isSome, b.isSome]) ++ byte a 0 ++ byte b 1) = some (.loadFeeder tag ⟨a, b⟩))
      ∧ (∀ a g l, one a → many 2 l → 64 ≤ fill.length →
        requestOf 0x13 tag (b1 n ++ b2 (maskOf [a.isSome, g.isSome, l.isSome]) ++ byte a 0 ++ set g 1 ++ list 2 l 2) =
          some (.loadHead tag ⟨n, a, g, l⟩))
      ∧ (∀ a g c p d o lo hi, one a → one c → one p → one d → one o → one lo → one hi →
        requestOf 0x14 tag (b1 n
            ++ b2 (maskOf [a.isSome, g.isSome, c.isSome, p.isSome, d.isSome, o.isSome, lo.isSome, hi.isSome])
            ++ byte a 0 ++ set g 1 ++ byte c 2 ++ byte p 3 ++ byte d 4 ++ byte o 5 ++ byte lo 6 ++ byte hi 7) =
          some (.loadFan tag ⟨n, a, g, c, p, d, o, lo, hi⟩))
      ∧ (∀ h f a b c d e g i j p q r u w, many 8 h → many 4 f → 64 ≤ fill.length →
        two a → two b → two c → two d → one e → one g → one i → one j → one p → one q → one r → one u → two w →
        requestOf 0x15 tag (b1 n
            ++ b2 (maskOf [h.isSome, f.isSome, a.isSome, b.isSome, c.isSome, d.isSome, e.isSome, g.isSome, i.isSome, j.isSome,
                p.isSome, q.isSome, r.isSome, u.isSome, w.isSome])
            ++ list 8 h 0 ++ list 4 f 9 ++ word a 14 ++ word b 16 ++ word c 18 ++ word d 20
            ++ byte e 22 ++ byte g 23 ++ byte i 24 ++ byte j 25 ++ byte p 26 ++ byte q 27 ++ byte r 28 ++ byte u 29 ++ word w 30) =
          some (.loadZone tag ⟨n, h, f, ⟨a, b, c, d⟩, ⟨e, g, i, j⟩, p, q, r, u, w⟩))
      ∧ (∀ k d p, one k → one d → one p →
        requestOf 0x16 tag (b1 n ++ b2 (maskOf [k.isSome, d.isSome, p.isSome]) ++ byte k 0 ++ byte d 1 ++ byte p 2) =
          some (.loadSlot tag ⟨n, k, d, p⟩))
      ∧ ∀ t d (x i : Option ZoneSet) v, one t → one d → one v →
        requestOf 0x17 tag (b1 n ++ b2 (maskOf [t.isSome, d.isSome, x.isSome, i.isSome, v.isSome]) ++ byte t 0 ++ byte d 1
            ++ word (x.map BitVec.toNat) 2 ++ word (i.map BitVec.toNat) 4 ++ byte v 6) =
          some (.loadLine tag ⟨n, t, d, x, i, v⟩))
  ∧ (∀ (r : Reply) (l : Link),
    let content := b1 (r.kind + 0x80) ++ b1 r.tag ++ b1 r.status.code ++ r.body.bytes
    let covered := b1 content.length ++ content
    (l.reply = some r → l.tx = 0xC3 :: covered ++ b2 (crc covered).toNat) ∧ (l.reply = none → l.tx = []))
  ∧ ([Status.ok, .deferred, .busy, .wrongMode, .badField, .unknownKind, .notFound, .full, .invalid, .refusedFire, .refused,
      .held].map Status.code = [0x00, 0x01, 0x02, 0x10, 0x11, 0x12, 0x13, 0x14, 0x15, 0x16, 0x17, 0x18])
  ∧ (∀ n : Notice, n.bytes = b1 n.body.code ++ n.body.fields ++ b4 n.raisedAt.toNat ∧ n.bytes.length = 11)
  ∧ ∀ (a b c d : Nat) (o p : Option Nat) (u : Uptime),
    (∀ s, (NoticeBody.zoneState a s o p).code = 0x01) ∧ (∀ s t, (NoticeBody.fanState a s t).code = 0x02)
    ∧ (∀ x s, (NoticeBody.fanFault a x s).code = 0x03) ∧ (∀ s t, (NoticeBody.headState a s t).code = 0x04)
    ∧ (∀ s t, (NoticeBody.kindMismatch a s t).code = 0x05) ∧ (∀ s, (NoticeBody.headCalDue a s b).code = 0x06)
    ∧ (∀ s k, (NoticeBody.loopState s k).code = 0x07) ∧ (∀ x, (NoticeBody.fireLatch a x b).code = 0x08)
    ∧ (NoticeBody.fireClear a b u).code = 0x09 ∧ (NoticeBody.zoneConflict a b).code = 0x0A
    ∧ (NoticeBody.channelConflict a b).code = 0x0A ∧ (NoticeBody.queueStall a b c).code = 0x0B
    ∧ (∀ x, (NoticeBody.remoteReady a x b).code = 0x0C) ∧ (∀ x y, (NoticeBody.remoteLapsed a x y).code = 0x0D)
    ∧ (∀ x y z, (NoticeBody.feederState x y z).code = 0x0E) ∧ (∀ x y, (NoticeBody.mode x y).code = 0x0F)
    ∧ (∀ s, (NoticeBody.boostEnd a d s).code = 0x10)
    ∧ (∀ s, (NoticeBody.zoneState a s o p).fields = b1 a ++ b1 s.code
        ++ (match o with | some v => b2 v | none => [0xFF, 0xFF]) ++ (match p with | some v => b1 v | none => [0xFF]) ++ [0])
    ∧ (∀ s t, (NoticeBody.fanState a s t).fields = b1 a ++ b1 s.code ++ b4 t.code)
    ∧ (∀ x s, (NoticeBody.fanFault a x s).fields = b1 a ++ b1 x.code ++ b4 s.code)
    ∧ (∀ s t, (NoticeBody.headState a s t).fields = b1 a ++ b1 s.code ++ b4 t.code)
    ∧ (∀ s t : DeviceKind, (NoticeBody.kindMismatch a s t).fields = b1 a ++ b1 s.code ++ b4 t.code)
    ∧ (∀ s, (NoticeBody.headCalDue a s b).fields = b1 a ++ b1 s.code ++ b4 b)
    ∧ (∀ s k, (NoticeBody.loopState s k).fields = b1 0 ++ b1 s.code ++ b4 k.toNat)
    ∧ (∀ x, (NoticeBody.fireLatch a x b).fields = b1 a ++ b1 x.code ++ b4 b)
    ∧ (NoticeBody.fireClear a b u).fields = b1 a ++ b1 b ++ b4 u.toNat
    ∧ (NoticeBody.zoneConflict a b).fields = b1 a ++ b1 0 ++ b4 b ∧ (NoticeBody.channelConflict a b).fields = b1 a ++ b1 1 ++ b4 b
    ∧ (NoticeBody.queueStall a b c).fields = b1 a ++ b1 b ++ b4 c
    ∧ (∀ x, (NoticeBody.remoteReady a x b).fields = b1 a ++ b1 x.code ++ b4 b)
    ∧ (∀ x y, (NoticeBody.remoteLapsed a x y).fields = b1 a ++ b1 x.code ++ b4 y.code)
    ∧ (∀ x y z, (NoticeBody.feederState x y z).fields = b1 0 ++ b1 x.code ++ [0, 0] ++ b1 y.code ++ b1 z.code)
    ∧ (∀ x y, (NoticeBody.mode x y).fields = b1 0 ++ b1 x.code ++ b4 y.code)
    ∧ (∀ s, (NoticeBody.boostEnd a d s).fields = b1 a ++ b1 d ++ b4 s.code)
    ∧ [ZoneState.quiet, .purge1, .purge2, .runOn, .blind, .fireExtract, .fireIsolate].map ZoneState.code = [0, 1, 2, 3, 4, 5, 6]
    ∧ [FanState.sync, .off, .opening, .queued, .starting, .running, .stopping, .fault, .lost].map FanState.code =
        [0, 1, 2, 3, 4, 5, 6, 7, 8]
    ∧ [HeadState.unseen, .warming, .live, .lost, .faulty].map HeadState.code = [0, 1, 2, 3, 4]
    ∧ [FaultCause.trip, .damper, .noStart, .stall].map FaultCause.code = [0, 1, 2, 3]
    ∧ [DeviceKind.head, .drive].map DeviceKind.code = [0, 1] ∧ [LoopState.running, .down].map LoopState.code = [0, 1]
    ∧ [FeederState.normal, .constrained].map FeederState.code = [0, 1] ∧ [LapseCause.collection, .fire].map LapseCause.code = [0, 1]
    ∧ [LatchCause.trigger .disabled, .trigger .levelHigh, .trigger .levelLow, .trigger .rising, .trigger .falling, .trigger .either,
        .failsafe].map LatchCause.code = [0, 1, 2, 3, 4, 5, 6]
    ∧ [Operation.itemRead, .itemWrite, .groupRead, .groupWrite].map Operation.code = [0, 1, 2, 3]
    ∧ [Mode.blank, .loading, .run, .manual].map Mode.code = [0, 1, 2, 3]

/-! ## Requests of the link, the ring and the snapshot buffer -/

/-- IDENTIFY answers OK with the fixed codes, mode, reset cause and uptime, and changes nothing else. -/
def Obligations.IdentifyReportsThePart : Prop :=
  (∀ (tag : Nat) (s : State), s.power = .running →
    exec (.identify tag) s = .next (replying 0x01 tag .ok (.identify s.mode s.resetCause s.uptime) s))
  ∧ ∀ (m : Mode) (c : ResetCause) (u : Uptime), (ReplyBody.identify m c u).bytes.take 5 = [0x3E, 0x51, 0x24, 0x16, 1]

/-- LINK_STATUS reports and clears the discard counter and its flag, with the bit rate and the frames held; while a reply is still in
progress, which R190 rules out for a frame, its reply takes that one's place and the frame it answers is the one counted (the model's
choice, log 1). -/
def Obligations.LinkStatusReportsAndClears : Prop :=
  ∀ (tag : Nat) (s : State), s.power = .running →
    exec (.linkStatus tag) s = .next
      (replying 0x02 tag .ok
        (.linkStatus s.link.discards s.link.saturated s.link.rate (if s.link.waiting = none then 1 else 2))
        { s with link := { s.link with discards := 0, saturated := false } })

/-- FETCH removes the oldest notices up to its count, gives them oldest first with what remains, and clears the loss count and flag; a
count outside 1 to 8 changes nothing. -/
def Obligations.FetchTakesTheOldest : Prop :=
  ∀ (tag count : Nat) (s : State), s.power = .running →
    (1 ≤ count → count ≤ 8 → exec (.fetch tag count) s = .next
      (replying 0x03 tag .ok
        (.fetch (s.ring.notices.take count) (s.ring.notices.length - count) s.ring.lost s.ring.saturated)
        { s with ring := ⟨s.ring.notices.drop count, 0, false⟩ }))
    ∧ (count < 1 ∨ 8 < count →
      exec (.fetch tag count) s = .next (replying 0x03 tag .badField (.badField 1) s))

/-- A notice joins a ring with room; at a full ring a non-fire notice is dropped, a fire notice displaces the oldest non-fire notice
or, where all 64 are fire notices, is dropped; each drop or displacement is one loss, counted to 127, never beyond it, and then
flagged; the FETCH that reports the count and the flag clears them. FIRE_LATCH, FIRE_CLEAR and FIRE_CONFLICT are the fire notices, the
other thirteen kinds are not. -/
def Obligations.RingTakesANotice : Prop :=
  ∀ (n : Notice) (r : Ring),
    let lost := if r.lost < 127 then r.lost + 1 else r.lost
    let flag := r.saturated || decide (127 ≤ r.lost)
    (r.notices.length < 64 → r.append n = { r with notices := r.notices ++ [n] })
    ∧ (64 ≤ r.notices.length → n.body.isFire = false → r.append n = ⟨r.notices, lost, flag⟩)
    ∧ (∀ before m after, 64 ≤ r.notices.length → n.body.isFire = true → r.notices = before ++ m :: after →
        (∀ k ∈ before, k.body.isFire = true) → m.body.isFire = false →
        r.append n = ⟨before ++ after ++ [n], lost, flag⟩)
    ∧ (64 ≤ r.notices.length → (∀ k ∈ r.notices, k.body.isFire = true) → r.append n = ⟨r.notices, lost, flag⟩)
    ∧ (r.lost ≤ 127 → (r.append n).lost ≤ 127)
    ∧ ((∀ z line, (NoticeBody.zoneConflict z line).isFire = true ∧ (NoticeBody.channelConflict z line).isFire = true)
      ∧ (∀ l c k, (NoticeBody.fireLatch l c k).isFire = true) ∧ (∀ l k u, (NoticeBody.fireClear l k u).isFire = true))
    ∧ (∀ (a b c : Nat) (o p : Option Nat),
      (∀ s, (NoticeBody.zoneState a s o p).isFire = false) ∧ (∀ s, (NoticeBody.boostEnd a b s).isFire = false)
      ∧ (∀ s t, (NoticeBody.headState a s t).isFire = false) ∧ (∀ s, (NoticeBody.headCalDue a s b).isFire = false)
      ∧ (∀ s t, (NoticeBody.kindMismatch a s t).isFire = false) ∧ (∀ s t, (NoticeBody.fanState a s t).isFire = false)
      ∧ (∀ x s, (NoticeBody.fanFault a x s).isFire = false) ∧ (∀ s k, (NoticeBody.loopState s k).isFire = false)
      ∧ (NoticeBody.queueStall a b c).isFire = false ∧ (∀ x y z, (NoticeBody.feederState x y z).isFire = false)
      ∧ (∀ x, (NoticeBody.remoteReady a x b).isFire = false) ∧ (∀ x y, (NoticeBody.remoteLapsed a x y).isFire = false)
      ∧ ∀ x y, (NoticeBody.mode x y).isFire = false)
    ∧ ∀ (tag count : Nat) (s : State), s.power = .running → 1 ≤ count → count ≤ 8 → ∃ t : State,
        exec (.fetch tag count) s = .next t ∧ t.ring.lost = 0 ∧ t.ring.saturated = false
          ∧ (t.link.reply.map Reply.body) =
            some (.fetch (s.ring.notices.take count) (s.ring.notices.length - count) s.ring.lost s.ring.saturated)

/-- SNAP_TAKE is refused without active tables, reports the age of an image already held, and otherwise takes the image; SNAP_READ
gives a page of the held image and the pages left, and the read that completes the 21 empties the buffer; SNAP_RELEASE empties it and
says what it found. The 21 pages are the summary, then 16 zones, 24 channels and 40 heads, each absent where not configured. -/
def Obligations.SnapshotIsTakenReadAndReleased : Prop :=
  ∀ (tag page : Nat) (s : State), s.power = .running →
    (20 < page → exec (.snapRead tag page) s = .next (replying 0x05 tag .badField (.badField 1) s))
    ∧ (page ≤ 20 → s.snapshot = none → exec (.snapRead tag page) s = .next (replying 0x05 tag .notFound .none s))
    ∧ (∀ held, page ≤ 20 → s.snapshot = some held →
        let read := if page ∈ held.read then held.read else held.read ++ [page]
        exec (.snapRead tag page) s = .next
          (replying 0x05 tag .ok (.snapPage (held.image.page page) held.takenAt (21 - read.length))
            { s with snapshot := if 21 ≤ read.length then none else some { held with read := read } }))
    ∧ exec (.snapRelease tag) s = .next
        (replying 0x06 tag .ok (.snapReleased (s.snapshot.map fun held => held.read.length)) { s with snapshot := none })
    ∧ (s.mode = .blank ∨ s.mode = .loading → exec (.snapTake tag) s = .next (replying 0x04 tag .wrongMode .none s))
    ∧ (s.mode = .run ∨ s.mode = .manual →
      (∀ held, s.snapshot = some held →
        exec (.snapTake tag) s = .next (replying 0x04 tag .held (.snapAge (s.uptime - held.takenAt)) s))
      ∧ (s.snapshot = none →
        exec (.snapTake tag) s =
          .next (replying 0x04 tag .ok (.snapTaken s.uptime) { s with snapshot := some ⟨s.image, s.uptime, []⟩ })))
    ∧ s.image.page 0 = .summary
      { mode := s.mode, feeder := s.feeder.effective, line := s.feeder.line, host := s.feeder.host, budget := s.budget,
        reduced := s.reduced, held := s.held, queue := s.queue, latches := s.latches, loop := s.loop.state,
        notices := s.ring.notices.length, lost := s.ring.lost, saturated := s.ring.saturated }
    ∧ (∀ p, p < 4 → s.image.page (1 + p) =
        .zones [s.zoneView? (4 * p), s.zoneView? (4 * p + 1), s.zoneView? (4 * p + 2), s.zoneView? (4 * p + 3)])
    ∧ (∀ p, p < 8 → s.image.page (5 + p) = .channels [s.fanView? (3 * p), s.fanView? (3 * p + 1), s.fanView? (3 * p + 2)])
    ∧ ∀ p, p < 8 → s.image.page (13 + p) =
        .heads [s.headView? (5 * p), s.headView? (5 * p + 1), s.headView? (5 * p + 2), s.headView? (5 * p + 3),
          s.headView? (5 * p + 4)]

/-! ## Loading a configuration -/

/-- LOAD_BEGIN makes empty staging tables in BLANK, LOAD_ABANDON discards them in LOADING; each raises MODE, leaves every other block
as it stands, and is refused in every other mode. -/
def Obligations.StagingBeginsAndIsAbandoned : Prop :=
  ∀ (tag : Nat) (s : State), s.power = .running →
    (s.mode = .blank → exec (.loadBegin tag) s = .next
      (replying 0x10 tag .ok .none
        (noticed (.mode .loading .blank) { s with mode := .loading, staging := some ⟨none, none, [], [], [], [], []⟩ })))
    ∧ (s.mode ≠ .blank → exec (.loadBegin tag) s = .next (replying 0x10 tag .wrongMode .none s))
    ∧ (s.mode = .loading → exec (.loadAbandon tag) s = .next
      (replying 0x18 tag .ok .none (noticed (.mode .blank .loading) { s with mode := .blank, staging := none })))
    ∧ (s.mode ≠ .loading → exec (.loadAbandon tag) s = .next (replying 0x18 tag .wrongMode .none s))

/-- LOAD_LOOP, LOAD_FEEDER and LOAD_LINE store their record in LOADING; outside it a good record is refused; a field outside its range
is answered BAD_FIELD and stores nothing, in every mode. -/
def Obligations.LoopFeederAndLineRecordsAreStaged : Prop :=
  ∀ (tag : Nat) (loop : LoadLoop) (feeder : LoadFeeder) (line : LoadLine) (s : State), s.power = .running →
    let loopGood := (∀ p, loop.period = some p → p ≤ 2) ∧ ∀ m, loop.missLimit = some m → 2 ≤ m ∧ m ≤ 15
    let feederGood := (∀ b, feeder.budget = some b → 1 ≤ b ∧ b ≤ 32) ∧ ∀ b, feeder.reduced = some b → b ≤ 32
    let lineGood := line.line ≤ 7 ∧ (∃ t, line.trigger = some t ∧ t ≤ 5) ∧ (∀ d, line.debounce = some d → 1 ≤ d ∧ d ≤ 25)
      ∧ ∀ v, line.speed = some v → 1 ≤ v ∧ v ≤ 100
    (∀ st, s.mode = .loading → s.staging = some st →
      (loopGood → exec (.loadLoop tag loop) s = .next
        (replying 0x11 tag .ok (.loaded st.loop.isSome 1) { s with staging := some { st with loop := some loop } }))
      ∧ (feederGood → exec (.loadFeeder tag feeder) s = .next
        (replying 0x12 tag .ok (.loaded st.feeder.isSome 1) { s with staging := some { st with feeder := some feeder } }))
      ∧ (lineGood → exec (.loadLine tag line) s = .next
        (replying 0x17 tag .ok (.loaded (hasKey LoadLine.line line.line st.lines) (upsert LoadLine.line line st.lines).length)
          { s with staging := some { st with lines := upsert LoadLine.line line st.lines } })))
    ∧ (s.mode ≠ .loading →
      (loopGood → exec (.loadLoop tag loop) s = .next (replying 0x11 tag .wrongMode .none s))
      ∧ (feederGood → exec (.loadFeeder tag feeder) s = .next (replying 0x12 tag .wrongMode .none s))
      ∧ (lineGood → exec (.loadLine tag line) s = .next (replying 0x17 tag .wrongMode .none s)))
    ∧ (¬ loopGood → ∃ p, exec (.loadLoop tag loop) s = .next (replying 0x11 tag .badField (.badField p) s))
    ∧ (¬ feederGood → ∃ p, exec (.loadFeeder tag feeder) s = .next (replying 0x12 tag .badField (.badField p) s))
    ∧ (¬ lineGood → ∃ p, exec (.loadLine tag line) s = .next (replying 0x17 tag .badField (.badField p) s))

/-- LOAD_HEAD, LOAD_FAN and LOAD_ZONE store their record under its key in LOADING; outside it a good record is refused; a field outside its
range or a required field left out is answered BAD_FIELD and stores nothing, in every mode. -/
def Obligations.HeadFanAndZoneRecordsAreStaged : Prop :=
  ∀ (tag : Nat) (head : LoadHead) (fan : LoadFan) (zone : LoadZone) (s : State), s.power = .running →
    let co (o : Option Nat) := ∀ v, o = some v → v ≤ 1000
    let no2 (o : Option Nat) := ∀ v, o = some v → v ≤ 250
    let speed (o : Option Nat) := ∀ v, o = some v → v ≤ 100
    let zoneGood := zone.zone ≤ 15
      ∧ (∃ l, zone.heads = some l ∧ 1 ≤ l.length ∧ l.length ≤ 8 ∧ (∀ h ∈ l, h ≤ 39) ∧ l.Nodup)
      ∧ (∃ l, zone.fans = some l ∧ 1 ≤ l.length ∧ l.length ≤ 4 ∧ (∀ c ∈ l, c ≤ 23) ∧ l.Nodup)
      ∧ co zone.co.low1 ∧ co zone.co.high1 ∧ co zone.co.low2 ∧ co zone.co.high2
      ∧ no2 zone.no2.low1 ∧ no2 zone.no2.high1 ∧ no2 zone.no2.low2 ∧ no2 zone.no2.high2
      ∧ speed zone.idle ∧ speed zone.stage1 ∧ speed zone.stage2 ∧ speed zone.blind
      ∧ ∀ n, zone.hold = some n → 10 ≤ n ∧ n ≤ 3600
    let headGood := head.head ≤ 39 ∧ (∃ a, head.address = some a ∧ 1 ≤ a ∧ a ≤ 63)
      ∧ (∃ g, head.gases = some g ∧ 1 ≤ g.toNat ∧ g.toNat ≤ 3)
      ∧ ∃ l, head.zones = some l ∧ 1 ≤ l.length ∧ l.length ≤ 2 ∧ (∀ z ∈ l, z ≤ 15) ∧ l.Nodup
    let fanGood := fan.channel ≤ 23 ∧ (∃ a, fan.address = some a ∧ 1 ≤ a ∧ a ≤ 63)
      ∧ (∀ c, fan.cost = some c → 1 ≤ c ∧ c ≤ 16) ∧ (∀ n, fan.settle = some n → 1 ≤ n ∧ n ≤ 30)
      ∧ (∀ n, fan.damperTimeout = some n → 10 ≤ n ∧ n ≤ 120) ∧ (∀ n, fan.coastTimeout = some n → 5 ≤ n ∧ n ≤ 120)
      ∧ (∀ v, fan.min = some v → v ≤ 100) ∧ ∀ v, fan.max = some v → v ≤ 100
    (∀ st, s.mode = .loading → s.staging = some st →
      (headGood → exec (.loadHead tag head) s = .next
        (replying 0x13 tag .ok (.loaded (hasKey LoadHead.head head.head st.heads) (upsert LoadHead.head head st.heads).length)
          { s with staging := some { st with heads := upsert LoadHead.head head st.heads } }))
      ∧ (fanGood → exec (.loadFan tag fan) s = .next
        (replying 0x14 tag .ok (.loaded (hasKey LoadFan.channel fan.channel st.fans) (upsert LoadFan.channel fan st.fans).length)
          { s with staging := some { st with fans := upsert LoadFan.channel fan st.fans } })))
    ∧ (s.mode ≠ .loading →
      (headGood → exec (.loadHead tag head) s = .next (replying 0x13 tag .wrongMode .none s))
      ∧ (fanGood → exec (.loadFan tag fan) s = .next (replying 0x14 tag .wrongMode .none s)))
    ∧ (¬ headGood → ∃ p, exec (.loadHead tag head) s = .next (replying 0x13 tag .badField (.badField p) s))
    ∧ (¬ fanGood → ∃ p, exec (.loadFan tag fan) s = .next (replying 0x14 tag .badField (.badField p) s))
    ∧ (∀ st, s.mode = .loading → s.staging = some st → zoneGood → exec (.loadZone tag zone) s = .next
      (replying 0x15 tag .ok (.loaded (hasKey LoadZone.zone zone.zone st.zones) (upsert LoadZone.zone zone st.zones).length)
        { s with staging := some { st with zones := upsert LoadZone.zone zone st.zones } }))
    ∧ (s.mode ≠ .loading → zoneGood → exec (.loadZone tag zone) s = .next (replying 0x15 tag .wrongMode .none s))
    ∧ (¬ zoneGood → ∃ p, exec (.loadZone tag zone) s = .next (replying 0x15 tag .badField (.badField p) s))

/-- LOAD_SLOT stores a good entry in LOADING while the staged schedule keeps to 40 HEAD and 24 DRIVE entries, answers FULL when it
would not, and is refused outside LOADING and for a field outside its range. -/
def Obligations.ScheduleEntriesAreStagedWithinCapacity : Prop :=
  ∀ (tag : Nat) (slot : LoadSlot) (s : State), s.power = .running →
    let divider := slot.divider.getD 1
    let good := 1 ≤ slot.address ∧ slot.address ≤ 63 ∧ (slot.kind = some 0 ∨ slot.kind = some 1)
      ∧ (divider = 1 ∨ divider = 2 ∨ divider = 4 ∨ divider = 8) ∧ ∀ p, slot.phase = some p → p < divider
    (∀ st, s.mode = .loading → s.staging = some st → good →
      let slots := upsert LoadSlot.address slot st.slots
      let heads := (slots.filter fun e => e.kind == some 0).length
      let drives := (slots.filter fun e => e.kind == some 1).length
      (heads ≤ 40 → drives ≤ 24 → exec (.loadSlot tag slot) s = .next
        (replying 0x16 tag .ok (.loadedSlot (hasKey LoadSlot.address slot.address st.slots) slots.length heads drives)
          { s with staging := some { st with slots := slots } }))
      ∧ (40 < heads ∨ 24 < drives → exec (.loadSlot tag slot) s = .next (replying 0x16 tag .full .none s)))
    ∧ (s.mode ≠ .loading → good → exec (.loadSlot tag slot) s = .next (replying 0x16 tag .wrongMode .none s))
    ∧ (¬ good → ∃ p, exec (.loadSlot tag slot) s = .next (replying 0x16 tag .badField (.badField p) s))

/-- LOAD_COMMIT is refused outside LOADING, while a latch is set (with the latched lines), and for a violation (the first); whatever
the free detail of MIN_ABOVE_MAX (log 13), it then leaves the staging tables and everything the spec names as they were. -/
def Obligations.CommitRefusalsChangeNothing : Prop :=
  ∀ (tag : Nat) (s : State), s.power = .running →
    (s.mode ≠ .loading → exec (.loadCommit tag) s = .next (replying 0x19 tag .wrongMode .none s))
    ∧ ∀ st, s.mode = .loading → s.staging = some st →
      (s.latches ≠ [] → exec (.loadCommit tag) s =
        .next (replying 0x19 tag .refusedFire (.latchedLines (s.latches.map Latch.line)) s))
      ∧ ∀ v rest, s.latches = [] → st.inForce.violations (Config.freeDetail s.draws) = v :: rest →
        ∃ draws, exec (.loadCommit tag) s = .next (replying 0x19 tag .invalid (.violation v) { s with draws := draws })

/-- The violations of a configuration, in R177's order with the reasons, keys and details of its table (entry by entry within a record,
log 16; the detail of MIN_ABOVE_MAX is whatever the free value is, log 13); and a configuration without violations is whole: there is a
zone, every reference resolves, heads and zones name each other, every channel is bound by 1 to 4 zones, every device has its one
schedule entry and every entry its device, addresses are unique, thresholds and budgets are in order, plans name configured zones once,
and no cycle issues more than 48 polls. -/
def Obligations.CleanValidationMeansAWholeConfiguration : Prop :=
  (∀ (free : Option Nat) (c : Loaded),
    let found (bad : Bool) (v : Violation) : List Violation := if bad then [v] else []
    let sharing (a : Nat) := (c.heads.filter fun h => h.address == a).length + (c.fans.filter fun f => f.address == a).length
    let slotAt (kind : RecordKind) (device : DeviceKind) (key a : Nat) : List Violation :=
      match c.slots.find? fun e => e.address == a with
      | none => [⟨kind, some key, .noSlot, some a⟩]
      | some e => found (decide (e.kind ≠ device)) ⟨kind, some key, .slotKind, some a⟩
    let binding (n : Nat) := (c.zones.filter fun z => z.fans.contains n).length
    let inOrder (l : Limits) := decide (l.low1 < l.high1 ∧ l.high1 ≤ l.low2 ∧ l.low2 < l.high2)
    c.violations free =
      found c.zones.isEmpty ⟨.config, none, .noZone, none⟩
      ++ found (decide (c.budget < c.reduced)) ⟨.feeder, none, .brAboveB, some c.reduced⟩
      ++ (c.zones.flatMap fun z =>
        ((ascending z.heads).flatMap fun n => match c.heads.find? fun h => h.head == n with
          | none => [⟨.zone, some z.zone, .missingHead, some n⟩]
          | some h => found (!h.zones.contains z.zone) ⟨.zone, some z.zone, .headNotLinked, some n⟩)
        ++ ((ascending z.fans).flatMap fun n =>
          found (!c.fans.any fun f => f.channel == n) ⟨.zone, some z.zone, .missingFan, some n⟩)
        ++ found (!inOrder z.co) ⟨.zone, some z.zone, .thresholdOrder, some 0⟩
        ++ found (!inOrder z.no2) ⟨.zone, some z.zone, .thresholdOrder, some 1⟩)
      ++ (c.heads.flatMap fun h => (ascending h.zones).flatMap fun n => match c.zones.find? fun z => z.zone == n with
          | none => [⟨.head, some h.head, .missingZone, some n⟩]
          | some z => found (!z.heads.contains h.head) ⟨.head, some h.head, .zoneNotLinked, some n⟩)
      ++ (c.fans.flatMap fun f =>
        found (decide (f.max < f.min)) ⟨.fan, some f.channel, .minAboveMax, free⟩
        ++ found (decide (c.budget < f.cost)) ⟨.fan, some f.channel, .costAboveB, some f.cost⟩
        ++ found (binding f.channel == 0) ⟨.fan, some f.channel, .unbound, some 0⟩
        ++ found (decide (4 < binding f.channel)) ⟨.fan, some f.channel, .overbound, some (binding f.channel)⟩)
      ++ (c.lines.flatMap fun l => ((List.range 16).filter fun n => l.extract.getLsbD n || l.isolate.getLsbD n).flatMap fun n =>
        found (!c.zones.any fun z => z.zone == n) ⟨.line, some l.line, .missingZone, some n⟩
        ++ found (l.extract.getLsbD n && l.isolate.getLsbD n) ⟨.line, some l.line, .planOverlap, some n⟩)
      ++ ((List.range' 1 63).flatMap fun a => found (decide (1 < sharing a)) ⟨.address, some a, .addressShared, some (sharing a)⟩)
      ++ (c.heads.flatMap fun h => slotAt .head .head h.head h.address)
      ++ (c.fans.flatMap fun f => slotAt .fan .drive f.channel f.address)
      ++ (c.slots.flatMap fun e => found (sharing e.address == 0)
          ⟨.slot, some e.address, .orphanSlot, some (if e.kind = .head then 0 else 1)⟩)
      ++ (List.range 8).flatMap fun r =>
        let polls := (c.slots.filter fun e => r % e.divider == e.phase).length
        found (decide (48 < polls)) ⟨.residue, some r, .pollsOverLimit, some polls⟩)
  ∧ ∀ (free : Option Nat) (c : Loaded), c.violations free = [] →
    c.zones ≠ [] ∧ c.reduced ≤ c.budget
    ∧ (∀ z ∈ c.zones, ∀ h ∈ z.heads, ∃ r ∈ c.heads, r.head = h ∧ z.zone ∈ r.zones)
    ∧ (∀ z ∈ c.zones, ∀ n ∈ z.fans, ∃ f ∈ c.fans, f.channel = n)
    ∧ (∀ z ∈ c.zones, z.co.low1 < z.co.high1 ∧ z.co.high1 ≤ z.co.low2 ∧ z.co.low2 < z.co.high2
        ∧ z.no2.low1 < z.no2.high1 ∧ z.no2.high1 ≤ z.no2.low2 ∧ z.no2.low2 < z.no2.high2)
    ∧ (∀ h ∈ c.heads, ∀ n ∈ h.zones, ∃ z ∈ c.zones, z.zone = n ∧ h.head ∈ z.heads)
    ∧ (∀ f ∈ c.fans, f.min ≤ f.max ∧ f.cost ≤ c.budget
        ∧ 1 ≤ (c.zones.filter fun z => f.channel ∈ z.fans).length ∧ (c.zones.filter fun z => f.channel ∈ z.fans).length ≤ 4)
    ∧ (∀ l ∈ c.lines, ∀ n, l.extract.getLsbD n = true ∨ l.isolate.getLsbD n = true →
        (∃ z ∈ c.zones, z.zone = n) ∧ ¬ (l.extract.getLsbD n = true ∧ l.isolate.getLsbD n = true))
    ∧ (∀ a, 1 ≤ a → a ≤ 63 →
        (c.heads.filter fun h => h.address == a).length + (c.fans.filter fun f => f.address == a).length ≤ 1)
    ∧ (∀ h ∈ c.heads, ∃ e ∈ c.slots, e.address = h.address ∧ e.kind = .head)
    ∧ (∀ f ∈ c.fans, ∃ e ∈ c.slots, e.address = f.address ∧ e.kind = .drive)
    ∧ (∀ e ∈ c.slots, (∃ h ∈ c.heads, h.address = e.address) ∨ ∃ f ∈ c.fans, f.address = e.address)
    ∧ ((∀ e ∈ c.slots, e.divider = 1 ∨ e.divider = 2 ∨ e.divider = 4 ∨ e.divider = 8) →
        ∀ cycle : Nat, (c.slots.filter fun e => cycle % e.divider == e.phase).length ≤ 48)

/-- A commit without violations writes the tables, discards the staging, enters RUN, ends discovery and the start queue, gives every
head, zone and channel its initial runtime (the channels resolved once, in SYNC), holds the initial claims and raises MODE last. The
lines whose level trigger the accepted level then meets are due to be latched by events of their own (the model's choice, log 21); a
command on the wire loses its channel and the rest of its phase is not sent (log 20). -/
def Obligations.CommitEntersRun : Prop :=
  ∀ (tag : Nat) (s : State) (st : Staging), s.power = .running → s.mode = .loading → s.staging = some st → s.latches = [] →
    st.inForce.violations (Config.freeDetail s.draws) = [] →
    ∃ t : State, exec (.loadCommit tag) s = .next t
      ∧ t.mode = .run ∧ t.staging = none
      ∧ t.active = some ⟨st.inForce.period, st.inForce.missLimit, st.inForce.budget, st.inForce.reduced, st.inForce.slots,
          st.inForce.lines⟩
      ∧ t.queue = [] ∧ t.held = 0
      ∧ t.heads = st.inForce.heads.map (fun r =>
          ⟨r, .unseen, [], [], 0, 0, ⟨false, false, false⟩, false, none, none⟩)
      ∧ t.zones = st.inForce.zones.map (fun r =>
          ⟨r, .quiet, none, none, 0, none, none, ⟨120, false⟩, none, r.idle, .normal, []⟩)
      ∧ t.channels.map Channel.record = st.inForce.fans
      ∧ (∀ c ∈ t.channels, c.provisional = false ∧ c.state = .sync ∧ c.cls = .normal ∧ c.command = none ∧ c.acknowledged = none
          ∧ c.report = none ∧ c.misses = 0 ∧ c.recover = 0 ∧ c.holding = false ∧ c.settle = none ∧ c.damper = none
          ∧ c.coast = none ∧ c.manual = none ∧ c.cyclesSince = 0 ∧ c.conflict = false ∧ c.mismatch = false)
      ∧ (∀ h ∈ t.handed, h.cls = .normal ∧ ∃ z ∈ t.zones, z.record.zone = h.zone ∧ z.claim = h.speed)
      ∧ (∀ z ∈ t.zones, ∃ h ∈ t.handed, h.zone = z.record.zone)
      ∧ (∀ c ∈ t.channels, c.target = c.record.clip (largest ((t.boundClaims c.record.channel).map HandedClaim.speed)))
      ∧ t.loop = { s.loop with
          discovered := [], orphan := decide (s.loop.phase ≠ .idle)
          phase := match s.loop.phase with
            | .commands x _ => .commands { x with channel := none } []
            | other => other }
      ∧ t.levelLatchDue = ((List.range 8).filter fun n =>
          match st.inForce.lines.find? (fun r => r.line == n), (s.lines.find? fun l => l.line == n).bind FireLine.accepted with
          | some r, some .high => r.trigger == .levelHigh
          | some r, some .low => r.trigger == .levelLow
          | _, _ => false)
      ∧ t.provisionalDue = false
      ∧ t.ring = s.ring.append ⟨.mode .run .loading, s.uptime⟩
      ∧ t.link = (replying 0x19 tag .ok .none s).link
      ∧ t.power = s.power ∧ t.resetPin = s.resetPin ∧ t.resetCause = s.resetCause ∧ t.uptime = s.uptime
      ∧ t.feeder = s.feeder ∧ t.lines = s.lines ∧ t.latches = [] ∧ t.slot = s.slot ∧ t.snapshot = s.snapshot
      ∧ t.draws = s.draws ∧ t.pending = s.pending

/-- The values in force of staged records: each value given, and for each that is left out, alone or with others, the default of R173. -/
def Obligations.LeftOutFieldsTakeTheirDefaults : Prop :=
  (Staging.inForce ⟨none, none, [], [], [], [], []⟩ = ⟨.one, 4, 4, 2, [], [], [], [], []⟩)
  ∧ (∀ st : Staging,
    let period := st.loop.bind LoadLoop.period
    (period = some 0 → st.inForce.period = .half) ∧ (period = none ∨ period = some 1 → st.inForce.period = .one)
    ∧ (period = some 2 → st.inForce.period = .two)
    ∧ st.inForce.missLimit = (st.loop.bind LoadLoop.missLimit).getD 4
    ∧ st.inForce.budget = (st.feeder.bind LoadFeeder.budget).getD 4
    ∧ st.inForce.reduced = (st.feeder.bind LoadFeeder.reduced).getD 2
    ∧ st.inForce.heads = st.heads.map headInForce ∧ st.inForce.fans = st.fans.map fanInForce
    ∧ st.inForce.zones = st.zones.map zoneInForce ∧ st.inForce.slots = st.slots.map slotInForce
    ∧ st.inForce.lines = st.lines.map lineInForce)
  ∧ (∀ n a g l, headInForce ⟨n, some a, some g, some l⟩ = ⟨n, a, ⟨g.getLsbD 0, g.getLsbD 1⟩, l⟩)
  ∧ (∀ n a, fanInForce ⟨n, some a, none, none, none, none, none, none, none⟩ = ⟨n, a, 0, 1, 10, 45, 30, 20, 100⟩)
  ∧ (∀ n a g c p d o lo hi, fanInForce ⟨n, some a, g, c, p, d, o, lo, hi⟩ =
      ⟨n, a, g.getD 0, c.getD 1, p.getD 10, d.getD 45, o.getD 30, lo.getD 20, hi.getD 100⟩)
  ∧ (∀ n h f, zoneInForce ⟨n, some h, some f, ⟨none, none, none, none⟩, ⟨none, none, none, none⟩, none, none, none, none, none⟩ =
      ⟨n, h, f, ⟨15, 30, 60, 90⟩, ⟨5, 10, 20, 30⟩, 0, 50, 100, 60, 300⟩)
  ∧ (∀ n h f a b c d e g i j p q r u w, zoneInForce ⟨n, some h, some f, ⟨a, b, c, d⟩, ⟨e, g, i, j⟩, p, q, r, u, w⟩ =
      ⟨n, h, f, ⟨a.getD 15, b.getD 30, c.getD 60, d.getD 90⟩, ⟨e.getD 5, g.getD 10, i.getD 20, j.getD 30⟩,
        p.getD 0, q.getD 50, r.getD 100, u.getD 60, w.getD 300⟩)
  ∧ (∀ a d p, slotInForce ⟨a, some 0, d, p⟩ = ⟨a, .head, d.getD 1, p.getD 0⟩)
  ∧ (∀ a d p, slotInForce ⟨a, some 1, d, p⟩ = ⟨a, .drive, d.getD 1, p.getD 0⟩)
  ∧ ∀ n d x i v,
    let line (t : Trigger) : LineRecord := ⟨n, t, d.getD 5, x.getD 0, i.getD 0, v.getD 100⟩
    lineInForce ⟨n, some 0, d, x, i, v⟩ = line .disabled ∧ lineInForce ⟨n, some 1, d, x, i, v⟩ = line .levelHigh
    ∧ lineInForce ⟨n, some 2, d, x, i, v⟩ = line .levelLow ∧ lineInForce ⟨n, some 3, d, x, i, v⟩ = line .rising
    ∧ lineInForce ⟨n, some 4, d, x, i, v⟩ = line .falling ∧ lineInForce ⟨n, some 5, d, x, i, v⟩ = line .either

/-! ## Modes, RESTART and reads -/

/-- MANUAL_ENTER in RUN makes every target the manual setpoint and, every channel being resolved, changes nothing else but the mode;
MANUAL_LEAVE in MANUAL drops the setpoints and resolves every channel. SET_FAN in MANUAL stores the setpoint of a configured channel,
resolves it and answers with its target; what a resolution does to each channel and to the queue is `resolving`. CLEAR_FAULT takes a FAULT
channel without a trip to OFF with the target its claims ask, and on to OPENING or QUEUED when that is above 0 and the channel holds no
units. Their refusals change nothing; none touches anything but mode, channels, start queue, units and their notices. The premises on the
state are laws that every step keeps. -/
def Obligations.ManualModeAndChannelRequests : Prop :=
  ∀ (tag n setpoint : Nat) (s : State), s.power = .running →
    (s.mode = .run →
      (let t := resolving (fun _ => true) { s with
          mode := .manual, channels := s.channels.map fun c => { c with manual := some c.target } }
       exec (.manualEnter tag) s = .next (replying 0x1B tag .ok .none (noticed (.mode .manual .run) t))
        ∧ sameBesidesFans { s with mode := .manual } t
        ∧ t.channels.map (fun c => (c.number, c.manual)) = (s.channels.map fun c => (c.number, some c.target))
        ∧ (s.unitsOk → ∀ c ∈ t.channels, t.resolved c))
      ∧ (s.claimsOk → exec (.manualEnter tag) s = .next (replying 0x1B tag .ok .none (noticed (.mode .manual .run)
          { s with mode := .manual, channels := s.channels.map fun c => { c with manual := some c.target } }))))
    ∧ (s.mode ≠ .run → exec (.manualEnter tag) s = .next (replying 0x1B tag .wrongMode .none s))
    ∧ (s.mode = .manual →
      let t := resolving (fun _ => true) { s with mode := .run, channels := s.channels.map fun c => { c with manual := none } }
      exec (.manualLeave tag) s = .next (replying 0x1C tag .ok .none (noticed (.mode .run .manual) t))
      ∧ sameBesidesFans { s with mode := .run } t
      ∧ t.channels.map (fun c => (c.number, c.manual)) = (s.channels.map fun c => (c.number, none))
      ∧ (s.unitsOk → ∀ c ∈ t.channels, t.resolved c))
    ∧ (s.mode ≠ .manual → exec (.manualLeave tag) s = .next (replying 0x1C tag .wrongMode .none s))
    ∧ (23 < n → exec (.setFan tag n setpoint) s = .next (replying 0x33 tag .badField (.badField 1) s))
    ∧ (n ≤ 23 → 100 < setpoint → exec (.setFan tag n setpoint) s = .next (replying 0x33 tag .badField (.badField 2) s))
    ∧ (n ≤ 23 → setpoint ≤ 100 → s.mode ≠ .manual → exec (.setFan tag n setpoint) s =
        .next (replying 0x33 tag .wrongMode .none s))
    ∧ (n ≤ 23 → setpoint ≤ 100 → s.mode = .manual → (∀ c ∈ s.channels, c.record.channel ≠ n) →
        exec (.setFan tag n setpoint) s = .next (replying 0x33 tag .notFound .none s))
    ∧ (n ≤ 23 → setpoint ≤ 100 → s.mode = .manual → (∃ c ∈ s.channels, c.record.channel = n) →
        let t := resolving (fun c => c.record.channel = n) { s with channels := s.channels.map fun c =>
          if c.record.channel = n then { c with manual := some setpoint } else c }
        ∃ d : Channel, exec (.setFan tag n setpoint) s = .next (replying 0x33 tag .ok (.setFan setpoint d.target) t)
          ∧ (t.channels.find? fun c => c.record.channel == n) = some d
          ∧ sameBesidesFans s t
          ∧ t.channels.map (fun c => (c.number, c.manual)) =
              (s.channels.map fun c => (c.number, if c.record.channel = n then some setpoint else c.manual))
          ∧ (s.unitsOk → t.resolved d
            ∧ ((∀ h ∈ s.boundClaims n, h.cls = .normal) → d.state ≠ .fault →
                d.target = if setpoint = 0 then 0 else min d.record.max (max d.record.min setpoint))))
    ∧ (23 < n → exec (.clearFault tag n) s = .next (replying 0x34 tag .badField (.badField 1) s))
    ∧ (n ≤ 23 → (∀ c ∈ s.channels, c.record.channel ≠ n) →
        exec (.clearFault tag n) s = .next (replying 0x34 tag .notFound .none s))
    ∧ ∀ before c after, n ≤ 23 → s.channels = before ++ c :: after → (∀ k ∈ before ++ after, k.record.channel ≠ n) →
        c.record.channel = n →
        (c.state ≠ .fault → exec (.clearFault tag n) s = .next (replying 0x34 tag .refused (.channelState c.state) s))
        ∧ (∀ code, c.state = .fault → c.report.bind Report.trip = some code →
            exec (.clearFault tag n) s = .next (replying 0x34 tag .refused (.channelTrip .trip code) s))
        ∧ (c.state = .fault → c.report.bind Report.trip = none →
            let want := (s.demand c).want
            let fallback := (s.demand c).cls.fallback
            let cleared : Channel := { c with
              faultCause := none, cls := (s.demand c).cls, target := want, damper := none, coast := none }
            let become (d : Channel) : State := noticed (.fanState n .off .fault) { s with channels := before ++ d :: after }
            let opened := c.report.map Report.damper = some .opn
            (want = 0 ∨ c.holding = true → exec (.clearFault tag n) s = .next (replying 0x34 tag .ok .none
              (become { cleared with state := .off, command := some ⟨0, .close, fallback⟩ })))
            ∧ (0 < want → c.holding = false → ¬ opened → exec (.clearFault tag n) s = .next (replying 0x34 tag .ok .none
              (become { cleared with
                state := .opening, command := some ⟨0, .opn, fallback⟩, damper := some ⟨c.record.damperTimeout, false⟩ })))
            ∧ (0 < want → c.holding = false → opened → exec (.clearFault tag n) s = .next (replying 0x34 tag .ok .none
              (applyChanges [.join n (if (s.demand c).cls = .extract then .fire else .normal) c.record.cost]
                (become { cleared with state := .queued, command := some ⟨0, .opn, fallback⟩ })))))

/-- RESTART with KEEP: what it resets and keeps in every mode, the tables it keeps in RUN and MANUAL, the starting values of heads, zones (a
latched line's zones in their fire states, every zone's claim handed over) and channels, and the first cycle, which is complete at once when
no entry is due in it. The exchange on the wire runs to the end of its slot and reaches no owner; that it is kept in `draining`, and that a
second RESTART before that end keeps the earlier exchange, is the model's choice (log 19), as is that its provisional channels are made by
an event of their own (log 22). -/
def Obligations.RestartKeepStartsOver : Prop :=
  (∀ (tag : Nat) (s : State), s.power = .running → s.active.isSome = s.mode.scheduled →
    let period : Period := match s.active with | some a => a.period | none => .one
    ∃ t : State, exec (.restartKeep tag) s = .next (replying 0x1A tag .ok (.mode t.mode) t)
      ∧ t.mode = (if s.mode = .run ∨ s.mode = .manual then .run else .blank)
      ∧ t.active = s.active ∧ t.staging = none ∧ t.slot = .idle ∧ t.snapshot = none ∧ t.queue = [] ∧ t.held = 0
      ∧ t.resetCause = .restart ∧ t.uptime = s.uptime ∧ t.latches = s.latches ∧ t.lines = s.lines ∧ t.feeder = s.feeder
      ∧ t.link = s.link ∧ t.pending = s.pending ∧ t.power = s.power ∧ t.resetPin = s.resetPin
      ∧ t.provisionalDue = decide (s.mode.scheduled = false ∧ s.latches ≠ []) ∧ t.levelLatchDue = s.levelLatchDue
      ∧ t.loop.state = .running ∧ t.loop.dead = 0 ∧ t.loop.mark = ⟨0, period⟩ ∧ t.loop.cyclePeriod = period
      ∧ t.loop.drives = marked period s.loop.drives
      ∧ t.loop.draining = s.loop.draining.or (onTheWire s.loop)
      ∧ t.loop.valid = false ∧ t.loop.orphan = false ∧ t.draws = s.draws
      ∧ (s.mode ≠ .blank → t.loop.discovered = s.loop.discovered ∧ t.loop.pointer = s.loop.pointer
          ∧ t.loop.sweep = s.loop.sweep)
      ∧ (s.mode = .blank → t.loop.discovered = [] ∧ t.loop.pointer = 0 ∧ t.loop.sweep = 0)
      ∧ (s.mode.scheduled = false → t.channels = [] ∧ t.loop.cycle = 0 ∧ t.loop.polled = true
          ∧ t.heads = s.heads ∧ t.zones = s.zones ∧ t.handed = s.handed
          ∧ (t.loop.pointer < 3 → t.loop.phase = .polls ⟨16 * t.loop.pointer + 1, .any⟩
              ((List.range 15).map fun n => ⟨16 * t.loop.pointer + 2 + n, .any⟩))
          ∧ (t.loop.pointer = 3 → t.loop.phase = .polls ⟨49, .any⟩ ((List.range 14).map fun n => ⟨50 + n, .any⟩))
          ∧ t.ring = if s.mode = .loading then s.ring.append ⟨.mode .blank .loading, s.uptime⟩ else s.ring)
      ∧ (∀ a, s.active = some a →
          let due := a.schedule.filter fun e => 0 % e.divider == e.phase
          (∀ e rest, due = e :: rest → t.loop.cycle = 0
            ∧ t.loop.phase = .polls ⟨e.address, .only e.kind⟩ (rest.map fun e => ⟨e.address, .only e.kind⟩))
          ∧ (due = [] → t.loop.cycle = 1 ∧ t.loop.phase = .idle)
          ∧ t.loop.polled = decide (due ≠ [])
          ∧ t.heads = s.heads.map (fun h => ⟨h.record, .unseen, [], [], 0, 0, ⟨false, false, false⟩, false, none, none⟩)
          ∧ t.zones.map Zone.record = s.zones.map Zone.record
          ∧ (∀ z ∈ t.zones, z.fireOk a.lines (s.latches.map Latch.line) ∧ z.coLevel = none ∧ z.no2Level = none
              ∧ z.liveCount = 0 ∧ z.hold = none ∧ z.boost = none ∧ z.grace = ⟨120, false⟩
              ∧ (z.governing = none → z.state = .quiet ∧ z.claim = z.record.idle ∧ z.claimClass = .normal))
          ∧ t.handed = t.zones.foldl (fun l z => upsert HandedClaim.zone ⟨z.record.zone, z.claim, z.claimClass⟩ l) []
          ∧ t.channels.map (fun c => (c.record, c.provisional)) = s.channels.map (fun c => (c.record, c.provisional))
          ∧ (∀ c ∈ t.channels, c.state = .sync ∧ c.faultCause = none ∧ c.startAcked = false ∧ c.reportedSinceGrant = false ∧ c.command = none ∧ c.acknowledged = none ∧ c.report = none ∧ c.misses = 0
              ∧ c.recover = 0 ∧ c.holding = false ∧ c.settle = none ∧ c.damper = none ∧ c.coast = none ∧ c.manual = none
              ∧ c.cyclesSince = (if due = [] then 1 else 0) ∧ c.mismatch = false ∧ t.resolved c)
          ∧ t.ring = if s.mode = .manual then s.ring.append ⟨.mode .run .manual, s.uptime⟩ else s.ring))
  ∧ ∀ (reply : List Byte) (s : State), s.power = .running →
    (s.loop.draining = some .poll → exec (.pollSlotEnd reply) s = .next { s with loop := { s.loop with draining := none } })
    ∧ (s.loop.draining = some .service → exec (.serviceSlotEnd reply) s = .next { s with loop := { s.loop with draining := none } })
    ∧ ∀ x, s.loop.draining = some (.command x) → exec (.commandSlotEnd reply) s = .next { s with loop := { s.loop with
        draining := none
        drives := if acknowledged (receive x.address reply) then taken x.address x.image s.loop.drives else s.loop.drives } }

/-- RESTART with CLEAR: BLANK with every table discarded, discovery at the first cycle of sweep 0, latches, lines, feeder and notices
kept, MODE raised when the mode changed. The lines due to be latched and the channels due to be made wait for events of their own (the
model's choices, logs 21 and 22); the exchange on the wire is kept in `draining` (log 19). -/
def Obligations.RestartClearForgetsTheConfiguration : Prop :=
  ∀ (tag : Nat) (s : State), s.power = .running →
    ∃ t : State, exec (.restartClear tag) s = .next (replying 0x1A tag .ok (.mode .blank) t)
      ∧ t = { s with
        mode := .blank, resetCause := .restart, staging := none, active := none, heads := [], zones := [], handed := []
        channels := [], queue := [], held := 0, slot := .idle, snapshot := none, provisionalDue := decide (s.latches ≠ [])
        levelLatchDue := (List.range 8).filter fun n =>
          !(s.latches.any fun l => l.line == n) && (s.lines.find? fun l => l.line == n).any fun l => l.accepted = some .high
        ring := if s.mode = .blank then s.ring else s.ring.append ⟨.mode .blank s.mode, s.uptime⟩
        loop := { s.loop with
          cycle := 0, state := .running, dead := 0, cyclePeriod := .one, mark := ⟨0, .one⟩
          phase := .polls ⟨1, .any⟩ ((List.range 15).map fun n => ⟨n + 2, .any⟩), polled := true, valid := false, orphan := false
          pointer := 0, sweep := 0, discovered := []
          draining := s.loop.draining.or (onTheWire s.loop), drives := marked .one s.loop.drives } }

/-- GET_HEAD and GET_ZONE: BAD_FIELD beyond the last number, WRONG_MODE without tables, NOT_FOUND or INACTIVE for a number without a
record, else the record; nothing changes. -/
def Obligations.HeadsAndZonesAreRead : Prop :=
  ∀ (tag n : Nat) (s : State), s.power = .running →
    (39 < n → exec (.getHead tag n) s = .next (replying 0x21 tag .badField (.badField 1) s))
    ∧ (n ≤ 39 → s.mode = .blank ∨ s.mode = .loading → exec (.getHead tag n) s = .next (replying 0x21 tag .wrongMode .none s))
    ∧ (n ≤ 39 → s.mode = .run ∨ s.mode = .manual →
      ((∀ h ∈ s.heads, h.record.head ≠ n) → exec (.getHead tag n) s = .next (replying 0x21 tag .notFound .none s))
      ∧ ∀ before h after, s.heads = before ++ h :: after → (∀ k ∈ before, k.record.head ≠ n) → h.record.head = n →
        exec (.getHead tag n) s = .next (replying 0x21 tag .ok (.head
          { record := h.record, state := h.state, misses := h.misses, recover := h.recover, flags := h.flags
            mismatch := h.mismatch, lastClass := h.lastClass, lastValidCycle := h.lastValidCycle
            co := if h.record.gases.co then some ⟨h.coWindow, average h.coWindow⟩ else none
            no2 := if h.record.gases.no2 then some ⟨h.no2Window, average h.no2Window⟩ else none }) s))
    ∧ (15 < n → exec (.getZone tag n) s = .next (replying 0x22 tag .badField (.badField 1) s))
    ∧ (n ≤ 15 → s.mode = .blank ∨ s.mode = .loading → exec (.getZone tag n) s = .next (replying 0x22 tag .wrongMode .none s))
    ∧ (n ≤ 15 → s.mode = .run ∨ s.mode = .manual →
      ((∀ z ∈ s.zones, z.record.zone ≠ n) → exec (.getZone tag n) s = .next (replying 0x22 tag .ok (.zone none) s))
      ∧ ∀ before z after, s.zones = before ++ z :: after → (∀ k ∈ before, k.record.zone ≠ n) → z.record.zone = n →
        exec (.getZone tag n) s = .next (replying 0x22 tag .ok (.zone (some
          { record := z.record, state := z.state, coLevel := z.coLevel, no2Level := z.no2Level, liveCount := z.liveCount
            grace := z.grace.remaining, hold := z.hold.map Timer.remaining
            boost := z.boost.map fun b => (b.speed, b.timer.remaining)
            governing := z.governing, claim := z.claim, claimClass := z.claimClass })) s))

/-- GET_FAN in every mode and GET_GROUP with tables: BAD_FIELD beyond the last number, else the channel's record or the group's
members; DISCOVERED and GET_QUEUE report discovery and the start queue as they stand; nothing changes. That DISCOVERED reports, during a
discovery cycle in progress, the part of the sweep whose queries come next is the model's reading (log 33). -/
def Obligations.ChannelsQueueAndDiscoveryAreRead : Prop :=
  ∀ (tag n : Nat) (s : State), s.power = .running →
    (23 < n → exec (.getFan tag n) s = .next (replying 0x23 tag .badField (.badField 1) s))
    ∧ (n ≤ 23 → (∀ c ∈ s.channels, c.record.channel ≠ n) →
        exec (.getFan tag n) s = .next (replying 0x23 tag .notFound .none s))
    ∧ (∀ before c after, n ≤ 23 → s.channels = before ++ c :: after → (∀ k ∈ before, k.record.channel ≠ n) →
        c.record.channel = n → exec (.getFan tag n) s = .next (replying 0x23 tag .ok (.fan
          { record := c.record, provisional := c.provisional, bound := s.boundClaims n, state := c.state
            faultCause := c.faultCause, cls := c.cls, target := c.target, conflict := c.conflict, mismatch := c.mismatch
            command := c.command, acknowledged := c.acknowledged, report := c.report, misses := c.misses, recover := c.recover
            holding := c.holding, startAcked := c.startAcked, cyclesSince := c.cyclesSince
            settle := c.settle.map Timer.remaining, damper := c.damper.map Timer.remaining
            coast := c.coast.map Timer.remaining, manual := c.manual
            queued := (s.queue.find? fun e => e.channel == n).map fun e =>
              ((s.queue.findIdx fun e => e.channel == n) + 1, e.waiting) }) s))
    ∧ (7 < n → exec (.getGroup tag n) s = .next (replying 0x24 tag .badField (.badField 1) s))
    ∧ (n ≤ 7 → s.mode = .blank ∨ s.mode = .loading → exec (.getGroup tag n) s = .next (replying 0x24 tag .wrongMode .none s))
    ∧ (n ≤ 7 → s.mode = .run ∨ s.mode = .manual → exec (.getGroup tag n) s = .next (replying 0x24 tag .ok (.group
        ((s.channels.filter fun c => c.provisional = false ∧ c.record.groups.getLsbD n = true).map fun c =>
          ⟨c.record.channel, c.state, c.report.map Report.speed, c.faultCause⟩)) s))
    ∧ exec (.discovered tag) s = .next (replying 0x20 tag .ok
      (.discovered (decide (s.mode = .blank ∨ s.mode = .loading)) s.loop.sweep
        (if (s.mode = .blank ∨ s.mode = .loading) ∧ s.loop.phase ≠ .idle then (s.loop.pointer + 1) % 4 else s.loop.pointer)
        s.loop.discovered) s)
    ∧ exec (.getQueue tag) s = .next (replying 0x25 tag .ok
      (.queue ⟨s.held, s.budget, s.reduced, s.feeder.effective, s.feeder.line, s.feeder.host, s.queue,
        (s.channels.filter fun c => c.holding).map fun c => ⟨c.record.channel, c.record.cost, c.settle.map Timer.remaining⟩⟩) s)

/-! ## Tuning zones and channels -/

/-- BOOST: its refusals change nothing; taken, it sets or removes the boost of every named zone, recomputes their claims alone, and
touches nothing but claims handed over, channels, start queue, units and their notices: the hand-over and the resolution of the bound
channels that `zonesBecome` says. -/
def Obligations.BoostRaisesNamedZones : Prop :=
  ∀ (tag : Nat) (zones : ZoneSet) (speed duration : Nat) (s : State), s.power = .running →
    let good := zones ≠ 0 ∧ (duration = 0 ∨ 1 ≤ speed ∧ speed ≤ 100 ∧ 60 ≤ duration ∧ duration ≤ 7200)
    let named (n : Nat) := n < 16 ∧ zones.getLsbD n = true
    (¬ good → ∃ p, exec (.boost tag zones speed duration) s = .next (replying 0x30 tag .badField (.badField p) s))
    ∧ (good → s.mode = .blank ∨ s.mode = .loading →
        exec (.boost tag zones speed duration) s = .next (replying 0x30 tag .wrongMode .none s))
    ∧ (good → s.mode = .run ∨ s.mode = .manual →
      (∀ n, named n → (∀ z ∈ s.zones, z.record.zone ≠ n) →
          (∀ m, m < n → named m → ∃ z ∈ s.zones, z.record.zone = m) →
        exec (.boost tag zones speed duration) s = .next (replying 0x30 tag .notFound (.zoneNumber n) s))
      ∧ ((∀ n, named n → ∃ z ∈ s.zones, z.record.zone = n) →
        let new := s.zones.map fun z =>
          if zones.getLsbD z.record.zone = true then
            let boost : Option Boost := if duration = 0 then none else some ⟨speed, ⟨duration, false⟩⟩
            if z.state = .fireExtract ∨ z.state = .fireIsolate then { z with boost := boost }
            else { z with
              boost := boost
              claim := max (z.record.claimOf z.state) (if duration = 0 then 0 else speed)
              claimClass := .normal }
          else z
        exec (.boost tag zones speed duration) s = .next (replying 0x30 tag .ok .none (zonesBecome new s))
        ∧ (zonesBecome new s).zones = new
        ∧ sameBesidesFans { s with zones := new, handed := (zonesBecome new s).handed } (zonesBecome new s)))

/-- SET_LIMITS and SET_HOLD replace the thresholds of one gas or the hold preload of one configured zone and nothing else; their
refusals change nothing. -/
def Obligations.LimitsAndHoldsAreTuned : Prop :=
  ∀ (tag zone gas low1 high1 low2 high2 preload : Nat) (s : State), s.power = .running →
    let top := if gas = 1 then 250 else 1000
    let limitsGood := zone ≤ 15 ∧ gas ≤ 1 ∧ high2 ≤ top ∧ low1 < high1 ∧ high1 ≤ low2 ∧ low2 < high2
    let holdGood := zone ≤ 15 ∧ 10 ≤ preload ∧ preload ≤ 3600
    (¬ limitsGood → ∃ p, exec (.setLimits tag zone gas low1 high1 low2 high2) s =
        .next (replying 0x31 tag .badField (.badField p) s))
    ∧ (¬ holdGood → ∃ p, exec (.setHold tag zone preload) s = .next (replying 0x32 tag .badField (.badField p) s))
    ∧ (s.mode = .blank ∨ s.mode = .loading →
      (limitsGood → exec (.setLimits tag zone gas low1 high1 low2 high2) s = .next (replying 0x31 tag .wrongMode .none s))
      ∧ (holdGood → exec (.setHold tag zone preload) s = .next (replying 0x32 tag .wrongMode .none s)))
    ∧ (s.mode = .run ∨ s.mode = .manual →
      ((∀ z ∈ s.zones, z.record.zone ≠ zone) →
        (limitsGood → exec (.setLimits tag zone gas low1 high1 low2 high2) s = .next (replying 0x31 tag .notFound .none s))
        ∧ (holdGood → exec (.setHold tag zone preload) s = .next (replying 0x32 tag .notFound .none s)))
      ∧ ((∃ z ∈ s.zones, z.record.zone = zone) →
        (limitsGood → exec (.setLimits tag zone gas low1 high1 low2 high2) s = .next (replying 0x31 tag .ok .none
          { s with zones := s.zones.map fun z =>
              if z.record.zone ≠ zone then z
              else if gas = 0 then { z with record := { z.record with co := ⟨low1, high1, low2, high2⟩ } }
              else { z with record := { z.record with no2 := ⟨low1, high1, low2, high2⟩ } } }))
        ∧ (holdGood → exec (.setHold tag zone preload) s = .next (replying 0x32 tag .ok .none
          { s with zones := s.zones.map fun z =>
              if z.record.zone ≠ zone then z else { z with record := { z.record with hold := preload } } }))))

/-- FEEDER sets the host's view and an accepted FEED level the line's: while the effective state stays, nothing else changes; when it
changes, FEEDER_STATE is raised (not at the first acceptance) and the start queue is looked at; another value is BAD_FIELD. A FEED level
other than the accepted one begins its debounce, the accepted one ends it; a level is accepted once it has held for 5 tenths of a
second (R108), and an acceptance that is not due changes nothing (the model's choice, log 4). In reset and without supply a FEED level moves
the pin alone (the model's choice, log 7). -/
def Obligations.FeederSourcesAreSet : Prop :=
  (∀ (level : PinLevel) (s : State), s.power ≠ .running →
    exec (.feedLevelChange level) s = .next { s with feeder := { s.feeder with pin := level } })
  ∧ ∀ (tag code : Nat) (level : PinLevel) (s : State), s.power = .running →
    let host : FeederState := if code = 0 then .normal else .constrained
    let f : Feeder := { s.feeder with host := host }
    (1 < code → exec (.feeder tag code) s = .next (replying 0x35 tag .badField (.badField 1) s))
    ∧ (code ≤ 1 → f.effective = s.feeder.effective → exec (.feeder tag code) s =
        .next (replying 0x35 tag .ok (.feeder f.effective f.line host) { s with feeder := f }))
    ∧ (code ≤ 1 → f.effective ≠ s.feeder.effective → exec (.feeder tag code) s =
        .next (replying 0x35 tag .ok (.feeder f.effective f.line host)
          (look (noticed (.feederState f.effective f.line host) { s with feeder := f }))))
    ∧ (s.feeder.effective = .constrained ↔ s.feeder.line = .constrained ∨ s.feeder.host = .constrained)
    ∧ (level = s.feeder.pin → exec (.feedLevelChange level) s = .next s)
    ∧ (level ≠ s.feeder.pin → exec (.feedLevelChange level) s = .next { s with feeder := { s.feeder with
        pin := level, pendingLevel := if s.feeder.accepted = some level then none else some level, heldFor := 0 } })
    ∧ (s.feeder.accepted ≠ none ∧ s.feeder.pendingLevel = none ∨ s.feeder.heldFor < 5 → exec .feedAccepted s = .next s)
    ∧ (5 ≤ s.feeder.heldFor →
        (s.feeder.accepted = none ∧ s.feeder.pin = level) ∨ (s.feeder.accepted ≠ none ∧ s.feeder.pendingLevel = some level) →
      let f : Feeder := { s.feeder with
        line := if level = .low then .constrained else .normal, accepted := some level, pendingLevel := none, heldFor := 0 }
      (f.effective = s.feeder.effective → exec .feedAccepted s = .next { s with feeder := f })
      ∧ (f.effective ≠ s.feeder.effective → s.feeder.accepted = none → exec .feedAccepted s = .next (look { s with feeder := f }))
      ∧ (f.effective ≠ s.feeder.effective → s.feeder.accepted ≠ none → exec .feedAccepted s =
          .next (look (noticed (.feederState f.effective f.line f.host) { s with feeder := f }))))


/-! ## Fire lines and latches -/

/-- A level change at a fire line's pin begins, ends or keeps the debounce of that line and touches no other; in reset and without
supply only the pin moves (log 7). -/
def Obligations.FireLineLevelsAreDebounced : Prop :=
  ∀ (n : Nat) (level : PinLevel) (s : State),
    (s.power = .running → exec (.fireLineLevelChange n level) s = .next { s with lines := s.lines.map fun l =>
      if l.line ≠ n then l
      else match l.accepted with
        | none => if level = l.pin then l else { l with pin := level, initialHeld := 0 }
        | some a =>
          if level = a then { l with pin := level, pendingLevel := none, heldFor := none }
          else if l.pendingLevel = some level then { l with pin := level }
          else { l with pin := level, pendingLevel := some level, heldFor := some 0 } })
    ∧ (s.power ≠ .running → exec (.fireLineLevelChange n level) s = .next { s with lines := s.lines.map fun l =>
      if l.line ≠ n then l else { l with pin := level } })

/-- A fire line's level is accepted once it has held for the debounce in force (R127, R128); an acceptance that is not due changes nothing
(the model's choice, log 4). It sets the line's latch exactly when the trigger in force is met by it and the line is not latched yet. The
latch then joins the list, FIRE_LATCH is the first notice, a write in work ends (its REMOTE_LAPSED stands last: the model's choice, log 14),
and in RUN and MANUAL the plan's zones enter their fire states or take the line into their conflict sets; under the failsafe every
discovered drive has its channel while numbers last, and every channel is given EXTRACT and 100 %. -/
def Obligations.AcceptedLevelsSetLatches : Prop :=
  ∀ (n : Nat) (before after : List FireLine) (l : FireLine) (s : State), s.power = .running →
    s.lines = before ++ l :: after → l.line = n → (∀ k ∈ before ++ after, k.line ≠ n) →
      let debounce :=
        if s.mode = .blank ∨ s.mode = .loading then 5 else ((s.lineRecord n).map LineRecord.debounce).getD 5
      (l.accepted ≠ none ∧ (l.pendingLevel = none ∨ l.heldFor = none ∨ ∃ k, l.heldFor = some k ∧ k < debounce)
          ∨ l.accepted = none ∧ l.initialHeld < debounce → exec (.fireLineAccepted n) s = .next s)
      ∧ ∀ level k, (l.accepted = none ∧ l.pin = level ∧ l.initialHeld = k)
            ∨ (l.accepted ≠ none ∧ l.pendingLevel = some level ∧ l.heldFor = some k) → debounce ≤ k →
        let t : State := { s with lines := before ++
          { l with accepted := some level, pendingLevel := none, heldFor := none, initialHeld := 0 } :: after }
        let tr : Trigger :=
          if s.mode = .blank ∨ s.mode = .loading then .levelHigh else ((s.lineRecord n).map LineRecord.trigger).getD .disabled
        let met := (tr = .levelHigh ∧ level = .high) ∨ (tr = .levelLow ∧ level = .low)
          ∨ (l.accepted ≠ none ∧ ((tr = .rising ∧ level = .high) ∨ (tr = .falling ∧ level = .low) ∨ tr = .either))
        let cause : LatchCause := if s.mode = .blank ∨ s.mode = .loading then .failsafe else .trigger tr
        (¬ met ∨ n ∈ s.latches.map Latch.line → exec (.fireLineAccepted n) s = .next t)
        ∧ (met → n ∉ s.latches.map Latch.line → ∃ u : State, exec (.fireLineAccepted n) s = .next u ∧ u = latchSets n cause t
          ∧ u = { t with
              latches := s.latches ++ [⟨n, s.uptime, cause⟩], zones := u.zones, handed := u.handed, channels := u.channels
              queue := u.queue, held := u.held, ring := u.ring, slot := u.slot }
          ∧ (∃ later : List NoticeBody, u.ring = later.foldl (fun r m => r.append ⟨m, s.uptime⟩)
              (s.ring.append ⟨.fireLatch n cause (s.latches.length + 1), s.uptime⟩))
          ∧ u.slot = (match s.slot with
              | .working k ms a f r => if k.op = .itemWrite ∨ k.op = .groupWrite then .idle else .working k ms a f r
              | other => other)
          ∧ (s.mode = .blank ∨ s.mode = .loading → u.zones = s.zones)
          ∧ (s.mode = .blank ∨ s.mode = .loading → s.unitsOk →
              (∀ c ∈ u.channels, c.cls = .extract ∧ c.target = if c.state = .fault then 0 else 100)
              ∧ (∀ d ∈ s.loop.discovered, d.kind = .drive → (∀ n < 24, ∃ c ∈ u.channels, c.number = n)
                  ∨ ∃ c ∈ u.channels, c.record.address = d.address)
              ∧ (∀ c ∈ u.channels, (∃ k ∈ s.channels, k.number = c.number ∧ k.record = c.record)
                  ∨ (c.state = .sync ∧ c.provisional = true
                    ∧ c.record = ⟨c.number, c.record.address, 0, 1, 5, 60, 30, 0, 100⟩
                    ∧ ∃ d ∈ s.loop.discovered, d.kind = .drive ∧ d.address = c.record.address))
              ∧ ∀ k ∈ s.channels, ∃ c ∈ u.channels, c.number = k.number ∧ c.record = k.record)
          ∧ (s.mode = .run ∨ s.mode = .manual → ∀ r, s.lineRecord n = some r →
              u.zones = s.zones.map fun z =>
                let plan : Option Assignment :=
                  if r.extract.getLsbD z.record.zone then some (.extract r.speed)
                  else if r.isolate.getLsbD z.record.zone then some .isolate else none
                if plan = none then z
                else if z.state = .fireExtract ∨ z.state = .fireIsolate then
                  match z.governing with
                  | none => z
                  | some g =>
                    if assignment s.lineRecords g z.record.zone = plan then z else { z with conflict := z.conflict ++ [n] }
                else if plan = some .isolate then
                  { z with state := .fireIsolate, governing := some n, hold := none, claim := 0, claimClass := .isolate
                           conflict := [] }
                else
                  { z with state := .fireExtract, governing := some n, hold := none, claim := r.speed, claimClass := .extract
                           conflict := [] }))

/-- FIRE_RESET clears exactly the named latches whose level trigger in force is not met, raises their FIRE_CLEARs first, reports the
held lines, the list and the eight lines, and leaves every zone as the remaining list governs it, with the hand-over and the channels'
moves that follow; under the failsafe the channels follow once the list is empty. A request that clears nothing changes nothing. The
order of a zone's FIRE_CONFLICTs is the model's choice (log 28). -/
def Obligations.FireResetClearsLatches : Prop :=
  ∀ (tag : Nat) (lines : OctetSet) (s : State), s.power = .running →
    let tr (n : Nat) : Trigger :=
      if s.mode = .blank ∨ s.mode = .loading then .levelHigh else ((s.lineRecord n).map LineRecord.trigger).getD .disabled
    let accepted (n : Nat) : Option PinLevel := (s.lines.find? fun l => l.line == n).bind FireLine.accepted
    let met (n : Nat) := (tr n = .levelHigh ∧ accepted n = some .high) ∨ (tr n = .levelLow ∧ accepted n = some .low)
    let cleared := s.latches.filter fun l => lines.getLsbD l.line = true ∧ ¬ met l.line
    let left := s.latches.filter fun l => ¬ (lines.getLsbD l.line = true ∧ ¬ met l.line)
    let held := (List.range 8).filter fun n => lines.getLsbD n = true ∧ n ∈ s.latches.map Latch.line ∧ met n
    ∃ t : State, exec (.fireReset tag lines) s = .next (replying 0x36 tag .ok
        (.fireReset held left (s.lines.map fun l => ⟨tr l.line, l.accepted, l.pendingLevel.isSome⟩)) t)
      ∧ t = { s with
          latches := left, zones := t.zones, handed := t.handed, channels := t.channels, queue := t.queue, held := t.held
          ring := t.ring }
      ∧ (cleared = [] → t = s)
      ∧ (cleared ≠ [] →
        let listed : State := { s with
          latches := left, ring := ringing (cleared.map fun l => .fireClear l.line left.length l.setAt) s }
        (s.mode = .blank ∨ s.mode = .loading → t = if left = [] then resolving (fun _ => true) listed else listed)
        ∧ (s.mode = .run ∨ s.mode = .manual → t = zonesRelease (cleared.map Latch.line) listed))
      ∧ (∃ later : List NoticeBody, t.ring = later.foldl (fun r m => r.append ⟨m, s.uptime⟩)
          (cleared.foldl (fun r l => r.append ⟨.fireClear l.line left.length l.setAt, s.uptime⟩) s.ring))
      ∧ (s.mode = .blank ∨ s.mode = .loading → t.zones = s.zones
          ∧ (cleared ≠ [] → left = [] → ∀ c ∈ t.channels, c.cls = .normal ∧ c.target = 0))
      ∧ (s.mode = .run ∨ s.mode = .manual → s.firesOk →
          (∀ z ∈ t.zones, z.fireOk s.lineRecords (left.map Latch.line))
          ∧ ∀ z ∈ s.zones, ∀ g, z.governing = some g → g ∈ cleared.map Latch.line →
            (∀ k ∈ left, assignment s.lineRecords k.line z.record.zone = none) →
            ∃ y ∈ t.zones, y.record = z.record ∧ y.boost = z.boost
              ∧ y.state = (if z.liveCount = 0 ∧ z.grace.remaining = 0 then .blind else .runOn)
              ∧ y.hold = if z.liveCount = 0 ∧ z.grace.remaining = 0 then none else some ⟨z.record.hold, false⟩)

/-- The events that follow a commit and a RESTART (logs 21 and 22): each COMMIT_LEVEL_LATCH takes one line due and latches it when its
level trigger is still met, doing all that a latch does (`latchSets`; the place of its REMOTE_LAPSED is log 14's); RESTART_PROVISIONAL_MAKE
gives every discovered drive its channel while numbers last and resolves them all. -/
def Obligations.EventsFollowACommitAndARestart : Prop :=
  ∀ s : State, s.power = .running →
    (s.levelLatchDue = [] → exec .commitLevelLatch s = .next s)
    ∧ (∀ n rest, s.levelLatchDue = n :: rest →
      (s.latched n = true ∨ s.levelMet n = false → exec .commitLevelLatch s = .next { s with levelLatchDue := rest })
      ∧ (s.latched n = false → s.levelMet n = true →
          let cause : LatchCause := if s.mode = .blank ∨ s.mode = .loading then .failsafe
            else .trigger (((s.lineRecord n).map LineRecord.trigger).getD .disabled)
          ∃ t : State, exec .commitLevelLatch s = .next t ∧ t = latchSets n cause { s with levelLatchDue := rest }
          ∧ t.levelLatchDue = rest ∧ t.latches = s.latches ++ [⟨n, s.uptime, s.causeFor n⟩] ∧ t.lines = s.lines
          ∧ t.mode = s.mode ∧ t.active = s.active ∧ t.loop = s.loop ∧ t.heads = s.heads ∧ t.feeder = s.feeder
          ∧ t.link = s.link ∧ t.snapshot = s.snapshot ∧ t.uptime = s.uptime))
    ∧ (s.provisionalDue = false ∨ s.failsafe = false ∨ s.latches = [] →
        exec .restartProvisionalMake s = .next { s with provisionalDue := false })
    ∧ (s.provisionalDue = true → s.failsafe = true → s.latches ≠ [] → s.unitsOk →
        ∃ t : State, exec .restartProvisionalMake s = .next t ∧ t = failsafeActs { s with provisionalDue := false }
          ∧ sameBesidesFans { s with provisionalDue := false } t
          ∧ (∀ c ∈ t.channels, c.cls = .extract ∧ c.target = if c.state = .fault then 0 else 100)
          ∧ (∀ d ∈ s.loop.discovered, d.kind = .drive → (∀ n < 24, ∃ c ∈ t.channels, c.number = n)
              ∨ ∃ c ∈ t.channels, c.record.address = d.address)
          ∧ ∀ c ∈ t.channels, (∃ k ∈ s.channels, k.number = c.number ∧ k.record = c.record)
              ∨ (c.state = .sync ∧ c.provisional = true ∧ c.record = ⟨c.number, c.record.address, 0, 1, 5, 60, 30, 0, 100⟩))

/-! ## The service slot -/

/-- A service request goes through its tests in order: field, item 0 to 7 of a write, a repeat of the slot's key, mode, address or group,
fire, a slot in use; one that passes is accepted with its members. A repeat follows the work, or collects the result and empties the
slot. SERVICE_CANCEL empties the slot; COLLECTION_EXPIRY, when due (log 5), empties it with REMOTE_LAPSED. -/
def Obligations.ServiceRequestsAreTestedInOrder : Prop :=
  ∀ (tag target item value : Nat) (op : Operation) (s : State), s.power = .running →
    let c : Instr := match op with
      | .itemRead => .itemRead tag target item
      | .itemWrite => .itemWrite tag target item value
      | .groupRead => .groupRead tag target item
      | .groupWrite => .groupWrite tag target item value
    let code := match op with | .itemRead => 0x40 | .itemWrite => 0x41 | .groupRead => 0x42 | .groupWrite => 0x43
    let group := op = .groupRead ∨ op = .groupWrite
    let writes := op = .itemWrite ∨ op = .groupWrite
    let key : ServiceKey := ⟨op, target, item, if writes then some value else none⟩
    let unloaded := s.mode = .blank ∨ s.mode = .loading
    let inRange := if group then target ≤ 7 else 1 ≤ target ∧ target ≤ 63
    let members := s.channels.filter fun k => k.provisional = false ∧ k.record.groups.getLsbD target = true
    let known := if unloaded then ∃ d ∈ s.loop.discovered, d.address = target
      else (∃ h ∈ s.heads, h.record.address = target) ∨ ∃ k ∈ s.channels, k.provisional = false ∧ k.record.address = target
    (¬ inRange → exec c s = .next (replying code tag .badField (.badField 1) s))
    ∧ (inRange → writes → item ≤ 7 → exec c s = .next (replying code tag .badField (.badField 2) s))
    ∧ (inRange → (writes → 8 ≤ item) →
      (∀ ms a f r, s.slot = .working key ms a f r →
        exec c s = .next (replying code tag .deferred (.progress r.length ms.length) s))
      ∧ (∀ ms r k, s.slot = .ready key ms r k →
        exec c s = .next (replying code tag .ok (.result key ((ms.zip r).map fun p => (p.1.channel, p.2))) { s with slot := .idle }))
      ∧ (s.slot.key ≠ some key →
        (group → unloaded → exec c s = .next (replying code tag .wrongMode .none s))
        ∧ (¬ group → ¬ known → exec c s = .next (replying code tag .notFound .none s))
        ∧ (group → ¬ unloaded → members = [] → exec c s = .next (replying code tag .notFound .none s))
        ∧ ((group → ¬ unloaded ∧ members ≠ []) → (¬ group → known) →
          (writes → s.latches ≠ [] → exec c s = .next (replying code tag .refusedFire .none s))
          ∧ ((writes → s.latches = []) →
            (∀ k ms a f r, s.slot = .working k ms a f r →
              exec c s = .next (replying code tag .busy (.slot ⟨false, k.op, k.target, r.length, ms.length⟩) s))
            ∧ (∀ k ms r x, s.slot = .ready k ms r x →
              exec c s = .next (replying code tag .busy (.slot ⟨true, k.op, k.target, r.length, ms.length⟩) s))
            ∧ (s.slot = .idle →
              let ms : List Member :=
                if group then members.map fun k => ⟨k.record.address, some k.record.channel⟩ else [⟨target, none⟩]
              exec c s = .next (replying code tag .deferred (.progress 0 ms.length)
                { s with slot := .working key ms 0 false [] }))))))
    ∧ (s.slot = .idle → exec (.serviceCancel tag) s = .next (replying 0x44 tag .ok (.cancelled none) s)
        ∧ exec .collectionExpiry s = .next s)
    ∧ (∀ k ms a f r, s.slot = .working k ms a f r →
        exec (.serviceCancel tag) s = .next
          (replying 0x44 tag .ok (.cancelled (some ⟨false, k.op, k.target, r.length, ms.length⟩)) { s with slot := .idle })
        ∧ exec .collectionExpiry s = .next s)
    ∧ ∀ k ms r x, s.slot = .ready k ms r x →
        exec (.serviceCancel tag) s = .next
          (replying 0x44 tag .ok (.cancelled (some ⟨true, k.op, k.target, r.length, ms.length⟩)) { s with slot := .idle })
        ∧ (x.due = true → exec .collectionExpiry s =
            .next (noticed (.remoteLapsed k.target k.op .collection) { s with slot := .idle }))
        ∧ (x.due = false → exec .collectionExpiry s = .next s)

/-- The service exchange's end: it is classified by R20, its delivery closes the current member or counts a failed attempt, the last
member makes the slot READY with REMOTE_READY, a delivery that no attempt waits for is discarded, a VALID reply marks the cycle and ends
DOWN; and the cycle is complete (CycleEnds: loop-state check, evaluation in RUN and MANUAL, close of discovery in BLANK and LOADING,
the next number). That a LOOP_STATE RUNNING stands before the delivery's notices, and those before the completion's, LOOP_STATE DOWN first
among them, is the model's choice (log 14). -/
def Obligations.ServiceExchangeEndsTheCycle : Prop :=
  ∀ (a : Attempt) (reply : List Byte) (s : State), s.power = .running → s.loop.draining ≠ some .service →
    s.loop.phase = .service a →
      let got := receive a.address reply
      let valid := (∃ d, got = .complete .value d) ∨ ∃ d, got = .complete .rejected d
      let noted (ok : Bool) (more : List NoticeBody) (slot : ServiceSlot) : State :=
        let ends := decide (ok = true ∧ s.loop.state = .down)
        { s with
          slot := slot
          ring := ringing ((if ends then [.loopState .running s.loop.cycle] else []) ++ more) s
          loop := { s.loop with
            valid := s.loop.valid || ok, state := if ok then .running else s.loop.state, dead := if ends then 0 else s.loop.dead } }
      ∃ u t : State, exec (.serviceSlotEnd reply) s = .next t ∧ CycleEnds u t
        ∧ (∀ k ms n r m, s.slot = .working k ms n true r → ms[r.length]? = some m →
            let done (ok : Bool) (e : ResultEntry) : State :=
              if ms.length ≤ r.length + 1 then
                noted ok [.remoteReady k.target k.op ((r ++ [e]).filter fun x => x.outcome ≠ .ok).length]
                  (.ready k ms (r ++ [e]) ⟨10, false⟩)
              else noted ok [] (.working k ms 0 false (r ++ [e]))
            (∀ d, got = .complete .value d →
              u = done true ⟨m.address, .ok, some ((d.getD 0 0).toNat * 256 + (d.getD 1 0).toNat)⟩)
            ∧ (∀ d, got = .complete .rejected d → u = done true ⟨m.address, .rejected, none⟩)
            ∧ (¬ valid → n < 2 → u = noted false [] (.working k ms (n + 1) false r))
            ∧ (¬ valid → 2 ≤ n → u = done false ⟨m.address, .noResponse, none⟩))
        ∧ ((∀ k ms n r, s.slot ≠ .working k ms n true r) → (valid → u = noted true [] s.slot) ∧ (¬ valid → u = noted false [] s.slot))

/-! ## The bay loop -/

/-- A cycle begins at a boundary when none is in progress: its mark, then the first poll due (R7 in RUN and MANUAL, the 16 or 15
addresses of the sweep's cycle in BLANK and LOADING); a boundary within a cycle changes nothing (log 6). The drives hear the mark: one
that took no command since the last mark has missed a cycle more, and from four on it does what its stored fallback says, HOLD before its
first command (R19; log 24). -/
def Obligations.CyclesBeginWithMarkAndPolls : Prop :=
  ∀ s : State, s.power = .running →
    (s.loop.phase ≠ .idle → exec .cycleBegin s = .next s)
    ∧ (s.loop.phase = .idle →
      let period : Period := match s.active with
        | some a => if s.mode = .run ∨ s.mode = .manual then a.period else .one
        | none => .one
      let opened : Loop := { s.loop with
        cyclePeriod := period, mark := ⟨s.loop.cycle, period⟩, polled := true, valid := false, orphan := false
        drives := marked period s.loop.drives }
      (∀ a e rest, s.mode = .run ∨ s.mode = .manual → s.active = some a →
        (a.schedule.filter fun e => s.loop.cycle.toNat % e.divider == e.phase) = e :: rest →
        exec .cycleBegin s = .next { s with loop := { opened with
          phase := .polls ⟨e.address, .only e.kind⟩ (rest.map fun e => ⟨e.address, .only e.kind⟩) } })
      ∧ (s.mode = .blank ∨ s.mode = .loading →
        (s.loop.pointer < 3 → exec .cycleBegin s = .next { s with loop := { opened with
          phase := .polls ⟨16 * s.loop.pointer + 1, .any⟩
            ((List.range 15).map fun n => ⟨16 * s.loop.pointer + 2 + n, .any⟩) } })
        ∧ (s.loop.pointer = 3 → exec .cycleBegin s = .next { s with loop := { opened with
          phase := .polls ⟨49, .any⟩ ((List.range 14).map fun n => ⟨50 + n, .any⟩) } }))
      ∧ (∀ a, s.mode = .run ∨ s.mode = .manual → s.active = some a →
        (a.schedule.filter fun e => s.loop.cycle.toNat % e.divider == e.phase) = [] →
        ∃ t : State, exec .cycleBegin s = .next t ∧ t.loop.mark = ⟨s.loop.cycle, period⟩
          ∧ CommandsBegin { s with loop := { opened with polled := false } } t))
    ∧ ∀ (d : Drives) (address : Nat),
      (d.sides.find? (fun x => x.address == address) = none → d.obeys address = none)
      ∧ ∀ x, d.sides.find? (fun x => x.address == address) = some x →
        (x.missed < 4 ∨ x.stored.fallback = .hold → d.obeys address = some (x.stored.setpoint, x.stored.damper))
        ∧ (4 ≤ x.missed → x.stored.fallback = .extract → d.obeys address = some (100, .opn))
        ∧ (4 ≤ x.missed → x.stored.fallback = .stop → d.obeys address = some (0, .close))

/-- A poll of a head, another poll following: a VALID reply resets the misses, records the flags, moves the state and feeds the windows; a
failed poll counts a miss and leads to LOST at the limit, and a WRONG_KIND is notified once. Nothing else changes but the ring and
the loop (a VALID reply marks the cycle and ends DOWN). The order LOOP_STATE, HEAD_CAL_DUE, HEAD_STATE, KIND_MISMATCH of one poll's
notices is the model's choice (log 14), as is that bits R209 does not name in the gas mask and the flags are ignored (log 36). -/
def Obligations.HeadPollsMoveTheirHead : Prop :=
  ∀ (address : Nat) (next : Poll) (rest : List Poll) (reply : List Byte) (before after : List Head) (h : Head) (s : State),
    s.power = .running → s.loop.draining ≠ some .poll → s.loop.phase = .polls ⟨address, .only .head⟩ (next :: rest) →
    s.heads = before ++ h :: after → h.record.address = address → (∀ k ∈ before, k.record.address ≠ address) →
    (∀ k ∈ before ++ after, k.record.head ≠ h.record.head) →
      let cls := classifyPoll (.only .head) (receive address reply)
      let ring (r : Ring) (ns : List NoticeBody) : Ring := ns.foldl (fun r m => r.append ⟨m, s.uptime⟩) r
      (∀ (mask co1 co2 no2 flags check : Byte), reply = [0x21, BitVec.ofNat 8 address, mask, co1, co2, no2, flags, check] →
        address < 256 → byteSum reply = 0 →
        let warming := flags.getLsbD 0
        let cellFault := flags.getLsbD 1
        let calDue := flags.getLsbD 2
        let selected : HeadState := if warming then .warming else if cellFault then .faulty else .live
        let new : HeadState := if h.state = .lost ∧ h.recover = 0 then .lost else selected
        let window (has : Bool) (v : Nat) (w : List Nat) : List Nat :=
          if new ≠ .live then []
          else
            let kept := if h.state = .live then w else []
            if has then (kept ++ [v]).drop (kept.length + 1 - 4) else kept
        exec (.pollSlotEnd reply) s = .next { s with
          heads := before ++ { h with
            state := new, misses := 0, recover := if h.state = .lost ∧ h.recover = 0 then 1 else 0
            flags := ⟨warming, cellFault, calDue⟩, mismatch := false, lastClass := some .valid
            lastValidCycle := some s.loop.cycle
            coWindow := window (mask.getLsbD 0 && h.record.gases.co) (min (co1.toNat * 256 + co2.toNat) 1000) h.coWindow
            no2Window := window (mask.getLsbD 1 && h.record.gases.no2) (min no2.toNat 250) h.no2Window } :: after
          ring := ring s.ring
            ((if s.loop.state = .down then [.loopState .running s.loop.cycle] else [])
              ++ (if calDue = true ∧ h.flags.calDue = false then [.headCalDue h.record.head new address] else [])
              ++ (if new = h.state ∨ (h.state = .unseen ∧ (new = .live ∨ new = .warming)) then []
                  else [.headState h.record.head new h.state]))
          loop := { s.loop with
            phase := .polls next rest, valid := true, state := .running
            dead := if s.loop.state = .down then 0 else s.loop.dead } })
      ∧ (cls ≠ .valid →
        let misses := if h.state = .unseen then h.misses else min (h.misses + 1) 255
        let falls := (h.state = .warming ∨ h.state = .live ∨ h.state = .faulty) ∧ missLimitOf s ≤ misses
        exec (.pollSlotEnd reply) s = .next { s with
          heads := before ++ { h with
            misses := misses, lastClass := some cls
            state := if falls then .lost else h.state
            recover := if falls ∨ h.state = .lost then 0 else h.recover
            coWindow := if falls then [] else h.coWindow
            no2Window := if falls then [] else h.no2Window
            mismatch := h.mismatch || decide (cls = .wrongKind) } :: after
          ring := ring s.ring
            ((if falls then [.headState h.record.head .lost h.state] else [])
              ++ (if cls = .wrongKind ∧ h.mismatch = false then [.kindMismatch address .head .drive] else []))
          loop := { s.loop with phase := .polls next rest } })

/-- The class of a poll's reply by the first test that applies (R9; a head reply is 8 bytes, log 10; bytes after a full reply are
ignored, log 11); when a command is acknowledged (R18); the class and contents of a service reply (R20). -/
def Obligations.RepliesAreClassified : Prop :=
  (∀ (address : Nat) (expect : Expect) (kind : DeviceKind) (code source : Byte) (data more : List Byte),
    let cls (reply : List Byte) := classifyPoll expect (receive address reply)
    let reply := code :: source :: data
    cls [] = .silent ∧ cls [code] = .short
    ∧ (code.toNat < 0x21 ∨ 0x25 < code.toNat → cls reply = .short)
    ∧ (∀ kind, replyKind code = some kind → reply.length < kind.length → cls reply = .short)
    ∧ (∀ kind, replyKind code = some kind → reply.length = kind.length → byteSum reply ≠ 0 ∨ source.toNat ≠ address →
        cls (reply ++ more) = .corrupt)
    ∧ (code = 0x23 ∨ code = 0x24 ∨ code = 0x25 → (∀ kind, replyKind code = some kind → reply.length = kind.length) →
        cls (reply ++ more) = .corrupt)
    ∧ (code = (if kind = .head then 0x21 else 0x22) → reply.length = (if kind = .head then 8 else 7) → byteSum reply = 0 →
        source.toNat = address →
        (expect = .any ∨ expect = .only kind → cls (reply ++ more) = .valid)
        ∧ (expect ≠ .any → expect ≠ .only kind → cls (reply ++ more) = .wrongKind)))
  ∧ (∀ (address : Nat) (reply : List Byte), acknowledged (receive address reply) = true ↔
      ∃ source check more, reply = 0x23 :: source :: check :: more ∧ source.toNat = address ∧ byteSum [0x23, source, check] = 0)
  ∧ (replyKind 0x21 = some .head ∧ replyKind 0x22 = some .drive ∧ replyKind 0x23 = some .ack ∧ replyKind 0x24 = some .value
    ∧ replyKind 0x25 = some .rejected ∧ (∀ code : Byte, code.toNat < 0x21 ∨ 0x25 < code.toNat → replyKind code = none)
    ∧ [ReplyKind.head, .drive, .ack, .value, .rejected].map ReplyKind.length = [8, 7, 3, 5, 3])
  ∧ ∀ (address : Nat) (code source : Byte) (data more : List Byte),
    let got (reply : List Byte) := classifyService (receive address reply)
    let reply := code :: source :: data
    got [] = (.silent, none) ∧ got [code] = (.short, none)
    ∧ (code.toNat < 0x21 ∨ 0x25 < code.toNat → got reply = (.short, none))
    ∧ (∀ kind, replyKind code = some kind → reply.length < kind.length → got reply = (.short, none))
    ∧ (∀ kind, replyKind code = some kind → reply.length = kind.length →
        (byteSum reply ≠ 0 ∨ source.toNat ≠ address → got (reply ++ more) = (.corrupt, none))
        ∧ (byteSum reply = 0 → source.toNat = address →
          (code = 0x21 ∨ code = 0x22 ∨ code = 0x23 → got (reply ++ more) = (.corrupt, none))
          ∧ (∀ hi lo check, code = 0x24 → data = [hi, lo, check] →
              got (reply ++ more) = (.valid, some (.value (hi.toNat * 256 + lo.toNat))))
          ∧ (code = 0x25 → got (reply ++ more) = (.valid, some .rejected))))

/-- A poll of a drive, another poll following: a VALID reply is stored as the channel's report and moves the channel by the rule of its
state; a failed poll counts a miss, leads to LOST at the limit (its target out of FAULT is the model's reading, log 32), and a WRONG_KIND
is notified once. A code beyond R75's list reads as
a free value (log 12), whatever it is; that LOOP_STATE stands before the channel's notices is the model's choice (log 14). -/
def Obligations.DrivePollsMoveTheirChannel : Prop :=
  ∀ (address : Nat) (next : Poll) (rest : List Poll) (reply : List Byte) (before after : List Channel) (c : Channel) (s : State),
    s.power = .running → s.loop.draining ≠ some .poll → s.loop.phase = .polls ⟨address, .only .drive⟩ (next :: rest) →
    s.channels = before ++ c :: after → c.record.address = address → (∀ k ∈ before, k.record.address ≠ address) →
    (∀ k ∈ before ++ after, k.record.channel ≠ c.record.channel) →
      let cls := classifyPoll (.only .drive) (receive address reply)
      let limit := if c.provisional then 4 else missLimitOf s
      let misses := min (c.misses + 1) 255
      (∀ (run speed damper trip check : Byte), reply = [0x22, BitVec.ofNat 8 address, run, speed, damper, trip, check] →
        address < 256 → byteSum reply = 0 →
        ∃ (r : Report) (t : State), exec (.pollSlotEnd reply) s = .next t
          ∧ r.speed = min speed.toNat 100 ∧ r.trip = (if trip = 0 then none else some trip.toNat)
          ∧ (run = 0 → r.run = .stopped) ∧ (run = 1 → r.run = .accelerating) ∧ (run = 2 → r.run = .running)
          ∧ (run = 3 → r.run = .decelerating)
          ∧ (damper = 0 → r.damper = .closed) ∧ (damper = 1 → r.damper = .moving) ∧ (damper = 2 → r.damper = .opn)
          ∧ (damper = 3 → r.damper = .jammed)
          ∧ t = applyChanges (takeReport r c).changes { s with
              channels := before ++ (takeReport r c).ch :: after
              ring := (takeReport r c).notices.foldl (fun r m => r.append ⟨m, s.uptime⟩)
                (if s.loop.state = .down then s.ring.append ⟨.loopState .running s.loop.cycle, s.uptime⟩ else s.ring)
              loop := { s.loop with
                phase := .polls next rest, valid := true, state := .running
                dead := if s.loop.state = .down then 0 else s.loop.dead }
              draws := if run.toNat < 4 ∧ damper.toNat < 4 then s.draws else s.draws + 1 })
      ∧ (cls ≠ .valid → cls ≠ .wrongKind → c.state = .lost ∨ misses < limit →
          exec (.pollSlotEnd reply) s = .next { s with
            channels := before ++ { c with misses := misses, recover := if c.state = .lost then 0 else c.recover } :: after
            loop := { s.loop with phase := .polls next rest } })
      ∧ (cls = .wrongKind → c.state = .lost ∨ misses < limit →
          exec (.pollSlotEnd reply) s = .next { s with
            channels := before ++ { c with
              misses := misses, recover := if c.state = .lost then 0 else c.recover, mismatch := true } :: after
            ring := if c.mismatch then s.ring else s.ring.append ⟨.kindMismatch address .drive .head, s.uptime⟩
            loop := { s.loop with phase := .polls next rest } })
      ∧ (cls ≠ .valid → c.state ≠ .lost → limit ≤ misses →
          let e := toLost (s.demand c).want { c with misses := misses }
          let t := applyChanges e.changes { s with
            channels := before ++ { e.ch with mismatch := c.mismatch || decide (cls = .wrongKind) } :: after
            ring := ringing (e.notices
              ++ if cls = .wrongKind ∧ c.mismatch = false then [.kindMismatch address .drive .head] else []) s
            loop := { s.loop with phase := .polls next rest } }
          exec (.pollSlotEnd reply) s = .next t
            ∧ ∃ d ∈ t.channels, d.record = c.record ∧ d.state = .lost ∧ d.misses = misses ∧ d.recover = 0 ∧ d.faultCause = none
              ∧ d.damper = none ∧ d.coast = none ∧ d.holding = c.holding
              ∧ (c.command = none → d.command = some ⟨0, .close, c.cls.fallback⟩)
              ∧ (∀ i, c.command = some i → d.command = some i))

/-- What a VALID report does to a channel by its state (R84 to R94), beside what it always stores; that a trip goes before the move its
damper or run state would give is the model's choice (log 15). -/
def Obligations.ReportsMoveChannelsByTheirState : Prop :=
  ∀ (r : Report) (c : Channel),
    let e := takeReport r c
    let after : FanState := e.ch.state
    (c.state ≠ .lost ∨ c.recover ≠ 0 → c.state ≠ .fault → r.trip ≠ none → after = .fault ∧ e.ch.faultCause = some .trip
      ∧ e.ch.target = 0 ∧ e.notices = [.fanFault c.number .trip c.state])
    ∧ (r.trip = none →
      (c.state = .sync ∨ (c.state = .lost ∧ c.recover = 1) →
        ((r.run = .running ∨ r.run = .accelerating) ∧ r.damper = .opn →
          after = (if c.target = 0 then .stopping else .running) ∧ e.notices = [.fanState c.number .running c.state])
        ∧ (¬ ((r.run = .running ∨ r.run = .accelerating) ∧ r.damper = .opn) →
          e.notices = [.fanState c.number .off c.state]
          ∧ after = if c.target = 0 ∨ c.holding = true then .off else if r.damper = .opn then .queued else .opening))
      ∧ (c.state = .off → after = .off)
      ∧ (c.state = .opening → after = if r.damper = .opn then .queued else if r.damper = .jammed then .fault else .opening)
      ∧ (c.state = .queued → after = if r.damper = .jammed then .fault else .queued)
      ∧ (c.state = .starting → after = .starting)
      ∧ (c.state = .running → after = if r.run = .stopped ∧ 0 < c.target then .fault else .running)
      ∧ (c.state = .stopping → r.run ≠ .stopped → after = .stopping)
      ∧ (c.state = .stopping → r.run = .stopped → c.target = 0 → after = .off))
    ∧ (c.state = .fault → after = .fault ∧ e.ch.faultCause = c.faultCause)
    ∧ (c.state = .lost → c.recover = 0 → after = .lost ∧ e.ch.recover = 1)
    ∧ e.ch.report = some r ∧ e.ch.misses = 0 ∧ e.ch.mismatch = false ∧ e.ch.reportedSinceGrant = true
    ∧ e.ch.record = c.record ∧ e.ch.holding = c.holding ∧ e.ch.cls = c.cls ∧ e.ch.acknowledged = c.acknowledged
    ∧ e.ch.manual = c.manual ∧ e.ch.cyclesSince = c.cyclesSince ∧ e.ch.conflict = c.conflict
    ∧ let stored : Channel := { c with report := some r, misses := 0, mismatch := false, reportedSinceGrant := true }
      let adopted (d : Channel) : Eff :=
        if r.trip ≠ none then toFault .trip d
        else if (r.run = .running ∨ r.run = .accelerating) ∧ r.damper = .opn then
          ⟨if d.target = 0 then toStopping (toRunning d).ch else (toRunning d).ch, (toRunning d).notices, (toRunning d).changes⟩
        else toOff d
      let still : Eff := ⟨stored, [], []⟩
      e = match c.state with
        | .sync => adopted stored
        | .lost => if c.recover = 0 then ⟨{ stored with recover := 1 }, [], []⟩ else adopted { stored with recover := 0 }
        | .fault => still
        | .off | .starting => if r.trip ≠ none then toFault .trip stored else still
        | .opening =>
          if r.trip ≠ none then toFault .trip stored
          else if r.damper = .opn then toQueued stored else if r.damper = .jammed then toFault .damper stored else still
        | .queued =>
          if r.trip ≠ none then toFault .trip stored else if r.damper = .jammed then toFault .damper stored else still
        | .running =>
          if r.trip ≠ none then toFault .trip stored
          else if r.run = .stopped ∧ 0 < c.target then toFault .stall stored else still
        | .stopping =>
          if r.trip ≠ none then toFault .trip stored else if r.run = .stopped then toOff stored else still

/-- A kind query in BLANK and LOADING, another poll following: a VALID reply enters or refreshes its address in the discovered list, a
failed one removes an address not seen for two sweeps; a drive that joins while a latch is set has its provisional channel, and the channel
of a drive that leaves is LOST, as is one that reaches the miss limit. The class then goes to the provisional channel that held the address:
a drive reply as its report, a failed query as a miss, a head reply as a WRONG_KIND failed poll. Where no channel holds the address and no
drive joins under a latch, the query changes the discovered list and the loop alone. A kind query left in the cycle in progress
at a LOAD_COMMIT counts for the loop state alone: it reaches no list and no owner (R16, R40). That LOOP_STATE stands before the channel's
notices is the model's choice (log 14). -/
def Obligations.KindQueriesKeepTheDiscoveredList : Prop :=
  (∀ (address : Nat) (kind : DeviceKind) (next : Poll) (rest : List Poll) (reply : List Byte) (s : State),
    s.power = .running → s.mode = .blank ∨ s.mode = .loading → s.loop.draining ≠ some .poll →
    s.loop.phase = .polls ⟨address, .any⟩ (next :: rest) →
      let got := receive address reply
      let held := s.loop.discovered.find? fun d => d.address == address
      let heard : Loop := { s.loop with
        phase := .polls next rest, valid := true, state := .running, dead := if s.loop.state = .down then 0 else s.loop.dead }
      let up : List NoticeBody := if s.loop.state = .down then [.loopState .running s.loop.cycle] else []
      let entered : Loop := { heard with discovered := upsert Discovered.address ⟨address, kind, s.loop.sweep⟩ s.loop.discovered }
      let missed : Loop := { s.loop with
        phase := .polls next rest
        discovered := match held with
          | some d =>
            if 2 ≤ (s.loop.sweep - d.seen).toNat then s.loop.discovered.filter fun e => e.address != address
            else s.loop.discovered
          | none => s.loop.discovered }
      (∀ data, got = .complete (if kind = .head then .head else .drive) data →
        ∃ t : State, exec (.pollSlotEnd reply) s = .next t
          ∧ t.loop = entered
          ∧ (kind = .drive → held.map Discovered.kind ≠ some .drive → s.latches ≠ [] →
              (∃ c ∈ t.channels, c.record.address = address) ∨ ∀ n < 24, ∃ c ∈ t.channels, c.number = n)
          ∧ (kind = .head → held.map Discovered.kind = some .drive → s.unitsOk →
              ∀ c ∈ t.channels, c.record.address = address → c.provisional = true → c.state = .lost)
          ∧ t.latches = s.latches ∧ t.zones = s.zones ∧ t.heads = s.heads ∧ t.mode = s.mode ∧ t.slot = s.slot
          ∧ t.link = s.link ∧ t.feeder = s.feeder ∧ t.lines = s.lines)
      ∧ (classifyPoll .any got ≠ .valid →
        ∃ t : State, exec (.pollSlotEnd reply) s = .next t
          ∧ t.loop = missed
          ∧ (∀ d, held = some d → d.kind = .drive → 2 ≤ (s.loop.sweep - d.seen).toNat → s.unitsOk →
              ∀ c ∈ t.channels, c.record.address = address → c.provisional = true → c.state = .lost)
          ∧ t.latches = s.latches ∧ t.zones = s.zones ∧ t.heads = s.heads ∧ t.mode = s.mode ∧ t.slot = s.slot
          ∧ t.link = s.link ∧ t.feeder = s.feeder ∧ t.lines = s.lines)
      ∧ ((∀ c ∈ s.channels, c.record.address ≠ address) → s.latches ≠ [] → held.map Discovered.kind ≠ some .drive → kind = .drive →
        ∀ data, got = .complete .drive data →
          exec (.pollSlotEnd reply) s = .next (resolving (fun _ => true) { s with
            channels := provided s.channels address, loop := entered, ring := ringing up s }))
      ∧ ((∀ c ∈ s.channels, c.record.address ≠ address) →
        (∀ data, got = .complete (if kind = .head then .head else .drive) data →
          kind = .head ∨ held.map Discovered.kind = some .drive ∨ s.latches = [] →
          exec (.pollSlotEnd reply) s = .next { s with loop := entered, ring := ringing up s })
        ∧ (classifyPoll .any got ≠ .valid → exec (.pollSlotEnd reply) s = .next { s with loop := missed }))
      ∧ ∀ before c after, s.channels = before ++ c :: after → c.record.address = address → c.provisional = true →
        (∀ k ∈ before, k.record.address ≠ address) → (∀ k ∈ before ++ after, k.record.channel ≠ c.record.channel) →
          let want := if s.latches = [] then 0 else 100
          (∀ run speed damper trip check : Byte, reply = [0x22, BitVec.ofNat 8 address, run, speed, damper, trip, check] →
            kind = .drive → address < 256 → byteSum reply = 0 → run.toNat < 4 → damper.toNat < 4 →
              let report : Report :=
                ⟨if run = 0 then .stopped else if run = 1 then .accelerating else if run = 2 then .running else .decelerating,
                  min speed.toNat 100,
                  if damper = 0 then .closed else if damper = 1 then .moving else if damper = 2 then .opn else .jammed,
                  if trip = 0 then none else some trip.toNat⟩
              let e := takeReport report c
              (held.map Discovered.kind = some .drive ∨ s.latches = [] →
                exec (.pollSlotEnd reply) s = .next (applyChanges e.changes { s with
                  channels := before ++ e.ch :: after, loop := entered, ring := ringing (up ++ e.notices) s }))
              ∧ (held.map Discovered.kind ≠ some .drive → s.latches ≠ [] →
                exec (.pollSlotEnd reply) s = .next (channelDoes c.record.channel (takeReport report)
                  (resolving (fun _ => true) { s with loop := entered, ring := ringing up s }))))
          ∧ (c.state = .lost ∨ min (c.misses + 1) 255 < 4 →
            let miss : Channel := { c with
              misses := min (c.misses + 1) 255, recover := if c.state = .lost then 0 else c.recover }
            (∀ data, kind = .head → got = .complete .head data → held.map Discovered.kind ≠ some .drive →
              exec (.pollSlotEnd reply) s = .next { s with
                channels := before ++ { miss with mismatch := true } :: after, loop := entered
                ring := ringing (up ++ if c.mismatch then [] else [.kindMismatch address .drive .head]) s })
            ∧ (classifyPoll .any got ≠ .valid →
              (∀ d, held = some d → d.kind = .drive → (s.loop.sweep - d.seen).toNat < 2) →
              exec (.pollSlotEnd reply) s = .next { s with channels := before ++ miss :: after, loop := missed }))
          ∧ (c.state ≠ .lost → 4 ≤ min (c.misses + 1) 255 →
            let e := toLost want { c with misses := min (c.misses + 1) 255 }
            (∀ data, kind = .head → got = .complete .head data → held.map Discovered.kind ≠ some .drive →
              exec (.pollSlotEnd reply) s = .next (applyChanges e.changes { s with
                channels := before ++ { e.ch with mismatch := true } :: after, loop := entered
                ring := ringing (up ++ e.notices ++ if c.mismatch then [] else [.kindMismatch address .drive .head]) s }))
            ∧ (classifyPoll .any got ≠ .valid →
              (∀ d, held = some d → d.kind = .drive → (s.loop.sweep - d.seen).toNat < 2) →
              exec (.pollSlotEnd reply) s = .next (applyChanges e.changes { s with
                channels := before ++ e.ch :: after, loop := missed, ring := ringing e.notices s })))
          ∧ ((∀ k ∈ after, k.record.address ≠ address) →
            let e : Eff := if c.state = .lost then ⟨c, [], []⟩ else toLost want c
            let failed (wrong : Bool) (u : State) : State := { u with
              channels := u.channels.map fun k =>
                if k.record.channel = c.record.channel then
                  { k with misses := min (k.misses + 1) 255, recover := 0, mismatch := k.mismatch || wrong }
                else k
              ring := ringing (if wrong && !c.mismatch then [.kindMismatch address .drive .head] else []) u }
            (∀ data, kind = .head → got = .complete .head data → held.map Discovered.kind = some .drive →
              exec (.pollSlotEnd reply) s = .next (failed true (applyChanges e.changes { s with
                channels := before ++ e.ch :: after, loop := entered, ring := ringing (up ++ e.notices) s })))
            ∧ (∀ d, classifyPoll .any got ≠ .valid → held = some d → d.kind = .drive → 2 ≤ (s.loop.sweep - d.seen).toNat →
              exec (.pollSlotEnd reply) s = .next (failed false (applyChanges e.changes { s with
                channels := before ++ e.ch :: after, loop := missed, ring := ringing e.notices s })))))
  ∧ ∀ (address : Nat) (next : Poll) (rest : List Poll) (reply : List Byte) (s : State),
    s.power = .running → s.mode = .run ∨ s.mode = .manual → s.loop.draining ≠ some .poll →
    s.loop.phase = .polls ⟨address, .any⟩ (next :: rest) →
      (classifyPoll .any (receive address reply) = .valid → exec (.pollSlotEnd reply) s = .next { s with
        ring := ringing (if s.loop.state = .down then [.loopState .running s.loop.cycle] else []) s
        loop := { s.loop with
          phase := .polls next rest, valid := true, state := .running
          dead := if s.loop.state = .down then 0 else s.loop.dead } })
      ∧ (classifyPoll .any (receive address reply) ≠ .valid →
        exec (.pollSlotEnd reply) s = .next { s with loop := { s.loop with phase := .polls next rest } })

/-- A command exchange's end, another command following: an acknowledgement becomes the acknowledged image, restarts the count of cycles
and, for a start still to be acknowledged, loads the settle timer; the drive's side takes the image and obeys it (log 24). Without one the
channel counts a miss while the drive's side keeps its image and its count (the model's choice, log 24), and a channel that reaches the
limit is LOST (its target out of FAULT is the model's reading, log 32). The exchange on the wire at a LOAD_COMMIT has lost its channel
and ends the command phase: it reaches no channel, and its acknowledgement counts for the loop state and its drive alone (the model's
choice, log 20). -/
def Obligations.CommandsAreAcknowledged : Prop :=
  (∀ (n address m : Nat) (image : Image) (rest : List Nat) (reply : List Byte) (before after : List Channel) (c k : Channel)
    (i : Image) (s : State),
    s.power = .running → (∀ x, s.loop.draining ≠ some (.command x)) → s.loop.phase = .commands ⟨some n, address, image⟩ (m :: rest) →
    s.channels = before ++ c :: after → c.record.channel = n → (∀ d ∈ before ++ after, d.record.channel ≠ n) →
    lookup Channel.number m (before ++ after) = some k → k.command = some i →
      let sent : Phase := .commands ⟨some m, k.record.address, i⟩ rest
      (acknowledged (receive address reply) = true →
        let starts := c.state = .starting ∧ c.startAcked = false ∧ 0 < image.setpoint
        exec (.commandSlotEnd reply) s = .next { s with
          channels := before ++ { c with
            acknowledged := some image, cyclesSince := 0, misses := 0
            startAcked := c.startAcked || decide starts
            settle := if starts ∧ c.settle = none then some ⟨c.record.settle, false⟩ else c.settle } :: after
          ring := if s.loop.state = .down then s.ring.append ⟨.loopState .running s.loop.cycle, s.uptime⟩ else s.ring
          loop := { s.loop with
            phase := sent, valid := true, state := .running, dead := if s.loop.state = .down then 0 else s.loop.dead
            drives := taken address image s.loop.drives } }
        ∧ (taken address image s.loop.drives).obeys address = some (image.setpoint, image.damper))
      ∧ (acknowledged (receive address reply) = false →
        c.state = .lost ∨ min (c.misses + 1) 255 < (if c.provisional then 4 else missLimitOf s) →
        exec (.commandSlotEnd reply) s = .next { s with
          channels := before ++ { c with
            misses := min (c.misses + 1) 255, recover := if c.state = .lost then 0 else c.recover } :: after
          loop := { s.loop with phase := sent } })
      ∧ (acknowledged (receive address reply) = false →
        c.state ≠ .lost → (if c.provisional then 4 else missLimitOf s) ≤ min (c.misses + 1) 255 →
        let e := toLost (s.demand c).want { c with misses := min (c.misses + 1) 255 }
        let u := applyChanges e.changes { s with channels := before ++ e.ch :: after, ring := ringing e.notices s }
        ∃ (l : Channel) (j : Image), lookup Channel.number m u.channels = some l ∧ l.record = k.record ∧ l.command = some j
          ∧ exec (.commandSlotEnd reply) s =
            .next { u with loop := { s.loop with phase := .commands ⟨some m, k.record.address, j⟩ rest } }))
  ∧ ∀ (address : Nat) (image : Image) (reply : List Byte) (s : State), s.power = .running →
    (∀ x, s.loop.draining ≠ some (.command x)) → s.loop.phase = .commands ⟨none, address, image⟩ [] →
      ∃ t : State, exec (.commandSlotEnd reply) s = .next t
        ∧ (acknowledged (receive address reply) = true → ServiceBegins { s with
            ring := ringing (if s.loop.state = .down then [.loopState .running s.loop.cycle] else []) s
            loop := { s.loop with
              valid := true, state := .running, dead := if s.loop.state = .down then 0 else s.loop.dead
              drives := taken address image s.loop.drives } } t)
        ∧ (acknowledged (receive address reply) = false → ServiceBegins s t)

/-- The command phase: at most 12 slots, no channel has two; they go to the candidates in the order of R17 (class, then the lowest
channel number, or for refreshes the largest count of cycles first) and are sent in that order; a candidate is left out only behind 12
others; SYNC offers none, and the class of a candidate is the first of R82's that applies. The seams of a cycle: the last poll's end
opens the command phase, the last command's end the service exchange or, with no attempt to make, the cycle's completion. -/
def Obligations.CommandSlotsAreAllottedByClass : Prop :=
  (∀ s : State, sorted Channel.number s.channels →
    let rank : CandidateClass → Nat
      | .fire => 1
      | .stop => 2
      | .start => 3
      | .speed => 4
      | .refresh => 5
    let first (c d : Channel) := ∀ j k, c.candidate = some j → d.candidate = some k → rank j < rank k ∨ (j = k ∧
      if k = .refresh then d.cyclesSince < c.cyclesSince ∨ (c.cyclesSince = d.cyclesSince ∧ c.number < d.number)
      else c.number < d.number)
    s.allotted.length ≤ 12 ∧ s.allotted.Nodup
    ∧ (∀ n ∈ s.allotted, ∃ c ∈ s.channels, c.number = n ∧ c.candidate ≠ none)
    ∧ (s.allotted.Pairwise fun m n => ∀ c ∈ s.channels, ∀ d ∈ s.channels, c.number = m → d.number = n → first c d)
    ∧ ∀ d ∈ s.channels, d.candidate ≠ none → d.number ∉ s.allotted → s.allotted.length = 12
      ∧ ∀ c ∈ s.channels, c.number ∈ s.allotted → first c d)
  ∧ (∀ c : Channel, c.state = .sync ∨ c.command = none → c.candidate = none)
  ∧ (∀ (c : Channel) (i : Image), c.command = some i → c.state ≠ .sync →
    (c.acknowledged = none → c.candidate =
      some (if c.cls = .extract ∨ c.cls = .isolate then .fire else if i.setpoint = 0 then .stop else .speed))
    ∧ ∀ a, c.acknowledged = some a →
      (i = a → c.candidate = if 3 ≤ c.cyclesSince then some .refresh else none)
      ∧ (i ≠ a → c.candidate = some (
        if c.cls = .extract ∨ c.cls = .isolate then .fire
        else if (i.setpoint = 0 ∧ 0 < a.setpoint) ∨ (i.damper = .close ∧ a.damper = .opn) then .stop
        else if (i.damper = .opn ∧ a.damper = .close) ∨ (0 < i.setpoint ∧ a.setpoint = 0) then .start
        else .speed)))
  ∧ ∀ (reply : List Byte) (s : State), s.power = .running →
    (∀ p next, s.loop.draining ≠ some .poll → s.loop.phase = .polls p [] →
      ∃ u t : State, exec (.pollSlotEnd reply) { s with loop := { s.loop with phase := .polls p [next] } } = .next u
        ∧ exec (.pollSlotEnd reply) s = .next t ∧ CommandsBegin u t)
    ∧ ∀ x n, (∀ y, s.loop.draining ≠ some (.command y)) → s.loop.phase = .commands x [] →
      ∃ u t : State, exec (.commandSlotEnd reply) { s with loop := { s.loop with phase := .commands x [n] } } = .next u
        ∧ exec (.commandSlotEnd reply) s = .next t ∧ ((∃ y, u.loop.phase = .commands y []) → ServiceBegins u t)

/-! ## Zones, targets and grants -/

/-- An evaluation's refresh takes the largest averages of a zone's LIVE heads, and its decision moves the zone at most one state by the
first case that applies; a fire state is left alone; the claim is the state's, raised by a boost. -/
def Obligations.EvaluationDecidesAZone : Prop :=
  (∀ (heads : List Head) (z : Zone),
    let own := heads.filter fun h => h.record.head ∈ z.record.heads ∧ h.state = .live
    let t := z.refresh heads
    t = { z with liveCount := own.length, coLevel := t.coLevel, no2Level := t.no2Level }
    ∧ (∀ v, t.coLevel = some v ↔ (∃ h ∈ own, average h.coWindow = some v) ∧ ∀ h ∈ own, ∀ w, average h.coWindow = some w → w ≤ v)
    ∧ (∀ v, t.no2Level = some v ↔ (∃ h ∈ own, average h.no2Window = some v) ∧ ∀ h ∈ own, ∀ w, average h.no2Window = some w → w ≤ v))
  ∧ (∀ w : List Nat, average w = if w = [] then none else some (w.sum / w.length))
  ∧ ∀ z : Zone,
    let rises (f : Limits → Nat) := (∃ v, z.coLevel = some v ∧ f z.record.co ≤ v) ∨ ∃ v, z.no2Level = some v ∧ f z.record.no2 ≤ v
    let below (f : Limits → Nat) := (∀ v, z.coLevel = some v → v < f z.record.co) ∧ ∀ v, z.no2Level = some v → v < f z.record.no2
    let boosted (v : Nat) := max v ((z.boost.map Boost.speed).getD 0)
    let moved (new : ZoneState) (claim : Nat) : Zone := { z with
      state := new, claim := boosted claim, claimClass := .normal, governing := none, conflict := []
      hold := if new = .runOn then some ⟨z.record.hold, false⟩ else none }
    let two := moved .purge2 z.record.stage2
    let one := moved .purge1 z.record.stage1
    let runOn := moved .runOn z.record.stage1
    (z.state = .fireExtract ∨ z.state = .fireIsolate → z.decided = z)
    ∧ (z.state ≠ .fireExtract → z.state ≠ .fireIsolate →
      (z.liveCount = 0 → z.decided =
        if z.grace.remaining = 0 ∧ z.state ≠ .blind then moved .blind z.record.blind else z)
      ∧ (z.liveCount ≠ 0 → z.coLevel = none → z.no2Level = none → z.decided = z)
      ∧ (z.liveCount ≠ 0 → z.coLevel ≠ none ∨ z.no2Level ≠ none →
        (z.state ≠ .purge2 → rises Limits.high2 → z.decided = two)
        ∧ (z.state ≠ .purge1 → z.state ≠ .purge2 → ¬ rises Limits.high2 → rises Limits.high1 → z.decided = one)
        ∧ (z.state = .quiet ∨ z.state = .runOn → ¬ rises Limits.high2 → ¬ rises Limits.high1 → z.decided = z)
        ∧ (z.state = .blind → ¬ rises Limits.high2 → ¬ rises Limits.high1 → z.decided = runOn)
        ∧ (z.state = .purge1 → ¬ rises Limits.high2 → below Limits.low1 → z.decided = runOn)
        ∧ (z.state = .purge1 → ¬ rises Limits.high2 → ¬ below Limits.low1 → z.decided = z)
        ∧ (z.state = .purge2 → below Limits.low1 → z.decided = runOn)
        ∧ (z.state = .purge2 → ¬ below Limits.low1 → below Limits.low2 → z.decided = one)
        ∧ (z.state = .purge2 → ¬ below Limits.low1 → ¬ below Limits.low2 → z.decided = z)))

/-- What a channel's bound claims ask of it: the largest EXTRACT claim, at least `min`; else 0 for an ISOLATE claim; else the manual
setpoint in MANUAL or the largest NORMAL claim, brought into `min`..`max` unless 0; under the failsafe 100 % EXTRACT or 0. A conflict names
the lowest-numbered bound zone that claims ISOLATE (R80). And what a
resolution does with it by the channel's state: nothing where class and target stand; else the new class, target and fallback, and the
state's own move. That a FIRE_CONFLICT stands before the channel's own FAN_STATE is the model's choice (log 14). -/
def Obligations.TargetsFollowTheBoundClaims : Prop :=
  (∀ (c : Channel) (s : State),
    let claims := s.boundClaims c.record.channel
    let into (v : Nat) := if v = 0 then 0 else min c.record.max (max c.record.min v)
    let speeds (k : ClaimClass) := (claims.filter fun h => h.cls = k).map HandedClaim.speed
    (claims = s.handed.filter fun h => s.zones.any fun z => z.record.zone == h.zone && z.record.fans.contains c.record.channel)
    ∧ (s.mode = .blank ∨ s.mode = .loading →
      s.demand c = if s.latches = [] then ⟨.normal, 0, none⟩ else ⟨.extract, 100, none⟩)
    ∧ (s.mode = .run ∨ s.mode = .manual →
      ((∃ h ∈ claims, h.cls = .extract) → (s.demand c).cls = .extract
        ∧ c.record.min ≤ (s.demand c).want ∧ (∀ v ∈ speeds .extract, v ≤ (s.demand c).want)
        ∧ ((s.demand c).want = c.record.min ∨ (s.demand c).want ∈ speeds .extract))
      ∧ ((∀ h ∈ claims, h.cls ≠ .extract) → (∃ h ∈ claims, h.cls = .isolate) → s.demand c = ⟨.isolate, 0, none⟩)
      ∧ ((∀ h ∈ claims, h.cls = .normal) →
        (s.mode = .manual → s.demand c = ⟨.normal, into (c.manual.getD 0), none⟩)
        ∧ (s.mode = .run → ∀ v, (∀ w ∈ speeds .normal, w ≤ v) → (v = 0 ∨ v ∈ speeds .normal) →
            s.demand c = ⟨.normal, into v, none⟩))
      ∧ ((s.demand c).conflict ≠ none ↔ (∃ h ∈ claims, h.cls = .extract) ∧ ∃ h ∈ claims, h.cls = .isolate)
      ∧ ∀ z, (s.demand c).conflict = some z ↔ (∃ h ∈ claims, h.cls = .extract)
          ∧ (∃ h ∈ claims, h.cls = .isolate ∧ h.zone = z) ∧ ∀ h ∈ claims, h.cls = .isolate → z ≤ h.zone))
  ∧ ∀ (silent : Bool) (d : Demand) (c : Channel),
    let target := if c.state = .fault then 0 else d.want
    let fallback : Fallback := match d.cls with | .normal => .hold | .extract => .extract | .isolate => .stop
    let queueClass : QueueClass := if d.cls = .extract then .fire else .normal
    let onset : List NoticeBody := match d.conflict with
      | some z => if c.conflict || silent then [] else [.channelConflict c.number z]
      | none => []
    let set : Channel := { c with
      conflict := d.conflict.isSome, cls := d.cls, target := target
      command := c.command.map fun i => { i with fallback := fallback } }
    let image (setpoint : Nat) (damper : DamperCmd) : Option Image := some ⟨setpoint, damper, fallback⟩
    let held := (c.command.map Image.damper).getD .close
    let does (e : Channel) (ns : List NoticeBody) (qs : List QueueChange) : Prop := resolve silent d c = ⟨e, onset ++ ns, qs⟩
    let off : Channel := { set with state := .off, faultCause := none, damper := none, coast := none, command := image 0 .close }
    let queued : Channel := { set with state := .queued, damper := none, coast := none, command := image 0 .opn }
    let join : QueueChange := .join c.number queueClass c.record.cost
    let stopping : Channel := { set with
      state := .stopping, coast := some ⟨c.record.coastTimeout, false⟩, command := image 0 .opn
      settle := if c.state = .starting ∧ c.holding = true ∧ c.startAcked = false ∧ c.settle = none
        then some ⟨c.record.settle, false⟩ else c.settle }
    (c.cls = d.cls ∧ c.target = target → does { c with conflict := d.conflict.isSome } [] [])
    ∧ (¬ (c.cls = d.cls ∧ c.target = target) →
      (c.state = .sync → does set [] [])
      ∧ (c.state = .off → d.want = 0 ∨ c.holding = true → does set [] [])
      ∧ (c.state = .off → 0 < d.want → c.holding = false → c.report.map Report.damper = some .opn → does queued [] [join])
      ∧ (c.state = .off → 0 < d.want → c.holding = false → c.report.map Report.damper ≠ some .opn →
          does { set with state := .opening, damper := some ⟨c.record.damperTimeout, false⟩, command := image 0 .opn } [] [])
      ∧ (c.state = .opening → d.want = 0 → does off [.fanState c.number .off .opening] [])
      ∧ (c.state = .opening → 0 < d.want → does set [] [])
      ∧ (c.state = .queued → d.want = 0 → does off [.fanState c.number .off .queued] [.leave c.number])
      ∧ (c.state = .queued → 0 < d.want →
          does set [] (if (c.cls = .extract) ↔ (d.cls = .extract) then [] else [.move c.number queueClass]))
      ∧ (c.state = .starting ∨ c.state = .running → d.want = 0 → does stopping [] [])
      ∧ (c.state = .starting ∨ c.state = .running → 0 < d.want → does { set with command := image d.want .opn } [] [])
      ∧ (c.state = .stopping → d.want = 0 → does set [] [])
      ∧ (c.state = .stopping → 0 < d.want → c.holding = true →
          does { set with state := .starting, coast := none, command := image d.want .opn } [] [])
      ∧ (c.state = .stopping → 0 < d.want → c.holding = false → does queued [] [join])
      ∧ (c.state = .fault → does (if d.cls = .isolate then { set with command := image 0 .close } else set) [] [])
      ∧ (c.state = .lost → d.cls = .isolate → does { set with command := image 0 .close } [] [])
      ∧ (c.state = .lost → d.cls ≠ .isolate → d.want = 0 → does { set with command := image 0 held } [] [])
      ∧ (c.state = .lost → d.cls ≠ .isolate → 0 < d.want → 0 < (c.command.map Image.setpoint).getD 0 →
          does { set with command := image d.want held } [] [])
      ∧ (c.state = .lost → d.cls ≠ .isolate → 0 < d.want → (c.command.map Image.setpoint).getD 0 = 0 → does set [] []))

/-- The start queue: of one event's changes the leaves come first, then the moves, then the joins; a move and a join go to the end of
their class, FIRE ahead of NORMAL; a join, a move or a leave of the head calls for one look. A look ends at an empty queue or at a head
that does not fit; a head that fits under its limit, B or under CONSTRAINED Br for a NORMAL start, or that finds no units held, is
granted, and the look goes on behind it. That each change gives the head anew, with a head time of its own, is the model's reading
(log 25). -/
def Obligations.LooksGrantFittingHeads : Prop :=
  (∀ s : State,
    let loaded := s.mode = .run ∨ s.mode = .manual
    (∀ a, s.active = some a → loaded → s.budget = a.budget ∧ s.reduced = a.reduced)
    ∧ (¬ loaded → s.budget = 1 ∧ s.reduced = 1)
    ∧ (s.queue = [] → look s = s)
    ∧ ∀ e rest, s.queue = e :: rest →
      let limit := if e.cls = .fire ∨ s.feeder.effective = .normal then s.budget else s.reduced
      (s.held ≠ 0 → limit < s.held + e.cost → look s = s)
      ∧ (s.held = 0 ∨ s.held + e.cost ≤ limit → look s = look { s with
          queue := headTimed rest
          held := s.held + e.cost
          channels := s.channels.map fun c =>
            if c.record.channel = e.channel then { c with
              state := .starting, holding := true, startAcked := false, reportedSinceGrant := false
              command := some ⟨c.target, .opn, c.cls.fallback⟩ }
            else c }))
  ∧ (∀ (n : Nat) (cls : QueueClass) (cost : Nat) (q : List QueueEntry),
    let without := q.filter fun e => e.channel ≠ n
    let placed (e : QueueEntry) (q : List QueueEntry) : List QueueEntry :=
      if e.cls = .normal then q ++ [e]
      else q.takeWhile (fun f => f.cls = .fire) ++ e :: q.dropWhile (fun f => f.cls = .fire)
    applyChange q (.leave n) = headTimed without
    ∧ applyChange q (.join n cls cost) = headTimed (placed ⟨n, cls, cost, 0, none, false⟩ q)
    ∧ (∀ e, q.find? (fun e => e.channel == n) = some e →
        applyChange q (.move n cls) = headTimed (placed { e with cls := cls } without))
    ∧ (q.find? (fun e => e.channel == n) = none → applyChange q (.move n cls) = q))
  ∧ ∀ (cs : List QueueChange) (s : State),
    let leaves := cs.filter fun x => match x with | .leave _ => true | _ => false
    let moves := cs.filter fun x => match x with | .move _ _ => true | _ => false
    let joins := cs.filter fun x => match x with | .join _ _ _ => true | _ => false
    let calls := moves ≠ [] ∨ joins ≠ [] ∨ ∃ e rest, s.queue = e :: rest ∧ .leave e.channel ∈ cs
    let t : State := { s with queue := (leaves ++ moves ++ joins).foldl applyChange s.queue }
    (calls → applyChanges cs s = look t) ∧ (¬ calls → applyChanges cs s = t)

/-! ## Time -/

/-- A seconds tick: uptime and every running timer; the tick that would bring a count to 0 leaves it at 1 and due (log 5). The head of
the queue is reported once for each spell of 60 s; that the tick moves its head time alone and the QUEUE_STALL command raises the notice
at any head time of 60 or more is the model's choice (log 5). -/
def Obligations.SecondsTickAndStall : Prop :=
  ∀ s : State, s.power = .running →
    let tick (k : Timer) : Timer := if 1 < k.remaining then ⟨k.remaining - 1, false⟩ else ⟨k.remaining, k.remaining == 1⟩
    exec .secondsTick s = .next { s with
      uptime := s.uptime + 1
      zones := s.zones.map fun z => { z with
        hold := z.hold.map tick, boost := z.boost.map fun b => { b with timer := tick b.timer }, grace := tick z.grace }
      channels := s.channels.map fun c => { c with
        settle := c.settle.map tick, damper := c.damper.map tick, coast := c.coast.map tick }
      queue := s.queue.map fun e => { e with
        waiting := min (e.waiting + 1) 65535, headTime := e.headTime.map fun n => min (n + 1) 65535 }
      slot := match s.slot with
        | .ready k ms r x => .ready k ms r (tick x)
        | other => other }
    ∧ (s.queue = [] → exec .queueStall s = .next s)
    ∧ ∀ e rest, s.queue = e :: rest →
      (60 ≤ e.headTime.getD 0 → e.stalled = false → exec .queueStall s =
        .next (noticed (.queueStall e.channel e.cost s.held) { s with queue := { e with stalled := true } :: rest }))
      ∧ (e.headTime.getD 0 < 60 ∨ e.stalled = true → exec .queueStall s = .next s)

/-- The expiries of a zone's timers, each only when due (log 5): the hold takes RUN_ON to QUIET, the boost's end lowers the claim and is
notified last, the grace stands at 0. No other zone and nothing beyond the channels and their queue changes. -/
def Obligations.ZoneTimersExpire : Prop :=
  ∀ (n : Nat) (before after : List Zone) (z : Zone) (s : State), s.power = .running → s.zones = before ++ z :: after →
    z.record.zone = n → (∀ y ∈ before ++ after, y.record.zone ≠ n) →
      let speed := (z.boost.map Boost.speed).getD 0
      (∀ k, z.state = .runOn → z.hold = some k → k.due = true →
        let new := before ++ { z with
          state := .quiet, hold := none, governing := none, conflict := [], claim := max z.record.idle speed
          claimClass := .normal } :: after
        exec (.holdExpiry n) s = .next (zonesBecome new s)
          ∧ ∃ t : State, zonesBecome new s = noticed (.zoneState n .quiet z.coLevel z.no2Level) t
            ∧ sameBesidesFans { s with handed := t.handed, zones := new } t)
      ∧ (z.state ≠ .runOn ∨ z.hold = none ∨ (∃ k, z.hold = some k ∧ k.due = false) →
        exec (.holdExpiry n) s = .next s)
      ∧ (∀ b, z.boost = some b → b.timer.due = true →
        let new := before ++ (
          if z.state = .fireExtract ∨ z.state = .fireIsolate then { z with boost := none }
          else { z with boost := none, claim := z.record.claimOf z.state, claimClass := .normal }) :: after
        exec (.boostExpiry n) s = .next (noticed (.boostEnd n b.speed z.state) (zonesBecome new s))
          ∧ sameBesidesFans { s with handed := (zonesBecome new s).handed, zones := new } (zonesBecome new s))
      ∧ (z.boost = none ∨ (∃ b, z.boost = some b ∧ b.timer.due = false) → exec (.boostExpiry n) s = .next s)
      ∧ exec (.graceExpiry n) s = .next { s with
          zones := before ++ (if z.grace.due then { z with grace := ⟨0, false⟩ } else z) :: after }

/-- The expiries of a channel's timers, each only when due (log 5): settle returns the units, the queue is looked at, and then the channel
acts by its state, judging a start or beginning one from OFF (this order is the model's reading, log 26); the damper timer faults an
OPENING channel; the coast timer takes a STOPPING channel to OFF, and on at once where its target is above 0. -/
def Obligations.ChannelTimersExpire : Prop :=
  ∀ (n : Nat) (before after : List Channel) (c : Channel) (s : State), s.power = .running →
    s.channels = before ++ c :: after → c.record.channel = n → (∀ d ∈ before ++ after, d.record.channel ≠ n) →
      ((∀ k, c.settle = some k → k.due = false) → exec (.settleExpiry n) s = .next s)
      ∧ (∀ k, c.settle = some k → k.due = true →
        let settled (d : Channel) : Eff :=
          if d.state = .starting then
            if d.reportedSinceGrant = true ∧ (d.report.map Report.run = some .running ∨ d.report.map Report.run = some .accelerating)
            then toRunning d else toFault .noStart d
          else if d.state = .off ∧ 0 < d.target then toStart d else ⟨d, [], []⟩
        exec (.settleExpiry n) s = .next (channelDoes n settled (look { s with
          held := s.held - c.record.cost
          channels := before ++ { c with holding := false, startAcked := false, settle := none } :: after })))
      ∧ (∀ k, c.settle = some k → k.due = true → s.queue = [] →
        (c.state = .starting → c.reportedSinceGrant = true → (∃ r, c.report = some r ∧ (r.run = .running ∨ r.run = .accelerating)) →
          exec (.settleExpiry n) s = .next (noticed (.fanState n .running .starting) { s with
            held := s.held - c.record.cost
            channels := before ++ { c with
              holding := false, startAcked := false, settle := none, state := .running, damper := none, coast := none
              command := some ⟨c.target, .opn, c.cls.fallback⟩ } :: after }))
        ∧ (c.state = .starting → c.reportedSinceGrant = false ∨ c.report = none ∨
              (∃ r, c.report = some r ∧ (r.run = .stopped ∨ r.run = .decelerating)) →
          exec (.settleExpiry n) s = .next (noticed (.fanFault n .noStart .starting) { s with
            held := s.held - c.record.cost
            channels := before ++ { c with
              holding := false, startAcked := false, settle := none, state := .fault, faultCause := some .noStart, target := 0
              damper := none, coast := none
              command := some ⟨0, if c.cls = .isolate then .close else (c.command.map Image.damper).getD .close,
                c.cls.fallback⟩ } :: after }))
        ∧ (c.state ≠ .starting → c.state ≠ .off ∨ c.target = 0 → exec (.settleExpiry n) s = .next { s with
            held := s.held - c.record.cost
            channels := before ++ { c with holding := false, startAcked := false, settle := none } :: after }))
      ∧ ((∀ k, c.damper = some k → k.due = false) ∨ c.state ≠ .opening → exec (.damperTimerExpiry n) s = .next s)
      ∧ (∀ k, c.damper = some k → k.due = true → c.state = .opening →
          exec (.damperTimerExpiry n) s = .next (noticed (.fanFault n .damper .opening) { s with
            channels := before ++ { c with
              state := .fault, faultCause := some .damper, target := 0, damper := none, coast := none
              command := some ⟨0, if c.cls = .isolate then .close else (c.command.map Image.damper).getD .close,
                c.cls.fallback⟩ } :: after }))
      ∧ ((∀ k, c.coast = some k → k.due = false) ∨ c.state ≠ .stopping → exec (.coastTimerExpiry n) s = .next s)
      ∧ (∀ k, c.coast = some k → k.due = true → c.state = .stopping → c.target = 0 →
          exec (.coastTimerExpiry n) s = .next (noticed (.fanState n .off .stopping) { s with
            channels := before ++ { c with
              state := .off, faultCause := none, damper := none, coast := none
              command := some ⟨0, .close, c.cls.fallback⟩ } :: after }))
      ∧ (∀ k, c.coast = some k → k.due = true → c.state = .stopping →
          exec (.coastTimerExpiry n) s = .next (channelDoes n toOff s))

/-! ## What every step keeps -/

/-- Every law of Safety.lean holds of the part right after reset. -/
def Obligations.LawsHoldAtReset : Prop :=
  State.reset.ringOk ∧ State.reset.tablesOk ∧ State.reset.latchesOk ∧ State.reset.firesOk ∧ State.reset.commandsOk
  ∧ State.reset.unitsOk ∧ State.reset.queueOk ∧ State.reset.claimsOk

/-- The notice ring never holds more than 64 notices, nor its loss count more than 127. -/
def Obligations.RingStaysWithinItsRoom : Prop := Kept State.ringOk

/-- The tables that exist are those of the mode. -/
def Obligations.TablesFollowTheMode : Prop := Kept State.tablesOk

/-- A line stands in the latch list at most once, and the eight lines keep their runtimes. -/
def Obligations.LatchListHoldsEachLineOnce : Prop := Kept State.latchesOk

/-- Every zone's fire state, governor, fire claim and conflict set are those the latch list and the plans define. -/
def Obligations.ZonesFollowTheLatchList : Prop := Kept fun s => s.tablesOk ∧ s.firesOk

/-- No channel is commanded a nonzero speed with its damper closed, nor outside STARTING, RUNNING and LOST. -/
def Obligations.FansNeverRunAgainstAClosedDamper : Prop := Kept State.commandsOk

/-- The held units are the costs of the channels that hold them, and the start queue holds the QUEUED channels, each once; the queue has
its FIRE entries ahead of its NORMAL ones, each of its channel's class, a head time at its head alone, and `held` never exceeds the B in
force. -/
def Obligations.UnitsHeldMatchTheirHolders : Prop :=
  Kept State.unitsOk ∧ Kept fun s => s.unitsOk ∧ s.queueOk

/-- Every zone's claim reaches the Fan Channel Manager, and every channel's class, target and conflict are those its bound zones' claims,
its manual setpoint or the failsafe ask, the target 0 in FAULT. -/
def Obligations.ClaimsReachTheChannels : Prop := Kept fun s => s.unitsOk ∧ s.claimsOk

end
end

