-- ==== Sys2Proof/Laws/State.lean ====
section
/-! SUPPORT. What the small updates of the state leave in each field: one lemma for each field and update, true by definition, so that
no proof unfolds a record update. -/

namespace Sys2Proof.Machine

/-! ## raise -/

@[simp] theorem raise_power (n : NoticeBody) (s : State) : (raise n s).power = s.power := rfl
@[simp] theorem raise_resetPin (n : NoticeBody) (s : State) : (raise n s).resetPin = s.resetPin := rfl
@[simp] theorem raise_mode (n : NoticeBody) (s : State) : (raise n s).mode = s.mode := rfl
@[simp] theorem raise_resetCause (n : NoticeBody) (s : State) : (raise n s).resetCause = s.resetCause := rfl
@[simp] theorem raise_uptime (n : NoticeBody) (s : State) : (raise n s).uptime = s.uptime := rfl
@[simp] theorem raise_staging (n : NoticeBody) (s : State) : (raise n s).staging = s.staging := rfl
@[simp] theorem raise_active (n : NoticeBody) (s : State) : (raise n s).active = s.active := rfl
@[simp] theorem raise_loop (n : NoticeBody) (s : State) : (raise n s).loop = s.loop := rfl
@[simp] theorem raise_heads (n : NoticeBody) (s : State) : (raise n s).heads = s.heads := rfl
@[simp] theorem raise_zones (n : NoticeBody) (s : State) : (raise n s).zones = s.zones := rfl
@[simp] theorem raise_handed (n : NoticeBody) (s : State) : (raise n s).handed = s.handed := rfl
@[simp] theorem raise_channels (n : NoticeBody) (s : State) : (raise n s).channels = s.channels := rfl
@[simp] theorem raise_queue (n : NoticeBody) (s : State) : (raise n s).queue = s.queue := rfl
@[simp] theorem raise_held (n : NoticeBody) (s : State) : (raise n s).held = s.held := rfl
@[simp] theorem raise_feeder (n : NoticeBody) (s : State) : (raise n s).feeder = s.feeder := rfl
@[simp] theorem raise_lines (n : NoticeBody) (s : State) : (raise n s).lines = s.lines := rfl
@[simp] theorem raise_latches (n : NoticeBody) (s : State) : (raise n s).latches = s.latches := rfl
@[simp] theorem raise_levelLatchDue (n : NoticeBody) (s : State) : (raise n s).levelLatchDue = s.levelLatchDue := rfl
@[simp] theorem raise_provisionalDue (n : NoticeBody) (s : State) : (raise n s).provisionalDue = s.provisionalDue := rfl
@[simp] theorem raise_slot (n : NoticeBody) (s : State) : (raise n s).slot = s.slot := rfl
@[simp] theorem raise_ring (n : NoticeBody) (s : State) : (raise n s).ring = s.ring.append ⟨n, s.uptime⟩ := rfl
@[simp] theorem raise_snapshot (n : NoticeBody) (s : State) : (raise n s).snapshot = s.snapshot := rfl
@[simp] theorem raise_link (n : NoticeBody) (s : State) : (raise n s).link = s.link := rfl
@[simp] theorem raise_draws (n : NoticeBody) (s : State) : (raise n s).draws = s.draws := rfl
@[simp] theorem raise_pending (n : NoticeBody) (s : State) : (raise n s).pending = s.pending := rfl

/-! ## setPhase -/

@[simp] theorem setPhase_power (p : Phase) (s : State) : (setPhase p s).power = s.power := rfl
@[simp] theorem setPhase_resetPin (p : Phase) (s : State) : (setPhase p s).resetPin = s.resetPin := rfl
@[simp] theorem setPhase_mode (p : Phase) (s : State) : (setPhase p s).mode = s.mode := rfl
@[simp] theorem setPhase_resetCause (p : Phase) (s : State) : (setPhase p s).resetCause = s.resetCause := rfl
@[simp] theorem setPhase_uptime (p : Phase) (s : State) : (setPhase p s).uptime = s.uptime := rfl
@[simp] theorem setPhase_staging (p : Phase) (s : State) : (setPhase p s).staging = s.staging := rfl
@[simp] theorem setPhase_active (p : Phase) (s : State) : (setPhase p s).active = s.active := rfl
@[simp] theorem setPhase_loop (p : Phase) (s : State) : (setPhase p s).loop = { s.loop with phase := p } := rfl
@[simp] theorem setPhase_heads (p : Phase) (s : State) : (setPhase p s).heads = s.heads := rfl
@[simp] theorem setPhase_zones (p : Phase) (s : State) : (setPhase p s).zones = s.zones := rfl
@[simp] theorem setPhase_handed (p : Phase) (s : State) : (setPhase p s).handed = s.handed := rfl
@[simp] theorem setPhase_channels (p : Phase) (s : State) : (setPhase p s).channels = s.channels := rfl
@[simp] theorem setPhase_queue (p : Phase) (s : State) : (setPhase p s).queue = s.queue := rfl
@[simp] theorem setPhase_held (p : Phase) (s : State) : (setPhase p s).held = s.held := rfl
@[simp] theorem setPhase_feeder (p : Phase) (s : State) : (setPhase p s).feeder = s.feeder := rfl
@[simp] theorem setPhase_lines (p : Phase) (s : State) : (setPhase p s).lines = s.lines := rfl
@[simp] theorem setPhase_latches (p : Phase) (s : State) : (setPhase p s).latches = s.latches := rfl
@[simp] theorem setPhase_levelLatchDue (p : Phase) (s : State) : (setPhase p s).levelLatchDue = s.levelLatchDue := rfl
@[simp] theorem setPhase_provisionalDue (p : Phase) (s : State) : (setPhase p s).provisionalDue = s.provisionalDue := rfl
@[simp] theorem setPhase_slot (p : Phase) (s : State) : (setPhase p s).slot = s.slot := rfl
@[simp] theorem setPhase_ring (p : Phase) (s : State) : (setPhase p s).ring = s.ring := rfl
@[simp] theorem setPhase_snapshot (p : Phase) (s : State) : (setPhase p s).snapshot = s.snapshot := rfl
@[simp] theorem setPhase_link (p : Phase) (s : State) : (setPhase p s).link = s.link := rfl
@[simp] theorem setPhase_draws (p : Phase) (s : State) : (setPhase p s).draws = s.draws := rfl
@[simp] theorem setPhase_pending (p : Phase) (s : State) : (setPhase p s).pending = s.pending := rfl

/-! ## drained -/

@[simp] theorem drained_power (s : State) : (drained s).power = s.power := rfl
@[simp] theorem drained_resetPin (s : State) : (drained s).resetPin = s.resetPin := rfl
@[simp] theorem drained_mode (s : State) : (drained s).mode = s.mode := rfl
@[simp] theorem drained_resetCause (s : State) : (drained s).resetCause = s.resetCause := rfl
@[simp] theorem drained_uptime (s : State) : (drained s).uptime = s.uptime := rfl
@[simp] theorem drained_staging (s : State) : (drained s).staging = s.staging := rfl
@[simp] theorem drained_active (s : State) : (drained s).active = s.active := rfl
@[simp] theorem drained_loop (s : State) : (drained s).loop = { s.loop with draining := none } := rfl
@[simp] theorem drained_heads (s : State) : (drained s).heads = s.heads := rfl
@[simp] theorem drained_zones (s : State) : (drained s).zones = s.zones := rfl
@[simp] theorem drained_handed (s : State) : (drained s).handed = s.handed := rfl
@[simp] theorem drained_channels (s : State) : (drained s).channels = s.channels := rfl
@[simp] theorem drained_queue (s : State) : (drained s).queue = s.queue := rfl
@[simp] theorem drained_held (s : State) : (drained s).held = s.held := rfl
@[simp] theorem drained_feeder (s : State) : (drained s).feeder = s.feeder := rfl
@[simp] theorem drained_lines (s : State) : (drained s).lines = s.lines := rfl
@[simp] theorem drained_latches (s : State) : (drained s).latches = s.latches := rfl
@[simp] theorem drained_levelLatchDue (s : State) : (drained s).levelLatchDue = s.levelLatchDue := rfl
@[simp] theorem drained_provisionalDue (s : State) : (drained s).provisionalDue = s.provisionalDue := rfl
@[simp] theorem drained_slot (s : State) : (drained s).slot = s.slot := rfl
@[simp] theorem drained_ring (s : State) : (drained s).ring = s.ring := rfl
@[simp] theorem drained_snapshot (s : State) : (drained s).snapshot = s.snapshot := rfl
@[simp] theorem drained_link (s : State) : (drained s).link = s.link := rfl
@[simp] theorem drained_draws (s : State) : (drained s).draws = s.draws := rfl
@[simp] theorem drained_pending (s : State) : (drained s).pending = s.pending := rfl

/-! ## recordDevice -/

@[simp] theorem recordDevice_power (d : Discovered) (s : State) : (recordDevice d s).power = s.power := rfl
@[simp] theorem recordDevice_resetPin (d : Discovered) (s : State) : (recordDevice d s).resetPin = s.resetPin := rfl
@[simp] theorem recordDevice_mode (d : Discovered) (s : State) : (recordDevice d s).mode = s.mode := rfl
@[simp] theorem recordDevice_resetCause (d : Discovered) (s : State) : (recordDevice d s).resetCause = s.resetCause := rfl
@[simp] theorem recordDevice_uptime (d : Discovered) (s : State) : (recordDevice d s).uptime = s.uptime := rfl
@[simp] theorem recordDevice_staging (d : Discovered) (s : State) : (recordDevice d s).staging = s.staging := rfl
@[simp] theorem recordDevice_active (d : Discovered) (s : State) : (recordDevice d s).active = s.active := rfl
@[simp] theorem recordDevice_loop (d : Discovered) (s : State) : (recordDevice d s).loop = { s.loop with discovered := upsert Discovered.address d s.loop.discovered } := rfl
@[simp] theorem recordDevice_heads (d : Discovered) (s : State) : (recordDevice d s).heads = s.heads := rfl
@[simp] theorem recordDevice_zones (d : Discovered) (s : State) : (recordDevice d s).zones = s.zones := rfl
@[simp] theorem recordDevice_handed (d : Discovered) (s : State) : (recordDevice d s).handed = s.handed := rfl
@[simp] theorem recordDevice_channels (d : Discovered) (s : State) : (recordDevice d s).channels = s.channels := rfl
@[simp] theorem recordDevice_queue (d : Discovered) (s : State) : (recordDevice d s).queue = s.queue := rfl
@[simp] theorem recordDevice_held (d : Discovered) (s : State) : (recordDevice d s).held = s.held := rfl
@[simp] theorem recordDevice_feeder (d : Discovered) (s : State) : (recordDevice d s).feeder = s.feeder := rfl
@[simp] theorem recordDevice_lines (d : Discovered) (s : State) : (recordDevice d s).lines = s.lines := rfl
@[simp] theorem recordDevice_latches (d : Discovered) (s : State) : (recordDevice d s).latches = s.latches := rfl
@[simp] theorem recordDevice_levelLatchDue (d : Discovered) (s : State) : (recordDevice d s).levelLatchDue = s.levelLatchDue := rfl
@[simp] theorem recordDevice_provisionalDue (d : Discovered) (s : State) : (recordDevice d s).provisionalDue = s.provisionalDue := rfl
@[simp] theorem recordDevice_slot (d : Discovered) (s : State) : (recordDevice d s).slot = s.slot := rfl
@[simp] theorem recordDevice_ring (d : Discovered) (s : State) : (recordDevice d s).ring = s.ring := rfl
@[simp] theorem recordDevice_snapshot (d : Discovered) (s : State) : (recordDevice d s).snapshot = s.snapshot := rfl
@[simp] theorem recordDevice_link (d : Discovered) (s : State) : (recordDevice d s).link = s.link := rfl
@[simp] theorem recordDevice_draws (d : Discovered) (s : State) : (recordDevice d s).draws = s.draws := rfl
@[simp] theorem recordDevice_pending (d : Discovered) (s : State) : (recordDevice d s).pending = s.pending := rfl

/-! ## driveTakes -/

@[simp] theorem driveTakes_power (x : CommandExchange) (s : State) : (driveTakes x s).power = s.power := rfl
@[simp] theorem driveTakes_resetPin (x : CommandExchange) (s : State) : (driveTakes x s).resetPin = s.resetPin := rfl
@[simp] theorem driveTakes_mode (x : CommandExchange) (s : State) : (driveTakes x s).mode = s.mode := rfl
@[simp] theorem driveTakes_resetCause (x : CommandExchange) (s : State) : (driveTakes x s).resetCause = s.resetCause := rfl
@[simp] theorem driveTakes_uptime (x : CommandExchange) (s : State) : (driveTakes x s).uptime = s.uptime := rfl
@[simp] theorem driveTakes_staging (x : CommandExchange) (s : State) : (driveTakes x s).staging = s.staging := rfl
@[simp] theorem driveTakes_active (x : CommandExchange) (s : State) : (driveTakes x s).active = s.active := rfl
@[simp] theorem driveTakes_loop (x : CommandExchange) (s : State) : (driveTakes x s).loop = { s.loop with drives := s.loop.drives.takes x.address x.image } := rfl
@[simp] theorem driveTakes_heads (x : CommandExchange) (s : State) : (driveTakes x s).heads = s.heads := rfl
@[simp] theorem driveTakes_zones (x : CommandExchange) (s : State) : (driveTakes x s).zones = s.zones := rfl
@[simp] theorem driveTakes_handed (x : CommandExchange) (s : State) : (driveTakes x s).handed = s.handed := rfl
@[simp] theorem driveTakes_channels (x : CommandExchange) (s : State) : (driveTakes x s).channels = s.channels := rfl
@[simp] theorem driveTakes_queue (x : CommandExchange) (s : State) : (driveTakes x s).queue = s.queue := rfl
@[simp] theorem driveTakes_held (x : CommandExchange) (s : State) : (driveTakes x s).held = s.held := rfl
@[simp] theorem driveTakes_feeder (x : CommandExchange) (s : State) : (driveTakes x s).feeder = s.feeder := rfl
@[simp] theorem driveTakes_lines (x : CommandExchange) (s : State) : (driveTakes x s).lines = s.lines := rfl
@[simp] theorem driveTakes_latches (x : CommandExchange) (s : State) : (driveTakes x s).latches = s.latches := rfl
@[simp] theorem driveTakes_levelLatchDue (x : CommandExchange) (s : State) : (driveTakes x s).levelLatchDue = s.levelLatchDue := rfl
@[simp] theorem driveTakes_provisionalDue (x : CommandExchange) (s : State) : (driveTakes x s).provisionalDue = s.provisionalDue := rfl
@[simp] theorem driveTakes_slot (x : CommandExchange) (s : State) : (driveTakes x s).slot = s.slot := rfl
@[simp] theorem driveTakes_ring (x : CommandExchange) (s : State) : (driveTakes x s).ring = s.ring := rfl
@[simp] theorem driveTakes_snapshot (x : CommandExchange) (s : State) : (driveTakes x s).snapshot = s.snapshot := rfl
@[simp] theorem driveTakes_link (x : CommandExchange) (s : State) : (driveTakes x s).link = s.link := rfl
@[simp] theorem driveTakes_draws (x : CommandExchange) (s : State) : (driveTakes x s).draws = s.draws := rfl
@[simp] theorem driveTakes_pending (x : CommandExchange) (s : State) : (driveTakes x s).pending = s.pending := rfl

/-! ## drivesTenth -/

@[simp] theorem drivesTenth_power (s : State) : (drivesTenth s).power = s.power := rfl
@[simp] theorem drivesTenth_resetPin (s : State) : (drivesTenth s).resetPin = s.resetPin := rfl
@[simp] theorem drivesTenth_mode (s : State) : (drivesTenth s).mode = s.mode := rfl
@[simp] theorem drivesTenth_resetCause (s : State) : (drivesTenth s).resetCause = s.resetCause := rfl
@[simp] theorem drivesTenth_uptime (s : State) : (drivesTenth s).uptime = s.uptime := rfl
@[simp] theorem drivesTenth_staging (s : State) : (drivesTenth s).staging = s.staging := rfl
@[simp] theorem drivesTenth_active (s : State) : (drivesTenth s).active = s.active := rfl
@[simp] theorem drivesTenth_loop (s : State) : (drivesTenth s).loop = { s.loop with drives := s.loop.drives.tenth } := rfl
@[simp] theorem drivesTenth_heads (s : State) : (drivesTenth s).heads = s.heads := rfl
@[simp] theorem drivesTenth_zones (s : State) : (drivesTenth s).zones = s.zones := rfl
@[simp] theorem drivesTenth_handed (s : State) : (drivesTenth s).handed = s.handed := rfl
@[simp] theorem drivesTenth_channels (s : State) : (drivesTenth s).channels = s.channels := rfl
@[simp] theorem drivesTenth_queue (s : State) : (drivesTenth s).queue = s.queue := rfl
@[simp] theorem drivesTenth_held (s : State) : (drivesTenth s).held = s.held := rfl
@[simp] theorem drivesTenth_feeder (s : State) : (drivesTenth s).feeder = s.feeder := rfl
@[simp] theorem drivesTenth_lines (s : State) : (drivesTenth s).lines = s.lines := rfl
@[simp] theorem drivesTenth_latches (s : State) : (drivesTenth s).latches = s.latches := rfl
@[simp] theorem drivesTenth_levelLatchDue (s : State) : (drivesTenth s).levelLatchDue = s.levelLatchDue := rfl
@[simp] theorem drivesTenth_provisionalDue (s : State) : (drivesTenth s).provisionalDue = s.provisionalDue := rfl
@[simp] theorem drivesTenth_slot (s : State) : (drivesTenth s).slot = s.slot := rfl
@[simp] theorem drivesTenth_ring (s : State) : (drivesTenth s).ring = s.ring := rfl
@[simp] theorem drivesTenth_snapshot (s : State) : (drivesTenth s).snapshot = s.snapshot := rfl
@[simp] theorem drivesTenth_link (s : State) : (drivesTenth s).link = s.link := rfl
@[simp] theorem drivesTenth_draws (s : State) : (drivesTenth s).draws = s.draws := rfl
@[simp] theorem drivesTenth_pending (s : State) : (drivesTenth s).pending = s.pending := rfl

/-! ## withStaging -/

@[simp] theorem withStaging_power (st : Staging) (s : State) : (withStaging st s).power = s.power := rfl
@[simp] theorem withStaging_resetPin (st : Staging) (s : State) : (withStaging st s).resetPin = s.resetPin := rfl
@[simp] theorem withStaging_mode (st : Staging) (s : State) : (withStaging st s).mode = s.mode := rfl
@[simp] theorem withStaging_resetCause (st : Staging) (s : State) : (withStaging st s).resetCause = s.resetCause := rfl
@[simp] theorem withStaging_uptime (st : Staging) (s : State) : (withStaging st s).uptime = s.uptime := rfl
@[simp] theorem withStaging_staging (st : Staging) (s : State) : (withStaging st s).staging = some st := rfl
@[simp] theorem withStaging_active (st : Staging) (s : State) : (withStaging st s).active = s.active := rfl
@[simp] theorem withStaging_loop (st : Staging) (s : State) : (withStaging st s).loop = s.loop := rfl
@[simp] theorem withStaging_heads (st : Staging) (s : State) : (withStaging st s).heads = s.heads := rfl
@[simp] theorem withStaging_zones (st : Staging) (s : State) : (withStaging st s).zones = s.zones := rfl
@[simp] theorem withStaging_handed (st : Staging) (s : State) : (withStaging st s).handed = s.handed := rfl
@[simp] theorem withStaging_channels (st : Staging) (s : State) : (withStaging st s).channels = s.channels := rfl
@[simp] theorem withStaging_queue (st : Staging) (s : State) : (withStaging st s).queue = s.queue := rfl
@[simp] theorem withStaging_held (st : Staging) (s : State) : (withStaging st s).held = s.held := rfl
@[simp] theorem withStaging_feeder (st : Staging) (s : State) : (withStaging st s).feeder = s.feeder := rfl
@[simp] theorem withStaging_lines (st : Staging) (s : State) : (withStaging st s).lines = s.lines := rfl
@[simp] theorem withStaging_latches (st : Staging) (s : State) : (withStaging st s).latches = s.latches := rfl
@[simp] theorem withStaging_levelLatchDue (st : Staging) (s : State) : (withStaging st s).levelLatchDue = s.levelLatchDue := rfl
@[simp] theorem withStaging_provisionalDue (st : Staging) (s : State) : (withStaging st s).provisionalDue = s.provisionalDue := rfl
@[simp] theorem withStaging_slot (st : Staging) (s : State) : (withStaging st s).slot = s.slot := rfl
@[simp] theorem withStaging_ring (st : Staging) (s : State) : (withStaging st s).ring = s.ring := rfl
@[simp] theorem withStaging_snapshot (st : Staging) (s : State) : (withStaging st s).snapshot = s.snapshot := rfl
@[simp] theorem withStaging_link (st : Staging) (s : State) : (withStaging st s).link = s.link := rfl
@[simp] theorem withStaging_draws (st : Staging) (s : State) : (withStaging st s).draws = s.draws := rfl
@[simp] theorem withStaging_pending (st : Staging) (s : State) : (withStaging st s).pending = s.pending := rfl

/-! ## setRx -/

@[simp] theorem setRx_power (rx : Rx) (s : State) : (setRx rx s).power = s.power := rfl
@[simp] theorem setRx_resetPin (rx : Rx) (s : State) : (setRx rx s).resetPin = s.resetPin := rfl
@[simp] theorem setRx_mode (rx : Rx) (s : State) : (setRx rx s).mode = s.mode := rfl
@[simp] theorem setRx_resetCause (rx : Rx) (s : State) : (setRx rx s).resetCause = s.resetCause := rfl
@[simp] theorem setRx_uptime (rx : Rx) (s : State) : (setRx rx s).uptime = s.uptime := rfl
@[simp] theorem setRx_staging (rx : Rx) (s : State) : (setRx rx s).staging = s.staging := rfl
@[simp] theorem setRx_active (rx : Rx) (s : State) : (setRx rx s).active = s.active := rfl
@[simp] theorem setRx_loop (rx : Rx) (s : State) : (setRx rx s).loop = s.loop := rfl
@[simp] theorem setRx_heads (rx : Rx) (s : State) : (setRx rx s).heads = s.heads := rfl
@[simp] theorem setRx_zones (rx : Rx) (s : State) : (setRx rx s).zones = s.zones := rfl
@[simp] theorem setRx_handed (rx : Rx) (s : State) : (setRx rx s).handed = s.handed := rfl
@[simp] theorem setRx_channels (rx : Rx) (s : State) : (setRx rx s).channels = s.channels := rfl
@[simp] theorem setRx_queue (rx : Rx) (s : State) : (setRx rx s).queue = s.queue := rfl
@[simp] theorem setRx_held (rx : Rx) (s : State) : (setRx rx s).held = s.held := rfl
@[simp] theorem setRx_feeder (rx : Rx) (s : State) : (setRx rx s).feeder = s.feeder := rfl
@[simp] theorem setRx_lines (rx : Rx) (s : State) : (setRx rx s).lines = s.lines := rfl
@[simp] theorem setRx_latches (rx : Rx) (s : State) : (setRx rx s).latches = s.latches := rfl
@[simp] theorem setRx_levelLatchDue (rx : Rx) (s : State) : (setRx rx s).levelLatchDue = s.levelLatchDue := rfl
@[simp] theorem setRx_provisionalDue (rx : Rx) (s : State) : (setRx rx s).provisionalDue = s.provisionalDue := rfl
@[simp] theorem setRx_slot (rx : Rx) (s : State) : (setRx rx s).slot = s.slot := rfl
@[simp] theorem setRx_ring (rx : Rx) (s : State) : (setRx rx s).ring = s.ring := rfl
@[simp] theorem setRx_snapshot (rx : Rx) (s : State) : (setRx rx s).snapshot = s.snapshot := rfl
@[simp] theorem setRx_link (rx : Rx) (s : State) : (setRx rx s).link = { s.link with rx := rx } := rfl
@[simp] theorem setRx_draws (rx : Rx) (s : State) : (setRx rx s).draws = s.draws := rfl
@[simp] theorem setRx_pending (rx : Rx) (s : State) : (setRx rx s).pending = s.pending := rfl

/-! ## discard -/

@[simp] theorem discard_power (s : State) : (discard s).power = s.power := rfl
@[simp] theorem discard_resetPin (s : State) : (discard s).resetPin = s.resetPin := rfl
@[simp] theorem discard_mode (s : State) : (discard s).mode = s.mode := rfl
@[simp] theorem discard_resetCause (s : State) : (discard s).resetCause = s.resetCause := rfl
@[simp] theorem discard_uptime (s : State) : (discard s).uptime = s.uptime := rfl
@[simp] theorem discard_staging (s : State) : (discard s).staging = s.staging := rfl
@[simp] theorem discard_active (s : State) : (discard s).active = s.active := rfl
@[simp] theorem discard_loop (s : State) : (discard s).loop = s.loop := rfl
@[simp] theorem discard_heads (s : State) : (discard s).heads = s.heads := rfl
@[simp] theorem discard_zones (s : State) : (discard s).zones = s.zones := rfl
@[simp] theorem discard_handed (s : State) : (discard s).handed = s.handed := rfl
@[simp] theorem discard_channels (s : State) : (discard s).channels = s.channels := rfl
@[simp] theorem discard_queue (s : State) : (discard s).queue = s.queue := rfl
@[simp] theorem discard_held (s : State) : (discard s).held = s.held := rfl
@[simp] theorem discard_feeder (s : State) : (discard s).feeder = s.feeder := rfl
@[simp] theorem discard_lines (s : State) : (discard s).lines = s.lines := rfl
@[simp] theorem discard_latches (s : State) : (discard s).latches = s.latches := rfl
@[simp] theorem discard_levelLatchDue (s : State) : (discard s).levelLatchDue = s.levelLatchDue := rfl
@[simp] theorem discard_provisionalDue (s : State) : (discard s).provisionalDue = s.provisionalDue := rfl
@[simp] theorem discard_slot (s : State) : (discard s).slot = s.slot := rfl
@[simp] theorem discard_ring (s : State) : (discard s).ring = s.ring := rfl
@[simp] theorem discard_snapshot (s : State) : (discard s).snapshot = s.snapshot := rfl
@[simp] theorem discard_link (s : State) : (discard s).link = s.link.discard := rfl
@[simp] theorem discard_draws (s : State) : (discard s).draws = s.draws := rfl
@[simp] theorem discard_pending (s : State) : (discard s).pending = s.pending := rfl

/-! ## respond -/

@[simp] theorem respond_power (kind tag : Nat) (a : Answer) : (respond kind tag a).power = a.state.power := rfl
@[simp] theorem respond_resetPin (kind tag : Nat) (a : Answer) : (respond kind tag a).resetPin = a.state.resetPin := rfl
@[simp] theorem respond_mode (kind tag : Nat) (a : Answer) : (respond kind tag a).mode = a.state.mode := rfl
@[simp] theorem respond_resetCause (kind tag : Nat) (a : Answer) : (respond kind tag a).resetCause = a.state.resetCause := rfl
@[simp] theorem respond_uptime (kind tag : Nat) (a : Answer) : (respond kind tag a).uptime = a.state.uptime := rfl
@[simp] theorem respond_staging (kind tag : Nat) (a : Answer) : (respond kind tag a).staging = a.state.staging := rfl
@[simp] theorem respond_active (kind tag : Nat) (a : Answer) : (respond kind tag a).active = a.state.active := rfl
@[simp] theorem respond_loop (kind tag : Nat) (a : Answer) : (respond kind tag a).loop = a.state.loop := rfl
@[simp] theorem respond_heads (kind tag : Nat) (a : Answer) : (respond kind tag a).heads = a.state.heads := rfl
@[simp] theorem respond_zones (kind tag : Nat) (a : Answer) : (respond kind tag a).zones = a.state.zones := rfl
@[simp] theorem respond_handed (kind tag : Nat) (a : Answer) : (respond kind tag a).handed = a.state.handed := rfl
@[simp] theorem respond_channels (kind tag : Nat) (a : Answer) : (respond kind tag a).channels = a.state.channels := rfl
@[simp] theorem respond_queue (kind tag : Nat) (a : Answer) : (respond kind tag a).queue = a.state.queue := rfl
@[simp] theorem respond_held (kind tag : Nat) (a : Answer) : (respond kind tag a).held = a.state.held := rfl
@[simp] theorem respond_feeder (kind tag : Nat) (a : Answer) : (respond kind tag a).feeder = a.state.feeder := rfl
@[simp] theorem respond_lines (kind tag : Nat) (a : Answer) : (respond kind tag a).lines = a.state.lines := rfl
@[simp] theorem respond_latches (kind tag : Nat) (a : Answer) : (respond kind tag a).latches = a.state.latches := rfl
@[simp] theorem respond_levelLatchDue (kind tag : Nat) (a : Answer) : (respond kind tag a).levelLatchDue = a.state.levelLatchDue := rfl
@[simp] theorem respond_provisionalDue (kind tag : Nat) (a : Answer) : (respond kind tag a).provisionalDue = a.state.provisionalDue := rfl
@[simp] theorem respond_slot (kind tag : Nat) (a : Answer) : (respond kind tag a).slot = a.state.slot := rfl
@[simp] theorem respond_ring (kind tag : Nat) (a : Answer) : (respond kind tag a).ring = a.state.ring := rfl
@[simp] theorem respond_snapshot (kind tag : Nat) (a : Answer) : (respond kind tag a).snapshot = a.state.snapshot := rfl
@[simp] theorem respond_link (kind tag : Nat) (a : Answer) : (respond kind tag a).link = { a.state.link with reply := some ⟨kind, tag, a.status, a.body⟩ } := rfl
@[simp] theorem respond_draws (kind tag : Nat) (a : Answer) : (respond kind tag a).draws = a.state.draws := rfl
@[simp] theorem respond_pending (kind tag : Nat) (a : Answer) : (respond kind tag a).pending = a.state.pending := rfl

end Sys2Proof.Machine
end

