-- ==== Sys2Proof/Laws/Events.lean ====
section
/-! SUPPORT. What each shared operation can do, said once: the tables it may change, and that the ring changes only by raising. The
provers cite these lemmas and need not unfold the operations. -/

namespace Sys2Proof.Machine

/-! ## Raising -/

/-- The ring after notices have been raised at an uptime. -/
def Ring.raised (r : Ring) (u : Uptime) (ns : List NoticeBody) : Ring := ns.foldl (fun r n => r.append ⟨n, u⟩) r

theorem raiseAll_eq (ns : List NoticeBody) (s : State) : raiseAll ns s = { s with ring := s.ring.raised s.uptime ns } := by
  induction ns generalizing s with
  | nil => rfl
  | cons n ns ih => exact ih (raise n s)

theorem Ring.raised_append (r : Ring) (u : Uptime) (a b : List NoticeBody) : r.raised u (a ++ b) = (r.raised u a).raised u b :=
  List.foldl_append ..

theorem raise_eq (n : NoticeBody) (s : State) : raise n s = { s with ring := s.ring.raised s.uptime [n] } := rfl

/-! ## The three reaches: channels and start queue; zones and claims as well; the loop, the heads, the slot and the latches as well -/

/-- What an event of the channels and the start queue can do. -/
def FanStep (s t : State) : Prop :=
  ∃ channels queue held ns,
    t = { s with channels := channels, queue := queue, held := held, ring := s.ring.raised s.uptime ns }

/-- What an event of the zones can do. -/
def ZoneStep (s t : State) : Prop :=
  ∃ channels queue held ns zones handed,
    t = { s with channels := channels, queue := queue, held := held, ring := s.ring.raised s.uptime ns, zones := zones, handed := handed }

/-- What an event of the loop, of the fire lines or of the service slot can do. -/
def WorkStep (s t : State) : Prop :=
  ∃ channels queue held ns zones handed loop heads slot latches due draws,
    t = { s with
      channels := channels, queue := queue, held := held, ring := s.ring.raised s.uptime ns, zones := zones, handed := handed,
      loop := loop, heads := heads, slot := slot, latches := latches, levelLatchDue := due, draws := draws }

theorem FanStep.refl (s : State) : FanStep s s := ⟨_, _, _, [], rfl⟩
theorem ZoneStep.refl (s : State) : ZoneStep s s := ⟨_, _, _, [], _, _, rfl⟩
theorem WorkStep.refl (s : State) : WorkStep s s := ⟨_, _, _, [], _, _, _, _, _, _, _, _, rfl⟩

theorem FanStep.trans {s t u : State} : FanStep s t → FanStep t u → FanStep s u := by
  rintro ⟨_, _, _, a, rfl⟩ ⟨c, q, h, b, rfl⟩
  exact ⟨c, q, h, a ++ b, by rw [Ring.raised_append]⟩

theorem ZoneStep.trans {s t u : State} : ZoneStep s t → ZoneStep t u → ZoneStep s u := by
  rintro ⟨_, _, _, a, _, _, rfl⟩ ⟨c, q, h, b, z, d, rfl⟩
  exact ⟨c, q, h, a ++ b, z, d, by rw [Ring.raised_append]⟩

theorem WorkStep.trans {s t u : State} : WorkStep s t → WorkStep t u → WorkStep s u := by
  rintro ⟨_, _, _, a, _, _, _, _, _, _, _, _, rfl⟩ ⟨c, q, h, b, z, d, l, e, f, g, i, j, rfl⟩
  exact ⟨c, q, h, a ++ b, z, d, l, e, f, g, i, j, by rw [Ring.raised_append]⟩

theorem FanStep.zone {s t : State} : FanStep s t → ZoneStep s t := by
  rintro ⟨c, q, h, n, rfl⟩
  exact ⟨c, q, h, n, _, _, rfl⟩

theorem ZoneStep.work {s t : State} : ZoneStep s t → WorkStep s t := by
  rintro ⟨c, q, h, n, z, d, rfl⟩
  exact ⟨c, q, h, n, z, d, _, _, _, _, _, _, rfl⟩

theorem FanStep.work {s t : State} (h : FanStep s t) : WorkStep s t := h.zone.work

/-- What no event of the loop, the lines, the zones or the channels changes. -/
theorem WorkStep.keeps {s t : State} (h : WorkStep s t) :
    t.power = s.power ∧ t.resetPin = s.resetPin ∧ t.mode = s.mode ∧ t.resetCause = s.resetCause ∧ t.uptime = s.uptime
      ∧ t.staging = s.staging ∧ t.active = s.active ∧ t.feeder = s.feeder ∧ t.lines = s.lines
      ∧ t.provisionalDue = s.provisionalDue ∧ t.snapshot = s.snapshot ∧ t.link = s.link ∧ t.pending = s.pending
      ∧ ∃ ns, t.ring = s.ring.raised s.uptime ns := by
  obtain ⟨c, q, h, n, z, d, l, e, f, g, i, j, rfl⟩ := h
  exact ⟨rfl, rfl, rfl, rfl, rfl, rfl, rfl, rfl, rfl, rfl, rfl, rfl, rfl, n, rfl⟩

/-! ## Channels and the start queue -/

theorem raiseAll_fan (ns : List NoticeBody) (s : State) : FanStep s (raiseAll ns s) := ⟨_, _, _, ns, raiseAll_eq ns s⟩

theorem raise_fan (n : NoticeBody) (s : State) : FanStep s (raise n s) := ⟨_, _, _, [n], rfl⟩

theorem grant_fan (e : QueueEntry) (rest : List QueueEntry) (s : State) : FanStep s (grant e rest s) := ⟨_, _, _, [], rfl⟩

theorem lookFrom_fan (fuel : Nat) (s : State) : FanStep s (lookFrom fuel s) := by
  induction fuel generalizing s with
  | zero => exact .refl s
  | succ n ih =>
    unfold lookFrom
    split
    · exact .refl s
    · split
      · exact (grant_fan _ _ s).trans (ih _)
      · exact .refl s

theorem look_fan (s : State) : FanStep s (look s) := lookFrom_fan _ s

theorem returnUnits_fan (cost : Nat) (s : State) : FanStep s (returnUnits cost s) :=
  FanStep.trans ⟨_, _, _, [], rfl⟩ (look_fan _)

theorem applyChanges_fan (cs : List QueueChange) (s : State) : FanStep s (applyChanges cs s) := by
  unfold applyChanges
  split
  · exact FanStep.trans ⟨_, _, _, [], rfl⟩ (look_fan _)
  · exact ⟨_, _, _, [], rfl⟩

theorem fanEvent_fan (f : Channel → Eff) (s : State) : FanStep s (fanEvent f s) :=
  FanStep.trans (FanStep.trans ⟨_, _, _, [], rfl⟩ (raiseAll_fan _ _)) (applyChanges_fan _ _)

theorem fanEventAt_fan (n : Nat) (f : Channel → Eff) (s : State) : FanStep s (fanEventAt n f s) := fanEvent_fan _ s

theorem resolveChannels_fan (silent : Bool) (choose : Channel → Bool) (s : State) : FanStep s (resolveChannels silent choose s) :=
  fanEvent_fan _ s

theorem makeProvisional_fan (addresses : List Nat) (s : State) : FanStep s (makeProvisional addresses s) :=
  FanStep.trans ⟨_, _, _, [], rfl⟩ (resolveChannels_fan _ _ _)

theorem driveJoins_fan (address : Nat) (s : State) : FanStep s (driveJoins address s) := by
  unfold driveJoins
  split
  · exact makeProvisional_fan _ s
  · exact .refl s

theorem driveLeaves_fan (address : Nat) (s : State) : FanStep s (driveLeaves address s) := fanEvent_fan _ s

theorem settleExpired_fan (n : Nat) (s : State) : FanStep s (settleExpired n s) := by
  unfold settleExpired
  split
  · exact .refl s
  · split
    · exact FanStep.trans (FanStep.trans ⟨_, _, _, [], rfl⟩ (returnUnits_fan _ _)) (fanEventAt_fan _ _ _)
    · exact .refl s

theorem stall_fan (s : State) : FanStep s (stall s) := by
  unfold stall
  split
  · exact .refl s
  · split
    · exact FanStep.trans ⟨_, _, _, [], rfl⟩ (raise_fan _ _)
    · exact .refl s

/-! ## Zones -/

theorem handOver_zone (silent : Bool) (changed : List Nat) (s : State) : ZoneStep s (handOver silent changed s) :=
  ZoneStep.trans ⟨_, _, _, [], _, _, rfl⟩ (resolveChannels_fan _ _ _).zone

theorem commitZones_zone (zones : List Zone) (s : State) : ZoneStep s (commitZones zones s) :=
  ZoneStep.trans (ZoneStep.trans ⟨_, _, _, [], zones, _, rfl⟩ (handOver_zone _ _ _)) (raiseAll_fan _ _).zone

theorem changeZone_zone (n : Nat) (f : Zone → Zone) (s : State) : ZoneStep s (changeZone n f s) := commitZones_zone _ s

theorem evaluate_zone (s : State) : ZoneStep s (evaluate s) := commitZones_zone _ s

theorem applyPlan_zone (line : Nat) (s : State) : ZoneStep s (applyPlan line s) :=
  (raiseAll_fan _ s).zone.trans (commitZones_zone _ _)

theorem releaseZones_zone (cleared : List Nat) (s : State) : ZoneStep s (releaseZones cleared s) :=
  (raiseAll_fan _ s).zone.trans (commitZones_zone _ _)

theorem boostZones_zone (zones : ZoneSet) (b : Option Boost) (s : State) : ZoneStep s (boostZones zones b s) := commitZones_zone _ s

theorem boostTimeout_zone (n : Nat) (s : State) : ZoneStep s (boostTimeout n s) := by
  unfold boostTimeout
  split
  · exact .refl s
  · split
    · exact .refl s
    · split
      · exact (changeZone_zone _ _ s).trans (raise_fan _ _).zone
      · exact .refl s

/-! ## Lines, slot, loop -/

theorem raise_work (n : NoticeBody) (s : State) : WorkStep s (raise n s) := (raise_fan n s).work

theorem lapseWrite_work (s : State) : WorkStep s (lapseWrite s) := by
  unfold lapseWrite
  split
  · split
    · exact WorkStep.trans ⟨_, _, _, [], _, _, _, _, _, _, _, _, rfl⟩ (raise_work _ _)
    · exact .refl s
  · exact .refl s

theorem lapseResult_work (s : State) : WorkStep s (lapseResult s) := by
  unfold lapseResult
  split
  · split
    · exact WorkStep.trans ⟨_, _, _, [], _, _, _, _, _, _, _, _, rfl⟩ (raise_work _ _)
    · exact .refl s
  · exact .refl s

theorem setLatch_work (line : Nat) (s : State) : WorkStep s (setLatch line s) := by
  unfold setLatch
  refine WorkStep.trans ?_ (lapseWrite_work _)
  split
  · exact WorkStep.trans (WorkStep.trans ⟨_, _, _, [], _, _, _, _, _, _, _, _, rfl⟩ (raise_work _ _)) (makeProvisional_fan _ _).work
  · exact WorkStep.trans (WorkStep.trans ⟨_, _, _, [], _, _, _, _, _, _, _, _, rfl⟩ (raise_work _ _)) (applyPlan_zone _ _).work

theorem levelLatch_work (s : State) : WorkStep s (levelLatch s) := by
  unfold levelLatch
  split
  · exact .refl s
  · dsimp only
    split
    · exact WorkStep.trans ⟨_, _, _, [], _, _, _, _, _, _, _, _, rfl⟩ (setLatch_work _ _)
    · exact ⟨_, _, _, [], _, _, _, _, _, _, _, _, rfl⟩

theorem memberDone_work (k : ServiceKey) (ms : List Member) (result : List ResultEntry) (s : State) :
    WorkStep s (memberDone k ms result s) := by
  unfold memberDone
  split
  · exact WorkStep.trans ⟨_, _, _, [], _, _, _, _, _, _, _, _, rfl⟩ (raise_work _ _)
  · exact ⟨_, _, _, [], _, _, _, _, _, _, _, _, rfl⟩

theorem deliverService_work (reply : Option ServiceReply) (s : State) : WorkStep s (deliverService reply s) := by
  unfold deliverService
  split
  · dsimp only
    split
    · exact memberDone_work _ _ _ s
    · exact memberDone_work _ _ _ s
    · split
      · exact ⟨_, _, _, [], _, _, _, _, _, _, _, _, rfl⟩
      · exact memberDone_work _ _ _ s
  · exact .refl s

theorem deliverHead_work (address : Nat) (f : Head → Head × List NoticeBody) (s : State) : WorkStep s (deliverHead address f s) := by
  unfold deliverHead
  split
  · exact .refl s
  · exact WorkStep.trans ⟨_, _, _, [], _, _, _, _, _, _, _, _, rfl⟩ (raiseAll_fan _ _).work

theorem setPhase_work (p : Phase) (s : State) : WorkStep s (setPhase p s) := ⟨_, _, _, [], _, _, _, _, _, _, _, _, rfl⟩

theorem noteValid_work (s : State) : WorkStep s (noteValid s) := by
  unfold noteValid
  split
  · exact ⟨_, _, _, [], _, _, _, _, _, _, _, _, rfl⟩
  · exact WorkStep.trans ⟨_, _, _, [], _, _, _, _, _, _, _, _, rfl⟩ (raise_work _ _)

theorem noteIf_work (valid : Bool) (s : State) : WorkStep s (noteIf valid s) := by
  unfold noteIf
  split
  · exact noteValid_work s
  · exact .refl s

theorem loopCheck_work (s : State) : WorkStep s (loopCheck s) := by
  unfold loopCheck
  split
  · exact ⟨_, _, _, [], _, _, _, _, _, _, _, _, rfl⟩
  · split
    · dsimp only
      split
      · exact WorkStep.trans ⟨_, _, _, [], _, _, _, _, _, _, _, _, rfl⟩ (raise_work _ _)
      · exact ⟨_, _, _, [], _, _, _, _, _, _, _, _, rfl⟩
    · exact .refl s

theorem completeCycle_work (s : State) : WorkStep s (completeCycle s) := by
  unfold completeCycle
  dsimp only
  refine WorkStep.trans (t := if s.evaluates then evaluate (loopCheck s) else loopCheck s) ?_
    ⟨_, _, _, [], _, _, _, _, _, _, _, _, rfl⟩
  split
  · exact (loopCheck_work s).trans (evaluate_zone _).work
  · exact loopCheck_work s

theorem startService_work (s : State) : WorkStep s (startService s) := by
  unfold startService
  split
  · exact ⟨_, _, _, [], _, _, _, _, _, _, _, _, rfl⟩
  · exact completeCycle_work s

theorem nextCommand_work (l : List Nat) (s : State) : WorkStep s (nextCommand l s) := by
  induction l generalizing s with
  | nil => exact startService_work s
  | cons n rest ih =>
    unfold nextCommand
    split
    · exact setPhase_work _ s
    · exact ih s

theorem nextPoll_work (l : List Poll) (s : State) : WorkStep s (nextPoll l s) := by
  cases l with
  | nil => exact nextCommand_work _ s
  | cons p rest => exact setPhase_work _ s

theorem beginCycle_work (s : State) : WorkStep s (beginCycle s) :=
  WorkStep.trans ⟨_, _, _, [], _, _, _, _, _, _, _, _, rfl⟩ (nextPoll_work _ _)

theorem cycleBoundary_work (s : State) : WorkStep s (cycleBoundary s) := by
  unfold cycleBoundary
  split
  · exact beginCycle_work s
  · exact .refl s

theorem discover_work (address : Nat) (kind : DeviceKind) (s : State) : WorkStep s (discover address kind s) := by
  have h : WorkStep s (recordDevice ⟨address, kind, s.loop.sweep⟩ s) := ⟨_, _, _, [], _, _, _, _, _, _, _, _, rfl⟩
  unfold discover
  dsimp only
  split
  · exact h.trans (driveJoins_fan _ _).work
  · exact h.trans (driveJoins_fan _ _).work
  · exact h.trans (driveLeaves_fan _ _).work
  · exact h

theorem miss_work (address : Nat) (s : State) : WorkStep s (miss address s) := by
  unfold miss
  split
  · exact .refl s
  · split
    · dsimp only
      split
      · exact WorkStep.trans ⟨_, _, _, [], _, _, _, _, _, _, _, _, rfl⟩ (driveLeaves_fan _ _).work
      · exact ⟨_, _, _, [], _, _, _, _, _, _, _, _, rfl⟩
    · exact .refl s

theorem countDraws_work (r : Received) (s : State) : WorkStep s (countDraws r s) := by
  unfold countDraws
  split
  · split
    · exact ⟨_, _, _, [], _, _, _, _, _, _, _, _, rfl⟩
    · exact .refl s
  · exact .refl s

theorem deliverChannel_work (c : Channel) (r : Received) (cls : PollClass) (s : State) : WorkStep s (deliverChannel c r cls s) :=
  (fanEventAt_fan _ _ s).work.trans (countDraws_work _ _)

theorem discovery_work (address : Nat) (r : Received) (cls : PollClass) (s : State) : WorkStep s (discovery address r cls s) := by
  unfold discovery
  split
  · exact discover_work _ _ s
  · exact discover_work _ _ s
  · exact miss_work _ s

theorem deliverQuery_work (address : Nat) (r : Received) (cls : PollClass) (s : State) : WorkStep s (deliverQuery address r cls s) := by
  unfold deliverQuery
  dsimp only
  split
  · exact discovery_work _ _ _ s
  · exact (discovery_work _ _ _ s).trans (deliverChannel_work _ _ _ _)

theorem deliverPoll_work (p : Poll) (r : Received) (cls : PollClass) (s : State) : WorkStep s (deliverPoll p r cls s) := by
  unfold deliverPoll
  split
  · exact deliverHead_work _ _ s
  · split
    · exact .refl s
    · exact deliverChannel_work _ _ _ s
  · split
    · exact deliverQuery_work _ _ _ s
    · exact .refl s

theorem drained_work (s : State) : WorkStep s (drained s) := ⟨_, _, _, [], _, _, _, _, _, _, _, _, rfl⟩

theorem pollEnd_work (reply : List Byte) (s : State) : WorkStep s (pollEnd reply s) := by
  unfold pollEnd
  split
  · exact drained_work s
  · exact ((noteIf_work _ s).trans (deliverPoll_work _ _ _ _)).trans (nextPoll_work _ _)
  · exact .refl s

theorem deliverCommand_work (x : CommandExchange) (ok : Bool) (s : State) : WorkStep s (deliverCommand x ok s) := by
  unfold deliverCommand
  split
  · exact .refl s
  · exact (fanEventAt_fan _ _ s).work

theorem driveTakes_work (x : CommandExchange) (s : State) : WorkStep s (driveTakes x s) :=
  ⟨_, _, _, [], _, _, _, _, _, _, _, _, rfl⟩

theorem driveAnswers_work (x : CommandExchange) (ok : Bool) (s : State) : WorkStep s (driveAnswers x ok s) := by
  unfold driveAnswers
  split
  · exact driveTakes_work x s
  · exact .refl s

theorem commandEnd_work (reply : List Byte) (s : State) : WorkStep s (commandEnd reply s) := by
  unfold commandEnd
  split
  · exact (driveAnswers_work _ _ s).trans (drained_work _)
  · exact (((noteIf_work _ s).trans (driveAnswers_work _ _ _)).trans (deliverCommand_work _ _ _)).trans (nextCommand_work _ _)
  · exact .refl s

theorem serviceEnd_work (reply : List Byte) (s : State) : WorkStep s (serviceEnd reply s) := by
  unfold serviceEnd
  split
  · exact drained_work s
  · exact ((noteIf_work _ s).trans (deliverService_work _ _)).trans (completeCycle_work _)
  · exact .refl s

end Sys2Proof.Machine
end

