-- ==== Sys2Proof/Laws/Exec.lean ====
section
/-! SUPPORT. Each command that runs only with supply and out of reset, as `powered` of what its owner does. -/

namespace Sys2Proof.Machine

theorem powered_running {s : State} (h : s.power = .running) (f : State → State) : powered s f = .next (f s) := by
  simp only [powered, h]

theorem powered_idle {s : State} (h : s.power ≠ .running) (f : State → State) : powered s f = .next s := by
  cases hp : s.power with
  | running => exact absurd hp h
  | inReset cause => simp only [powered, hp]
  | off => simp only [powered, hp]

/-- The only outcome of `powered`: a next state, the effect's or the state itself. -/
theorem powered_next {s t : State} {f : State → State} (h : powered s f = .next t) : t = f s ∨ t = s := by
  by_cases hp : s.power = .running
  · rw [powered_running hp] at h; exact Or.inl (by injection h with h; exact h.symm)
  · rw [powered_idle hp] at h; exact Or.inr (by injection h with h; exact h.symm)

theorem exec_hostByteReceived (byte : Byte) (framingError : Bool) (s : State) :
    exec (.hostByteReceived byte framingError) s = powered s (receiveByte byte framingError) := rfl
theorem exec_interByteGapTimeout (s : State) : exec .interByteGapTimeout s = powered s gapTimeout := rfl
theorem exec_replySent (s : State) : exec .replySent s = powered s endReply := rfl
theorem exec_identify (tag : Nat) (s : State) : exec (.identify tag) s = powered s (takeIdentify tag) := rfl
theorem exec_linkStatus (tag : Nat) (s : State) : exec (.linkStatus tag) s = powered s (takeLinkStatus tag) := rfl
theorem exec_fetch (tag count : Nat) (s : State) : exec (.fetch tag count) s = powered s (takeFetch tag count) := rfl
theorem exec_snapTake (tag : Nat) (s : State) : exec (.snapTake tag) s = powered s (takeSnapTake tag) := rfl
theorem exec_snapRead (tag page : Nat) (s : State) : exec (.snapRead tag page) s = powered s (takeSnapRead tag page) := rfl
theorem exec_snapRelease (tag : Nat) (s : State) : exec (.snapRelease tag) s = powered s (takeSnapRelease tag) := rfl
theorem exec_loadBegin (tag : Nat) (s : State) : exec (.loadBegin tag) s = powered s (takeLoadBegin tag) := rfl
theorem exec_loadLoop (tag : Nat) (r : LoadLoop) (s : State) : exec (.loadLoop tag r) s = powered s (takeLoadLoop tag r) := rfl
theorem exec_loadFeeder (tag : Nat) (r : LoadFeeder) (s : State) :
    exec (.loadFeeder tag r) s = powered s (takeLoadFeeder tag r) := rfl
theorem exec_loadHead (tag : Nat) (r : LoadHead) (s : State) : exec (.loadHead tag r) s = powered s (takeLoadHead tag r) := rfl
theorem exec_loadFan (tag : Nat) (r : LoadFan) (s : State) : exec (.loadFan tag r) s = powered s (takeLoadFan tag r) := rfl
theorem exec_loadZone (tag : Nat) (r : LoadZone) (s : State) : exec (.loadZone tag r) s = powered s (takeLoadZone tag r) := rfl
theorem exec_loadSlot (tag : Nat) (r : LoadSlot) (s : State) : exec (.loadSlot tag r) s = powered s (takeLoadSlot tag r) := rfl
theorem exec_loadLine (tag : Nat) (r : LoadLine) (s : State) : exec (.loadLine tag r) s = powered s (takeLoadLine tag r) := rfl
theorem exec_loadAbandon (tag : Nat) (s : State) : exec (.loadAbandon tag) s = powered s (takeLoadAbandon tag) := rfl
theorem exec_loadCommit (tag : Nat) (s : State) : exec (.loadCommit tag) s = powered s (takeLoadCommit tag) := rfl
theorem exec_restartKeep (tag : Nat) (s : State) : exec (.restartKeep tag) s = powered s (takeRestartKeep tag) := rfl
theorem exec_restartClear (tag : Nat) (s : State) : exec (.restartClear tag) s = powered s (takeRestartClear tag) := rfl
theorem exec_manualEnter (tag : Nat) (s : State) : exec (.manualEnter tag) s = powered s (takeManualEnter tag) := rfl
theorem exec_manualLeave (tag : Nat) (s : State) : exec (.manualLeave tag) s = powered s (takeManualLeave tag) := rfl
theorem exec_discovered (tag : Nat) (s : State) : exec (.discovered tag) s = powered s (takeDiscovered tag) := rfl
theorem exec_getHead (tag head : Nat) (s : State) : exec (.getHead tag head) s = powered s (takeGetHead tag head) := rfl
theorem exec_getZone (tag zone : Nat) (s : State) : exec (.getZone tag zone) s = powered s (takeGetZone tag zone) := rfl
theorem exec_getFan (tag channel : Nat) (s : State) : exec (.getFan tag channel) s = powered s (takeGetFan tag channel) := rfl
theorem exec_getGroup (tag group : Nat) (s : State) : exec (.getGroup tag group) s = powered s (takeGetGroup tag group) := rfl
theorem exec_getQueue (tag : Nat) (s : State) : exec (.getQueue tag) s = powered s (takeGetQueue tag) := rfl
theorem exec_boost (tag : Nat) (zones : ZoneSet) (speed duration : Nat) (s : State) :
    exec (.boost tag zones speed duration) s = powered s (takeBoost tag zones speed duration) := rfl
theorem exec_setLimits (tag zone gas low1 high1 low2 high2 : Nat) (s : State) :
    exec (.setLimits tag zone gas low1 high1 low2 high2) s = powered s (takeSetLimits tag zone gas low1 high1 low2 high2) := rfl
theorem exec_setHold (tag zone preload : Nat) (s : State) :
    exec (.setHold tag zone preload) s = powered s (takeSetHold tag zone preload) := rfl
theorem exec_setFan (tag channel setpoint : Nat) (s : State) :
    exec (.setFan tag channel setpoint) s = powered s (takeSetFan tag channel setpoint) := rfl
theorem exec_clearFault (tag channel : Nat) (s : State) :
    exec (.clearFault tag channel) s = powered s (takeClearFault tag channel) := rfl
theorem exec_feeder (tag state : Nat) (s : State) : exec (.feeder tag state) s = powered s (takeFeeder tag state) := rfl
theorem exec_fireReset (tag : Nat) (lines : OctetSet) (s : State) :
    exec (.fireReset tag lines) s = powered s (takeFireReset tag lines) := rfl
theorem exec_itemRead (tag address item : Nat) (s : State) :
    exec (.itemRead tag address item) s = powered s (takeItemRead tag address item) := rfl
theorem exec_itemWrite (tag address item value : Nat) (s : State) :
    exec (.itemWrite tag address item value) s = powered s (takeItemWrite tag address item value) := rfl
theorem exec_groupRead (tag group item : Nat) (s : State) :
    exec (.groupRead tag group item) s = powered s (takeGroupRead tag group item) := rfl
theorem exec_groupWrite (tag group item value : Nat) (s : State) :
    exec (.groupWrite tag group item value) s = powered s (takeGroupWrite tag group item value) := rfl
theorem exec_serviceCancel (tag : Nat) (s : State) : exec (.serviceCancel tag) s = powered s (takeServiceCancel tag) := rfl
theorem exec_cycleBegin (s : State) : exec .cycleBegin s = powered s cycleBoundary := rfl
theorem exec_pollSlotEnd (reply : List Byte) (s : State) : exec (.pollSlotEnd reply) s = powered s (pollEnd reply) := rfl
theorem exec_commandSlotEnd (reply : List Byte) (s : State) : exec (.commandSlotEnd reply) s = powered s (commandEnd reply) := rfl
theorem exec_serviceSlotEnd (reply : List Byte) (s : State) : exec (.serviceSlotEnd reply) s = powered s (serviceEnd reply) := rfl
theorem exec_secondsTick (s : State) : exec .secondsTick s = powered s secondsTick := rfl
theorem exec_settleExpiry (channel : Nat) (s : State) : exec (.settleExpiry channel) s = powered s (settleExpired channel) := rfl
theorem exec_damperTimerExpiry (channel : Nat) (s : State) :
    exec (.damperTimerExpiry channel) s = powered s (damperTimeout channel) := rfl
theorem exec_coastTimerExpiry (channel : Nat) (s : State) :
    exec (.coastTimerExpiry channel) s = powered s (coastTimeout channel) := rfl
theorem exec_holdExpiry (zone : Nat) (s : State) : exec (.holdExpiry zone) s = powered s (holdTimeout zone) := rfl
theorem exec_boostExpiry (zone : Nat) (s : State) : exec (.boostExpiry zone) s = powered s (boostTimeout zone) := rfl
theorem exec_graceExpiry (zone : Nat) (s : State) : exec (.graceExpiry zone) s = powered s (graceTimeout zone) := rfl
theorem exec_collectionExpiry (s : State) : exec .collectionExpiry s = powered s lapseResult := rfl
theorem exec_queueStall (s : State) : exec .queueStall s = powered s stall := rfl
theorem exec_fireLineAccepted (line : Nat) (s : State) : exec (.fireLineAccepted line) s = powered s (acceptLine line) := rfl
theorem exec_commitLevelLatch (s : State) : exec .commitLevelLatch s = powered s levelLatch := rfl
theorem exec_restartProvisionalMake (s : State) : exec .restartProvisionalMake s = powered s restartMake := rfl
theorem exec_feedAccepted (s : State) : exec .feedAccepted s = powered s feedAccepted := rfl

end Sys2Proof.Machine
end

