-- ==== Sys2Proof/Laws/Tables.lean ====
section
/-! SUPPORT. What the keyed tables, the checks of request fields, the ring, the start queue's list operations, the acceptances of the
input lines and the drives' side do, said once. -/

namespace Sys2Proof.Machine

variable {α : Type}

/-! ## Keyed tables -/

theorem lookup_mem {key : α → Nat} {k : Nat} {l : List α} {a : α} (h : lookup key k l = some a) : a ∈ l ∧ key a = k :=
  ⟨List.mem_of_find?_eq_some h, by simpa using List.find?_some h⟩

theorem lookup_eq_none {key : α → Nat} {k : Nat} {l : List α} : lookup key k l = none ↔ ∀ a ∈ l, key a ≠ k := by
  simp [lookup, List.find?_eq_none]

/-- The first record under a key is the one looked up. -/
theorem lookup_split {key : α → Nat} {k : Nat} {before after : List α} {a : α} (hb : ∀ b ∈ before, key b ≠ k) (ha : key a = k) :
    lookup key k (before ++ a :: after) = some a := by
  induction before with
  | nil => simp [lookup, ha]
  | cons b l ih =>
    have : key b ≠ k := hb b (by simp)
    simp only [lookup, List.cons_append, List.find?_cons, beq_eq_false_iff_ne.mpr this]
    exact ih fun c hc => hb c (by simp [hc])

theorem hasKey_iff {key : α → Nat} {k : Nat} {l : List α} : hasKey key k l = true ↔ ∃ a ∈ l, key a = k := by
  simp [hasKey]

theorem hasKey_false {key : α → Nat} {k : Nat} {l : List α} : hasKey key k l = false ↔ ∀ a ∈ l, key a ≠ k := by
  simp [hasKey]

/-- A change under a key that no record has changes nothing. -/
theorem modify_none {key : α → Nat} {k : Nat} {f : α → α} {l : List α} (h : ∀ a ∈ l, key a ≠ k) : modify key k f l = l := by
  unfold modify
  conv => rhs; rw [← List.map_id l]
  exact List.map_congr_left fun a ha => by simp [h a ha]

/-- A change under the key of one record changes that record alone. -/
theorem modify_split {key : α → Nat} {k : Nat} {f : α → α} {before after : List α} {a : α}
    (h : ∀ b ∈ before ++ after, key b ≠ k) (ha : key a = k) :
    modify key k f (before ++ a :: after) = before ++ f a :: after := by
  have hb := modify_none (f := f) fun b hb => h b (List.mem_append_left _ hb)
  have hc := modify_none (f := f) fun b hb => h b (List.mem_append_right _ hb)
  simp only [modify] at hb hc
  simp [modify, List.map_append, hb, hc, ha]

/-- A change that keeps the keys keeps their list. -/
theorem map_modify {β : Type} {key : α → Nat} {k : Nat} {f : α → α} {g : α → β} (hg : ∀ a, g (f a) = g a) (l : List α) :
    (modify key k f l).map g = l.map g := by
  simp only [modify, List.map_map]
  refine List.map_congr_left fun a _ => ?_
  simp only [Function.comp]
  split <;> simp [hg]

theorem mem_modify {key : α → Nat} {k : Nat} {f : α → α} {l : List α} {b : α} :
    b ∈ modify key k f l ↔ ∃ a ∈ l, b = if key a = k then f a else a := by
  simp [modify, eq_comm]

theorem mem_upsert {key : α → Nat} {a b : α} {l : List α} (h : b ∈ upsert key a l) : b = a ∨ b ∈ l := by
  induction l with
  | nil => simpa [upsert] using h
  | cons c l ih =>
    unfold upsert at h
    split_ifs at h
    · simpa using h
    · simp only [List.mem_cons] at h ⊢
      tauto
    · simp only [List.mem_cons] at h ⊢
      rcases h with h | h
      · tauto
      · have := ih h
        tauto

theorem upsert_mem {key : α → Nat} {a : α} {l : List α} : a ∈ upsert key a l := by
  induction l with
  | nil => simp [upsert]
  | cons b l ih => unfold upsert; split_ifs <;> simp [ih]

/-- A record put under its key is the one found there. -/
theorem lookup_upsert {key : α → Nat} {a : α} {l : List α} : lookup key (key a) (upsert key a l) = some a := by
  induction l with
  | nil => simp [upsert, lookup]
  | cons b l ih =>
    unfold upsert
    split_ifs with h1 h2
    · simp [lookup]
    · simp [lookup]
    · unfold lookup at ih ⊢
      rw [List.find?_cons_of_neg (by simpa using Ne.symm h2)]
      exact ih

/-- A record under another key stays. -/
theorem mem_upsert_of_ne {key : α → Nat} {a b : α} {l : List α} (h : b ∈ l) (hk : key b ≠ key a) : b ∈ upsert key a l := by
  induction l with
  | nil => simp at h
  | cons c l ih =>
    unfold upsert
    rcases List.mem_cons.mp h with rfl | h
    · split_ifs with h1 h2
      · simp
      · exact absurd h2.symm hk
      · simp
    · split_ifs <;> simp [h, ih h]

theorem sorted_upsert {key : α → Nat} {a : α} {l : List α} (h : sorted key l) : sorted key (upsert key a l) := by
  induction l with
  | nil => simp [upsert, sorted]
  | cons b l ih =>
    have hb := List.pairwise_cons.mp h
    unfold upsert
    split_ifs with h1 h2
    · refine List.pairwise_cons.mpr ⟨fun c hc => ?_, h⟩
      rcases List.mem_cons.mp hc with rfl | hc
      · exact h1
      · exact lt_trans h1 (hb.1 c hc)
    · exact List.pairwise_cons.mpr ⟨fun c hc => h2 ▸ hb.1 c hc, hb.2⟩
    · refine List.pairwise_cons.mpr ⟨fun c hc => ?_, ih hb.2⟩
      rcases mem_upsert hc with rfl | hc
      · omega
      · exact hb.1 c hc

theorem sorted_map {key : α → Nat} {f : α → α} (hf : ∀ a, key (f a) = key a) {l : List α} (h : sorted key l) :
    sorted key (l.map f) := by
  unfold sorted at h ⊢
  exact List.pairwise_map.mpr (h.imp fun {a b} hab => by rw [hf, hf]; exact hab)

theorem sorted_modify {key : α → Nat} {k : Nat} {f : α → α} (hf : ∀ a, key (f a) = key a) {l : List α} (h : sorted key l) :
    sorted key (modify key k f l) :=
  sorted_map (fun a => by split <;> simp [hf]) h

/-- In a sorted table a key has one record. -/
theorem sorted_unique {key : α → Nat} {l : List α} (h : sorted key l) {a b : α} (ha : a ∈ l) (hb : b ∈ l) (hk : key a = key b) :
    a = b := by
  induction l with
  | nil => simp at ha
  | cons c l ih =>
    have hc := List.pairwise_cons.mp h
    rcases List.mem_cons.mp ha with ha' | ha' <;> rcases List.mem_cons.mp hb with hb' | hb'
    · exact ha'.trans hb'.symm
    · exact absurd (ha' ▸ hk) (Nat.ne_of_lt (hc.1 b hb'))
    · exact absurd (hb' ▸ hk).symm (Nat.ne_of_lt (hc.1 a ha'))
    · exact ih hc.2 ha' hb'

theorem sorted_nodup {key : α → Nat} {l : List α} (h : sorted key l) : (l.map key).Nodup :=
  List.pairwise_map.mpr (h.imp fun {_ _} hab => Nat.ne_of_lt hab)

theorem noDups_iff [DecidableEq α] (l : List α) : noDups l = true ↔ l.Nodup := by
  induction l with
  | nil => simp [noDups]
  | cons a l ih => simp [noDups, ih, List.nodup_cons]

/-! ## Largest numbers -/

theorem foldl_max_le (l : List Nat) (n : Nat) : n ≤ l.foldl max n ∧ ∀ m ∈ l, m ≤ l.foldl max n := by
  induction l generalizing n with
  | nil => simp
  | cons a l ih =>
    have h := ih (max n a)
    refine ⟨le_trans (le_max_left ..) h.1, fun m hm => ?_⟩
    rcases List.mem_cons.mp hm with rfl | hm
    · exact le_trans (le_max_right ..) h.1
    · exact h.2 m hm

theorem foldl_max_mem (l : List Nat) (n : Nat) : l.foldl max n = n ∨ l.foldl max n ∈ l := by
  induction l generalizing n with
  | nil => simp
  | cons a l ih =>
    simp only [List.foldl_cons, List.mem_cons]
    rcases ih (max n a) with h | h
    · rw [h]
      rcases max_choice n a with hm | hm <;> simp [hm]
    · exact Or.inr (Or.inr h)

theorem le_largest {l : List Nat} {n : Nat} (h : n ∈ l) : n ≤ largest l := (foldl_max_le l 0).2 n h
theorem largest_mem (l : List Nat) : largest l = 0 ∨ largest l ∈ l := foldl_max_mem l 0

/-- The largest number of a list is the one that bounds it and stands in it. -/
theorem largest?_eq_some {l : List Nat} {v : Nat} : largest? l = some v ↔ v ∈ l ∧ ∀ m ∈ l, m ≤ v := by
  cases l with
  | nil => simp [largest?]
  | cons a l =>
    have hle := foldl_max_le l a
    have hmem := foldl_max_mem l a
    constructor
    · intro h
      simp only [largest?, Option.some.injEq] at h
      subst h
      refine ⟨?_, fun m hm => ?_⟩
      · rcases hmem with h | h <;> simp [h]
      · rcases List.mem_cons.mp hm with rfl | hm
        · exact hle.1
        · exact hle.2 m hm
    · rintro ⟨hv, hb⟩
      simp only [largest?, Option.some.injEq]
      refine le_antisymm (hb _ ?_) ?_
      · rcases hmem with h | h <;> simp [h]
      · rcases List.mem_cons.mp hv with rfl | hv
        · exact hle.1
        · exact hle.2 v hv

/-! ## Checks of request fields -/

/-- No field fails exactly when every check passes. -/
theorem firstBad_eq_none {l : List (Nat × Bool)} : firstBad l = none ↔ ∀ p ∈ l, p.2 = true := by
  induction l with
  | nil => simp [firstBad]
  | cons p l ih =>
    obtain ⟨n, b⟩ := p
    cases b <;> simp [firstBad, ih]

theorem firstBad_isSome {l : List (Nat × Bool)} (h : ¬ ∀ p ∈ l, p.2 = true) : ∃ n, firstBad l = some n := by
  cases hb : firstBad l with
  | none => exact absurd (firstBad_eq_none.mp hb) h
  | some n => exact ⟨n, rfl⟩

theorem within_iff {lo hi n : Nat} : within lo hi n = true ↔ lo ≤ n ∧ n ≤ hi := by simp [within]

/-! ## The ring -/

theorem Ring.lose_eq (r : Ring) : r.lose.notices = r.notices ∧ r.lose.lost ≤ max 127 r.lost := by
  unfold Ring.lose
  simp only [Config.lossMax]
  by_cases h : r.lost < 127
  · simp only [h, if_true]
    exact ⟨trivial, by omega⟩
  · simp only [h, if_false]
    exact ⟨trivial, by omega⟩

/-- What a notice's arrival does to the room and the loss count (R197, R198). -/
theorem Ring.append_bounds (n : Notice) (r : Ring) :
    (r.append n).notices.length ≤ max 64 r.notices.length ∧ (r.append n).lost ≤ max 127 r.lost := by
  have hdrop : ∀ l : List Notice, l.any (fun m => !m.body.isFire) = true → (dropOldestRoutine l).length + 1 = l.length := by
    intro l
    induction l with
    | nil => simp
    | cons m l ih =>
      intro h
      cases hm : m.body.isFire
      · simp [dropOldestRoutine, hm]
      · have : l.any (fun m => !m.body.isFire) = true := by simpa [hm] using h
        simp [dropOldestRoutine, hm, ih this]
  unfold Ring.append
  have hl := r.lose_eq
  split_ifs with h1 h2
  · simp only [Config.ringRoom] at h1
    refine ⟨?_, le_max_right ..⟩
    simp only [List.length_append, List.length_cons, List.length_nil]
    omega
  · simp only [Bool.and_eq_true] at h2
    have := hdrop _ h2.2
    refine ⟨?_, hl.2⟩
    simp only [List.length_append, List.length_cons, List.length_nil]
    omega
  · exact ⟨by rw [hl.1]; exact le_max_right .., hl.2⟩

/-! ## The start queue's lists -/

theorem fixHead_channels (q : List QueueEntry) : (fixHead q).map QueueEntry.channel = q.map QueueEntry.channel := by
  cases q <;> simp [fixHead, Function.comp_def]

theorem fixHead_costs (q : List QueueEntry) :
    (fixHead q).map (fun e => (e.channel, e.cost)) = q.map fun e => (e.channel, e.cost) := by
  cases q <;> simp [fixHead, Function.comp_def]

theorem placeEntry_perm (e : QueueEntry) (q : List QueueEntry) : (placeEntry e q).Perm (e :: q) := by
  unfold placeEntry
  split
  · have h : (q.takeWhile QueueEntry.isFire ++ e :: q.dropWhile QueueEntry.isFire).Perm
        (e :: (q.takeWhile QueueEntry.isFire ++ q.dropWhile QueueEntry.isFire)) := List.perm_middle
    rwa [List.takeWhile_append_dropWhile] at h
  · exact List.perm_append_singleton e q

theorem mem_removeEntry {channel : Nat} {q : List QueueEntry} {e : QueueEntry} :
    e ∈ removeEntry channel q ↔ e ∈ q ∧ e.channel ≠ channel := by
  simp [removeEntry]

/-! ## Acceptances (R108, R127, R128) -/

theorem FireLine.acceptance_initial {debounce : Nat} {l : FireLine} (h : l.accepted = none) :
    l.acceptance debounce = if debounce ≤ l.initialHeld then some (l.pin, true) else none := by simp [FireLine.acceptance, h]

theorem FireLine.acceptance_pending {debounce n : Nat} {l : FireLine} {a p : PinLevel} (h : l.accepted = some a)
    (hp : l.pendingLevel = some p) (hn : l.heldFor = some n) :
    l.acceptance debounce = if debounce ≤ n then some (p, false) else none := by simp [FireLine.acceptance, h, hp, hn]

/-- No acceptance is due at a line without a pending level, or without a count of how long it has held. -/
theorem FireLine.acceptance_none {debounce : Nat} {l : FireLine} {a : PinLevel} (h : l.accepted = some a)
    (hp : l.pendingLevel = none ∨ l.heldFor = none) : l.acceptance debounce = none := by
  rcases hp with hp | hp <;> simp [FireLine.acceptance, h, hp]

theorem Feeder.acceptance_eq (f : Feeder) : f.acceptance = if 5 ≤ f.heldFor then f.measured else none := rfl

/-! ## The drives' side (R18, R19) -/

/-- A drive that takes a command obeys it. -/
theorem Drives.obeys_takes (address : Nat) (image : Image) (d : Drives) :
    (d.takes address image).obeys address = some (image.setpoint, image.damper) := by
  have h : lookup DriveSide.address address (upsert DriveSide.address ⟨address, image, 0, true⟩ d.sides) =
      some ⟨address, image, 0, true⟩ := lookup_upsert (key := DriveSide.address) (a := ⟨address, image, 0, true⟩)
  simp [Drives.obeys, Drives.missed, Drives.takes, h]

/-- A drive short of four missed cycles obeys its last command; before the first it has none. -/
theorem Drives.obeys_of_missed_lt {address : Nat} {d : Drives} (h : d.missed address < 4) :
    d.obeys address = (lookup DriveSide.address address d.sides).map fun x => (x.stored.setpoint, x.stored.damper) := by
  simp [Drives.obeys, h]

/-- No lapse is counted within a whole period. -/
theorem Drives.tenth_within {d : Drives} (h : d.silent < d.period.tenths) : d.tenth = { d with silent := d.silent + 1 } := by
  simp [Drives.tenth, Nat.not_le.mpr h]

theorem Drives.tenth_beyond {d : Drives} (h : d.period.tenths ≤ d.silent) : d.tenth = { d.lapse with silent := 1 } := by
  simp [Drives.tenth, h]

end Sys2Proof.Machine
end

