-- ==== Sys2Proof/Laws/Words.lean ====
section
/-! SUPPORT. The words the statements share, each as the operation of the model it spells out: a proof rewrites a statement's word with
one of these and goes on with the lemmas of the operation. -/

namespace Sys2Proof.Claims

open Sys2Proof.Machine

/-! ## The ring and the channels -/

theorem ringing_eq (ns : List NoticeBody) (s : State) : ringing ns s = s.ring.raised s.uptime ns := rfl

theorem raiseAll_eq_ringing (ns : List NoticeBody) (s : State) : raiseAll ns s = { s with ring := ringing ns s } := raiseAll_eq ns s

theorem channelsDo_eq (f : Channel → Eff) (s : State) : channelsDo f s = fanEvent f s := by
  simp only [channelsDo, fanEvent, raiseAll_eq_ringing, List.flatMap_map, List.map_map]
  rfl

theorem channelDoes_eq (n : Nat) (f : Channel → Eff) (s : State) : channelDoes n f s = fanEventAt n f s := channelsDo_eq _ s

theorem resolving_eq (choose : Channel → Bool) (s : State) : resolving choose s = resolveChannels false choose s := channelsDo_eq _ s

/-! ## Entries into the states of a channel -/

theorem settleLeft_eq (c : Channel) : { c with settle := settleLeft c } = c.leaveStart := by
  unfold settleLeft Channel.leaveStart
  split <;> rfl

theorem leaveStart_fields (c : Channel) :
    c.leaveStart.cls = c.cls ∧ c.leaveStart.command = c.command ∧ c.leaveStart.settle = settleLeft c := by
  rw [← settleLeft_eq]
  exact ⟨rfl, rfl, rfl⟩

theorem leaving_eq (c : Channel) : leaving c = c.leaves := rfl

theorem queueClass_eq (k : ClaimClass) : (if k = .extract then QueueClass.fire else .normal) = k.queueClass := by cases k <;> rfl

theorem toQueued_eq (c : Channel) : toQueued c = enterQueued c := by
  unfold toQueued enterQueued
  rw [queueClass_eq]
  rfl

theorem toStart_eq (c : Channel) : toStart c = startSequence c := by
  unfold toStart startSequence
  rw [toQueued_eq]
  rfl

theorem toOff_eq (c : Channel) : toOff c = enterOff c := by
  unfold toOff enterOff Eff.andThen
  simp only [toStart_eq, leaving_eq]
  rfl

theorem toStopping_eq (c : Channel) : (⟨toStopping c, [], []⟩ : Eff) = enterStopping c := by
  unfold toStopping enterStopping Eff.quiet Channel.setImage
  rw [← settleLeft_eq]
  rfl

theorem toRunning_eq (c : Channel) : toRunning c = enterRunning c := rfl

theorem toFault_eq (cause : FaultCause) (c : Channel) : toFault cause c = enterFault cause c := by
  unfold toFault enterFault Channel.setImage
  rw [← settleLeft_eq]
  cases h : c.cls <;> simp [leaving_eq] <;> rfl

theorem toLost_eq (want : Nat) (c : Channel) : toLost want c = enterLost want c := by
  unfold toLost enterLost
  rw [← settleLeft_eq]
  rfl

/-! ## Zones and their claims -/

theorem claimDiffers_iff (a b : Zone) : a.claimDiffers b = true ↔ a.claim ≠ b.claim ∨ a.claimClass ≠ b.claimClass := by
  simp [Zone.claimDiffers]

theorem zonesBecome_eq (new : List Zone) (s : State) : zonesBecome new s = commitZones new s := by
  have h : ((s.zones.zip new).filter fun p => decide (p.1.claim ≠ p.2.claim ∨ p.1.claimClass ≠ p.2.claimClass)) =
      (s.zones.zip new).filter fun p => p.1.claimDiffers p.2 :=
    List.filter_congr fun p _ => by rw [Bool.eq_iff_iff, claimDiffers_iff]; simp
  unfold zonesBecome commitZones handOver
  simp only [raiseAll_eq_ringing, resolving_eq, h]
  rfl

/-! ## Latches -/

theorem provided_eq (channels : List Channel) (address : Nat) : provided channels address = addProvisional channels address := rfl

theorem failsafeActs_eq (s : State) : failsafeActs s = makeProvisional s.discoveredDrives s := resolving_eq _ _

theorem planOf_eq (s : State) (line zone : Nat) : planOf s line zone = assignment s.lineRecords line zone := by
  unfold planOf assignment State.lineRecord State.lineRecords LineRecord.assigns
  cases s.active with
  | none => rfl
  | some a => cases h : lookup LineRecord.line line a.lines <;> simp [h]

theorem inFire_eq (line : Nat) (a : Assignment) (conflict : List Nat) (z : Zone) :
    inFire line a conflict z = { z.enterFire line a with conflict := conflict } := by cases a <;> rfl

theorem isFire_iff (z : ZoneState) : z.isFire = decide (z = .fireExtract ∨ z = .fireIsolate) := by cases z <;> rfl

theorem lapseWrite_eq (s : State) : lapseWrite s = match s.slot with
    | .working k ms a f r =>
      if k.op = .itemWrite ∨ k.op = .groupWrite then { s with slot := .idle, ring := ringing [.remoteLapsed k.target k.op .fire] s }
      else { s with slot := .working k ms a f r }
    | _ => s := by
  unfold lapseWrite
  cases h : s.slot with
  | working k ms a f r =>
    have : { s with slot := .working k ms a f r } = s := by rw [← h]
    cases ho : k.op <;> simp [Operation.writes, ho, this] <;> rfl
  | idle => rfl
  | ready => rfl

theorem enterFire_eq (line : Nat) (a : Assignment) (z : Zone) : z.enterFire line a = inFire line a [] z := by cases a <;> rfl

/-- A filter and a map in one pass. -/
theorem filter_map_eq_flatMap {α β : Type} (p : α → Bool) (f : α → β) (l : List α) :
    (l.filter p).map f = l.flatMap fun x => if p x = true then [f x] else [] := by
  induction l with
  | nil => rfl
  | cons x l ih => cases h : p x <;> simp [h, ih]

/-- What a latched plan does, as the operation that applies it. -/
theorem planActs_eq (line : Nat) (s : State) : planActs line s = applyPlan line s := by
  unfold planActs applyPlan
  simp only [zonesBecome_eq, raiseAll_eq_ringing, planOf_eq, filter_map_eq_flatMap, List.map_map, List.flatMap_map]
  congr 1
  · refine List.map_congr_left fun z _ => ?_
    simp only [Function.comp, Zone.latch, Zone.number, isFire_iff]
    cases assignment s.lineRecords line z.record.zone with
    | none => rfl
    | some a =>
      by_cases hb : z.state = .fireExtract ∨ z.state = .fireIsolate
      · cases hg : z.governing with
        | none => simp [hb]
        | some g => by_cases hx : assignment s.lineRecords g z.record.zone = some a <;> simp [hb, hx]
      · simp [hb, enterFire_eq]
  · congr 2
    refine List.flatMap_congr fun z _ => ?_
    simp only [Zone.latch, Zone.number, isFire_iff]
    cases assignment s.lineRecords line z.record.zone with
    | none => simp
    | some a =>
      by_cases hb : z.state = .fireExtract ∨ z.state = .fireIsolate
      · cases hg : z.governing with
        | none => simp [hb]
        | some g => by_cases hx : assignment s.lineRecords g z.record.zone = some a <;> simp [hb, hx]
      · simp [hb]

/-- The setting of a latch, as the operation that sets it. -/
theorem latchSets_eq (line : Nat) (s : State) : latchSets line (s.causeFor line) s = setLatch line s := by
  have h : (s.mode = .blank ∨ s.mode = .loading) ↔ s.failsafe = true := by
    cases hm : s.mode <;> simp [State.failsafe, hm, Mode.scheduled]
  unfold latchSets setLatch
  rw [lapseWrite_eq]
  simp only [h, failsafeActs_eq, planActs_eq, List.length_append, List.length_singleton]
  rfl

/-- The lines that stand against a governor, as the conflict set. -/
theorem against_eq (s : State) (g : Nat) (zone : Nat) (l : List Nat) :
    (l.filter fun x => x ≠ g ∧ planOf s x zone ≠ none ∧ planOf s x zone ≠ planOf s g zone) =
      conflictSet s.lineRecords l g zone := by
  unfold conflictSet
  refine List.filter_congr fun x _ => ?_
  simp only [planOf_eq]
  cases assignment s.lineRecords x zone <;> simp

/-- The clearing of latches, as the operation that releases the zones. -/
theorem zonesRelease_eq (cleared : List Nat) (s : State) : zonesRelease cleared s = releaseZones cleared s := by
  unfold zonesRelease releaseZones
  simp only [zonesBecome_eq, raiseAll_eq_ringing, against_eq, List.map_map, List.flatMap_map]
  have hp (z : Zone) : (s.latches.map Latch.line).findSome? (fun l => (planOf s l z.record.zone).map fun a => (l, a)) =
      governor s.lineRecords s.latchedLines z.record.zone := by simp only [planOf_eq]; rfl
  have hl : s.latches.map Latch.line = s.latchedLines := rfl
  simp only [hl] at hp
  simp only [hl, hp]
  congr 1
  · refine List.map_congr_left fun z _ => ?_
    simp only [Function.comp, Zone.release, Zone.number]
    cases hg : z.governing with
    | none => simp
    | some g =>
      by_cases hc : g ∈ cleared
      · cases governor s.lineRecords s.latchedLines z.record.zone with
        | none =>
          have hx : (z.graceOver = true) = (z.grace.remaining = 0) := by simp [Zone.graceOver]
          by_cases hb : z.liveCount = 0 ∧ z.grace.remaining = 0 <;>
            simp [hc, hx, hb, Zone.enter, Zone.reclaim, ZoneState.isFire, ZoneRecord.claimOf, Timer.load]
        | some x => simp [hc, inFire_eq]
      · simp [hc]
  · congr 2
    refine List.flatMap_congr fun z _ => ?_
    simp only [Zone.release, Zone.number]
    cases hg : z.governing with
    | none => simp
    | some g =>
      by_cases hc : g ∈ cleared
      · cases governor s.lineRecords s.latchedLines z.record.zone <;> simp [hc]
      · simp [hc]

end Sys2Proof.Claims
end

