-- ==== Sys2Proof/Tests/Slice0.lean ====
section
/-! SUPPORT. Tests: what the well-formedness check refuses, single steps on small states, bytes written out from the spec, and for every
statement with hypotheses a state that meets them. -/

set_option Elab.async false

namespace Sys2Proof.Tests

open Sys2Proof.Machine

/-! ## Well-formedness: one term that each check refuses -/

theorem test_wf_refuses_wide_tags :
    [Instr.identify 256, .linkStatus 256, .fetch 256 1, .snapTake 256, .snapRead 256 0, .snapRelease 256, .loadBegin 256,
      .loadLoop 256 ⟨none, none⟩, .loadFeeder 256 ⟨none, none⟩, .loadHead 256 ⟨0, none, none, none⟩,
      .loadFan 256 ⟨0, none, none, none, none, none, none, none, none⟩,
      .loadZone 256 ⟨0, none, none, ⟨none, none, none, none⟩, ⟨none, none, none, none⟩, none, none, none, none, none⟩,
      .loadSlot 256 ⟨1, none, none, none⟩, .loadLine 256 ⟨0, none, none, none, none, none⟩, .loadAbandon 256, .loadCommit 256,
      .restartKeep 256, .restartClear 256, .manualEnter 256, .manualLeave 256, .discovered 256, .getHead 256 0, .getZone 256 0,
      .getFan 256 0, .getGroup 256 0, .getQueue 256, .boost 256 1 50 60, .setLimits 256 0 0 1 2 3 4, .setHold 256 0 60,
      .setFan 256 0 50, .clearFault 256 0, .feeder 256 0, .fireReset 256 1, .itemRead 256 1 0, .itemWrite 256 1 8 0,
      .groupRead 256 0 0, .groupWrite 256 0 8 0, .serviceCancel 256].all (fun c => !c.wf) = true := by decide

theorem test_wf_refuses_wide_fields :
    [Instr.fetch 1 256, .snapRead 1 256, .getHead 1 256, .getZone 1 256, .getFan 1 256, .getGroup 1 256,
      .boost 1 1 256 60, .boost 1 1 50 65536, .setLimits 1 256 0 1 2 3 4, .setLimits 1 0 256 1 2 3 4,
      .setLimits 1 0 0 65536 2 3 4, .setLimits 1 0 0 1 65536 3 4, .setLimits 1 0 0 1 2 65536 4, .setLimits 1 0 0 1 2 3 65536,
      .setHold 1 256 60, .setHold 1 0 65536, .setFan 1 256 50, .setFan 1 0 256, .clearFault 1 256, .feeder 1 256,
      .itemRead 1 256 0, .itemRead 1 1 256, .itemWrite 1 256 8 0, .itemWrite 1 1 256 0, .itemWrite 1 1 8 65536,
      .groupRead 1 256 0, .groupRead 1 0 256, .groupWrite 1 256 8 0, .groupWrite 1 0 256 0, .groupWrite 1 0 8 65536,
      .settleExpiry 24, .damperTimerExpiry 24, .coastTimerExpiry 24, .holdExpiry 16, .boostExpiry 16, .graceExpiry 16,
      .fireLineLevelChange 8 .high, .fireLineAccepted 8].all (fun c => !c.wf) = true := by decide

theorem test_wf_refuses_wide_records :
    [LoadLoop.wf ⟨some 256, none⟩, LoadLoop.wf ⟨none, some 256⟩, LoadFeeder.wf ⟨some 256, none⟩, LoadFeeder.wf ⟨none, some 256⟩,
      LoadHead.wf ⟨256, none, none, none⟩, LoadHead.wf ⟨0, some 256, none, none⟩, LoadHead.wf ⟨0, none, none, some [0, 1, 2]⟩,
      LoadHead.wf ⟨0, none, none, some [256]⟩,
      LoadFan.wf ⟨256, none, none, none, none, none, none, none, none⟩,
      LoadFan.wf ⟨0, some 256, none, none, none, none, none, none, none⟩,
      LoadFan.wf ⟨0, none, none, some 256, none, none, none, none, none⟩,
      LoadFan.wf ⟨0, none, none, none, some 256, none, none, none, none⟩,
      LoadFan.wf ⟨0, none, none, none, none, some 256, none, none, none⟩,
      LoadFan.wf ⟨0, none, none, none, none, none, some 256, none, none⟩,
      LoadFan.wf ⟨0, none, none, none, none, none, none, some 256, none⟩,
      LoadFan.wf ⟨0, none, none, none, none, none, none, none, some 256⟩,
      LoadSlot.wf ⟨256, none, none, none⟩, LoadSlot.wf ⟨1, some 256, none, none⟩, LoadSlot.wf ⟨1, none, some 256, none⟩,
      LoadSlot.wf ⟨1, none, none, some 256⟩, LoadLine.wf ⟨256, none, none, none, none, none⟩,
      LoadLine.wf ⟨0, some 256, none, none, none, none⟩, LoadLine.wf ⟨0, none, some 256, none, none, none⟩,
      LoadLine.wf ⟨0, none, none, none, none, some 256⟩].all (fun b => !b) = true := by decide

/-- A zone record with nothing given but its number. -/
def bareZone : LoadZone := ⟨0, none, none, ⟨none, none, none, none⟩, ⟨none, none, none, none⟩, none, none, none, none, none⟩

theorem test_wf_refuses_wide_zone_records :
    [{ bareZone with zone := 256 }, { bareZone with heads := some [0, 1, 2, 3, 4, 5, 6, 7, 8] },
      { bareZone with heads := some [256] }, { bareZone with fans := some [0, 1, 2, 3, 4] }, { bareZone with fans := some [256] },
      { bareZone with co := ⟨some 65536, none, none, none⟩ }, { bareZone with co := ⟨none, some 65536, none, none⟩ },
      { bareZone with co := ⟨none, none, some 65536, none⟩ }, { bareZone with co := ⟨none, none, none, some 65536⟩ },
      { bareZone with no2 := ⟨some 256, none, none, none⟩ }, { bareZone with no2 := ⟨none, some 256, none, none⟩ },
      { bareZone with no2 := ⟨none, none, some 256, none⟩ }, { bareZone with no2 := ⟨none, none, none, some 256⟩ },
      { bareZone with idle := some 256 }, { bareZone with stage1 := some 256 }, { bareZone with stage2 := some 256 },
      { bareZone with blind := some 256 }, { bareZone with hold := some 65536 }].all (fun r => !r.wf) = true := by decide

/-! ## Small states -/

/-- The state a command leads to; no command stops. -/
def after (c : Instr) (s : State) : State :=
  match exec c s with
  | .next t => t
  | .fault _ => s
  | .refused _ => s

/-- The reply in progress. -/
def reply (s : State) : Option Reply := s.link.reply

/-- LOADING with staging tables of one zone, one head, two channels, three schedule entries and one fire line. -/
def staged : State := { State.reset with
  mode := .loading
  staging := some
    { loop := none
      feeder := some ⟨some 4, some 2⟩
      heads := [⟨0, some 5, some 3, some [0]⟩]
      fans := [⟨0, some 8, some 1, some 2, none, none, none, none, none⟩, ⟨1, some 9, some 1, none, none, none, none, none, none⟩]
      zones := [{ bareZone with heads := some [0], fans := some [0, 1] }]
      slots := [⟨5, some 0, none, none⟩, ⟨8, some 1, none, none⟩, ⟨9, some 1, none, none⟩]
      lines := [⟨0, some 1, none, some 1, none, none⟩] } }

/-- The part after the commit of `staged`, between two cycles. -/
def committed : State :=
  let s := after (.loadCommit 1) staged
  { s with loop := { s.loop with phase := .idle, orphan := false, cycle := 40 }, link := { s.link with reply := none } }

/-- `committed` with its two channels in the states given. -/
def withChannels (f g : Channel → Channel) (s : State) : State :=
  { s with channels := s.channels.map fun c => if c.record.channel = 0 then f c else g c }

/-- A channel in a state with an image and a target. -/
def inState (st : FanState) (target : Nat) (i : Image) (c : Channel) : Channel := { c with state := st, target := target, command := some i }

/-- RUN with channel 0 OFF and channel 1 RUNNING at 50 %. -/
def working : State :=
  withChannels (inState .off 0 ⟨0, .close, .hold⟩) (inState .running 50 ⟨50, .opn, .hold⟩) committed

/-- MANUAL with the channels of `working`. -/
def inManual : State := { working with mode := .manual }

/-- RUN with the head of zone 0 LIVE. -/
def sensing : State := { working with heads := working.heads.map fun h => { h with state := .live, coWindow := [95] } }

/-- The zones of a state, changed. -/
def withZones (f : Zone → Zone) (s : State) : State := { s with zones := s.zones.map f }

/-- A phase of the cycle in progress. -/
def inPhase (p : Phase) (s : State) : State := { s with loop := { s.loop with phase := p } }

/-! ## Single steps -/

theorem test_powerOn : (after (.powerOn ⟨.high, .low⟩) State.reset).link.rate = .b57600 := by decide +kernel
theorem test_pinReset : (after .pinReset committed).power = .inReset .pin ∧ (after .pinReset committed).zones = [] := by decide +kernel
theorem test_pinResetEnd :
    (after (.pinResetEnd ⟨.high, .high⟩) (after .pinReset committed)).resetCause = .pin := by decide +kernel
theorem test_supplyLoss : (after .supplyLoss committed).power = .off := by decide +kernel

theorem test_identify : (reply (after (.identify 7) State.reset)).map Reply.frame =
    some [0xC3, 0x0E, 0x81, 0x07, 0x00, 0x3E, 0x51, 0x24, 0x16, 0x01, 0x00, 0x00, 0x00, 0x00, 0x00, 0x00, 0x42, 0x03] := by
  decide +kernel
theorem test_linkStatus : ((after (.linkStatus 7) { State.reset with
    link := { State.reset.link with discards := 9 } }).link.discards = 0) := by decide +kernel
theorem test_fetch : ((after (.fetch 7 8) committed).ring.notices = []) := by decide +kernel
theorem test_snapTake : (after (.snapTake 7) committed).snapshot.map Snapshot.read = some [] := by decide +kernel
theorem test_snapRead : (after (.snapRead 7 3) (after (.snapTake 7) committed)).snapshot.map Snapshot.read = some [3] := by
  decide +kernel
theorem test_snapRelease : (after (.snapRelease 7) (after (.snapTake 7) committed)).snapshot = none := by decide +kernel
theorem test_loadBegin : (after (.loadBegin 7) State.reset).mode = .loading := by decide +kernel
theorem test_loadLoop : ((after (.loadLoop 7 ⟨some 2, none⟩) staged).staging.bind Staging.loop) = some ⟨some 2, none⟩ := by
  decide +kernel
theorem test_loadFeeder : (reply (after (.loadFeeder 7 ⟨some 33, none⟩) staged)).map Reply.body = some (.badField 2) := by
  decide +kernel
theorem test_loadHead : (reply (after (.loadHead 7 ⟨1, some 6, some 1, some [0]⟩) staged)).map Reply.body = some (.loaded false 2) := by
  decide +kernel
theorem test_loadFan : (reply (after (.loadFan 7 ⟨1, some 9, none, none, none, none, none, none, none⟩) staged)).map Reply.body =
    some (.loaded true 2) := by decide +kernel
theorem test_loadZone : (reply (after (.loadZone 7 bareZone) staged)).map Reply.body = some (.badField 3) := by decide +kernel
theorem test_loadSlot : (reply (after (.loadSlot 7 ⟨10, some 1, some 8, some 7⟩) staged)).map Reply.body =
    some (.loadedSlot false 4 1 3) := by decide +kernel
theorem test_loadLine : (reply (after (.loadLine 7 ⟨7, some 5, none, none, none, none⟩) staged)).map Reply.body =
    some (.loaded false 2) := by decide +kernel
theorem test_loadAbandon : (after (.loadAbandon 7) staged).mode = .blank := by decide +kernel
theorem test_loadCommit : committed.mode = .run ∧ committed.zones.map Zone.claim = [0] ∧ committed.channels.length = 2
    ∧ (committed.active.map Active.budget) = some 4 := by decide +kernel
theorem test_restartKeep : (after (.restartKeep 7) inManual).mode = .run ∧ (after (.restartKeep 7) inManual).loop.cycle = 0 := by
  decide +kernel
theorem test_restartClear : (after (.restartClear 7) working).mode = .blank ∧ (after (.restartClear 7) working).channels = [] := by
  decide +kernel
theorem test_manualEnter : (after (.manualEnter 7) working).channels.map Channel.manual = [some 0, some 50] := by decide +kernel
theorem test_manualLeave : (after (.manualLeave 7) inManual).channels.map Channel.target = [0, 0] := by decide +kernel
theorem test_discovered : (reply (after (.discovered 7) State.reset)).map Reply.body = some (.discovered true 0 1 []) := by
  decide +kernel
theorem test_getHead : (reply (after (.getHead 7 40) working)).map Reply.status = some .badField := by decide +kernel
theorem test_getZone : (reply (after (.getZone 7 15) working)).map Reply.body = some (.zone none) := by decide +kernel
theorem test_getFan : (reply (after (.getFan 7 2) working)).map Reply.status = some .notFound := by decide +kernel
theorem test_getGroup : (reply (after (.getGroup 7 0) working)).map Reply.body =
    some (.group [⟨0, .off, none, none⟩, ⟨1, .running, none, none⟩]) := by decide +kernel
theorem test_getQueue : (reply (after (.getQueue 7) working)).map Reply.body =
    some (.queue ⟨0, 4, 2, .constrained, .constrained, .normal, [], []⟩) := by decide +kernel
theorem test_boost : (after (.boost 7 1 40 600) working).channels.map Channel.target = [40, 40]
    ∧ (after (.boost 7 1 40 600) working).channels.map Channel.state = [.opening, .running] := by decide +kernel
theorem test_setLimits : (after (.setLimits 7 0 1 1 2 3 4) working).zones.map (fun z => z.record.no2) = [⟨1, 2, 3, 4⟩] := by
  decide +kernel
theorem test_setHold : (after (.setHold 7 0 10) working).zones.map (fun z => z.record.hold) = [10] := by decide +kernel
theorem test_setFan : (after (.setFan 7 1 5) inManual).channels.map Channel.target = [0, 20] := by decide +kernel
theorem test_clearFault : (after (.clearFault 7 0) (withChannels (inState .fault 0 ⟨0, .opn, .hold⟩) id working)).channels.map
    Channel.state = [.off, .running] := by decide +kernel
theorem test_feeder : (reply (after (.feeder 7 1) working)).map Reply.body =
    some (.feeder .constrained .constrained .constrained) := by decide +kernel
theorem test_fireReset : (after (.fireReset 7 0xFF) { State.reset with latches := [⟨3, 5, .failsafe⟩] }).latches = [] := by
  decide +kernel
theorem test_itemRead : (after (.itemRead 7 8 3) working).slot =
    .working ⟨.itemRead, 8, 3, none⟩ [⟨8, none⟩] 0 false [] := by decide +kernel
theorem test_itemWrite : (reply (after (.itemWrite 7 8 7 1) working)).map Reply.body = some (.badField 2) := by decide +kernel
theorem test_groupRead : (after (.groupRead 7 0 3) working).slot =
    .working ⟨.groupRead, 0, 3, none⟩ [⟨8, some 0⟩, ⟨9, some 1⟩] 0 false [] := by decide +kernel
theorem test_groupWrite : (reply (after (.groupWrite 7 5 8 1) working)).map Reply.status = some .notFound := by decide +kernel
theorem test_serviceCancel : (after (.serviceCancel 7) (after (.itemRead 7 8 3) working)).slot = .idle := by decide +kernel

/-- The bytes of a request frame after its start byte. -/
def request (content : List Byte) : List Byte :=
  let covered := BitVec.ofNat 8 content.length :: content
  covered ++ b2 (crc covered).toNat

/-- Receiver states with part of a frame taken. -/
def receiving (length : Nat) (body : List Byte) : State := { State.reset with
  link := { State.reset.link with rx := .inFrame length body } }

theorem test_hostByteReceived : request [0x01, 0x07] = [0x02, 0x01, 0x07, 0xE1, 0x2A]
    ∧ (reply (after (.hostByteReceived 0x2A false) (receiving 2 [0x01, 0x07, 0xE1]))).map Reply.kind = some 1
    ∧ (after (.hostByteReceived 0x2B false) (receiving 2 [0x01, 0x07, 0xE1])).link.discards = 1 := by decide +kernel
theorem test_interByteGapTimeout : (after .interByteGapTimeout (receiving 2 [])).link.rx = .hunting := by decide +kernel
theorem test_replySent : (after .replySent (after (.identify 7) State.reset)).link.reply = none := by decide +kernel

theorem test_cycleBegin : (after .cycleBegin working).loop.phase = .polls ⟨5, .only .head⟩ [⟨8, .only .drive⟩, ⟨9, .only .drive⟩]
    ∧ (after .cycleBegin working).loop.mark.frame = [0x01, 0x00, 0x00, 0x28, 0x01, 0xD6] := by decide +kernel

/-- `working` with the polls of its head and of channel 0's drive in progress. -/
def polling : State := inPhase (.polls ⟨5, .only .head⟩ [⟨8, .only .drive⟩]) working
/-- The same with the drive's poll before another. -/
def pollingDrive : State := inPhase (.polls ⟨9, .only .drive⟩ [⟨5, .only .head⟩]) working

theorem test_pollSlotEnd_head :
    (after (.pollSlotEnd [0x21, 0x05, 0x03, 0x00, 0x20, 0x07, 0x00, 0xB0]) polling).heads.map
      (fun h => (h.state, h.coWindow, h.no2Window)) = [(.live, [32], [7])] := by decide +kernel
theorem test_pollSlotEnd_drive :
    (after (.pollSlotEnd [0x22, 0x09, 0x00, 0x00, 0x02, 0x00, 0xD3]) pollingDrive).channels.map Channel.state = [.off, .fault] := by
  decide +kernel

/-- `working` with the command to channel 1 on the wire and one to channel 0 to come. -/
def commanding : State := inPhase (.commands ⟨some 1, 9, ⟨50, .opn, .hold⟩⟩ [0]) working

theorem test_commandSlotEnd :
    (after (.commandSlotEnd [0x23, 0x09, 0xD4]) commanding).channels.map Channel.acknowledged = [none, some ⟨50, .opn, .hold⟩] := by
  decide +kernel

/-- Three drives: one at its limit, one a mark short of it, one that has just taken a command. -/
def threeDrives : Drives :=
  ⟨.one, 9, 4, [⟨8, ⟨50, .opn, .stop⟩, 4, false⟩, ⟨9, ⟨50, .opn, .extract⟩, 3, false⟩, ⟨10, ⟨50, .opn, .extract⟩, 3, true⟩]⟩

theorem test_drive_fallback : [8, 9, 10, 11].map threeDrives.obeys = [some (0, .close), some (50, .opn), some (50, .opn), none]
    ∧ [9, 10].map (threeDrives.hear .one).obeys = [some (100, .opn), some (50, .opn)] := by decide +kernel
theorem test_drive_lapse : threeDrives.tenth.sides = threeDrives.sides
    ∧ [9, 10].map threeDrives.tenth.tenth.obeys = [some (100, .opn), some (100, .opn)] ∧ threeDrives.tenth.tenth.silent = 1 := by
  decide +kernel
theorem test_drained_acknowledgement : let s := after (.commandSlotEnd [0x23, 0x09, 0xD4]) (after (.restartKeep 7) commanding)
    s.loop.draining = none ∧ s.loop.drives.obeys 9 = some (50, .opn) ∧ s.channels.map Channel.acknowledged = [none, none] := by
  decide +kernel

/-- `working` with the service exchange of an ITEM_READ on the wire. -/
def serving : State := inPhase (.service ⟨8, 3, none⟩)
  { working with slot := .working ⟨.itemRead, 8, 3, none⟩ [⟨8, none⟩] 0 true [] }

theorem test_serviceSlotEnd : (after (.serviceSlotEnd [0x24, 0x08, 0x12, 0x34, 0x8E]) serving).slot =
    .ready ⟨.itemRead, 8, 3, none⟩ [⟨8, none⟩] [⟨8, .ok, some 0x1234⟩] ⟨10, false⟩
    ∧ (after (.serviceSlotEnd [0x24, 0x08, 0x12, 0x34, 0x8E]) serving).loop.cycle = 41 := by decide +kernel

theorem test_secondsTick : (after .secondsTick working).uptime = 1 ∧ (after .secondsTick working).zones.map Zone.grace = [⟨119, false⟩] := by
  decide +kernel

/-- `working` with a timer of channel 0 due, in the state given. -/
def settling : State := { withChannels (fun c => { c with holding := true, settle := some ⟨1, true⟩ }) id working with held := 2 }
def openingLate : State := withChannels (fun c => { c with state := .opening, damper := some ⟨1, true⟩ }) id working
def coastingLate : State := withChannels (fun c => { c with state := .stopping, coast := some ⟨1, true⟩ }) id working

theorem test_settleExpiry : (after (.settleExpiry 0) settling).held = 0 := by decide +kernel
theorem test_damperTimerExpiry : (after (.damperTimerExpiry 0) openingLate).channels.map Channel.faultCause = [some .damper, none] := by
  decide +kernel
theorem test_coastTimerExpiry : (after (.coastTimerExpiry 0) coastingLate).channels.map Channel.state = [.off, .running] := by
  decide +kernel

/-- `working` with the zone's hold, boost or grace due. -/
def holding : State := withZones (fun z => { z with state := .runOn, hold := some ⟨1, true⟩, claim := 50 }) working
def boosting : State := withZones (fun z => { z with boost := some ⟨40, ⟨1, true⟩⟩, claim := 40 }) working
def graceLate : State := withZones (fun z => { z with grace := ⟨1, true⟩ }) working

theorem test_holdExpiry : (after (.holdExpiry 0) holding).zones.map Zone.state = [.quiet] := by decide +kernel
theorem test_boostExpiry : (after (.boostExpiry 0) boosting).zones.map Zone.claim = [0] := by decide +kernel
theorem test_graceExpiry : (after (.graceExpiry 0) graceLate).zones.map Zone.grace = [⟨0, false⟩] := by decide +kernel

/-- A slot READY with its collection timer due. -/
def uncollected : State := { working with slot := .ready ⟨.itemRead, 8, 3, none⟩ [⟨8, none⟩] [⟨8, .ok, some 1⟩] ⟨1, true⟩ }

theorem test_collectionExpiry : (after .collectionExpiry uncollected).slot = .idle := by decide +kernel

/-- RUN with channel 0 QUEUED behind channel 1's holding. -/
def queued : State := { withChannels (inState .queued 30 ⟨0, .opn, .hold⟩)
    (fun c => { c with state := .starting, holding := true, settle := some ⟨4, false⟩, command := some ⟨50, .opn, .hold⟩ }) working with
  queue := [⟨0, .normal, 2, 60, some 60, false⟩], held := 1 }

theorem test_queueStall : (after .queueStall queued).queue.map QueueEntry.stalled = [true] := by decide +kernel
theorem test_fireLineLevelChange : (after (.fireLineLevelChange 3 .high) State.reset).lines.map FireLine.pin =
    [.low, .low, .low, .high, .low, .low, .low, .low] := by decide +kernel

/-- `working` with line 0 at a new HIGH level, and its latch due after a commit. -/
def alarmed : State := { working with lines := working.lines.map fun l =>
  if l.line = 0 then ⟨0, .high, some .low, some .high, some 5, 0⟩ else l }
/-- The same a tenth of a second earlier. -/
def alarmedEarly : State := { alarmed with lines := alarmed.lines.map fun l => { l with heldFor := l.heldFor.map fun _ => 4 } }
def dueLatch : State := { working with
  lines := working.lines.map fun l => if l.line = 0 then ⟨0, .high, some .high, none, none, 0⟩ else l
  levelLatchDue := [0] }

theorem test_fireLineAccepted : (after (.fireLineAccepted 0) alarmed).latches = [⟨0, 0, .trigger .levelHigh⟩]
    ∧ (after (.fireLineAccepted 0) alarmed).zones.map (fun z => (z.state, z.claim)) = [(.fireExtract, 100)] := by decide +kernel
theorem test_early_acceptance : after (.fireLineAccepted 0) alarmedEarly = alarmedEarly := by decide +kernel
theorem test_commitLevelLatch : (after .commitLevelLatch dueLatch).latches = [⟨0, 0, .trigger .levelHigh⟩] := by decide +kernel

/-- BLANK with a latch set, a drive discovered, and its channel still to be made. -/
def remaking : State := { State.reset with
  latches := [⟨3, 5, .failsafe⟩], provisionalDue := true
  loop := { State.reset.loop with discovered := [⟨8, .drive, 0⟩] } }

theorem test_restartProvisionalMake : (after .restartProvisionalMake remaking).channels.map (fun c => (c.record.address, c.target)) =
    [(8, 100)] := by decide +kernel
theorem test_feedLevelChange : (after (.feedLevelChange .high) State.reset).feeder.pin = .high := by decide +kernel
/-- FEED high and never accepted, held for some tenths of a second. -/
def feeding (tenths : Nat) : State := { State.reset with feeder := ⟨.normal, .constrained, .high, none, some .high, tenths⟩ }

theorem test_feedAccepted : (after .feedAccepted (feeding 5)).feeder.line = .normal
    ∧ (after .feedAccepted (feeding 4)).feeder.line = .constrained := by decide +kernel
theorem test_clearFault_trip_bytes : (ReplyBody.channelTrip .trip 9).bytes = [0x00, 0x01, 0x09] := by decide +kernel
theorem test_result_bytes : resultBytes (some 3, ⟨8, .ok, some 0x1234⟩) = [0x08, 0x00, 0x01, 0x12, 0x34, 0x03]
    ∧ resultBytes (none, ⟨8, .rejected, none⟩) = [0x08, 0x01, 0x00, 0x00, 0x00] := by decide +kernel
theorem test_window_bytes : WindowView.bytes b2 opt2 none = [] ∧ WindowView.bytes b2 opt2 (some ⟨[], none⟩) = [0x00, 0xFF, 0xFF]
    ∧ WindowView.bytes b1 opt1 (some ⟨[7], some 7⟩) = [0x01, 0x07, 0x07] := by decide +kernel

/-! ## Witnesses: for every statement with hypotheses, states and operands that meet them, clause by clause -/

/-- The part without supply, and in reset. -/
def dark : State := { State.reset with power := .off }
def inReset : State := { State.reset with power := .inReset .pin, resetPin := .low }

theorem witness_StepRunsFrontCommand : { State.reset with pending := [.secondsTick, .pinReset] }.pending = .secondsTick :: [.pinReset] := rfl
theorem witness_EmptyQueueStepIsATenth : State.reset.pending = [] ∧ State.reset.power = .running ∧ dark.pending = [] ∧ dark.power ≠ .running
    ∧ Period.tenths .one ≤ 10 ∧ ¬ Period.tenths .one ≤ 9 := by decide
theorem witness_PowerOnBeginsCycleZero : State.reset.resetPin = .high ∧ inReset.resetPin = .low := by decide
theorem witness_PinResetAndSupplyLoss : State.reset.power = .running ∧ dark.power ≠ .running ∧ inReset.power = .inReset .pin
    ∧ (∀ cause, dark.power ≠ .inReset cause) ∧ Claims.reachesPins .secondsTick = false := by
  refine ⟨rfl, by decide, rfl, fun c => by cases c <;> decide, rfl⟩
theorem witness_StatusLinesFollowConditions : committed.attnPin = .low ∧ State.reset.attnPin = .high
    ∧ (withChannels (inState .fault 0 ⟨0, .opn, .hold⟩) id working).faultPin = .low ∧ remaking.fireOnPin = .high := by decide +kernel

/-- A full receive buffer with a reply in progress. -/
def buffered (waiting : Option Frame) (s : State) : State := { s with link := { s.link with
  waiting := waiting, reply := some ⟨1, 6, .ok, .none⟩ } }

/-- The receiver waiting for the length byte. -/
def awaiting : State := { State.reset with link := { State.reset.link with rx := .awaitLength } }

theorem witness_ReceiverTakesBytes : State.reset.link.rx = .hunting ∧ (0xC2 : Byte) ≠ 0xC3 ∧ awaiting.link.rx = .awaitLength
    ∧ (2 ≤ (2 : Byte).toNat ∧ (2 : Byte).toNat ≤ 250) ∧ (2 ≤ (250 : Byte).toNat ∧ (250 : Byte).toNat ≤ 250)
    ∧ (1 : Byte).toNat < 2 ∧ 250 < (251 : Byte).toNat ∧ (receiving 2 [0x01, 0x07]).link.rx = .inFrame 2 [0x01, 0x07]
    ∧ [(0x01 : Byte), 0x07].length + 1 < 2 + 2 := by decide
theorem witness_CompleteFrameIsCheckedAndHeld : (receiving 2 [0x01, 0x07, 0xE1]).link.rx = .inFrame 2 [0x01, 0x07, 0xE1]
    ∧ ([(0x01 : Byte), 0x07, 0xE1] ++ [0x2A]).length = 2 + 2
    ∧ ([(0x01 : Byte), 0x07, 0xE1] ++ [0x2A]).drop 2 = b2 (crc (BitVec.ofNat 8 2 :: ([(0x01 : Byte), 0x07, 0xE1] ++ [0x2A]).take 2)).toNat
    ∧ ([(0x01 : Byte), 0x07, 0xE1] ++ [0x2B]).drop 2 ≠ b2 (crc (BitVec.ofNat 8 2 :: ([(0x01 : Byte), 0x07, 0xE1] ++ [0x2B]).take 2)).toNat
    ∧ (buffered none (receiving 2 [0x01, 0x07, 0xE1])).link.reply ≠ none
    ∧ (buffered none (receiving 2 [0x01, 0x07, 0xE1])).link.waiting = none
    ∧ (buffered (some ⟨1, 7, []⟩) (receiving 2 [0x01, 0x07, 0xE1])).link.waiting ≠ none := by decide +kernel

/-- The hypotheses of TakenFrameDoesItsRequest for a frame with the content given. -/
def completes (content : List Byte) : Bool :=
  let all := content ++ b2 (crc (BitVec.ofNat 8 content.length :: content)).toNat
  let s := receiving content.length all.dropLast
  decide (s.link.rx = .inFrame content.length all.dropLast) && decide (all.length = content.length + 2)
  && decide (all.drop content.length = b2 (crc (BitVec.ofNat 8 content.length :: all.take content.length)).toNat)
  && decide (s.link.reply = none)

theorem witness_TakenFrameDoesItsRequest :
    [[0x80, 0x07], [0x7F, 0x07], [0x03, 0x07], [0x03, 0x07, 0x08], [0x1A, 0x07, 0x02], [0x01, 0x07]].all completes = true
    ∧ layout 0x7F = none ∧ layout 0x00 = none ∧ layout 0x03 = some 1 ∧ listsFit 0x13 [0, 0, 4, 0, 0, 3, 0, 0] = false
    ∧ requestOf 0x1A 7 [0x02] = none ∧ requestOf 0x03 7 [0x08] = some (.fetch 7 8) := by decide +kernel
theorem witness_GapsAndReplyEnds : State.reset.link.rx = .hunting ∧ (receiving 2 []).link.rx ≠ .hunting ∧ State.reset.link.reply = none
    ∧ (buffered none State.reset).link.reply ≠ none ∧ (buffered none State.reset).link.waiting = none
    ∧ (buffered (some ⟨0x80, 7, []⟩) State.reset).link.waiting = some ⟨0x80, 7, []⟩ ∧ layout 0x07 = none
    ∧ layout 0x03 = some [(0x08 : Byte)].length ∧ listsFit 0x03 [0x08] = true ∧ requestOf 0x03 7 [0x08] = some (.fetch 7 8) := by decide
/-- A reply in progress with a frame held behind it. -/
def heldBehind (f : Frame) : State := let s := after (.identify 7) State.reset
  { s with link := { s.link with waiting := some f } }
theorem witness_GapsAndReplyEnds_shapes : (heldBehind ⟨0x01, 7, [0]⟩).link.reply ≠ none ∧ layout 0x01 = some 0
    ∧ (reply (after .replySent (heldBehind ⟨0x01, 7, [0]⟩))).map Reply.body = some (.badField 0)
    ∧ layout 0x1A = some 1 ∧ listsFit 0x1A [2] = true ∧ requestOf 0x1A 7 [2] = none
    ∧ (reply (after .replySent (heldBehind ⟨0x1A, 7, [2]⟩))).map Reply.body = some (.badField 1) := by decide +kernel
theorem witness_FramesSpellAndCheck_loop : (Attempt.frame ⟨8, 3, none⟩).dropLast = [0x06, 0x08, 0x03]
    ∧ (Attempt.frame ⟨8, 9, some 0x1234⟩).dropLast = [0x07, 0x08, 0x09, 0x12, 0x34]
    ∧ (CommandExchange.frame ⟨none, 9, ⟨50, .close, .stop⟩⟩).dropLast = [0x05, 0x09, 50, 1, 2]
    ∧ [Expect.only .head, .only .drive, .any].map (fun e => (Poll.frame ⟨63, e⟩).dropLast) = [[0x02, 63], [0x03, 63], [0x04, 63]] := by
  decide +kernel
theorem witness_FramesSpellAndCheck : (255 < 256 ∧ 65535 < 65536) ∧ requestOf 0x32 7 (BitVec.ofNat 8 255 :: b2 65535) = some (.setHold 7 255 65535)
    ∧ requestOf 0x13 7 [5, 0, 6, 0xEE, 3, 2, 0, 1] = some (.loadHead 7 ⟨5, none, some 3, some [0, 1]⟩)
    ∧ (State.reset.link.reply = none ∧ (after (.identify 7) State.reset).link.reply ≠ none) := by decide +kernel
theorem witness_FramesSpellAndCheck_fields : (∀ v, some 255 = some v → v < 256) ∧ (∀ v, (none : Option Nat) = some v → v < 65536)
    ∧ (∀ l, some [0, 255] = some l → l.length ≤ 2 ∧ ∀ v ∈ l, v < 256) ∧ 64 ≤ (List.replicate 64 (0xEE : Byte)).length := by
  refine ⟨fun v h => by cases h; decide, (fun v h => nomatch h), fun l h => by cases h; decide, by decide⟩
theorem witness_IdentifyReportsThePart : State.reset.power = .running := rfl
theorem witness_LinkStatusReportsAndClears : State.reset.power = .running ∧ working.power = .running := by decide +kernel
theorem witness_FetchTakesTheOldest : State.reset.power = .running ∧ (1 ≤ 1 ∧ 1 ≤ 8) ∧ (1 ≤ 8 ∧ 8 ≤ 8) ∧ 0 < 1 ∧ 8 < 9 := by decide

/-- Notices that fill a ring. -/
def routine : Notice := ⟨.mode .run .loading, 0⟩
def alarm : Notice := ⟨.fireLatch 0 .failsafe 1, 0⟩
theorem witness_RingTakesANotice : (List.replicate 63 routine).length < 64 ∧ 64 ≤ (List.replicate 64 routine).length
    ∧ routine.body.isFire = false ∧ alarm.body.isFire = true ∧ 64 ≤ (alarm :: routine :: List.replicate 62 alarm).length
    ∧ (∀ k ∈ [alarm], k.body.isFire = true) ∧ 64 ≤ (List.replicate 64 alarm).length
    ∧ (∀ k ∈ List.replicate 64 alarm, k.body.isFire = true) := by decide +kernel

/-- A part that holds a snapshot with 20 pages read. -/
def snapped : State := { working with snapshot := some ⟨working.image, 0, List.range 20⟩ }
theorem witness_SnapshotIsTakenReadAndReleased : snapped.power = .running ∧ 20 < 21 ∧ (20 ≤ 20 ∧ working.snapshot = none)
    ∧ (snapped.snapshot.map Snapshot.read) = some (List.range 20) ∧ State.reset.mode = .blank ∧ staged.mode = .loading
    ∧ working.mode = .run ∧ inManual.mode = .manual ∧ (3 < 4 ∧ 7 < 8) := by decide +kernel
theorem witness_StagingBeginsAndIsAbandoned : State.reset.mode = .blank ∧ staged.mode = .loading ∧ staged.mode ≠ .blank
    ∧ State.reset.mode ≠ .loading ∧ staged.power = .running := by decide
theorem witness_LoopFeederAndLineRecordsAreStaged : staged.power = .running ∧ staged.mode = .loading ∧ staged.staging.isSome = true
    ∧ (∀ p, (LoadLoop.mk (some 2) (some 15)).period = some p → p ≤ 2) ∧ ¬ (3 ≤ 2) ∧ ¬ (2 ≤ 1) ∧ ¬ (16 ≤ 15)
    ∧ (∀ b, (LoadFeeder.mk (some 32) (some 32)).budget = some b → 1 ≤ b ∧ b ≤ 32)
    ∧ ((LoadLine.mk 7 (some 5) (some 25) none none (some 100)).line ≤ 7
      ∧ ∃ t, (LoadLine.mk 7 (some 5) (some 25) none none (some 100)).trigger = some t ∧ t ≤ 5) ∧ working.mode ≠ .loading := by
  refine ⟨rfl, rfl, rfl, ?_, by decide, by decide, by decide, ?_, ⟨by decide, 5, rfl, by decide⟩, by decide⟩
  · intro p h; cases h; decide
  · intro b h; cases h; decide
/-- Good records with every field at the end of its range, and records with one field beyond it. -/
def goodHead : LoadHead := ⟨39, some 63, some 3, some [14, 15]⟩
def goodFan : LoadFan := ⟨23, some 63, some 255, some 16, some 30, some 120, some 120, some 100, some 100⟩
def goodZone : LoadZone := { bareZone with
  zone := 15, heads := some [0, 1, 2, 3, 4, 5, 6, 39], fans := some [0, 1, 2, 23], co := ⟨some 1000, none, none, some 1000⟩
  no2 := ⟨some 250, none, none, some 250⟩, idle := some 100, hold := some 3600 }

theorem witness_HeadFanAndZoneRecordsAreStaged : staged.mode = .loading ∧ staged.staging.isSome = true ∧ working.mode ≠ .loading
    ∧ (goodHead.head ≤ 39 ∧ (∃ a, goodHead.address = some a ∧ 1 ≤ a ∧ a ≤ 63)
      ∧ (∃ g, goodHead.gases = some g ∧ 1 ≤ g.toNat ∧ g.toNat ≤ 3)
      ∧ ∃ l, goodHead.zones = some l ∧ 1 ≤ l.length ∧ l.length ≤ 2 ∧ (∀ z ∈ l, z ≤ 15) ∧ l.Nodup)
    ∧ (goodFan.channel ≤ 23 ∧ ∃ a, goodFan.address = some a ∧ 1 ≤ a ∧ a ≤ 63)
    ∧ (∃ l, goodZone.heads = some l ∧ 1 ≤ l.length ∧ l.length ≤ 8 ∧ (∀ h ∈ l, h ≤ 39) ∧ l.Nodup)
    ∧ (∃ l, goodZone.fans = some l ∧ 1 ≤ l.length ∧ l.length ≤ 4 ∧ (∀ c ∈ l, c ≤ 23) ∧ l.Nodup)
    ∧ [Instr.loadHead 1 goodHead, .loadFan 1 goodFan, .loadZone 1 goodZone].map
        (fun c => (reply (after c staged)).map Reply.status) = [some .ok, some .ok, some .ok]
    ∧ [Instr.loadHead 1 { goodHead with head := 40 }, .loadFan 1 { goodFan with channel := 24 },
        .loadZone 1 { goodZone with hold := some 3601 }].map
        (fun c => (reply (after c staged)).map Reply.status) = [some .badField, some .badField, some .badField] :=
  ⟨rfl, rfl, by decide +kernel, ⟨by decide, ⟨63, rfl, by decide, by decide⟩, ⟨3, rfl, by decide, by decide⟩,
      ⟨_, rfl, by decide, by decide, by decide, by decide⟩⟩,
    ⟨by decide, 63, rfl, by decide, by decide⟩, ⟨_, rfl, by decide, by decide, by decide, by decide⟩,
    ⟨_, rfl, by decide, by decide, by decide, by decide⟩, by decide +kernel, by decide +kernel⟩

/-- LOADING with a schedule that holds its 40 HEAD entries. -/
def fullHeads : State := { staged with staging := staged.staging.map fun st =>
  { st with slots := (List.range' 1 40).map fun a => ⟨a, some 0, none, none⟩ } }
theorem witness_ScheduleEntriesAreStagedWithinCapacity : fullHeads.mode = .loading ∧ fullHeads.staging.isSome = true
    ∧ (reply (after (.loadSlot 1 ⟨40, some 0, some 8, some 7⟩) fullHeads)).map Reply.status = some .ok
    ∧ (reply (after (.loadSlot 1 ⟨41, some 0, none, none⟩) fullHeads)).map Reply.status = some .full
    ∧ (reply (after (.loadSlot 1 ⟨41, some 0, some 8, some 8⟩) fullHeads)).map Reply.status = some .badField
    ∧ working.mode ≠ .loading := by decide +kernel

/-- `staged` with a latch set, and `staged` without its zone. -/
def stagedInFire : State := { staged with latches := [⟨3, 5, .failsafe⟩] }
def stagedEmpty : State := { staged with staging := some ⟨none, none, [], [], [], [], []⟩ }
theorem witness_CommitRefusalsChangeNothing : working.mode ≠ .loading ∧ stagedInFire.mode = .loading ∧ stagedInFire.latches ≠ []
    ∧ stagedEmpty.latches = [] ∧ stagedEmpty.staging = some ⟨none, none, [], [], [], [], []⟩
    ∧ (Staging.inForce ⟨none, none, [], [], [], [], []⟩).violations none = [⟨.config, none, .noZone, none⟩] := by decide +kernel
/-- A configuration without violations, whatever the free detail: that of `staged`. -/
theorem witness_CleanValidationMeansAWholeConfiguration : ∀ st, staged.staging = some st → ∀ free, st.inForce.violations free = [] := by
  intro st h free
  cases h
  cases free <;> rfl
theorem witness_CommitEntersRun : staged.power = .running ∧ staged.mode = .loading ∧ staged.latches = []
    ∧ ∃ st, staged.staging = some st ∧ st.inForce.violations (Config.freeDetail staged.draws) = [] :=
  ⟨rfl, rfl, rfl, _, rfl, witness_CleanValidationMeansAWholeConfiguration _ rfl _⟩
theorem witness_RestartKeepStartsOver : working.power = .running ∧ working.active.isSome = working.mode.scheduled
    ∧ staged.mode = .loading ∧ staged.active.isSome = staged.mode.scheduled ∧ State.reset.active.isSome = State.reset.mode.scheduled
    ∧ (State.reset.mode.scheduled = false ∧ State.reset.loop.pointer < 3)
    ∧ (working.active.map fun a => a.schedule.any fun e => 0 % e.divider == e.phase) = some true := by decide +kernel
/-- `working` with an exchange that a RESTART left on the wire. -/
def draining (l : Leftover) : State := { working with loop := { working.loop with draining := some l } }
theorem witness_RestartKeepStartsOver_drained : ∀ l, (draining l).power = .running ∧ (draining l).loop.draining = some l :=
  fun _ => ⟨rfl, rfl⟩
theorem witness_HeadsAndZonesAreRead : working.power = .running ∧ 39 < 40 ∧ 15 < 16 ∧ working.mode = .run ∧ State.reset.mode = .blank
    ∧ (∀ h ∈ working.heads, h.record.head ≠ 39) ∧ (∃ h, working.heads = [] ++ h :: [] ∧ h.record.head = 0)
    ∧ (∀ z ∈ working.zones, z.record.zone ≠ 15) ∧ ∃ z, working.zones = [] ++ z :: [] ∧ z.record.zone = 0 :=
  ⟨rfl, by decide, by decide, rfl, rfl, by decide +kernel, ⟨_, rfl, rfl⟩, by decide +kernel, ⟨_, rfl, rfl⟩⟩
theorem witness_ChannelsQueueAndDiscoveryAreRead : working.power = .running ∧ 23 < 24 ∧ 7 < 8 ∧ working.mode = .run
    ∧ (∀ c ∈ working.channels, c.record.channel ≠ 23)
    ∧ ∃ c d, working.channels = [c] ++ d :: [] ∧ c.record.channel ≠ 1 ∧ d.record.channel = 1 :=
  ⟨rfl, by decide, by decide, rfl, by decide +kernel, _, _, rfl, by decide, rfl⟩
theorem witness_BoostRaisesNamedZones : working.power = .running ∧ working.mode = .run ∧ ((1 : ZoneSet) ≠ 0 ∧ (60 ≤ 60 ∧ 7200 ≤ 7200))
    ∧ ¬ ((0 : ZoneSet) ≠ 0) ∧ ¬ (101 ≤ 100) ∧ (2 : ZoneSet).getLsbD 1 = true ∧ (∀ z ∈ working.zones, z.record.zone ≠ 1)
    ∧ (∀ n < 16, (1 : ZoneSet).getLsbD n = true → ∃ z ∈ working.zones, z.record.zone = n) := by decide +kernel
theorem witness_LimitsAndHoldsAreTuned : working.power = .running ∧ working.mode = .run ∧ State.reset.mode = .blank
    ∧ (0 < 1 ∧ 1 ≤ 1 ∧ 1 < 1000 ∧ 1000 ≤ 1000) ∧ ¬ (16 ≤ 15) ∧ ¬ (3601 ≤ 3600) ∧ (∃ z ∈ working.zones, z.record.zone = 0)
    ∧ (∀ z ∈ working.zones, z.record.zone ≠ 15) := by decide +kernel

/-- A FAULT channel whose last report carries a trip. -/
def tripped : State := withChannels (fun c => { inState .fault 0 ⟨0, .opn, .hold⟩ c with report := some ⟨.stopped, 0, .opn, some 9⟩ }) id working
/-- Zone 0 boosted to 40 %, with channel 0 in FAULT: its damper as last reported, and whether it holds units. -/
def askedInFault (damper : DamperReport) (holding : Bool) : State := withChannels
  (fun c => { inState .fault 0 ⟨0, .opn, .hold⟩ c with report := some ⟨.stopped, 0, damper, none⟩, holding := holding }) id
  (after (.boost 7 1 40 600) working)
theorem witness_ManualModeAndChannelRequests : working.power = .running ∧ working.mode = .run ∧ inManual.mode ≠ .run
    ∧ inManual.mode = .manual ∧ working.mode ≠ .manual ∧ inManual.power = .running
    ∧ (23 ≤ 23 ∧ 100 ≤ 100 ∧ 100 < 101 ∧ 23 < 24) ∧ (∃ c ∈ inManual.channels, c.record.channel = 1)
    ∧ (∀ c ∈ inManual.channels, c.record.channel ≠ 23) ∧ (∀ h ∈ inManual.boundClaims 1, h.cls = .normal)
    ∧ ∃ c d, tripped.channels = [] ++ c :: [d] ∧ d.record.channel ≠ 0 ∧ c.record.channel = 0 ∧ c.state = .fault
      ∧ c.report.bind Report.trip = some 9 ∧ d.state ≠ .fault ∧ (tripped.demand c).want = 0 :=
  ⟨rfl, rfl, by decide, by decide, by decide, rfl, by decide, by decide +kernel, by decide +kernel, by decide +kernel, _, _, rfl,
    by decide, rfl, rfl, rfl, by decide, by decide +kernel⟩
theorem witness_ManualModeAndChannelRequests_cleared (damper : DamperReport) (holding : Bool) :
    ∃ c d, (askedInFault damper holding).channels = [] ++ c :: [d] ∧ d.record.channel ≠ 0 ∧ c.record.channel = 0 ∧ c.state = .fault
      ∧ c.report.bind Report.trip = none ∧ c.report.map Report.damper = some damper ∧ c.holding = holding
      ∧ ((askedInFault damper holding).demand c).want = 40 :=
  ⟨_, _, rfl, by cases damper <;> cases holding <;> decide +kernel, rfl, rfl, rfl, rfl, rfl,
    by cases damper <;> cases holding <;> decide +kernel⟩
theorem witness_ManualModeAndChannelRequests_units : committed.unitsOk ∧ inManual.unitsOk :=
  ⟨⟨by decide +kernel, by unfold sorted; decide +kernel, by decide +kernel, by decide +kernel, by decide +kernel,
      by unfold Channel.holdingOk; decide +kernel, fun _ h => nomatch h⟩,
    ⟨by decide +kernel, by unfold sorted; decide +kernel, by decide +kernel, by decide +kernel, by decide +kernel,
      by unfold Channel.holdingOk; decide +kernel, fun _ h => nomatch h⟩⟩
theorem committed_claimsOk : committed.claimsOk :=
  ⟨by decide +kernel, by unfold State.resolved; decide +kernel, by unfold sorted; decide +kernel, fun _ h => nomatch h⟩

/-- FEED accepted high, with a new level pending. -/
def fed : State := { State.reset with feeder := ⟨.normal, .normal, .low, some .high, some .low, 5⟩ }
theorem witness_FeederSourcesAreSet : State.reset.power = .running ∧ 1 < 2
    ∧ ({ State.reset.feeder with host := .constrained } : Feeder).effective = State.reset.feeder.effective
    ∧ ({ fed.feeder with host := .constrained } : Feeder).effective ≠ fed.feeder.effective
    ∧ State.reset.feeder.pin = .low ∧ (State.reset.feeder.accepted = none ∧ State.reset.feeder.pin = .low)
    ∧ (fed.feeder.accepted ≠ none ∧ fed.feeder.pendingLevel = some .low ∧ 5 ≤ fed.feeder.heldFor)
    ∧ ((feeding 5).feeder.accepted = none ∧ (feeding 5).feeder.pin = .high ∧ 5 ≤ (feeding 5).feeder.heldFor)
    ∧ (feeding 4).feeder.heldFor < 5 := by decide
theorem witness_FeederSourcesAreSet_dark : dark.power ≠ .running ∧ inReset.power ≠ .running
    ∧ (after (.feedLevelChange .high) dark).feeder = { dark.feeder with pin := .high } := by decide +kernel
theorem witness_FireLineLevelsAreDebounced : State.reset.power = .running ∧ dark.power ≠ .running := by decide
theorem witness_AcceptedLevelsSetLatches : alarmed.power = .running ∧ alarmed.mode = .run
    ∧ (∃ l rest, alarmed.lines = [] ++ l :: rest ∧ l.line = 0 ∧ (∀ k ∈ [] ++ rest, k.line ≠ 0) ∧ l.accepted ≠ none
      ∧ l.pendingLevel = some .high ∧ l.heldFor = some 5)
    ∧ ((alarmed.lineRecord 0).map LineRecord.debounce).getD 5 = 5 ∧ alarmedEarly.lines.head?.bind FireLine.heldFor = some 4
    ∧ (alarmed.lineRecord 0).map LineRecord.trigger = some .levelHigh ∧ 0 ∉ alarmed.latches.map Latch.line
    ∧ (∃ l rest, State.reset.lines = [] ++ l :: rest ∧ l.line = 0 ∧ (∀ k ∈ [] ++ rest, k.line ≠ 0) ∧ l.accepted = none ∧ l.pin = .low
      ∧ l.initialHeld = 0) :=
  ⟨rfl, rfl, ⟨_, _, rfl, rfl, by decide +kernel, by decide, rfl, rfl⟩, by decide +kernel, by decide +kernel, by decide +kernel,
    by decide +kernel, ⟨_, _, rfl, rfl, by decide +kernel, rfl, rfl, rfl⟩⟩

/-- RUN with line 0 latched, its level no longer met, and zone 0 in its fire state. -/
def burning : State := let s := after (.fireLineAccepted 0) alarmed
  { s with lines := s.lines.map fun l => { l with accepted := some .low } }
theorem witness_FireResetClearsLatches : burning.power = .running ∧ burning.mode = .run ∧ burning.latches.map Latch.line = [0]
    ∧ burning.levelMet 0 = false ∧ burning.zones.map Zone.governing = [some 0]
    ∧ burning.zones.map (fun z => (z.state, z.claim, z.claimClass, z.conflict)) = [(.fireExtract, 100, .extract, [])]
    ∧ governor burning.lineRecords burning.latchedLines 0 = some (0, .extract 100) := by decide +kernel
theorem witness_FireResetClearsLatches_failsafe : remaking.power = .running ∧ remaking.mode = .blank
    ∧ remaking.latches.map Latch.line = [3] ∧ remaking.levelMet 3 = false
    ∧ (after (.fireReset 7 0xFF) (after .restartProvisionalMake remaking)).channels.map (fun c => (c.cls, c.target)) = [(.normal, 0)] := by
  decide +kernel
theorem witness_RestartKeepStartsOver_claims :
    let t := after (.restartKeep 7) { working with loop := { working.loop with orphan := true, valid := true } }
    (t.loop.polled, t.loop.valid, t.loop.orphan) = (true, false, false) ∧ t.handed = [⟨0, 0, .normal⟩]
    ∧ (after (.restartKeep 7) burning).handed = [⟨0, 100, .extract⟩] := by decide +kernel
theorem witness_FireResetClearsLatches_laws : burning.firesOk :=
  ⟨fun h => absurd h (by decide +kernel), by
    have : burning.zones.all (fun z => decide (governor burning.lineRecords burning.latchedLines z.number = some (0, .extract 100)
        ∧ z.state = .fireExtract ∧ z.governing = some 0 ∧ z.claim = 100 ∧ z.claimClass = .extract
        ∧ z.conflict = conflictSet burning.lineRecords burning.latchedLines 0 z.number)) = true := by decide +kernel
    intro z hz
    have h := of_decide_eq_true (List.all_eq_true.mp this z hz)
    unfold Zone.fireOk
    rw [h.1]
    exact h.2⟩
/-- A part without channels, queue, units and staging tables keeps the law of the units: the premise of the failsafe's clauses. -/
theorem unitsOk_of_none {s : State} (hc : s.channels = []) (hq : s.queue = []) (hh : s.held = 0) (hs : s.staging = none) : s.unitsOk := by
  simp [State.unitsOk, hc, hq, hh, hs, holdersCost, sorted]
theorem witness_EventsFollowACommitAndARestart_units : remaking.unitsOk := unitsOk_of_none rfl rfl rfl rfl
/-- BLANK with line 0 high and never accepted: its first acceptance latches it under the failsafe. -/
def alarmedBlank : State := { State.reset with
  lines := State.reset.lines.map fun l => if l.line = 0 then { l with pin := .high, initialHeld := 5 } else l
  loop := { State.reset.loop with discovered := [⟨8, .drive, 0⟩] } }
theorem witness_AcceptedLevelsSetLatches_failsafe : alarmedBlank.unitsOk ∧ alarmedBlank.mode = .blank
    ∧ (∃ d ∈ alarmedBlank.loop.discovered, d.kind = .drive)
    ∧ ∃ l rest, alarmedBlank.lines = [] ++ l :: rest ∧ l.line = 0 ∧ (∀ k ∈ [] ++ rest, k.line ≠ 0) ∧ l.accepted = none ∧ l.pin = .high
      ∧ l.initialHeld = 5 :=
  ⟨unitsOk_of_none rfl rfl rfl rfl, rfl, by decide, _, _, rfl, rfl, by decide +kernel, rfl, rfl, rfl⟩
theorem witness_EventsFollowACommitAndARestart : working.levelLatchDue = [] ∧ dueLatch.levelLatchDue = [0]
    ∧ dueLatch.latched 0 = false ∧ dueLatch.levelMet 0 = true ∧ ({ working with levelLatchDue := [0] } : State).levelMet 0 = false
    ∧ working.provisionalDue = false ∧ remaking.provisionalDue = true ∧ remaking.failsafe = true ∧ remaking.latches ≠ [] := by
  decide +kernel
theorem witness_ServiceRequestsAreTestedInOrder : working.power = .running ∧ ¬ (1 ≤ 0) ∧ ¬ (64 ≤ 63) ∧ (63 ≤ 63 ∧ 7 ≤ 7) ∧ (8 ≤ 8)
    ∧ working.slot = .idle ∧ (∃ c ∈ working.channels, c.provisional = false ∧ c.record.address = 8)
    ∧ (∃ k ms r x, uncollected.slot = .ready k ms r x ∧ x.due = true ∧ k.op = .itemRead)
    ∧ (∃ k ms a f r, serving.slot = .working k ms a f r ∧ k.op = .itemRead)
    ∧ (working.channels.filter fun k => k.provisional = false ∧ k.record.groups.getLsbD 0 = true) ≠ [] :=
  ⟨rfl, by decide, by decide, by decide, by decide, rfl, by decide +kernel, ⟨_, _, _, _, rfl, rfl, rfl⟩, ⟨_, _, _, _, _, rfl, rfl⟩,
    by decide +kernel⟩
theorem witness_ServiceExchangeEndsTheCycle : serving.power = .running ∧ serving.loop.draining ≠ some .service
    ∧ serving.loop.phase = .service ⟨8, 3, none⟩
    ∧ receive 8 [0x24, 0x08, 0x12, 0x34, 0x8E] = .complete .value [0x12, 0x34]
    ∧ receive 8 [0x25, 0x08, 0xD3] = .complete .rejected [] ∧ receive 8 [] = .silent
    ∧ serving.slot = .working ⟨.itemRead, 8, 3, none⟩ [⟨8, none⟩] 0 true []
    ∧ (∀ k ms n r, ({ serving with slot := .idle } : State).slot ≠ .working k ms n true r)
    ∧ (serving.mode = .run ∧ serving.loop.orphan = false) ∧ ({ serving with mode := .blank } : State).mode = .blank :=
  ⟨rfl, by decide +kernel, rfl, by decide +kernel, by decide +kernel, by decide +kernel, rfl, (fun _ _ _ _ h => nomatch h),
    by decide +kernel, rfl⟩

/-- `working` whose schedule has no entry due in its cycle 40. -/
def spare : State := { working with active := working.active.map fun a => { a with schedule := [⟨5, .head, 8, 7⟩] } }
theorem witness_CyclesBeginWithMarkAndPolls : polling.loop.phase ≠ .idle ∧ working.loop.phase = .idle ∧ working.mode = .run
    ∧ (working.active.map fun a => (a.schedule.filter fun e => working.loop.cycle.toNat % e.divider == e.phase).length) = some 3
    ∧ (spare.active.map fun a => (a.schedule.filter fun e => spare.loop.cycle.toNat % e.divider == e.phase).length) = some 0
    ∧ State.reset.loop.pointer < 3 ∧ ({ State.reset.loop with pointer := 3 } : Loop).pointer = 3
    ∧ spare.loop.phase = .idle ∧ spare.mode = .run ∧ (working.allotted ≠ [] ∧ committed.allotted = [])
    ∧ threeDrives.sides.find? (fun x => x.address == 11) = none
    ∧ (threeDrives.sides.find? fun x => x.address == 8) = some ⟨8, ⟨50, .opn, .stop⟩, 4, false⟩ := by decide +kernel
theorem witness_HeadPollsMoveTheirHead : polling.power = .running ∧ polling.loop.draining ≠ some .poll
    ∧ polling.loop.phase = .polls ⟨5, .only .head⟩ (⟨8, .only .drive⟩ :: [])
    ∧ (∃ h, polling.heads = [] ++ h :: [] ∧ h.record.address = 5)
    ∧ byteSum [0x21, BitVec.ofNat 8 5, 0x03, 0x00, 0x20, 0x07, 0x00, 0xB0] = 0
    ∧ classifyPoll (.only .head) (receive 5 []) = .silent
    ∧ classifyPoll (.only .head) (receive 5 [0x22, 0x05, 0, 0, 0, 0, 0xD9]) = .wrongKind :=
  ⟨rfl, by decide, rfl, ⟨_, rfl, rfl⟩, by decide +kernel, by decide +kernel, by decide +kernel⟩
theorem witness_RepliesAreClassified : (0x20 : Byte).toNat < 0x21 ∧ 0x25 < (0x26 : Byte).toNat ∧ replyKind 0x21 = some .head
    ∧ [(0x21 : Byte), 5, 3, 0, 0x20, 7, 0].length < ReplyKind.head.length
    ∧ byteSum [0x21, 0x05, 0x03, 0x00, 0x20, 0x07, 0x00, 0xB1] ≠ 0
    ∧ byteSum [0x22, 0x09, 0x00, 0x00, 0x02, 0x00, 0xD3] = 0 ∧ (0x09 : Byte).toNat = 9
    ∧ byteSum [0x24, 0x08, 0x12, 0x34, 0x8E] = 0 ∧ byteSum [0x25, 0x08, 0xD3] = 0
    ∧ classifyPoll (.only .drive) (receive 9 ([0x22, 0x09, 0x00, 0x00, 0x02, 0x00, 0xD3] ++ [0x55])) = .valid
    ∧ classifyPoll (.only .drive) (receive 9 [0x22]) = .short := by decide +kernel
theorem witness_DrivePollsMoveTheirChannel : pollingDrive.power = .running ∧ pollingDrive.loop.draining ≠ some .poll
    ∧ pollingDrive.loop.phase = .polls ⟨9, .only .drive⟩ (⟨5, .only .head⟩ :: [])
    ∧ (∃ c d, pollingDrive.channels = [c] ++ d :: [] ∧ d.record.address = 9 ∧ c.record.address ≠ 9
      ∧ c.record.channel ≠ d.record.channel ∧ d.state ≠ .lost ∧ d.misses = 0)
    ∧ byteSum [0x22, BitVec.ofNat 8 9, 0x00, 0x00, 0x02, 0x00, 0xD3] = 0
    ∧ classifyPoll (.only .drive) (receive 9 []) = .silent
    ∧ classifyPoll (.only .drive) (receive 9 [0x21, 0x09, 0, 0, 0, 0, 0, 0xD6]) = .wrongKind
    ∧ Claims.missLimitOf pollingDrive = 4 ∧ Claims.missLimitOf { pollingDrive with active := none } = 4 ∧ 4 ≤ min (3 + 1) 255 :=
  ⟨rfl, by decide, rfl, ⟨_, _, rfl, rfl, by decide, by decide, by decide, rfl⟩, by decide +kernel, by decide +kernel,
    by decide +kernel, rfl, rfl, by decide⟩
/-- `pollingDrive`, one miss short of the limit. -/
def missingPoll : State := withChannels id (fun c => { c with misses := 3 }) pollingDrive
theorem witness_DrivePollsMoveTheirChannel_limit : missingPoll.power = .running ∧ missingPoll.loop.draining ≠ some .poll
    ∧ missingPoll.loop.phase = .polls ⟨9, .only .drive⟩ (⟨5, .only .head⟩ :: [])
    ∧ (∃ c d, missingPoll.channels = [c] ++ d :: [] ∧ d.record.address = 9 ∧ c.record.address ≠ 9
      ∧ c.record.channel ≠ d.record.channel ∧ d.state ≠ .lost ∧ Claims.missLimitOf missingPoll ≤ min (d.misses + 1) 255)
    ∧ (after (.pollSlotEnd []) missingPoll).channels.map Channel.state = [.off, .lost]
    ∧ (after (.pollSlotEnd []) missingPoll).ring.notices.getLast? = some ⟨.fanState 1 .lost .running, 0⟩ :=
  ⟨rfl, by decide, rfl, ⟨_, _, rfl, rfl, by decide, by decide, by decide, by decide +kernel⟩, by decide +kernel, by decide +kernel⟩
/-- States of a channel for each clause of what a report does. -/
theorem witness_ReportsMoveChannelsByTheirState : ∀ st : FanState, ∃ c : Channel, c.state = st ∧ c.recover = 1 ∧ c.target = 0 :=
  fun st => ⟨{ Channel.initial (.provisional 0 8) true with state := st, recover := 1 }, rfl, rfl, rfl⟩
/-- BLANK with the query of address 8 on the wire, where a drive was found two sweeps ago. -/
def querying : State := inPhase (.polls ⟨8, .any⟩ [⟨9, .any⟩])
  { remaking with loop := { remaking.loop with sweep := 2 } }
theorem witness_KindQueriesKeepTheDiscoveredList_units : querying.unitsOk := unitsOk_of_none rfl rfl rfl rfl
theorem witness_KindQueriesKeepTheDiscoveredList : querying.power = .running ∧ querying.mode = .blank
    ∧ querying.loop.draining ≠ some .poll ∧ querying.loop.phase = .polls ⟨8, .any⟩ (⟨9, .any⟩ :: [])
    ∧ receive 8 [0x22, 0x08, 0, 0, 0, 0, 0xD6] = .complete .drive [0, 0, 0, 0]
    ∧ receive 8 [0x21, 0x08, 0, 0, 0, 0, 0, 0xD7] = .complete .head [0, 0, 0, 0, 0]
    ∧ classifyPoll .any (receive 8 []) = .silent
    ∧ (querying.loop.discovered.find? fun d => d.address == 8) = some ⟨8, .drive, 0⟩ ∧ 2 ≤ (querying.loop.sweep - 0).toNat := by
  decide +kernel
/-- The same with the drive's provisional channel made and no sweep since. -/
def provided : State := let s := after .restartProvisionalMake querying
  { s with loop := { s.loop with sweep := 1 } }
theorem witness_KindQueriesKeepTheDiscoveredList_provisional :
    (provided.power = .running ∧ provided.mode = .blank ∧ provided.loop.phase = .polls ⟨8, .any⟩ [⟨9, .any⟩])
    ∧ (provided.loop.discovered.find? fun d => d.address == 8) = some ⟨8, .drive, 0⟩ ∧ (provided.loop.sweep - 0).toNat < 2
    ∧ byteSum [0x22, BitVec.ofNat 8 8, 0, 0, 0, 0, 0xD6] = 0
    ∧ ∃ c, provided.channels = [] ++ c :: [] ∧ c.record.address = 8 ∧ c.provisional = true ∧ c.misses = 0 ∧ c.state ≠ .lost
      ∧ (takeReport ⟨.stopped, 0, .closed, none⟩ c).ch.state = .opening :=
  ⟨by decide +kernel, by decide +kernel, by decide +kernel, by decide +kernel, _, rfl, rfl, rfl, rfl, by decide, by decide +kernel⟩
/-- A latch set, no channel at the address: a head where a drive was listed, a listed drive again, and a drive gone for two sweeps. -/
theorem witness_KindQueriesKeepTheDiscoveredList_bare : querying.channels = [] ∧ querying.latches ≠ []
    ∧ [[0x21, 0x08, 0, 0, 0, 0, 0, 0xD7], [0x22, 0x08, 0, 0, 0, 0, 0xD6], []].map (fun reply =>
        let t := after (.pollSlotEnd reply) querying
        (t.loop.discovered, t.channels.length)) = [([⟨8, .head, 2⟩], 0), ([⟨8, .drive, 2⟩], 0), ([], 0)] := by decide +kernel
theorem witness_KindQueriesKeepTheDiscoveredList_head :
    let s : State := { provided with loop := { provided.loop with discovered := [⟨8, .head, 0⟩] } }
    (s.loop.discovered.find? fun d => d.address == 8).map Discovered.kind ≠ some .drive
      ∧ (after (.pollSlotEnd [0x21, 0x08, 0, 0, 0, 0, 0, 0xD7]) s).channels.map (fun c => (c.misses, c.mismatch)) = [(1, true)] := by
  decide +kernel
/-- A drive that joins while a latch is set, without and with a channel already made; a query that reaches the miss limit; a drive that
leaves after two sweeps, or for a head. -/
theorem witness_KindQueriesKeepTheDiscoveredList_moves :
    let joining : State := { querying with loop := { querying.loop with discovered := [] } }
    let rejoining : State := { provided with loop := { provided.loop with discovered := [] } }
    let missing : State := { provided with channels := provided.channels.map fun c => { c with misses := 3 } }
    let leaving : State := { provided with loop := { provided.loop with sweep := 2 } }
    let drive : List Byte := [0x22, 0x08, 0, 0, 0, 0, 0xD6]
    (joining.channels = [] ∧ joining.latches ≠ [] ∧ (joining.loop.discovered.find? fun d => d.address == 8) = none
      ∧ (after (.pollSlotEnd drive) joining).channels.map (fun c => (c.state, c.target)) = [(.sync, 100)])
    ∧ (rejoining.channels.map (fun c => (c.record.address, c.provisional)) = [(8, true)] ∧ rejoining.latches ≠ []
      ∧ (after (.pollSlotEnd drive) rejoining).channels.map Channel.state = [.opening])
    ∧ (missing.channels.all (fun c => decide (c.state ≠ .lost ∧ 4 ≤ min (c.misses + 1) 255)) = true
      ∧ (missing.loop.discovered.find? fun d => d.address == 8) = some ⟨8, .drive, 0⟩ ∧ (missing.loop.sweep - 0).toNat < 2
      ∧ (after (.pollSlotEnd []) missing).channels.map Channel.state = [.lost])
    ∧ ((leaving.loop.discovered.find? fun d => d.address == 8) = some ⟨8, .drive, 0⟩ ∧ 2 ≤ (leaving.loop.sweep - 0).toNat
      ∧ (after (.pollSlotEnd []) leaving).channels.map (fun c => (c.state, c.misses)) = [(.lost, 1)])
    ∧ (after (.pollSlotEnd [0x21, 0x08, 0, 0, 0, 0, 0, 0xD7]) provided).channels.map (fun c => (c.state, c.mismatch)) =
        [(.lost, true)] := by
  decide +kernel
/-- RUN with a kind query, and with the exchange of a discarded channel, left from before the commit. -/
def leftQuery : State := inPhase (.polls ⟨8, .any⟩ [⟨9, .any⟩]) working
def leftCommand : State := inPhase (.commands ⟨none, 9, ⟨50, .opn, .hold⟩⟩ []) working
theorem witness_KindQueriesKeepTheDiscoveredList_commit : leftQuery.power = .running ∧ leftQuery.mode = .run
    ∧ leftQuery.loop.draining ≠ some .poll
    ∧ classifyPoll .any (receive 8 [0x22, 0x08, 0, 0, 0, 0, 0xD6]) = .valid ∧ classifyPoll .any (receive 8 []) ≠ .valid
    ∧ (after (.pollSlotEnd [0x22, 0x08, 0, 0, 0, 0, 0xD6]) leftQuery).loop.discovered = []
    ∧ (after (.pollSlotEnd [0x22, 0x08, 0, 0, 0, 0, 0xD6]) leftQuery).loop.valid = true := by decide +kernel
theorem witness_CommandsAreAcknowledged_commit : leftCommand.power = .running
    ∧ (∀ x, leftCommand.loop.draining ≠ some (.command x))
    ∧ leftCommand.loop.phase = .commands ⟨none, 9, ⟨50, .opn, .hold⟩⟩ []
    ∧ acknowledged (receive 9 [0x23, 0x09, 0xD4]) = true ∧ acknowledged (receive 9 []) = false
    ∧ (after (.commandSlotEnd [0x23, 0x09, 0xD4]) leftCommand).channels.map Channel.acknowledged = [none, none]
    ∧ (after (.commandSlotEnd [0x23, 0x09, 0xD4]) leftCommand).loop.drives.obeys 9 = some (50, .opn)
    ∧ (after (.commandSlotEnd [0x23, 0x09, 0xD4]) leftCommand).loop.cycle = 41 :=
  ⟨rfl, (fun _ h => nomatch h), rfl, by decide +kernel, by decide +kernel, by decide +kernel, by decide +kernel, by decide +kernel⟩
theorem witness_CommandsAreAcknowledged : commanding.power = .running ∧ (∀ x, commanding.loop.draining ≠ some (.command x))
    ∧ commanding.loop.phase = .commands ⟨some 1, 9, ⟨50, .opn, .hold⟩⟩ (0 :: [])
    ∧ (∃ c d, commanding.channels = [c] ++ d :: [] ∧ d.record.channel = 1 ∧ c.record.channel ≠ 1
      ∧ lookup Channel.number 0 ([c] ++ []) = some c ∧ c.command = some ⟨0, .close, .hold⟩ ∧ d.misses = 0)
    ∧ acknowledged (receive 9 [0x23, 0x09, 0xD4]) = true ∧ acknowledged (receive 9 []) = false :=
  ⟨rfl, (fun _ h => nomatch h), rfl, ⟨_, _, rfl, rfl, by decide, rfl, rfl, rfl⟩, by decide +kernel, by decide +kernel⟩
/-- `commanding`, one miss short of the limit. -/
def missingCommand : State := withChannels id (fun c => { c with misses := 3 }) commanding
theorem witness_CommandsAreAcknowledged_limit : missingCommand.power = .running
    ∧ (∀ x, missingCommand.loop.draining ≠ some (.command x))
    ∧ missingCommand.loop.phase = .commands ⟨some 1, 9, ⟨50, .opn, .hold⟩⟩ (0 :: [])
    ∧ (∃ c d, missingCommand.channels = [c] ++ d :: [] ∧ d.record.channel = 1 ∧ c.record.channel ≠ 1
      ∧ lookup Channel.number 0 ([c] ++ []) = some c ∧ c.command = some ⟨0, .close, .hold⟩ ∧ d.state ≠ .lost ∧ d.provisional = false
      ∧ Claims.missLimitOf missingCommand ≤ min (d.misses + 1) 255)
    ∧ (after (.commandSlotEnd []) missingCommand).channels.map Channel.state = [.off, .lost] :=
  ⟨rfl, (fun _ h => nomatch h), rfl, ⟨_, _, rfl, rfl, by decide, rfl, rfl, by decide, rfl, by decide +kernel⟩, by decide +kernel⟩
theorem witness_CommandSlotsAreAllottedByClass_sorted : sorted Channel.number working.channels := by unfold sorted; decide +kernel
theorem witness_CommandSlotsAreAllottedByClass : (working.channels.map Channel.number = [0, 1] ∧ working.allotted = [0, 1])
    ∧ (working.channels.map Channel.candidate = [some .stop, some .speed]) := by decide +kernel
/-- The last poll, and the last command, of a cycle on the wire. -/
def lastPoll (s : State) : State := inPhase (.polls ⟨5, .only .head⟩ []) s
def lastCommand (s : State) : State := inPhase (.commands ⟨some 1, 9, ⟨50, .opn, .hold⟩⟩ []) s
/-- A slot with an attempt to make. -/
def attempting : State := { working with slot := .working ⟨.itemRead, 8, 3, none⟩ [⟨8, none⟩] 0 false [] }
theorem witness_CommandSlotsAreAllottedByClass_seams :
    (after (.pollSlotEnd []) (lastPoll working)).loop.phase = .commands ⟨some 0, 8, ⟨0, .close, .hold⟩⟩ [1]
    ∧ (after (.pollSlotEnd []) (lastPoll committed)).loop.phase = .idle
    ∧ (after (.commandSlotEnd []) (lastCommand attempting)).loop.phase = .service ⟨8, 3, none⟩
    ∧ (after (.commandSlotEnd []) (lastCommand working)).loop.cycle = 41
    ∧ (after (.commandSlotEnd []) commanding).loop.phase = .commands ⟨some 0, 8, ⟨0, .close, .hold⟩⟩ [] := by decide +kernel
theorem witness_EvaluationDecidesAZone : sensing.zones.map (fun z => ((z.refresh sensing.heads).coLevel, (z.refresh sensing.heads).decided.state)) =
    [(some 95, .purge2)] ∧ (∀ st : ZoneState, ∃ z : Zone, z.state = st ∧ z.liveCount = 1 ∧ z.coLevel = some 14) :=
  ⟨by decide +kernel, fun st => ⟨{ Zone.initial ⟨0, [0], [0], ⟨15, 30, 60, 90⟩, ⟨5, 10, 20, 30⟩, 0, 50, 100, 60, 300⟩ with
    state := st, liveCount := 1, coLevel := some 14 }, rfl, rfl, rfl⟩⟩
theorem witness_TargetsFollowTheBoundClaims : working.mode = .run ∧ inManual.mode = .manual ∧ State.reset.mode = .blank
    ∧ (burning.boundClaims 0).map HandedClaim.cls = [.extract] ∧ (working.boundClaims 0).map HandedClaim.cls = [.normal] := by
  decide +kernel
/-- `working` with zone 0 bound a second and a third time, under zones 4 and 2, one extracting and two isolating. -/
def conflicted : State := { working with
  zones := working.zones.flatMap fun z => [z, { z with record := { z.record with zone := 4 } }, { z with record := { z.record with zone := 2 } }]
  handed := [⟨0, 80, .extract⟩, ⟨4, 0, .isolate⟩, ⟨2, 0, .isolate⟩] }
theorem witness_TargetsFollowTheBoundClaims_conflict : conflicted.mode = .run ∧ (conflicted.boundClaims 0).length = 3
    ∧ conflicted.channels.map (fun c => (conflicted.demand c).conflict) = [some 2, some 2] := by decide +kernel
theorem witness_TargetsFollowTheBoundClaims_resolve : ∀ (st : FanState) (holding : Bool) (r : Option Report) (i : Option Image),
    ∃ c : Channel, c.state = st ∧ c.holding = holding ∧ c.report = r ∧ c.command = i ∧ c.cls = .normal ∧ c.target = 40 :=
  fun st h r i => ⟨{ Channel.initial (.provisional 0 8) true with
    state := st, holding := h, report := r, command := i, target := 40, cls := .normal }, rfl, rfl, rfl, rfl, rfl, rfl⟩
theorem witness_LooksGrantFittingHeads : State.reset.queue = [] ∧ queued.queue = ⟨0, .normal, 2, 60, some 60, false⟩ :: []
    ∧ queued.held ≠ 0 ∧ queued.reduced < queued.held + 2 ∧ queued.feeder.effective = .constrained ∧ queued.held + 2 ≤ queued.budget
    ∧ (queued.queue.find? fun e => e.channel == 0) ≠ none ∧ (queued.queue.find? fun e => e.channel == 1) = none := by decide +kernel
theorem witness_SecondsTickAndStall : queued.power = .running ∧ State.reset.queue = []
    ∧ queued.queue = ⟨0, .normal, 2, 60, some 60, false⟩ :: [] ∧ 60 ≤ (some 60 : Option Nat).getD 0 ∧ (some 59 : Option Nat).getD 0 < 60 := by
  decide +kernel
theorem witness_ZoneTimersExpire : (∃ z, holding.zones = [] ++ z :: [] ∧ z.record.zone = 0 ∧ z.state = .runOn ∧ z.hold = some ⟨1, true⟩)
    ∧ (∃ z, boosting.zones = [] ++ z :: [] ∧ z.boost = some ⟨40, ⟨1, true⟩⟩ ∧ z.state ≠ .runOn)
    ∧ ∃ z, graceLate.zones = [] ++ z :: [] ∧ z.grace.due = true ∧ z.boost = none :=
  ⟨⟨_, rfl, rfl, rfl, rfl⟩, ⟨_, rfl, rfl, by decide⟩, ⟨_, rfl, rfl, rfl⟩⟩
theorem witness_ChannelTimersExpire : (∃ c d, settling.channels = [] ++ c :: [d] ∧ c.record.channel = 0 ∧ d.record.channel ≠ 0
      ∧ c.settle = some ⟨1, true⟩ ∧ c.state = .off ∧ c.target = 0 ∧ settling.queue = [])
    ∧ (∃ c d, openingLate.channels = [] ++ c :: [d] ∧ c.damper = some ⟨1, true⟩ ∧ c.state = .opening ∧ c.settle = none ∧ d.state ≠ .opening)
    ∧ (∃ c d, coastingLate.channels = [] ++ c :: [d] ∧ c.coast = some ⟨1, true⟩ ∧ c.state = .stopping ∧ c.target = 0 ∧ d.coast = none)
    ∧ ∃ c : Channel, c.state = .starting ∧ c.settle = some ⟨1, true⟩ ∧ c.reportedSinceGrant = true
      ∧ c.report = some ⟨.accelerating, 20, .opn, none⟩ :=
  ⟨⟨_, _, rfl, rfl, by decide, rfl, rfl, rfl, rfl⟩, ⟨_, _, rfl, rfl, rfl, rfl, by decide⟩, ⟨_, _, rfl, rfl, rfl, rfl, rfl⟩,
    ⟨{ Channel.initial (.provisional 0 8) true with
      state := .starting, settle := some ⟨1, true⟩, reportedSinceGrant := true, report := some ⟨.accelerating, 20, .opn, none⟩ },
      rfl, rfl, rfl, rfl⟩⟩
/-- Channel 0's settle timer due in OFF with a target above 0, a start of channel 1 waiting for its units. -/
def settlingStart : State := { withChannels (fun c => { c with holding := true, settle := some ⟨1, true⟩, target := 30 })
    (inState .queued 50 ⟨0, .opn, .hold⟩) working with
  held := 2, queue := [⟨1, .normal, 1, 3, some 3, false⟩] }
/-- Channel 0's settle timer due in STARTING without a report since the grant. -/
def startingLate : State := { withChannels (fun c => { inState .starting 30 ⟨30, .opn, .hold⟩ c with
    holding := true, settle := some ⟨1, true⟩ }) id working with held := 2 }
theorem witness_ChannelTimersExpire_look : (∃ c d, settlingStart.channels = [] ++ c :: [d] ∧ c.record.channel = 0
      ∧ d.record.channel ≠ 0 ∧ c.settle = some ⟨1, true⟩ ∧ c.state = .off ∧ 0 < c.target ∧ settlingStart.queue ≠ [])
    ∧ (after (.settleExpiry 0) settlingStart).channels.map Channel.state = [.opening, .starting]
    ∧ (∃ c d, startingLate.channels = [] ++ c :: [d] ∧ c.record.channel = 0 ∧ d.record.channel ≠ 0 ∧ c.settle = some ⟨1, true⟩
      ∧ c.state = .starting ∧ c.reportedSinceGrant = false ∧ startingLate.queue = [])
    ∧ (after (.settleExpiry 0) startingLate).channels.map Channel.faultCause = [some .noStart, none] :=
  ⟨⟨_, _, rfl, rfl, by decide, rfl, rfl, by decide, by decide⟩, by decide +kernel,
    ⟨_, _, rfl, rfl, by decide, rfl, rfl, rfl, rfl⟩, by decide +kernel⟩

/-! ## Witnesses of the laws that every step keeps: states in which each law says something, and which a step leaves -/

/-- A state whose next step takes a command. -/
def taking (c : Instr) (s : State) : State := { s with pending := [c] }

theorem witness_RingStaysWithinItsRoom : (taking (.loadBegin 7) { State.reset with ring := ⟨List.replicate 64 routine, 127, true⟩ }).ringOk
    ∧ ∃ t, step (taking (.loadBegin 7) { State.reset with ring := ⟨List.replicate 64 routine, 127, true⟩ }) = .next t :=
  ⟨⟨by decide +kernel, by decide, fun _ => rfl⟩, _, rfl⟩
theorem witness_TablesFollowTheMode : (taking (.restartClear 7) working).tablesOk ∧ ∃ t, step (taking (.restartClear 7) working) = .next t :=
  ⟨⟨by decide +kernel, by decide +kernel, fun h => absurd h (by decide +kernel), by decide +kernel⟩, _, rfl⟩
theorem witness_LatchListHoldsEachLineOnce : (taking (.fireLineAccepted 0) alarmed).latchesOk
    ∧ ∃ t, step (taking (.fireLineAccepted 0) alarmed) = .next t :=
  ⟨⟨by decide +kernel, by decide +kernel, by decide +kernel⟩, _, rfl⟩
theorem witness_ZonesFollowTheLatchList : (taking (.fireReset 7 1) burning).tablesOk ∧ (taking (.fireReset 7 1) burning).firesOk
    ∧ ∃ t, step (taking (.fireReset 7 1) burning) = .next t :=
  ⟨⟨by decide +kernel, by decide +kernel, fun h => absurd h (by decide +kernel), by decide +kernel⟩,
    witness_FireResetClearsLatches_laws, _, rfl⟩
theorem witness_FansNeverRunAgainstAClosedDamper : (taking (.boost 7 1 0 0) working).commandsOk
    ∧ ∃ t, step (taking (.boost 7 1 0 0) working) = .next t :=
  ⟨by
    have : working.channels.all (fun c => match c.command with
        | some i => decide (i.setpoint ≠ 0 → i.damper = .opn ∧ (c.state = .starting ∨ c.state = .running ∨ c.state = .lost))
        | none => true) = true := by decide +kernel
    intro c hc i hi
    have h := List.all_eq_true.mp this c hc
    rw [hi] at h
    exact of_decide_eq_true h, _, rfl⟩
theorem queued_unitsOk : (taking (.settleExpiry 1) queued).unitsOk :=
  ⟨by decide +kernel, by unfold sorted; decide +kernel, by decide +kernel, by decide +kernel, by decide +kernel,
    by unfold Channel.holdingOk; decide +kernel, fun _ h => nomatch h⟩
theorem witness_UnitsHeldMatchTheirHolders : (taking (.settleExpiry 1) queued).unitsOk ∧ (taking (.settleExpiry 1) queued).queueOk
    ∧ ∃ t, step (taking (.settleExpiry 1) queued) = .next t :=
  ⟨queued_unitsOk, ⟨by decide +kernel, by decide +kernel, ⟨by decide +kernel, by decide +kernel⟩, by decide +kernel, by decide +kernel,
    by decide +kernel⟩, _, rfl⟩
theorem witness_ClaimsReachTheChannels : (taking (.boost 7 1 40 600) committed).unitsOk ∧ (taking (.boost 7 1 40 600) committed).claimsOk
    ∧ ∃ t, step (taking (.boost 7 1 40 600) committed) = .next t ∧ t.channels.map Channel.target = [40, 40] :=
  ⟨witness_ManualModeAndChannelRequests_units.1, committed_claimsOk, _, rfl, by decide +kernel⟩

end Sys2Proof.Tests
end

