-- ==== Sys2Proof/Proofs/BayLoopResets.lean ====
section
/-! PROOFS. The empty step, the state after reset and the three resets (R19, R22, R108, R127, R185, R193, R210). -/

namespace Sys2Proof.BayLoop

open Sys2Proof.Machine Sys2Proof.Claims

/-! ## A tenth of a second -/

theorem drives_tenth_eq (d : Drives) :
    d.tenth = if d.period.tenths ≤ d.silent then
      { d with silent := 1, fresh := min (d.fresh + 1) 4, sides := d.sides.map fun x => { x with missed := min (x.missed + 1) 4 } }
    else { d with silent := d.silent + 1 } := rfl

theorem fireLine_tenth_eq (l : FireLine) :
    l.tenth = if l.accepted = none then { l with initialHeld := min (l.initialHeld + 1) 25 }
      else { l with heldFor := l.heldFor.map fun n => min (n + 1) 25 } := by
  cases h : l.accepted <;> simp [FireLine.tenth, h]

theorem feeder_tenth_eq (f : Feeder) :
    f.tenth = if f.accepted = none ∨ f.pendingLevel ≠ none then { f with heldFor := min (f.heldFor + 1) 5 } else f := by
  cases ha : f.accepted <;> cases hp : f.pendingLevel <;>
    simp [Feeder.tenth, Feeder.measured, ha, hp, Config.feedDebounce]

theorem step_of_empty {s : State} (h : s.pending = []) : step s = powered (drivesTenth s) tenth := by
  simp only [step, h, idleStep]

/-- Settles O2: the step of an empty queue is `tenth` after `drivesTenth`, and each of the three counts is read off its own lemma. -/
theorem emptyQueueStepIsATenth : Obligations.EmptyQueueStepIsATenth := by
  intro s hq
  rw [step_of_empty hq]
  refine ⟨fun hp => ?_, fun hp => ?_⟩
  · rw [powered_running (by simpa using hp)]
    simp only [tenth, drivesTenth, drives_tenth_eq, feeder_tenth_eq, funext fireLine_tenth_eq]
    rfl
  · rw [powered_idle (by simpa using hp)]
    simp only [drivesTenth, drives_tenth_eq]
    rfl

/-! ## The state after reset -/

/-- Settles O3: the state after reset is a literal, read field by field. -/
theorem resetState : Obligations.ResetState := by
  unfold Obligations.ResetState
  refine ⟨rfl, rfl, rfl, rfl, rfl, rfl, rfl, rfl, rfl, rfl, rfl, rfl, rfl, rfl, rfl, rfl, rfl, rfl, rfl, rfl, rfl, rfl, rfl, ?_,
    rfl, rfl, rfl, rfl, rfl, rfl, rfl, rfl, rfl, rfl, rfl, rfl, rfl⟩
  decide

/-- Settles O53: at reset every table is empty, so each law asks only of the ring, the eight lines, the queue and the budget. -/
theorem lawsHoldAtReset : Obligations.LawsHoldAtReset := by
  refine ⟨?ring, ?tables, ?latches, ?fires, ?commands, ?units, ?queue, ?claims⟩
  case ring => exact ⟨by decide, by decide, fun h => nomatch h⟩
  case tables => exact ⟨rfl, rfl, fun _ => ⟨rfl, rfl, rfl⟩, fun _ h => nomatch h⟩
  case latches => exact ⟨rfl, List.nodup_nil, fun _ h => nomatch h⟩
  case fires => exact ⟨fun _ => rfl, fun _ h => nomatch h⟩
  case commands => exact fun _ h => nomatch h
  case units =>
    exact ⟨rfl, List.Pairwise.nil, List.nodup_nil, (fun _ h => nomatch h), (fun _ h => nomatch h), (fun _ h => nomatch h),
      fun _ h => nomatch h⟩
  case queue =>
    exact ⟨List.Pairwise.nil, (fun _ h => nomatch h), trivial, by decide, by decide, fun _ h => nomatch h⟩
  case claims => exact ⟨rfl, (fun _ h => nomatch h), List.Pairwise.nil, fun _ h => nomatch h⟩

/-! ## Power-on, pin reset, loss of supply -/

/-- A reset that ends with RESET high: the blocks are those of `risen`, whose first cycle is the kind query of address 1. -/
theorem endReset_eq_risen (cause : ResetCause) (straps : Straps) {s : State} (h : s.resetPin = .high) :
    endReset cause straps s = risen cause (bitRateOf straps) s := by
  cases s
  cases h
  rfl

theorem powerOn_high (straps : Straps) {s : State} (h : s.resetPin = .high) :
    exec (.powerOn straps) s = .next (risen .power (bitRateOf straps) s) := by
  rw [← endReset_eq_risen .power straps h]
  simp only [exec, execPowerOn, powerOn, h]

theorem powerOn_low (straps : Straps) {s : State} (h : s.resetPin = .low) :
    exec (.powerOn straps) s = .next (bare (.inReset .power) .low s.resetCause s.link.rate s) := by
  simp only [exec, execPowerOn, powerOn, h]
  rw [← h]
  rfl

/-- Settles O4, for each setting of the straps. -/
theorem powerOnBeginsCycleZero : Obligations.PowerOnBeginsCycleZero := fun _ =>
  ⟨fun h => ⟨powerOn_high _ h, powerOn_high _ h, powerOn_high _ h, powerOn_high _ h⟩, fun h straps => powerOn_low straps h⟩

theorem pinReset_running {s : State} (h : s.power = .running) :
    exec .pinReset s = .next (bare (.inReset .pin) .low s.resetCause s.link.rate s) := by
  simp only [exec, execPinReset, pinReset, h]
  rfl

theorem pinReset_idle {s : State} (h : s.power ≠ .running) : exec .pinReset s = .next { s with resetPin := .low } := by
  cases hp : s.power with
  | running => exact absurd hp h
  | inReset cause => simp only [exec, execPinReset, pinReset, hp]
  | off => simp only [exec, execPinReset, pinReset, hp]

theorem pinResetEnd_inReset (straps : Straps) {cause : ResetCause} {s : State} (h : s.power = .inReset cause) :
    exec (.pinResetEnd straps) s = .next (risen cause (bitRateOf straps) s) := by
  simp only [exec, execPinResetEnd, pinResetEnd, h]
  rw [endReset_eq_risen cause straps rfl]
  rfl

theorem pinResetEnd_otherwise (straps : Straps) {s : State} (h : ∀ cause, s.power ≠ .inReset cause) :
    exec (.pinResetEnd straps) s = .next { s with resetPin := .high } := by
  cases hp : s.power with
  | running => simp only [exec, execPinResetEnd, pinResetEnd, hp]
  | inReset cause => exact absurd hp (h cause)
  | off => simp only [exec, execPinResetEnd, pinResetEnd, hp]

/-- Every command that does not reach the pins is `powered` of its owner's effect, so a part that does not run is left as it is. -/
theorem exec_idle (c : Instr) {s : State} (hp : s.power ≠ .running) (hc : reachesPins c = false) : exec c s = .next s := by
  cases c
  case powerOn | pinReset | pinResetEnd | supplyLoss | fireLineLevelChange | feedLevelChange => exact Bool.noConfusion hc
  all_goals exact powered_idle hp _

/-- Settles O5: each pin command by the part's power, and every other command by `exec_idle`. -/
theorem pinResetAndSupplyLoss : Obligations.PinResetAndSupplyLoss := fun _ =>
  ⟨pinReset_running, pinReset_idle,
    fun _ h => ⟨pinResetEnd_inReset _ h, pinResetEnd_inReset _ h, pinResetEnd_inReset _ h, pinResetEnd_inReset _ h⟩,
    fun straps h => pinResetEnd_otherwise straps h, rfl, fun c hp hc => exec_idle c hp hc⟩

end Sys2Proof.BayLoop
end

