-- ==== Sys2Proof/Proofs/BayLoopReplies.lean ====
section
/-! PROOFS. The bytes of a slot: what is received, and its class as a poll, a command and a service exchange (R9, R18, R20, R209). -/

namespace Sys2Proof.BayLoop

open Sys2Proof.Machine Sys2Proof.Claims

/-! ## Kind codes and lengths -/

theorem replyKind_none {code : Byte} (h : code.toNat < 0x21 ∨ 0x25 < code.toNat) : replyKind code = none := by
  have hne (b : Byte) (hb : 0x21 ≤ b.toNat ∧ b.toNat ≤ 0x25) : code ≠ b := by
    rintro rfl
    omega
  rw [replyKind, if_neg (hne 0x21 (by decide)), if_neg (hne 0x22 (by decide)), if_neg (hne 0x23 (by decide)),
    if_neg (hne 0x24 (by decide)), if_neg (hne 0x25 (by decide))]

theorem length_of_kind (kind : ReplyKind) : 3 ≤ kind.length := by cases kind <;> decide

theorem replyKind_eq_ack {code : Byte} : replyKind code = some .ack ↔ code = 0x23 := by
  unfold replyKind
  constructor
  · intro h
    split_ifs at h <;> simp_all
  · rintro rfl
    rfl

/-! ## What is received -/

theorem receive_of_kind_none (address : Nat) {code : Byte} (rest : List Byte) (h : replyKind code = none) :
    receive address (code :: rest) = .short := by simp only [receive, h]

/-- A reply of a kind that ends before its full length. -/
theorem receive_short (address : Nat) {code : Byte} {rest : List Byte} {kind : ReplyKind} (h : replyKind code = some kind)
    (hl : (code :: rest).length < kind.length) : receive address (code :: rest) = .short := by
  simp only [receive, h, if_pos hl]

/-- A reply of its kind's full length, whatever follows it in the slot (log 11). -/
theorem receive_full (address : Nat) {code source : Byte} {data : List Byte} (more : List Byte) {kind : ReplyKind}
    (h : replyKind code = some kind) (hl : (code :: source :: data).length = kind.length) :
    receive address (code :: source :: data ++ more) =
      if byteSum (code :: source :: data) = 0 ∧ source.toNat = address then .complete kind (data.take (kind.length - 3)) else .damaged := by
  have hlong : ¬ (code :: source :: data ++ more).length < kind.length := by
    rw [List.length_append, hl]
    omega
  have htake : (code :: source :: data ++ more).take kind.length = code :: source :: data := by
    rw [← hl, List.take_left]
  have hdata : (data ++ more).take (kind.length - 3) = data.take (kind.length - 3) := by
    rw [List.take_append_of_le_length]
    simp only [List.length_cons] at hl
    omega
  simp only [List.cons_append] at hlong htake ⊢
  simp only [receive, h, if_neg hlong, htake, hdata]

theorem receive_damaged (address : Nat) {code source : Byte} {data : List Byte} (more : List Byte) {kind : ReplyKind}
    (h : replyKind code = some kind) (hl : (code :: source :: data).length = kind.length)
    (hbad : byteSum (code :: source :: data) ≠ 0 ∨ source.toNat ≠ address) :
    receive address (code :: source :: data ++ more) = .damaged := by
  rw [receive_full address more h hl, if_neg (by tauto)]

theorem receive_complete (address : Nat) {code source : Byte} {data : List Byte} (more : List Byte) {kind : ReplyKind}
    (h : replyKind code = some kind) (hl : (code :: source :: data).length = kind.length)
    (hsum : byteSum (code :: source :: data) = 0) (hsource : source.toNat = address) :
    receive address (code :: source :: data ++ more) = .complete kind (data.take (kind.length - 3)) := by
  rw [receive_full address more h hl, if_pos ⟨hsum, hsource⟩]

/-- Whatever reply is complete is spelled by its own bytes: code, source, data and check, then bytes that are ignored. -/
theorem receive_eq_complete {address : Nat} {reply : List Byte} {kind : ReplyKind} {got : List Byte}
    (h : receive address reply = .complete kind got) :
    ∃ code source rest, reply = code :: source :: rest ∧ replyKind code = some kind ∧ kind.length ≤ reply.length
      ∧ byteSum (reply.take kind.length) = 0 ∧ source.toNat = address ∧ got = rest.take (kind.length - 3) := by
  unfold receive at h
  split at h
  · cases h
  next code rest =>
    split at h
    · cases h
    next k hk =>
      split at h
      · cases h
      next hl =>
        dsimp only at h
        split at h
        · cases h
        next source data =>
          split at h
          next hok =>
            injection h with h1 h2
            subst h1
            exact ⟨code, source, data, rfl, hk, Nat.le_of_not_lt hl, hok.1, hok.2, h2.symm⟩
          · cases h

/-! ## Classes -/

theorem classifyPoll_complete (expect : Expect) (kind : DeviceKind) (data : List Byte) :
    classifyPoll expect (.complete (if kind = .head then .head else .drive) data) =
      if expect = .any ∨ expect = .only kind then .valid else .wrongKind := by
  cases expect with
  | any => cases kind <;> rfl
  | only k => cases k <;> cases kind <;> rfl

/-- The classes of a poll (R9), test by test. -/
theorem poll_classes (address : Nat) (expect : Expect) (kind : DeviceKind) (code source : Byte) (data more : List Byte) :
    let cls (reply : List Byte) := classifyPoll expect (receive address reply)
    let reply := code :: source :: data
    cls [] = .silent ∧ cls [code] = .short
    ∧ (code.toNat < 0x21 ∨ 0x25 < code.toNat → cls reply = .short)
    ∧ (∀ kind, replyKind code = some kind → reply.length < kind.length → cls reply = .short)
    ∧ (∀ kind, replyKind code = some kind → reply.length = kind.length → byteSum reply ≠ 0 ∨ source.toNat ≠ address →
        cls (reply ++ more) = .corrupt)
    ∧ (code = 0x23 ∨ code = 0x24 ∨ code = 0x25 → (∀ kind, replyKind code = some kind → reply.length = kind.length) →
        cls (reply ++ more) = .corrupt)
    ∧ (code = (if kind = .head then 0x21 else 0x22) → reply.length = (if kind = .head then 8 else 7) → byteSum reply = 0 →
        source.toNat = address →
        (expect = .any ∨ expect = .only kind → cls (reply ++ more) = .valid)
        ∧ (expect ≠ .any → expect ≠ .only kind → cls (reply ++ more) = .wrongKind)) := by
  refine ⟨rfl, ?single, fun h => ?_, fun k hk hl => ?_, fun k hk hl hbad => ?_, fun hcode hlen => ?_, fun hcode hl hsum hsource => ?_⟩
  case single =>
    cases hk : replyKind code with
    | none => simp only [receive_of_kind_none address [] hk, classifyPoll]
    | some k =>
      have := length_of_kind k
      simp only [receive_short address hk (rest := []) (by simp only [List.length_singleton]; omega), classifyPoll]
  · simp only [receive_of_kind_none address _ (replyKind_none h), classifyPoll]
  · simp only [receive_short address hk hl, classifyPoll]
  · simp only [receive_damaged address more hk hl hbad, classifyPoll]
  · -- an acknowledgement or a service reply is no device's answer to a poll
    obtain ⟨k, hk, hdevice⟩ : ∃ k, replyKind code = some k ∧ k.device = none := by
      rcases hcode with rfl | rfl | rfl <;> exact ⟨_, rfl, rfl⟩
    dsimp only
    rw [receive_full address more hk (hlen k hk)]
    split <;> simp only [classifyPoll, hdevice]
  · have hk : replyKind code = some (if kind = .head then .head else .drive) := by
      subst hcode
      cases kind <;> rfl
    have hlen : (code :: source :: data).length = (if kind = .head then ReplyKind.head else .drive).length := by
      rw [hl]
      cases kind <;> rfl
    dsimp only
    rw [receive_complete address more hk hlen hsum hsource, classifyPoll_complete]
    exact ⟨fun h => if_pos h, fun h1 h2 => if_neg (by tauto)⟩

/-- When a command is acknowledged (R18). -/
theorem acknowledged_iff (address : Nat) (reply : List Byte) : acknowledged (receive address reply) = true ↔
    ∃ source check more, reply = 0x23 :: source :: check :: more ∧ source.toNat = address ∧ byteSum [0x23, source, check] = 0 := by
  constructor
  · intro h
    unfold acknowledged at h
    split at h
    next data hr =>
      obtain ⟨code, source, rest, rfl, hk, hl, hsum, hsource, -⟩ := receive_eq_complete hr
      obtain rfl := replyKind_eq_ack.mp hk
      cases rest with
      | nil => simp [ReplyKind.length] at hl
      | cons check more => exact ⟨source, check, more, rfl, hsource, hsum⟩
    · cases h
  · rintro ⟨source, check, more, rfl, hsource, hsum⟩
    have h := receive_complete address (data := [check]) more (kind := .ack) rfl rfl hsum hsource
    simp only [List.cons_append, List.nil_append] at h
    rw [h]
    rfl

/-- The classes and contents of a service reply (R20), test by test. -/
theorem service_classes (address : Nat) (code source : Byte) (data more : List Byte) :
    let got (reply : List Byte) := classifyService (receive address reply)
    let reply := code :: source :: data
    got [] = (.silent, none) ∧ got [code] = (.short, none)
    ∧ (code.toNat < 0x21 ∨ 0x25 < code.toNat → got reply = (.short, none))
    ∧ (∀ kind, replyKind code = some kind → reply.length < kind.length → got reply = (.short, none))
    ∧ (∀ kind, replyKind code = some kind → reply.length = kind.length →
        (byteSum reply ≠ 0 ∨ source.toNat ≠ address → got (reply ++ more) = (.corrupt, none))
        ∧ (byteSum reply = 0 → source.toNat = address →
          (code = 0x21 ∨ code = 0x22 ∨ code = 0x23 → got (reply ++ more) = (.corrupt, none))
          ∧ (∀ hi lo check, code = 0x24 → data = [hi, lo, check] →
              got (reply ++ more) = (.valid, some (.value (hi.toNat * 256 + lo.toNat))))
          ∧ (code = 0x25 → got (reply ++ more) = (.valid, some .rejected)))) := by
  refine ⟨rfl, ?single, fun h => ?_, fun k hk hl => ?_, fun k hk hl => ⟨fun hbad => ?_, fun hsum hsource => ?_⟩⟩
  case single =>
    cases hk : replyKind code with
    | none => simp only [receive_of_kind_none address [] hk, classifyService]
    | some k =>
      have := length_of_kind k
      simp only [receive_short address hk (rest := []) (by simp only [List.length_singleton]; omega), classifyService]
  · simp only [receive_of_kind_none address _ (replyKind_none h), classifyService]
  · simp only [receive_short address hk hl, classifyService]
  · simp only [receive_damaged address more hk hl hbad, classifyService]
  · dsimp only
    rw [receive_complete address more hk hl hsum hsource]
    refine ⟨fun hcode => ?_, fun hi lo check hcode hdata => ?_, fun hcode => ?_⟩
    · rcases hcode with rfl | rfl | rfl <;> cases hk <;> rfl
    · subst hcode hdata
      cases hk
      rfl
    · subst hcode
      cases hk
      rfl

/-- Settles O41: polls, acknowledgements, kind codes and service replies, each by the lemma of its classes. -/
theorem repliesAreClassified : Obligations.RepliesAreClassified :=
  ⟨poll_classes, acknowledged_iff, ⟨rfl, rfl, rfl, rfl, rfl, fun _ h => replyKind_none h, rfl⟩, service_classes⟩

end Sys2Proof.BayLoop
end

