-- ==== Sys2Proof/Proofs/BayLoopConfiguration.lean ====
section
/-! PROOFS. The staged schedule and the validation of a configuration (R7, R8, R171 to R173, R177). -/

namespace Sys2Proof.BayLoop

open Sys2Proof.Machine Sys2Proof.Claims

/-! ## LOAD_SLOT -/

theorem deviceKindOf_eq_head (n : Nat) : deviceKindOf n = some .head ↔ n = 0 := by
  unfold deviceKindOf
  split <;> simp_all

theorem deviceKindOf_eq_drive (n : Nat) : deviceKindOf n = some .drive ↔ n = 1 := by
  unfold deviceKindOf
  split <;> simp_all

theorem deviceKindOf_isSome (n : Nat) : (deviceKindOf n).isSome = true ↔ n = 0 ∨ n = 1 := by
  unfold deviceKindOf
  split <;> simp_all

theorem slotsOf_head (slots : List LoadSlot) : slotsOf .head slots = (slots.filter fun e => e.kind == some 0).length := by
  unfold slotsOf
  congr 1
  refine List.filter_congr fun e _ => ?_
  rw [Bool.eq_iff_iff]
  cases e.kind <;> simp [deviceKindOf_eq_head]

theorem slotsOf_drive (slots : List LoadSlot) : slotsOf .drive slots = (slots.filter fun e => e.kind == some 1).length := by
  unfold slotsOf
  congr 1
  refine List.filter_congr fun e _ => ?_
  rw [Bool.eq_iff_iff]
  cases e.kind <;> simp [deviceKindOf_eq_drive]

/-- The fields of a schedule entry that R7 and R173 accept. -/
theorem slotChecks_pass (r : LoadSlot) : (∀ p ∈ slotChecks r, p.2 = true) ↔
    1 ≤ r.address ∧ r.address ≤ 63 ∧ (r.kind = some 0 ∨ r.kind = some 1)
      ∧ (r.divider.getD 1 = 1 ∨ r.divider.getD 1 = 2 ∨ r.divider.getD 1 = 4 ∨ r.divider.getD 1 = 8)
      ∧ ∀ p, r.phase = some p → p < r.divider.getD 1 := by
  have hkind : required (fun n => (deviceKindOf n).isSome) r.kind = true ↔ r.kind = some 0 ∨ r.kind = some 1 := by
    cases r.kind <;> simp [required, deviceKindOf_isSome]
  have hdivider : Machine.optional dividerOk r.divider = true ↔
      r.divider.getD 1 = 1 ∨ r.divider.getD 1 = 2 ∨ r.divider.getD 1 = 4 ∨ r.divider.getD 1 = 8 := by
    cases r.divider <;> simp [Machine.optional, dividerOk, or_assoc]
  have hphase : Machine.optional (fun n => n < dividerInForce r) r.phase = true ↔ ∀ p, r.phase = some p → p < r.divider.getD 1 := by
    cases r.phase with
    | none => simp [Machine.optional]
    | some p =>
      simp only [Machine.optional, Option.all_some, Option.some.injEq, forall_eq']
      exact decide_eq_true_iff
  simp only [slotChecks, List.forall_mem_cons, within_iff, hkind, hdivider, hphase, List.not_mem_nil, false_imp_iff,
    implies_true, and_true, and_assoc]

/-- What a LOAD_* request with good fields answers outside LOADING (R172). -/
theorem loadRecord_wrongMode {checks : List (Nat × Bool)} (store : Staging → Answer) {s : State}
    (h : ∀ p ∈ checks, p.2 = true) (hm : s.mode ≠ .loading) : loadRecord checks store s = .refuse s .wrongMode := by
  simp only [loadRecord, firstBad_eq_none.mpr h]
  split
  next hl _ => exact absurd hl hm
  · rfl

theorem loadRecord_staged {checks : List (Nat × Bool)} (store : Staging → Answer) {s : State} {st : Staging}
    (h : ∀ p ∈ checks, p.2 = true) (hm : s.mode = .loading) (hst : s.staging = some st) :
    loadRecord checks store s = store st := by
  simp only [loadRecord, firstBad_eq_none.mpr h, hm, hst]

theorem loadRecord_badField {checks : List (Nat × Bool)} (store : Staging → Answer) {s : State}
    (h : ¬ ∀ p ∈ checks, p.2 = true) : ∃ n, loadRecord checks store s = .badField s n := by
  obtain ⟨n, hn⟩ := firstBad_isSome h
  exact ⟨n, by simp only [loadRecord, hn]⟩

theorem exec_loadSlot_running (tag : Nat) (slot : LoadSlot) {s : State} (hp : s.power = .running) :
    exec (.loadSlot tag slot) s = .next (respond 0x16 tag (loadSlot slot s)) := by
  rw [exec_loadSlot, powered_running hp]
  rfl

/-- Settles O20: the checks are `slotChecks_pass`, and `loadRecord` answers by them, the mode and the room left. -/
theorem scheduleEntriesAreStagedWithinCapacity : Obligations.ScheduleEntriesAreStagedWithinCapacity := by
  intro tag slot s hp
  rw [exec_loadSlot_running tag slot hp]
  dsimp only
  rw [← slotChecks_pass slot]
  refine ⟨fun st hm hst hgood => ?_, fun hm hgood => ?_, fun hbad => ?_⟩
  · have hstore : loadSlot slot s = _ := loadRecord_staged _ hgood hm hst
    rw [hstore, ← slotsOf_head, ← slotsOf_drive]
    refine ⟨fun hh hd => ?_, fun hover => ?_⟩
    · rw [if_pos (by simp [slotsFit, hh, hd])]
      rfl
    · rw [if_neg (by simp only [slotsFit, Bool.and_eq_true, decide_eq_true_eq]; omega)]
      rfl
  · have hstore : loadSlot slot s = _ := loadRecord_wrongMode _ hgood hm
    rw [hstore]
    rfl
  · obtain ⟨n, hn⟩ : ∃ n, loadSlot slot s = _ := loadRecord_badField _ hbad
    exact ⟨n, by rw [hn]; rfl⟩

/-! ## The violations of a configuration -/

theorem mem_ascending {n : Nat} {l : List Nat} : n ∈ ascending l ↔ n ∈ l := by
  induction l with
  | nil => rfl
  | cons m l ih =>
    have hsplit : n ∈ (ascending l).takeWhile (· < m) ∨ n ∈ (ascending l).dropWhile (· < m) ↔ n ∈ ascending l := by
      rw [← List.mem_append, List.takeWhile_append_dropWhile]
    have hcons : ascending (m :: l) = (ascending l).takeWhile (· < m) ++ m :: (ascending l).dropWhile (· < m) := rfl
    rw [hcons, List.mem_append, List.mem_cons, List.mem_cons, ← ih, ← hsplit]
    tauto

theorem members_or {w : Nat} (a b : BitVec w) :
    members (a ||| b) = (List.range w).filter fun n => a.getLsbD n || b.getLsbD n := by
  simp only [members, BitVec.getLsbD_or]

theorem limits_ordered_eq (l : Limits) : l.ordered = decide (l.low1 < l.high1 ∧ l.high1 ≤ l.low2 ∧ l.low2 < l.high2) := by
  simp only [Limits.ordered, Bool.decide_and, Bool.and_assoc]

theorem limits_ordered_iff (l : Limits) : l.ordered = true ↔ l.low1 < l.high1 ∧ l.high1 ≤ l.low2 ∧ l.low2 < l.high2 := by
  rw [limits_ordered_eq, decide_eq_true_eq]

theorem kind_code_eq (k : DeviceKind) : k.code = if k = .head then 0 else 1 := by cases k <;> rfl

theorem violatedIf_eq_nil {bad : Bool} {kind : RecordKind} {key : Option Nat} {reason : Reason} {detail : Option Nat} :
    violatedIf bad kind key reason detail = [] ↔ bad = false := by cases bad <;> simp [violatedIf]

/-- A record that a check finds under its key, its link good. -/
theorem checkZoneHead_eq_nil {c : Loaded} {zone head : Nat} (h : c.checkZoneHead zone head = []) :
    ∃ r ∈ c.heads, r.head = head ∧ zone ∈ r.zones := by
  unfold Loaded.checkZoneHead at h
  split at h
  · cases h
  next r hr =>
    obtain ⟨hmem, hkey⟩ := lookup_mem hr
    exact ⟨r, hmem, hkey, by simpa [violatedIf_eq_nil] using h⟩

theorem checkHeadZone_eq_nil {c : Loaded} {head zone : Nat} (h : c.checkHeadZone head zone = []) :
    ∃ z ∈ c.zones, z.zone = zone ∧ head ∈ z.heads := by
  unfold Loaded.checkHeadZone at h
  split at h
  · cases h
  next z hz =>
    obtain ⟨hmem, hkey⟩ := lookup_mem hz
    exact ⟨z, hmem, hkey, by simpa [violatedIf_eq_nil] using h⟩

theorem checkSlotOf_eq_nil {c : Loaded} {kind : RecordKind} {device : DeviceKind} {key address : Nat}
    (h : c.checkSlotOf kind device key address = []) : ∃ e ∈ c.slots, e.address = address ∧ e.kind = device := by
  unfold Loaded.checkSlotOf at h
  split at h
  · cases h
  next e he =>
    obtain ⟨hmem, hkey⟩ := lookup_mem he
    exact ⟨e, hmem, hkey, by simpa [violatedIf_eq_nil] using h⟩

theorem checkZone_eq_nil {c : Loaded} {z : ZoneRecord} (h : c.checkZone z = []) :
    (∀ n ∈ z.heads, ∃ r ∈ c.heads, r.head = n ∧ z.zone ∈ r.zones) ∧ (∀ n ∈ z.fans, ∃ f ∈ c.fans, f.channel = n)
      ∧ z.co.ordered = true ∧ z.no2.ordered = true := by
  simp only [Loaded.checkZone, List.append_eq_nil_iff, List.flatMap_eq_nil_iff, mem_ascending, violatedIf_eq_nil,
    Bool.not_eq_false', hasKey_iff] at h
  obtain ⟨⟨⟨hheads, hfans⟩, hco⟩, hno2⟩ := h
  exact ⟨fun n hn => checkZoneHead_eq_nil (hheads n hn), hfans, hco, hno2⟩

theorem checkHead_eq_nil {c : Loaded} {h : HeadRecord} (hnone : c.checkHead h = []) (n : Nat) (hn : n ∈ h.zones) :
    ∃ z ∈ c.zones, z.zone = n ∧ h.head ∈ z.heads :=
  checkHeadZone_eq_nil (List.flatMap_eq_nil_iff.mp hnone n (mem_ascending.mpr hn))

theorem checkFan_eq_nil {free : Option Nat} {c : Loaded} {f : FanRecord} (h : c.checkFan free f = []) :
    f.min ≤ f.max ∧ f.cost ≤ c.budget ∧ 1 ≤ (c.zones.filter fun z => f.channel ∈ z.fans).length
      ∧ (c.zones.filter fun z => f.channel ∈ z.fans).length ≤ 4 := by
  have hbinders : c.binders f.channel = (c.zones.filter fun z => f.channel ∈ z.fans).length := by
    simp only [Loaded.binders, List.contains_eq_mem]
  simp only [Loaded.checkFan, List.append_eq_nil_iff, violatedIf_eq_nil, decide_eq_false_iff_not, beq_eq_false_iff_ne, hbinders] at h
  omega

theorem checkLine_eq_nil {c : Loaded} {l : LineRecord} (h : c.checkLine l = []) (n : Nat)
    (hn : l.extract.getLsbD n = true ∨ l.isolate.getLsbD n = true) :
    (∃ z ∈ c.zones, z.zone = n) ∧ ¬ (l.extract.getLsbD n = true ∧ l.isolate.getLsbD n = true) := by
  have hlt : n < 16 := by rcases hn with hn | hn <;> exact BitVec.lt_of_getLsbD hn
  have hmem : n ∈ members (l.extract ||| l.isolate) := by
    rw [members_or, List.mem_filter, Bool.or_eq_true]
    exact ⟨List.mem_range.mpr hlt, hn⟩
  have hnone := List.flatMap_eq_nil_iff.mp h n hmem
  simp only [List.append_eq_nil_iff, violatedIf_eq_nil, Bool.not_eq_false', hasKey_iff] at hnone
  exact ⟨hnone.1, by simpa using hnone.2⟩

theorem checkSlot_eq_nil {c : Loaded} {e : SlotEntry} (h : c.checkSlot e = []) :
    (∃ d ∈ c.heads, d.address = e.address) ∨ ∃ f ∈ c.fans, f.address = e.address := by
  simp only [Loaded.checkSlot, violatedIf_eq_nil, beq_eq_false_iff_ne, Loaded.sharers] at h
  by_contra hnone
  push Not at hnone
  obtain ⟨hheads, hfans⟩ := hnone
  apply h
  rw [List.filter_eq_nil_iff.mpr (by simpa using hheads), List.filter_eq_nil_iff.mpr (by simpa using hfans)]
  rfl

/-- The polls of a cycle are those of its residue modulo 8, since every divider divides 8 (R8). -/
theorem pollCount_mod {c : Loaded} (h : ∀ e ∈ c.slots, e.divider = 1 ∨ e.divider = 2 ∨ e.divider = 4 ∨ e.divider = 8) (cycle : Nat) :
    c.pollCount cycle = c.pollCount (cycle % 8) := by
  unfold Loaded.pollCount
  congr 1
  refine List.filter_congr fun e he => ?_
  have hdvd : e.divider ∣ 8 := by rcases h e he with h | h | h | h <;> rw [h] <;> decide
  simp only [SlotEntry.dueIn, Nat.mod_mod_of_dvd cycle hdvd]

theorem checkResidues_eq_nil {c : Loaded} (h : (List.range 8).flatMap c.checkResidue = []) (r : Nat) (hr : r < 8) :
    c.pollCount r ≤ 48 := by
  have hnone := List.flatMap_eq_nil_iff.mp h r (List.mem_range.mpr hr)
  rw [Loaded.checkResidue, violatedIf_eq_nil, decide_eq_false_iff_not] at hnone
  exact Nat.le_of_not_lt hnone

/-- Settles O22: the list is the model's, check for check; and each check that finds nothing gives its part of a whole configuration. -/
theorem cleanValidationMeansAWholeConfiguration : Obligations.CleanValidationMeansAWholeConfiguration := by
  refine ⟨fun free c => ?list, fun free c hclean => ?whole⟩
  case list =>
    unfold Loaded.violations Loaded.checkZone Loaded.checkLine Loaded.checkSlot
    simp only [limits_ordered_eq, members_or, kind_code_eq]
    rfl
  case whole =>
    simp only [Loaded.violations, List.append_eq_nil_iff] at hclean
    obtain ⟨⟨⟨⟨⟨⟨⟨⟨⟨⟨hconfig, hfeeder⟩, hzones⟩, hheads⟩, hfans⟩, hlines⟩, haddresses⟩, hheadSlots⟩, hfanSlots⟩, hslots⟩, hresidues⟩ := hclean
    simp only [List.flatMap_eq_nil_iff] at hzones hheads hfans hlines haddresses hheadSlots hfanSlots hslots
    refine ⟨?_, ?_, fun z hz => (checkZone_eq_nil (hzones z hz)).1, fun z hz => (checkZone_eq_nil (hzones z hz)).2.1, fun z hz => ?_,
      fun h hh => checkHead_eq_nil (hheads h hh), fun f hf => checkFan_eq_nil (hfans f hf),
      fun l hl => checkLine_eq_nil (hlines l hl), fun a h1 h63 => ?_, fun h hh => checkSlotOf_eq_nil (hheadSlots h hh),
      fun f hf => checkSlotOf_eq_nil (hfanSlots f hf), fun e he => checkSlot_eq_nil (hslots e he), fun hdividers cycle => ?_⟩
    · simpa [Loaded.checkConfig, violatedIf_eq_nil] using hconfig
    · simpa [Loaded.checkFeeder, violatedIf_eq_nil] using hfeeder
    · obtain ⟨-, -, hco, hno2⟩ := checkZone_eq_nil (hzones z hz)
      rw [limits_ordered_iff] at hco hno2
      obtain ⟨h1, h2, h3⟩ := hco
      exact ⟨h1, h2, h3, hno2⟩
    · have hshared := haddresses a (List.mem_range'_1.mpr ⟨h1, by omega⟩)
      rw [Loaded.checkAddress, violatedIf_eq_nil, decide_eq_false_iff_not] at hshared
      exact Nat.le_of_not_lt hshared
    · exact (pollCount_mod hdividers cycle).trans_le (checkResidues_eq_nil hresidues _ (Nat.mod_lt _ (by decide)))

end Sys2Proof.BayLoop
end

