-- ==== Sys2Proof/Proofs/BayLoopEvents.lean ====
section
/-! PROOFS. What the shared events leave alone: the channels' events beside the loop and the counter of free values, one channel's event
beside the other channels, and a look beside the channels that do not queue (R79, R114 to R116). -/

namespace Sys2Proof.BayLoop

open Sys2Proof.Machine Sys2Proof.Claims

/-! ## Looks -/

/-- A state with its loop and its counter of free values put in place: what the channels' events neither read nor change. -/
def aside (l : Loop) (d : Nat) (s : State) : State := { s with loop := l, draws := d }

theorem setPhase_eq_aside (p : Phase) (s : State) : setPhase p s = aside { s.loop with phase := p } s.draws s := rfl

theorem lookFrom_empty (fuel : Nat) {s : State} (h : s.queue = []) : lookFrom (fuel + 1) s = s := by simp only [lookFrom, h]

theorem lookFrom_cons (fuel : Nat) {s : State} {e : QueueEntry} {rest : List QueueEntry} (h : s.queue = e :: rest) :
    lookFrom (fuel + 1) s = if s.grantable e then lookFrom fuel (grant e rest s) else s := by simp only [lookFrom, h]

theorem lookFrom_aside (fuel : Nat) (l : Loop) (d : Nat) (s : State) :
    lookFrom fuel (aside l d s) = aside l d (lookFrom fuel s) := by
  induction fuel generalizing s with
  | zero => rfl
  | succ n ih =>
    cases hq : s.queue with
    | nil => rw [lookFrom_empty n hq, lookFrom_empty n (s := aside l d s) hq]
    | cons e rest =>
      rw [lookFrom_cons n hq, lookFrom_cons n (s := aside l d s) hq, apply_ite (aside l d), ← ih (grant e rest s)]
      rfl

/-- What a grant keeps of every channel, a look keeps of the channel table. -/
theorem lookFrom_map {β : Type} (g : Channel → β) (hg : ∀ c, g (grantStart c) = g c) (fuel : Nat) (s : State) :
    (lookFrom fuel s).channels.map g = s.channels.map g := by
  induction fuel generalizing s with
  | zero => rfl
  | succ n ih =>
    unfold lookFrom
    split
    · rfl
    · split
      · exact (ih _).trans (map_modify hg _)
      · rfl

/-- A grant reaches a channel with an entry in the queue alone. -/
theorem lookFrom_lookup {n : Nat} (fuel : Nat) (s : State) (h : ∀ e ∈ s.queue, e.channel ≠ n) :
    ∀ c ∈ s.channels, c.number = n → c ∈ (lookFrom fuel s).channels := by
  induction fuel generalizing s with
  | zero => exact fun c hc _ => hc
  | succ k ih =>
    intro c hc hn
    unfold lookFrom
    split
    · exact hc
    next e rest hq =>
      split
      · have hrest : ∀ f ∈ fixHead rest, f.channel ≠ n := by
          intro f hf
          have hmem : f.channel ∈ rest.map QueueEntry.channel := fixHead_channels rest ▸ List.mem_map_of_mem hf
          obtain ⟨g, hg, hfg⟩ := List.mem_map.mp hmem
          exact hfg ▸ h g (by rw [hq]; exact List.mem_cons_of_mem e hg)
        have hne : c.number ≠ e.channel := by
          rw [hn]
          exact (h e (by rw [hq]; exact List.mem_cons_self)).symm
        exact ih (grant e rest s) hrest c (mem_modify.mpr ⟨c, hc, (if_neg hne).symm⟩) hn
      · exact hc

/-! ## The changes of one event -/

theorem applyChanges_nil (s : State) : applyChanges [] s = s := by
  have h : callsLook s.queue [] = false := by unfold callsLook; cases s.queue <;> rfl
  simp only [applyChanges, h, Bool.false_eq_true, if_false]
  rfl

theorem applyChanges_aside (cs : List QueueChange) (l : Loop) (d : Nat) (s : State) :
    applyChanges cs (aside l d s) = aside l d (applyChanges cs s) := by
  unfold applyChanges
  rw [apply_ite (aside l d)]
  refine ite_congr rfl (fun _ => ?_) fun _ => rfl
  exact lookFrom_aside _ l d { s with queue := (ordered cs).foldl applyChange s.queue }

theorem applyChanges_map {β : Type} (g : Channel → β) (hg : ∀ c, g (grantStart c) = g c) (cs : List QueueChange) (s : State) :
    (applyChanges cs s).channels.map g = s.channels.map g := by
  unfold applyChanges
  split
  · exact lookFrom_map g hg _ _
  · rfl

theorem lookFrom_ring (fuel : Nat) (s : State) : (lookFrom fuel s).ring = s.ring := by
  induction fuel generalizing s with
  | zero => rfl
  | succ n ih =>
    unfold lookFrom
    split
    · rfl
    · split
      · exact ih _
      · rfl

theorem applyChanges_ring (cs : List QueueChange) (s : State) : (applyChanges cs s).ring = s.ring := by
  unfold applyChanges
  split
  · exact lookFrom_ring _ _
  · rfl

/-- Once a channel has left the queue, the rest of the event and its look pass it by. -/
theorem applyChanges_leaving (c d : Channel) (s : State) (hd : d ∈ s.channels) (hn : d.number = c.number) :
    d ∈ (applyChanges (leaving c) s).channels := by
  unfold leaving
  split
  · have hq : ∀ e ∈ fixHead (removeEntry c.record.channel s.queue), e.channel ≠ c.number := by
      intro e he
      have hmem : e.channel ∈ (removeEntry c.record.channel s.queue).map QueueEntry.channel :=
        fixHead_channels (removeEntry c.record.channel s.queue) ▸ List.mem_map_of_mem he
      obtain ⟨g, hg, heg⟩ := List.mem_map.mp hmem
      exact heg ▸ (mem_removeEntry.mp hg).2
    unfold applyChanges
    split
    · exact lookFrom_lookup _ _ hq d hd hn
    · exact hd
  · rw [applyChanges_nil]
    exact hd

/-! ## Events of the channels -/

theorem fanEvent_eq (f : Channel → Eff) (s : State) : fanEvent f s =
    applyChanges (s.channels.flatMap fun c => (f c).changes) { s with
      channels := s.channels.map fun c => (f c).ch
      ring := ringing (s.channels.flatMap fun c => (f c).notices) s } := (channelsDo_eq f s).symm

theorem fanEvent_aside (f : Channel → Eff) (l : Loop) (d : Nat) (s : State) :
    fanEvent f (aside l d s) = aside l d (fanEvent f s) := by
  rw [fanEvent_eq, fanEvent_eq]
  exact applyChanges_aside _ l d { s with
    channels := s.channels.map fun c => (f c).ch, ring := ringing (s.channels.flatMap fun c => (f c).notices) s }

theorem fanEvent_ring (f : Channel → Eff) (s : State) :
    (fanEvent f s).ring = ringing (s.channels.flatMap fun c => (f c).notices) s := by
  rw [fanEvent_eq, applyChanges_ring]

theorem fanEvent_map {β : Type} (g : Channel → β) (hg : ∀ c, g (grantStart c) = g c) {f : Channel → Eff} (hf : ∀ c, g (f c).ch = g c)
    (s : State) : (fanEvent f s).channels.map g = s.channels.map g := by
  rw [fanEvent_eq, applyChanges_map g hg, List.map_map]
  exact List.map_congr_left fun c _ => hf c

/-- An event that reports nothing to the start queue. -/
theorem fanEvent_unqueued {f : Channel → Eff} {s : State} (h : ∀ c ∈ s.channels, (f c).changes = []) : fanEvent f s =
    { s with
      channels := s.channels.map fun c => (f c).ch
      ring := ringing (s.channels.flatMap fun c => (f c).notices) s } := by
  rw [fanEvent_eq, List.flatMap_eq_nil_iff.mpr h, applyChanges_nil]

/-- An event in which no channel has a part. -/
theorem fanEvent_none {f : Channel → Eff} {s : State} (h : ∀ c ∈ s.channels, f c = .quiet c) : fanEvent f s = s := by
  have hnotices : (s.channels.flatMap fun c => (f c).notices) = [] :=
    List.flatMap_eq_nil_iff.mpr fun c hc => by rw [h c hc]; rfl
  have hchannels : (s.channels.map fun c => (f c).ch) = s.channels := by
    conv_rhs => rw [← List.map_id s.channels]
    exact List.map_congr_left fun c hc => by rw [h c hc]; rfl
  rw [fanEvent_unqueued fun c hc => by rw [h c hc]; rfl, hnotices, hchannels]
  rfl

/-- An event in which one channel has a part. -/
theorem fanEvent_single {f : Channel → Eff} {s : State} {before after : List Channel} {c : Channel}
    (hs : s.channels = before ++ c :: after) (ho : ∀ k ∈ before ++ after, f k = .quiet k) : fanEvent f s =
      applyChanges (f c).changes { s with channels := before ++ (f c).ch :: after, ring := ringing (f c).notices s } := by
  have hbefore : ∀ k ∈ before, f k = .quiet k := fun k hk => ho k (List.mem_append_left _ hk)
  have hafter : ∀ k ∈ after, f k = .quiet k := fun k hk => ho k (List.mem_append_right _ hk)
  have hsame : ∀ l : List Channel, (∀ k ∈ l, f k = .quiet k) → (l.map fun k => (f k).ch) = l := by
    intro l hl
    conv_rhs => rw [← List.map_id l]
    exact List.map_congr_left fun k hk => by rw [hl k hk]; rfl
  have hnotices : ∀ l : List Channel, (∀ k ∈ l, f k = .quiet k) → (l.flatMap fun k => (f k).notices) = [] :=
    fun l hl => List.flatMap_eq_nil_iff.mpr fun k hk => by rw [hl k hk]; rfl
  have hchanges : ∀ l : List Channel, (∀ k ∈ l, f k = .quiet k) → (l.flatMap fun k => (f k).changes) = [] :=
    fun l hl => List.flatMap_eq_nil_iff.mpr fun k hk => by rw [hl k hk]; rfl
  rw [fanEvent_eq]
  simp only [hs, List.map_append, List.map_cons, List.flatMap_append, List.flatMap_cons, hsame _ hbefore, hsame _ hafter,
    hnotices _ hbefore, hnotices _ hafter, hchanges _ hbefore, hchanges _ hafter, List.nil_append, List.append_nil]

/-- One event of the channel under a number. -/
theorem fanEventAt_split {n : Nat} (f : Channel → Eff) {s : State} {before after : List Channel} {c : Channel}
    (hs : s.channels = before ++ c :: after) (hc : c.record.channel = n) (ho : ∀ k ∈ before ++ after, k.record.channel ≠ n) :
    fanEventAt n f s =
      applyChanges (f c).changes { s with channels := before ++ (f c).ch :: after, ring := ringing (f c).notices s } := by
  have h := fanEvent_single (f := fun k => if k.number = n then f k else .quiet k) hs fun k hk => if_neg (ho k hk)
  simp only [if_pos (show c.number = n from hc)] at h
  exact h

/-! ## Claims handed over -/

theorem resolveChannels_aside (silent : Bool) (choose : Channel → Bool) (l : Loop) (d : Nat) (s : State) :
    resolveChannels silent choose (aside l d s) = aside l d (resolveChannels silent choose s) := fanEvent_aside _ l d s

theorem handOver_aside (silent : Bool) (changed : List Nat) (l : Loop) (d : Nat) (s : State) :
    handOver silent changed (aside l d s) = aside l d (handOver silent changed s) :=
  resolveChannels_aside silent _ l d { s with
    handed := (s.zones.filter fun z => changed.contains z.number).foldl (fun l z => upsert HandedClaim.zone z.handedClaim l) s.handed }

theorem commitZones_aside (zones : List Zone) (l : Loop) (d : Nat) (s : State) :
    commitZones zones (aside l d s) = aside l d (commitZones zones s) := by
  have h := handOver_aside false (claimsChanged s.zones zones) l d { s with zones := zones }
  unfold commitZones
  rw [raiseAll_eq, raiseAll_eq]
  exact congrArg (fun t : State => { t with ring := t.ring.raised t.uptime (stateNotices s.zones zones) }) h

/-- With no claim changed nothing is handed over. -/
theorem handOver_nil (silent : Bool) (s : State) : handOver silent [] s = s := by
  have hgiven : (s.zones.filter fun z => ([] : List Nat).contains z.number) = [] := by simp
  unfold handOver
  rw [hgiven]
  exact fanEvent_none fun c _ => rfl

theorem commitZones_frame (zones : List Zone) (s : State) : commitZones zones s = { s with
    zones := zones
    handed := (commitZones zones s).handed
    channels := (commitZones zones s).channels
    queue := (commitZones zones s).queue
    held := (commitZones zones s).held
    ring := (commitZones zones s).ring } := by
  obtain ⟨given, hgiven⟩ : ∃ given, given = zones.filter fun z => (claimsChanged s.zones zones).contains z.number := ⟨_, rfl⟩
  obtain ⟨c, q, h, n, hresolved⟩ := resolveChannels_fan false (fun c => given.any (Zone.binds c.number))
    { s with zones := zones, handed := given.foldl (fun l z => upsert HandedClaim.zone z.handedClaim l) s.handed }
  unfold commitZones handOver
  dsimp only
  rw [← hgiven, hresolved, raiseAll_eq]

end Sys2Proof.BayLoop
end

