-- ==== Sys2Proof/Proofs/BayLoopCycle.lean ====
section
/-! PROOFS. The parts of a cycle: the loop-state check, the completion, the service exchange, the command phase, the mark and the polls
(R1 to R7, R11 to R13, R19, R47, R159 to R161). -/

namespace Sys2Proof.BayLoop

open Sys2Proof.Machine Sys2Proof.Claims

/-! ## What resolutions say and keep -/

/-- FAN_STATE and the channels' FIRE_CONFLICT, the notices of a resolution. -/
def FanNotice (n : NoticeBody) : Prop := (∃ c a b, n = .fanState c a b) ∨ ∃ c z, n = .channelConflict c z

theorem startSequence_notices (c : Channel) : (startSequence c).notices = [] := by
  unfold startSequence
  split <;> rfl

theorem enterOff_notices (c : Channel) : (enterOff c).notices = [.fanState c.number .off c.state] := by
  have hnext : ∀ d : Channel, (if 0 < d.target ∧ d.holding = false then startSequence d else Eff.quiet d).notices = [] := by
    intro d
    split
    · exact startSequence_notices d
    · rfl
  exact congrArg (NoticeBody.fanState c.number .off c.state :: ·) (hnext _)

theorem applyTarget_notices (c : Channel) : ∀ n ∈ (applyTarget c).notices, FanNotice n := by
  have hoff : ∀ n ∈ (enterOff c).notices, FanNotice n := by
    rw [enterOff_notices]
    exact fun n hn => .inl ⟨_, _, _, List.mem_singleton.mp hn⟩
  have hnone : ∀ e : Eff, e.notices = [] → ∀ n ∈ e.notices, FanNotice n := by
    intro e he n hn
    rw [he] at hn
    cases hn
  unfold applyTarget
  cases c.state <;> dsimp only
  case opening => split; exacts [hoff, hnone _ rfl]
  case queued => split; exacts [hoff, hnone _ rfl]
  case off => split; exacts [hnone _ (startSequence_notices c), hnone _ rfl]
  case sync => exact hnone _ rfl
  case fault => exact hnone _ rfl
  case starting => split <;> exact hnone _ rfl
  case running => split <;> exact hnone _ rfl
  case stopping => split_ifs <;> exact hnone _ rfl
  case lost => split_ifs <;> exact hnone _ rfl

theorem conflictNotice_fan (silent : Bool) (d : Demand) (c : Channel) : ∀ n ∈ conflictNotice silent d c, FanNotice n := by
  unfold conflictNotice
  split
  · split
    · exact fun _ h => nomatch h
    · exact fun n hn => .inr ⟨_, _, List.mem_singleton.mp hn⟩
  · exact fun _ h => nomatch h

/-- A channel with the class, the target and the conflict of a demand, before its state's rule acts (R77 to R79). -/
def demanded (d : Demand) (c : Channel) : Channel :=
  { c with
    conflict := d.conflict.isSome, cls := d.cls, target := if c.state = .fault then 0 else d.want
    command := c.command.map fun i => { i with fallback := d.cls.fallback } }

theorem resolve_same (silent : Bool) {d : Demand} {c : Channel}
    (h : c.cls = d.cls ∧ c.target = if c.state = .fault then 0 else d.want) :
    resolve silent d c = ⟨{ c with conflict := d.conflict.isSome }, conflictNotice silent d c, []⟩ := if_pos h

theorem resolve_moved (silent : Bool) {d : Demand} {c : Channel}
    (h : ¬ (c.cls = d.cls ∧ c.target = if c.state = .fault then 0 else d.want)) :
    resolve silent d c = ⟨(applyTarget (demanded d c)).ch, conflictNotice silent d c ++ (applyTarget (demanded d c)).notices,
      (applyTarget (demanded d c)).changes ++ queueMove c (applyTarget (demanded d c)).ch⟩ := if_neg h

theorem resolve_notices (silent : Bool) (d : Demand) (c : Channel) : ∀ n ∈ (resolve silent d c).notices, FanNotice n := by
  by_cases h : c.cls = d.cls ∧ c.target = if c.state = .fault then 0 else d.want
  · rw [resolve_same silent h]
    exact conflictNotice_fan silent d c
  · rw [resolve_moved silent h]
    intro n hn
    rcases List.mem_append.mp hn with hn | hn
    · exact conflictNotice_fan silent d c n hn
    · exact applyTarget_notices _ n hn

/-- What the moves of a channel never touch: its record, whether it is provisional, its counts of cycles and misses. -/
def Steady (c d : Channel) : Prop :=
  d.record = c.record ∧ d.provisional = c.provisional ∧ d.cyclesSince = c.cyclesSince ∧ d.misses = c.misses

theorem leaveStart_steady (c : Channel) : Steady c c.leaveStart := by
  unfold Channel.leaveStart
  split <;> exact ⟨rfl, rfl, rfl, rfl⟩

theorem startSequence_steady (c : Channel) : Steady c (startSequence c).ch := by
  unfold startSequence
  split <;> exact ⟨rfl, rfl, rfl, rfl⟩

theorem enterOff_steady (c : Channel) : Steady c (enterOff c).ch := by
  unfold enterOff Eff.andThen
  dsimp only
  split
  · exact startSequence_steady _
  · exact ⟨rfl, rfl, rfl, rfl⟩

theorem enterStopping_steady (c : Channel) : Steady c (enterStopping c).ch := leaveStart_steady c

theorem applyTarget_steady (c : Channel) : Steady c (applyTarget c).ch := by
  have hsame : Steady c c := ⟨rfl, rfl, rfl, rfl⟩
  unfold applyTarget
  cases c.state <;> dsimp only
  case sync => exact hsame
  case off => split; exacts [startSequence_steady c, hsame]
  case opening => split; exacts [enterOff_steady c, hsame]
  case queued => split; exacts [enterOff_steady c, hsame]
  case starting => split; exacts [enterStopping_steady c, hsame]
  case running => split; exacts [enterStopping_steady c, hsame]
  case stopping => split_ifs <;> exact hsame
  case fault => split <;> exact hsame
  case lost => split_ifs <;> exact hsame

theorem resolve_steady (silent : Bool) (d : Demand) (c : Channel) : Steady c (resolve silent d c).ch := by
  by_cases h : c.cls = d.cls ∧ c.target = if c.state = .fault then 0 else d.want
  · rw [resolve_same silent h]
    exact ⟨rfl, rfl, rfl, rfl⟩
  · rw [resolve_moved silent h]
    exact applyTarget_steady (demanded d c)

/-- A resolution of some channels keeps of every channel what is steady. -/
theorem resolveChannels_map {β : Type} (g : Channel → β) (hg : ∀ c d, Steady c d → g d = g c) (silent : Bool)
    (choose : Channel → Bool) (s : State) : (resolveChannels silent choose s).channels.map g = s.channels.map g := by
  refine fanEvent_map g (fun c => hg c _ ⟨rfl, rfl, rfl, rfl⟩) (fun c => ?_) s
  split
  · exact hg c _ (resolve_steady silent _ c)
  · rfl

theorem commitZones_map {β : Type} (g : Channel → β) (hg : ∀ c d, Steady c d → g d = g c) (zones : List Zone) (s : State) :
    (commitZones zones s).channels.map g = s.channels.map g := by
  unfold commitZones
  rw [raiseAll_eq]
  exact resolveChannels_map g hg false _ _

/-- The notices of a hand-over with ZONE_STATE: the channels' first. -/
theorem commitZones_ring (zones : List Zone) (s : State) : ∃ fans : List NoticeBody,
    (∀ n ∈ fans, FanNotice n) ∧ (commitZones zones s).ring = ringing (fans ++ stateNotices s.zones zones) s := by
  obtain ⟨fans, hfans, hring⟩ : ∃ fans : List NoticeBody, (∀ n ∈ fans, FanNotice n)
      ∧ (handOver false (claimsChanged s.zones zones) { s with zones := zones }).ring = ringing fans s := by
    refine ⟨_, fun n hn => ?_, fanEvent_ring _ _⟩
    obtain ⟨c, -, hc⟩ := List.mem_flatMap.mp hn
    dsimp only at hc
    split at hc
    · exact resolve_notices false _ c n hc
    · cases hc
  obtain ⟨-, -, -, -, huptime, -⟩ := (handOver_zone false (claimsChanged s.zones zones) { s with zones := zones }).work.keeps
  refine ⟨fans, hfans, ?_⟩
  unfold commitZones
  rw [raiseAll_eq]
  dsimp only
  rw [hring, huptime, ringing_eq, ringing_eq, Ring.raised_append]

/-! ## The completion of a cycle -/

/-- Whether the loop-state check of a cycle's end takes the loop DOWN (R11). -/
abbrev Falls (l : Loop) : Prop := (l.valid = false ∧ l.polled = true) ∧ l.state = .running ∧ 2 ≤ l.dead

/-- The notice of a loop that falls. -/
def downNotices (l : Loop) : List NoticeBody := if Falls l then [.loopState .down l.cycle] else []

/-- The loop after its check (R11). -/
def checkedLoop (l : Loop) : Loop :=
  { l with
    dead := if l.valid = true then 0 else if l.polled = true then min (l.dead + 1) 3 else l.dead
    state := if Falls l then .down else l.state }

theorem loopCheck_eq (s : State) :
    loopCheck s = { s with loop := checkedLoop s.loop, ring := ringing (downNotices s.loop) s } := by
  unfold loopCheck checkedLoop downNotices
  by_cases hv : s.loop.valid = true
  · simp [Falls, hv, ringing]
  · by_cases hp : s.loop.polled = true
    · have hdead : min (s.loop.dead + 1) 3 = 3 ↔ 2 ≤ s.loop.dead := by omega
      by_cases hf : s.loop.state = .running ∧ 2 ≤ s.loop.dead
      · simp [Falls, hv, hp, hf, ringing, raise]
      · simp [Falls, hv, hp, hf, hdead, ringing]
    · have hf : ¬ Falls s.loop := fun ⟨⟨_, hpolled⟩, _⟩ => hp hpolled
      simp only [if_neg hv, if_neg hp, if_neg hf]
      rfl

/-- The loop once its cycle is complete: checked, numbered on, in BLANK and LOADING with its discovery cycle closed (R6, R11, R13). -/
def endedLoop (s : State) : Loop :=
  { s.loop with
    phase := .idle
    cycle := s.loop.cycle + 1
    dead := (checkedLoop s.loop).dead
    state := (checkedLoop s.loop).state
    pointer := if ¬ (s.mode = .blank ∨ s.mode = .loading) then s.loop.pointer
      else if s.loop.pointer = 3 then 0 else s.loop.pointer + 1
    sweep := if (s.mode = .blank ∨ s.mode = .loading) ∧ s.loop.pointer = 3 then s.loop.sweep + 1 else s.loop.sweep }

theorem failsafe_iff (s : State) : s.failsafe = true ↔ s.mode = .blank ∨ s.mode = .loading := by
  cases h : s.mode <;> simp [State.failsafe, Mode.scheduled, h]

theorem endedLoop_eq (s : State) :
    let l := if s.failsafe then (checkedLoop s.loop).closeDiscovery else checkedLoop s.loop
    { l with cycle := l.cycle + 1, phase := .idle } = endedLoop s := by
  unfold endedLoop Loop.closeDiscovery
  by_cases hm : s.mode = .blank ∨ s.mode = .loading
  · by_cases hp : s.loop.pointer = 3 <;> simp [failsafe_iff, hm, checkedLoop, hp]
  · simp [failsafe_iff, hm, checkedLoop]

/-- The state with its cycle ended but for the zones and the counts of the channels. -/
def checkedState (s : State) : State := { s with loop := endedLoop s, ring := ringing (downNotices s.loop) s }

/-- What the evaluation makes of a zone (R46 to R54). -/
def evaluated (heads : List Head) (z : Zone) : Zone := (z.refresh heads).decided

theorem completeCycle_unevaluated {s : State} (h : s.evaluates = false) :
    completeCycle s = { checkedState s with channels := s.channels.map Channel.countCycle } := by
  unfold completeCycle checkedState
  rw [h, loopCheck_eq, ← endedLoop_eq]
  rfl

theorem commitZones_loop (zones : List Zone) (s : State) : (commitZones zones s).loop = s.loop := by
  rw [commitZones_frame]

theorem commitZones_draws (zones : List Zone) (s : State) : (commitZones zones s).draws = s.draws := by
  rw [commitZones_frame]

/-- An evaluated completion: the zones' event on the state with the cycle ended, then the channels' counts. -/
theorem completeCycle_evaluated {s : State} (h : s.evaluates = true) :
    completeCycle s =
      let u := commitZones (s.zones.map (evaluated s.heads)) (checkedState s)
      { u with channels := u.channels.map Channel.countCycle } := by
  have haside : commitZones (s.zones.map (evaluated s.heads)) (checkedState s) =
      aside (endedLoop s) s.draws (evaluate (loopCheck s)) := by
    rw [loopCheck_eq]
    exact commitZones_aside (s.zones.map (evaluated s.heads)) (endedLoop s) s.draws
      { s with loop := checkedLoop s.loop, ring := ringing (downNotices s.loop) s }
  have hloop : (evaluate (loopCheck s)).loop = checkedLoop s.loop := by
    rw [loopCheck_eq]
    exact commitZones_loop _ _
  have hdraws : (evaluate (loopCheck s)).draws = s.draws := by
    rw [loopCheck_eq]
    exact commitZones_draws _ _
  unfold completeCycle
  dsimp only
  rw [h, if_pos rfl, haside, hloop, ← endedLoop_eq, ← hdraws]
  rfl

/-- With no claim changed an evaluation moves no channel. -/
theorem commitZones_unclaimed {zones : List Zone} {s : State} (h : claimsChanged s.zones zones = []) :
    commitZones zones s = { s with zones := zones, ring := ringing (stateNotices s.zones zones) s } := by
  unfold commitZones
  rw [h, handOver_nil, raiseAll_eq]
  rfl

theorem claimsChanged_map_eq_nil {f : Zone → Zone} {zones : List Zone}
    (h : ∀ z ∈ zones, (f z).claim = z.claim ∧ (f z).claimClass = z.claimClass) : claimsChanged zones (zones.map f) = [] := by
  unfold claimsChanged
  rw [List.map_eq_nil_iff, List.filter_eq_nil_iff, ← List.map_prod_left_eq_zip]
  intro p hp hdiffers
  obtain ⟨z, hz, rfl⟩ := List.mem_map.mp hp
  obtain ⟨hclaim, hclass⟩ := h z hz
  rcases (claimDiffers_iff z (f z)).mp hdiffers with hne | hne
  · exact hne hclaim.symm
  · exact hne hclass.symm

theorem stateNotices_map (f : Zone → Zone) (zones : List Zone) : stateNotices zones (zones.map f) =
    (zones.filter fun z => (f z).state ≠ z.state).map fun z => (f z).notice := by
  unfold stateNotices
  rw [← List.map_prod_left_eq_zip, List.filter_map, List.map_map]
  congr 1
  exact List.filter_congr fun z _ => by simp only [Function.comp_apply, ne_comm]

theorem reclaim_record (z : Zone) : z.reclaim.record = z.record := by
  unfold Zone.reclaim
  split <;> rfl

theorem evaluated_record (heads : List Head) (z : Zone) : (evaluated heads z).record = z.record := by
  unfold evaluated Zone.decided
  split
  · exact reclaim_record _
  · rfl

theorem stateNotices_evaluated (heads : List Head) (zones : List Zone) : stateNotices zones (zones.map (evaluated heads)) =
    (zones.filter fun z => (evaluated heads z).state ≠ z.state).map fun z =>
      .zoneState z.record.zone (evaluated heads z).state (evaluated heads z).coLevel (evaluated heads z).no2Level := by
  rw [stateNotices_map]
  exact List.map_congr_left fun z _ => by rw [Zone.notice, Zone.number, evaluated_record]

/-- The completion of a cycle is the word `CycleEnds` of the statements. -/
theorem completeCycle_ends (s : State) : CycleEnds s (completeCycle s) := by
  have hunloaded : (s.mode = .blank ∨ s.mode = .loading) ↔ s.mode.scheduled = false := by
    cases s.mode <;> simp [Mode.scheduled]
  refine ⟨fun h => ?_, fun hloaded horphan => ?_⟩
  · have he : s.evaluates = false := by
      rw [hunloaded] at h
      rcases h with h | h <;> simp [State.evaluates, h]
    exact completeCycle_unevaluated he
  · have he : s.evaluates = true := by
      rw [hunloaded] at hloaded
      simp [State.evaluates, horphan, hloaded]
    rw [completeCycle_evaluated he]
    obtain ⟨fans, hfans, hring⟩ := commitZones_ring (s.zones.map (evaluated s.heads)) (checkedState s)
    have hframe := commitZones_frame (s.zones.map (evaluated s.heads)) (checkedState s)
    have hcounts := commitZones_map (fun c => (c.record, min (c.cyclesSince + 1) 255))
      (fun c d ⟨hrecord, _, hcycles, _⟩ => by rw [hrecord, hcycles]) (s.zones.map (evaluated s.heads)) (checkedState s)
    refine ⟨?frame, ?counts, ?ring, ?unclaimed, ?whole⟩
    case frame =>
      exact congrArg (fun u : State => { u with channels := u.channels.map Channel.countCycle }) hframe
    case counts =>
      dsimp only
      rw [List.map_map]
      exact hcounts
    case ring =>
      refine ⟨fans, hfans, hring.trans ?_⟩
      have hstates : stateNotices (checkedState s).zones (s.zones.map (evaluated s.heads)) = _ :=
        stateNotices_evaluated s.heads s.zones
      rw [hstates, List.append_assoc]
      exact (Ring.raised_append s.ring s.uptime (downNotices s.loop) _).symm
    case unclaimed =>
      intro hclaims
      have hnone : claimsChanged (checkedState s).zones (s.zones.map (evaluated s.heads)) = [] := claimsChanged_map_eq_nil hclaims
      rw [commitZones_unclaimed hnone]
      exact ⟨rfl, rfl, rfl, rfl⟩
    case whole => 
      rw [← zonesBecome_eq]
      rfl

/-! ## The service exchange -/

theorem slot_attempt_eq_none {slot : ServiceSlot} (h : ∀ k ms n r, slot = .working k ms n false r → ms[r.length]? = none) :
    slot.attempt = none := by
  unfold ServiceSlot.attempt
  split
  · rw [h _ _ _ _ rfl]
    rfl
  · rfl

/-- The fourth part of a cycle is the word `ServiceBegins` of the statements. -/
theorem startService_begins (s : State) : ServiceBegins s (startService s) := by
  refine ⟨fun k ms n r m hslot hm => ?_, fun hnone => ?_⟩
  · have hattempt : s.slot.attempt = some ⟨m.address, k.item, k.value⟩ := by simp only [hslot, ServiceSlot.attempt, hm, Option.map_some]
    have hgone : s.slot.handedOver = .working k ms n true r := by rw [hslot]; rfl
    simp only [startService, hattempt, hgone]
    rfl
  · simp only [startService, slot_attempt_eq_none hnone]
    exact completeCycle_ends s

/-! ## The command phase -/

theorem nextCommand_sent {n : Nat} {rest : List Nat} {s : State} {c : Channel} {i : Image}
    (hc : lookup Channel.number n s.channels = some c) (hi : c.command = some i) :
    nextCommand (n :: rest) s = setPhase (.commands ⟨some n, c.record.address, i⟩ rest) s := by
  have h : s.commandFor n = some ⟨some n, c.record.address, i⟩ := by simp [State.commandFor, hc, hi]
  simp only [nextCommand, h]

/-- The third part of a cycle is the word `CommandsBegin` of the statements. -/
theorem startCommands_begins (s : State) : CommandsBegin s (startCommands s) := by
  refine ⟨fun hnone => ?_, fun n rest c i hsome hc hi => ?_⟩
  · simp only [startCommands, hnone]
    exact startService_begins s
  · simp only [startCommands, hsome]
    exact nextCommand_sent hc hi

/-! ## A VALID reply -/

/-- The notice of a loop that a VALID reply brings up again (R12). -/
def upNotices (valid : Bool) (l : Loop) : List NoticeBody :=
  if valid = true ∧ l.state = .down then [.loopState .running l.cycle] else []

/-- The loop once a reply has been counted (R11, R12). -/
def notedLoop (valid : Bool) (l : Loop) : Loop :=
  { l with
    valid := l.valid || valid
    state := if valid = true then .running else l.state
    dead := if valid = true ∧ l.state = .down then 0 else l.dead }

theorem noteIf_eq (valid : Bool) (s : State) :
    noteIf valid s = { s with loop := notedLoop valid s.loop, ring := ringing (upNotices valid s.loop) s } := by
  cases valid with
  | false => simp [noteIf, notedLoop, upNotices, ringing]
  | true =>
    cases hs : s.loop.state with
    | running => simp [noteIf, noteValid, notedLoop, upNotices, hs, ringing]
    | down => simp [noteIf, noteValid, notedLoop, upNotices, hs, ringing, raise]

theorem upNotices_true (l : Loop) : upNotices true l = if l.state = .down then [.loopState .running l.cycle] else [] := by
  simp [upNotices]

theorem notedLoop_true (l : Loop) :
    notedLoop true l = { l with valid := true, state := .running, dead := if l.state = .down then 0 else l.dead } := by
  simp [notedLoop]

theorem upNotices_false (l : Loop) : upNotices false l = [] := by simp [upNotices]

theorem notedLoop_false (l : Loop) : notedLoop false l = l := by simp [notedLoop]

/-! ## The end of a service exchange -/

theorem serviceEnd_eq {a : Attempt} {s : State} (reply : List Byte) (hd : s.loop.draining ≠ some .service)
    (hphase : s.loop.phase = .service a) : serviceEnd reply s = endService a reply s := by
  cases hl : s.loop.draining with
  | none => simp only [serviceEnd, hl, hphase]
  | some left =>
    cases left with
    | poll => simp only [serviceEnd, hl, hphase]
    | command x => simp only [serviceEnd, hl, hphase]
    | service => exact absurd hl hd

/-- Every reply to a service exchange but a value and a rejection is a failed exchange (R20). -/
theorem classifyService_failed {got : Received} (h : ¬ ((∃ d, got = .complete .value d) ∨ ∃ d, got = .complete .rejected d)) :
    (classifyService got).1 ≠ .valid ∧ (classifyService got).2 = none := by
  cases got with
  | silent => exact ⟨by decide, rfl⟩
  | short => exact ⟨by decide, rfl⟩
  | damaged => exact ⟨by decide, rfl⟩
  | complete kind d =>
    cases kind with
    | head => exact ⟨by simp [classifyService], rfl⟩
    | drive => exact ⟨by simp [classifyService], rfl⟩
    | ack => exact ⟨by simp [classifyService], rfl⟩
    | value => exact absurd (.inl ⟨d, rfl⟩) h
    | rejected => exact absurd (.inr ⟨d, rfl⟩) h

/-- A reply counted for the loop, with further notices and a new slot: what the end of a service exchange delivers. -/
def servedWith (valid : Bool) (more : List NoticeBody) (slot : ServiceSlot) (s : State) : State :=
  { s with slot := slot, ring := ringing (upNotices valid s.loop ++ more) s, loop := notedLoop valid s.loop }

theorem noteIf_served (valid : Bool) (more : List NoticeBody) (slot : ServiceSlot) (s : State) :
    { noteIf valid s with slot := slot, ring := ringing more (noteIf valid s) } = servedWith valid more slot s := by
  rw [noteIf_eq, servedWith, ringing_eq (upNotices valid s.loop ++ more) s, Ring.raised_append]
  rfl

theorem noteIf_slot (valid : Bool) (s : State) : (noteIf valid s).slot = s.slot := by rw [noteIf_eq]

theorem noteIf_kept (valid : Bool) (s : State) : noteIf valid s = servedWith valid [] s.slot s := by
  rw [← noteIf_served, ← noteIf_slot valid s]
  rfl

/-- What a member done leaves: the slot READY with its notice after the last member, else WORKING on the next (R160, R161). -/
def doneWith (valid : Bool) (k : ServiceKey) (ms : List Member) (result : List ResultEntry) (s : State) : State :=
  if ms.length ≤ result.length then
    servedWith valid [.remoteReady k.target k.op (result.filter fun x => x.outcome ≠ .ok).length] (.ready k ms result ⟨10, false⟩) s
  else servedWith valid [] (.working k ms 0 false result) s

theorem memberDone_noteIf (valid : Bool) (k : ServiceKey) (ms : List Member) (result : List ResultEntry) (s : State) :
    memberDone k ms result (noteIf valid s) = doneWith valid k ms result s := by
  unfold memberDone doneWith
  rw [← noteIf_served, ← noteIf_served]
  rfl

section Delivery

variable {k : ServiceKey} {ms : List Member} {n : Nat} {r : List ResultEntry} {m : Member} {s : State}
  (hslot : s.slot = .working k ms n true r) (hm : ms[r.length]? = some m)

include hslot hm

theorem deliverService_value (v : Nat) (valid : Bool) : deliverService (some (.value v)) (noteIf valid s) =
    doneWith valid k ms (r ++ [⟨m.address, .ok, some v⟩]) s := by
  rw [← memberDone_noteIf, deliverService, noteIf_slot, hslot]
  simp only [hm, Option.map_some, Option.getD_some]

theorem deliverService_rejected (valid : Bool) : deliverService (some .rejected) (noteIf valid s) =
    doneWith valid k ms (r ++ [⟨m.address, .rejected, none⟩]) s := by
  rw [← memberDone_noteIf, deliverService, noteIf_slot, hslot]
  simp only [hm, Option.map_some, Option.getD_some]

theorem deliverService_failed (valid : Bool) : deliverService none (noteIf valid s) =
    if n < 2 then servedWith valid [] (.working k ms (n + 1) false r) s
    else doneWith valid k ms (r ++ [⟨m.address, .noResponse, none⟩]) s := by
  rw [← memberDone_noteIf, ← noteIf_served, deliverService, noteIf_slot, hslot]
  simp only [hm, Option.map_some, Option.getD_some]
  rfl

end Delivery

/-- A delivery that no attempt waits for is discarded. -/
theorem deliverService_unawaited {s : State} (h : ∀ k ms n r, s.slot ≠ .working k ms n true r) (reply : Option ServiceReply)
    (valid : Bool) : deliverService reply (noteIf valid s) = servedWith valid [] s.slot s := by
  rw [deliverService, noteIf_slot, ← noteIf_kept]
  split
  next hs => exact absurd hs (h _ _ _ _)
  · rfl

/-- Settles O38: the state between the delivery and the completion is read off the delivery's lemmas, and the completion is
`completeCycle_ends`. -/
theorem serviceExchangeEndsTheCycle : Obligations.ServiceExchangeEndsTheCycle := by
  intro a reply s hp hd hphase got valid noted
  have hnoted (ok : Bool) (more : List NoticeBody) (slot : ServiceSlot) : noted ok more slot = servedWith ok more slot s := by
    simp only [noted, decide_eq_true_eq]
    rfl
  have hexec : exec (.serviceSlotEnd reply) s =
      .next (completeCycle (deliverService (classifyService got).2 (noteIf (decide ((classifyService got).1 = .valid)) s))) := by
    rw [exec_serviceSlotEnd, powered_running hp, serviceEnd_eq reply hd hphase]
    rfl
  refine ⟨_, _, hexec, completeCycle_ends _, fun k ms n r m hslot hm => ?_, fun hnone => ⟨fun h => ?_, fun h => ?_⟩⟩
  · intro done
    have hdone (ok : Bool) (e : ResultEntry) : done ok e = doneWith ok k ms (r ++ [e]) s := by
      simp only [done, hnoted, doneWith, List.length_append, List.length_singleton]
    refine ⟨fun d h => ?_, fun d h => ?_, fun h hn => ?_, fun h hn => ?_⟩
    · rw [h, hdone]
      exact deliverService_value hslot hm _ true
    · rw [h, hdone]
      exact deliverService_rejected hslot hm true
    · obtain ⟨hclass, hbody⟩ := classifyService_failed h
      rw [hbody, decide_eq_false hclass, deliverService_failed hslot hm, if_pos hn, hnoted]
    · obtain ⟨hclass, hbody⟩ := classifyService_failed h
      rw [hbody, decide_eq_false hclass, deliverService_failed hslot hm, if_neg (Nat.not_lt.mpr hn), hdone]
  · rw [hnoted]
    rcases h with ⟨d, h⟩ | ⟨d, h⟩ <;> rw [h] <;> exact deliverService_unawaited hnone _ true
  · obtain ⟨hclass, -⟩ := classifyService_failed h
    rw [decide_eq_false hclass, hnoted]
    exact deliverService_unawaited hnone _ false

end Sys2Proof.BayLoop
end

