-- ==== Sys2Proof/Proofs/BayLoopBoundary.lean ====
section
/-! PROOFS. A boundary of the cycle: the mark, the polls due, what the drives hear (R1 to R3, R7, R13, R19). -/

namespace Sys2Proof.BayLoop

open Sys2Proof.Machine Sys2Proof.Claims

/-! ## What is due -/

theorem scheduled_iff (m : Mode) : m.scheduled = true ↔ m = .run ∨ m = .manual := by cases m <;> simp [Mode.scheduled]

theorem unscheduled_iff (m : Mode) : m.scheduled = false ↔ m = .blank ∨ m = .loading := by cases m <;> simp [Mode.scheduled]

/-- The queries of a discovery cycle before the last of its sweep (R13). -/
theorem queryAddresses_early {pointer : Nat} (h : pointer ≠ 3) :
    queryAddresses pointer = (16 * pointer + 1) :: (List.range 15).map fun n => 16 * pointer + 2 + n := by
  rw [queryAddresses, if_neg h, List.range'_succ, List.range'_eq_map_range]

/-- The queries of the last cycle of a sweep (R13). -/
theorem queryAddresses_last : queryAddresses 3 = 49 :: (List.range 14).map fun n => 50 + n := by
  rw [queryAddresses, if_pos rfl, List.range'_succ, List.range'_eq_map_range]

theorem duePolls_scheduled {s : State} {a : Active} (hm : s.mode.scheduled = true) (ha : s.active = some a) :
    s.duePolls = (a.schedule.filter fun e => s.loop.cycle.toNat % e.divider == e.phase).map fun e => ⟨e.address, .only e.kind⟩ := by
  simp only [State.duePolls, ha, hm, if_true]
  rfl

theorem duePolls_unscheduled {s : State} (hm : s.mode.scheduled = false) :
    s.duePolls = (queryAddresses s.loop.pointer).map fun a => ⟨a, .any⟩ := by
  cases ha : s.active <;> simp [State.duePolls, ha, hm]

/-! ## The cycle that begins -/

/-- The loop as a cycle opens, before its first exchange (R2, R3). -/
def openedLoop (s : State) : Loop :=
  { s.loop with
    cyclePeriod := s.period
    mark := ⟨s.loop.cycle, s.period⟩
    polled := !s.duePolls.isEmpty
    valid := false
    orphan := false
    drives := marked s.period s.loop.drives }

theorem beginCycle_polls {s : State} {p : Poll} {rest : List Poll} (h : s.duePolls = p :: rest) :
    beginCycle s = { s with loop := { openedLoop s with phase := .polls p rest } } := by
  unfold beginCycle openedLoop
  rw [h]
  rfl

theorem beginCycle_unpolled {s : State} (h : s.duePolls = []) : beginCycle s = startCommands { s with loop := openedLoop s } := by
  unfold beginCycle openedLoop
  rw [h]
  rfl

theorem cycleBoundary_idle {s : State} (h : s.loop.phase = .idle) : cycleBoundary s = beginCycle s := by
  simp only [cycleBoundary, h]

theorem cycleBoundary_within {s : State} (h : s.loop.phase ≠ .idle) : cycleBoundary s = s := by
  unfold cycleBoundary
  split
  next hidle => exact absurd hidle h
  · rfl

/-! ## The mark stays to the end of its cycle -/

theorem completeCycle_mark (s : State) : (completeCycle s).loop.mark = s.loop.mark := by
  by_cases h : s.evaluates = true
  · rw [completeCycle_evaluated h]
    have hloop := congrArg Loop.mark (commitZones_loop (s.zones.map (evaluated s.heads)) (checkedState s))
    exact hloop
  · rw [completeCycle_unevaluated (Bool.eq_false_iff.mpr h)]
    rfl

theorem startService_mark (s : State) : (startService s).loop.mark = s.loop.mark := by
  unfold startService
  split
  · rfl
  · exact completeCycle_mark s

theorem nextCommand_mark (l : List Nat) (s : State) : (nextCommand l s).loop.mark = s.loop.mark := by
  induction l with
  | nil => exact startService_mark s
  | cons n rest ih =>
    unfold nextCommand
    split
    · rfl
    · exact ih

/-! ## What a drive obeys -/

theorem obeys_unknown {d : Drives} {address : Nat} (h : lookup DriveSide.address address d.sides = none) : d.obeys address = none := by
  unfold Drives.obeys Drives.fallback
  rw [h]
  simp

/-- A drive that has taken a command obeys it until four cycles are missed, then what its fallback says (R19). -/
theorem obeys_known {d : Drives} {address : Nat} {x : DriveSide} (h : lookup DriveSide.address address d.sides = some x) :
    d.obeys address = if x.missed < 4 then some (x.stored.setpoint, x.stored.damper) else match x.stored.fallback with
      | .hold => some (x.stored.setpoint, x.stored.damper)
      | .extract => some (100, .opn)
      | .stop => some (0, .close) := by
  unfold Drives.obeys Drives.missed Drives.fallback
  rw [h]
  rfl

theorem drives_obey (d : Drives) (address : Nat) :
    (d.sides.find? (fun x => x.address == address) = none → d.obeys address = none)
    ∧ ∀ x, d.sides.find? (fun x => x.address == address) = some x →
      (x.missed < 4 ∨ x.stored.fallback = .hold → d.obeys address = some (x.stored.setpoint, x.stored.damper))
      ∧ (4 ≤ x.missed → x.stored.fallback = .extract → d.obeys address = some (100, .opn))
      ∧ (4 ≤ x.missed → x.stored.fallback = .stop → d.obeys address = some (0, .close)) := by
  refine ⟨obeys_unknown, fun x h => ⟨fun hkeeps => ?_, fun hm hf => ?_, fun hm hf => ?_⟩⟩
  · rw [obeys_known h]
    split
    · rfl
    next hm =>
      rcases hkeeps with hlt | hf
      · exact absurd hlt hm
      · simp only [hf]
  · rw [obeys_known h, if_neg (Nat.not_lt.mpr hm)]
    simp only [hf]
  · rw [obeys_known h, if_neg (Nat.not_lt.mpr hm)]
    simp only [hf]

/-- Settles O39: the state a boundary leaves is fixed by the list of the polls due, empty or not. -/
theorem cyclesBeginWithMarkAndPolls : Obligations.CyclesBeginWithMarkAndPolls := by
  intro s hp
  rw [exec_cycleBegin, powered_running hp]
  refine ⟨fun hwithin => by rw [cycleBoundary_within hwithin], fun hidle => ?_, drives_obey⟩
  rw [cycleBoundary_idle hidle]
  intro period opened
  have hperiod : s.period = period := by
    cases ha : s.active <;> simp only [period, State.period, ha, scheduled_iff]
  have hopened (h : s.duePolls ≠ []) : openedLoop s = opened := by
    simp only [openedLoop, opened, hperiod, List.isEmpty_eq_false_iff.mpr h, Bool.not_false]
  have hpolls (p : Poll) (rest : List Poll) (h : s.duePolls = p :: rest) :
      beginCycle s = { s with loop := { opened with phase := .polls p rest } } := by
    rw [beginCycle_polls h, hopened (by rw [h]; exact List.cons_ne_nil _ _)]
  refine ⟨fun a e rest hm ha hdue => ?_, fun hm => ⟨fun hpointer => ?_, fun hpointer => ?_⟩, fun a hm ha hnone => ?_⟩
  · rw [hpolls]
    rw [duePolls_scheduled ((scheduled_iff _).mpr hm) ha, hdue, List.map_cons]
  · rw [hpolls]
    rw [duePolls_unscheduled ((unscheduled_iff _).mpr hm), queryAddresses_early (Nat.ne_of_lt hpointer), List.map_cons, List.map_map]
    rfl
  · rw [hpolls]
    rw [duePolls_unscheduled ((unscheduled_iff _).mpr hm), hpointer, queryAddresses_last, List.map_cons, List.map_map]
    rfl
  · have hdue : s.duePolls = [] := by
      rw [duePolls_scheduled ((scheduled_iff _).mpr hm) ha, hnone, List.map_nil]
    have hloop : openedLoop s = { opened with polled := false } := by
      simp only [openedLoop, opened, hperiod, hdue, List.isEmpty_nil, Bool.not_true]
    refine ⟨_, rfl, ?_, ?_⟩
    · rw [beginCycle_unpolled hdue, hloop]
      exact nextCommand_mark _ _
    · rw [beginCycle_unpolled hdue, hloop]
      exact startCommands_begins _

end Sys2Proof.BayLoop
end

