-- ==== Sys2Proof/Proofs/BayLoopPolls.lean ====
section
/-! PROOFS. The end of a poll's slot: what it delivers to a head and to a channel (R9, R10, R12, R27 to R38, R75, R76, R93, R209). -/

namespace Sys2Proof.BayLoop

open Sys2Proof.Machine Sys2Proof.Claims

/-! ## The end of a slot -/

theorem pollEnd_eq {p : Poll} {rest : List Poll} {s : State} (reply : List Byte) (hd : s.loop.draining ≠ some .poll)
    (hphase : s.loop.phase = .polls p rest) : pollEnd reply s = endPoll p rest reply s := by
  cases hl : s.loop.draining with
  | none => simp only [pollEnd, hl, hphase]
  | some left =>
    cases left with
    | poll => exact absurd hl hd
    | command x => simp only [pollEnd, hl, hphase]
    | service => simp only [pollEnd, hl, hphase]

theorem exec_pollEnd {p : Poll} {rest : List Poll} {s : State} (reply : List Byte) (hp : s.power = .running)
    (hd : s.loop.draining ≠ some .poll) (hphase : s.loop.phase = .polls p rest) :
    exec (.pollSlotEnd reply) s = .next (endPoll p rest reply s) := by
  rw [exec_pollSlotEnd, powered_running hp, pollEnd_eq reply hd hphase]

/-- The state with a poll's reply counted, classified and delivered (R9 to R12). -/
def delivered (p : Poll) (reply : List Byte) (s : State) : State :=
  let r := receive p.address reply
  let cls := classifyPoll p.expect r
  deliverPoll p r cls (noteIf (decide (cls = .valid)) s)

theorem endPoll_next (p next : Poll) (rest : List Poll) (reply : List Byte) (s : State) :
    endPoll p (next :: rest) reply s = setPhase (.polls next rest) (delivered p reply s) := rfl

theorem endPoll_last (p : Poll) (reply : List Byte) (s : State) : endPoll p [] reply s = startCommands (delivered p reply s) := rfl

/-- A reply of exactly its kind's length. -/
theorem receive_exact (address : Nat) {code : Byte} {data : List Byte} {kind : ReplyKind} (h : replyKind code = some kind)
    (hl : data.length + 2 = kind.length) (hsum : byteSum (code :: BitVec.ofNat 8 address :: data) = 0) (ha : address < 256) :
    receive address (code :: BitVec.ofNat 8 address :: data) = .complete kind (data.take (kind.length - 3)) := by
  have hsource : (BitVec.ofNat 8 address).toNat = address := by rw [BitVec.toNat_ofNat, Nat.mod_eq_of_lt ha]
  have hfull := receive_complete address (data := data) [] h hl hsum hsource
  rwa [List.append_nil] at hfull

/-! ## A head's poll -/

theorem deliverHead_split {address : Nat} (f : Head → Head × List NoticeBody) {s : State} {before after : List Head} {h : Head}
    (hs : s.heads = before ++ h :: after) (ha : h.record.address = address) (hfirst : ∀ k ∈ before, k.record.address ≠ address)
    (ho : ∀ k ∈ before ++ after, k.record.head ≠ h.record.head) :
    deliverHead address f s = { s with heads := before ++ (f h).1 :: after, ring := ringing (f h).2 s } := by
  have hfind : (s.heads.find? fun k => k.record.address == address) = some h := by
    rw [hs]
    exact lookup_split (key := fun k : Head => k.record.address) hfirst ha
  have hmodify : modify Head.number h.number (fun _ => (f h).1) s.heads = before ++ (f h).1 :: after := by
    rw [hs]
    exact modify_split ho rfl
  unfold deliverHead
  simp only [hfind, hmodify, raiseAll_eq]
  rfl

/-- A classified poll of a head, another poll following: the loop is counted, then the head moves. -/
theorem headPoll_ends {address : Nat} {next : Poll} {rest : List Poll} {s : State} (reply : List Byte) {before after : List Head} {h : Head}
    (hp : s.power = .running) (hd : s.loop.draining ≠ some .poll) (hphase : s.loop.phase = .polls ⟨address, .only .head⟩ (next :: rest))
    (hs : s.heads = before ++ h :: after) (ha : h.record.address = address) (hfirst : ∀ k ∈ before, k.record.address ≠ address)
    (ho : ∀ k ∈ before ++ after, k.record.head ≠ h.record.head) :
    let cls := classifyPoll (.only .head) (receive address reply)
    let valid := decide (cls = .valid)
    let r := h.polled s.loop.cycle s.missLimit (receive address reply) cls
    exec (.pollSlotEnd reply) s = .next { s with
      heads := before ++ r.1 :: after
      ring := ringing (upNotices valid s.loop ++ r.2) s
      loop := { notedLoop valid s.loop with phase := .polls next rest } } := by
  intro cls valid r
  have hdeliver := deliverHead_split (Head.polled s.loop.cycle s.missLimit (receive address reply) cls)
    (s := noteIf valid s) (by rw [noteIf_eq]; exact hs) ha hfirst ho
  have hexec : exec (.pollSlotEnd reply) s = .next (setPhase (.polls next rest)
      (deliverHead address (Head.polled s.loop.cycle s.missLimit (receive address reply) cls) (noteIf valid s))) := by
    rw [exec_pollEnd reply hp hd hphase, noteIf_eq]
    simp only [endPoll, noteIf_eq]
    rfl
  rw [hexec, hdeliver, noteIf_eq, ringing_eq (upNotices valid s.loop ++ r.2), Ring.raised_append]
  rfl

/-! ## What a poll does to its head -/

theorem polled_valid_head (cycle : CycleNumber) (limit : Nat) (data : List Byte) (h : Head) :
    h.polled cycle limit (.complete .head data) .valid = h.valid cycle (readHead data) := rfl

theorem polled_failed_head (cycle : CycleNumber) (limit : Nat) (r : Received) {cls : PollClass} (hc : cls ≠ .valid) (h : Head) :
    h.polled cycle limit r cls = h.failed limit cls := by
  unfold Head.polled
  split
  · exact absurd rfl hc
  · rfl

/-- The state a VALID reply leads to (R28, R33). -/
theorem stateAfter_eq (r : HeadReply) (h : Head) :
    h.stateAfter r = if h.state = .lost ∧ h.recover = 0 then .lost else r.flags.selects := by
  unfold Head.stateAfter
  cases hs : h.state <;> simp

/-- A window after a VALID reply (R27, R30, R36). -/
theorem windowAfter_eq (before after : HeadState) (has : Bool) (v : Nat) (w : List Nat) :
    windowAfter before after has v w =
      if after ≠ .live then []
      else
        let kept := if before = .live then w else []
        if has then (kept ++ [v]).drop (kept.length + 1 - 4) else kept := by
  cases after <;> simp [windowAfter, appendSample]

theorem calDueNotice_eq (h : Head) (r : HeadReply) (new : HeadState) : calDueNotice h r new =
    if r.flags.calDue = true ∧ h.flags.calDue = false then [.headCalDue h.record.head new h.record.address] else [] := by
  simp [calDueNotice, Head.number]

theorem headStateNotice_eq (h : Head) (new : HeadState) : headStateNotice h new =
    if new = h.state ∨ (h.state = .unseen ∧ (new = .live ∨ new = .warming)) then [] else [.headState h.record.head new h.state] := by
  unfold headStateNotice
  by_cases hsame : new = h.state
  · simp [hsame]
  · cases hs : h.state <;> cases new <;> simp_all [Head.number]

/-- Whether a failed poll takes a head to LOST (R32). -/
abbrev HeadFalls (limit : Nat) (h : Head) : Prop :=
  (h.state = .warming ∨ h.state = .live ∨ h.state = .faulty) ∧ limit ≤ if h.state = .unseen then h.misses else min (h.misses + 1) 255

/-- The miss counting of a failed poll (R31 to R33). -/
theorem head_miss_eq (limit : Nat) (h : Head) : h.miss limit =
    ({ h with
        misses := if h.state = .unseen then h.misses else min (h.misses + 1) 255
        state := if HeadFalls limit h then .lost else h.state
        recover := if HeadFalls limit h ∨ h.state = .lost then 0 else h.recover
        coWindow := if HeadFalls limit h then [] else h.coWindow
        no2Window := if HeadFalls limit h then [] else h.no2Window },
      if HeadFalls limit h then [.headState h.record.head .lost h.state] else []) := by
  obtain ⟨record, state, co, no2, misses, recover, flags, mismatch, last, valid⟩ := h
  cases state
  case unseen => simp [Head.miss, HeadFalls]
  case lost => simp [Head.miss, HeadFalls]
  all_goals
    simp only [Head.miss, HeadFalls, Head.number, reduceCtorEq, if_false]
    generalize min (misses + 1) 255 = m
    by_cases hl : limit ≤ m <;> simp [hl]

theorem mismatched_eq (cls : PollClass) (h : Head) : h.mismatched cls =
    ({ h with mismatch := h.mismatch || decide (cls = .wrongKind) },
      if cls = .wrongKind ∧ h.mismatch = false then [.kindMismatch h.record.address .head .drive] else []) := by
  unfold Head.mismatched
  by_cases hfirst : cls = .wrongKind ∧ h.mismatch = false
  · simp [hfirst]
  · have hsame : (h.mismatch || decide (cls = .wrongKind)) = h.mismatch := by
      cases hm : h.mismatch <;> simp_all
    rw [if_neg hfirst, if_neg hfirst, hsame]

/-- A failed poll (R31 to R34). -/
theorem failed_eq (limit : Nat) (cls : PollClass) (h : Head) : h.failed limit cls =
    ({ h with
        misses := if h.state = .unseen then h.misses else min (h.misses + 1) 255
        lastClass := some cls
        state := if HeadFalls limit h then .lost else h.state
        recover := if HeadFalls limit h ∨ h.state = .lost then 0 else h.recover
        coWindow := if HeadFalls limit h then [] else h.coWindow
        no2Window := if HeadFalls limit h then [] else h.no2Window
        mismatch := h.mismatch || decide (cls = .wrongKind) },
      (if HeadFalls limit h then [.headState h.record.head .lost h.state] else [])
        ++ if cls = .wrongKind ∧ h.mismatch = false then [.kindMismatch h.record.address .head .drive] else []) := by
  unfold Head.failed
  rw [head_miss_eq]
  simp only [mismatched_eq]

/-- Settles O40: the head's record and notices are those of `Head.valid` and `Head.failed`, field by field. -/
theorem headPollsMoveTheirHead : Obligations.HeadPollsMoveTheirHead := by
  intro address next rest reply before after h s hp hd hphase hs ha hfirst ho cls ring
  have hends := headPoll_ends reply hp hd hphase hs ha hfirst ho
  refine ⟨fun mask co1 co2 no2 flags check hreply haddress hsum => ?_, fun hcls => ?_⟩
  · have hgot : receive address reply = .complete .head [mask, co1, co2, no2, flags] := by
      subst hreply
      exact receive_exact address rfl rfl hsum haddress
    have hvalid : classifyPoll (.only .head) (.complete .head [mask, co1, co2, no2, flags]) = .valid := rfl
    simp only [hgot, hvalid, decide_true, polled_valid_head, Head.valid, stateAfter_eq, windowAfter_eq, calDueNotice_eq,
      headStateNotice_eq, ha, upNotices_true, notedLoop_true, ← List.append_assoc] at hends
    exact hends
  · intro misses falls
    have hv : decide (cls = .valid) = false := decide_eq_false hcls
    simp only [polled_failed_head _ _ _ hcls, failed_eq, ha, cls, hv, upNotices_false, notedLoop_false, List.nil_append] at hends
    exact hends

end Sys2Proof.BayLoop
end

