-- ==== Sys2Proof/Proofs/BayLoopDrives.lean ====
section
/-! PROOFS. What a poll does to a channel (R10, R75, R76, R93, R112). -/

namespace Sys2Proof.BayLoop

open Sys2Proof.Machine Sys2Proof.Claims

/-! ## Missed and mismatched polls -/

/-- A channel with one miss more, short of its limit or LOST already (R76, R93). -/
def missedOnce (c : Channel) : Channel :=
  { c with misses := min (c.misses + 1) 255, recover := if c.state = .lost then 0 else c.recover }

theorem missPoll_short {limit : Nat} (want : Nat) {c : Channel} (h : c.state = .lost ∨ min (c.misses + 1) 255 < limit) :
    missPoll limit want c = .quiet (missedOnce c) := by
  unfold missPoll missedOnce
  by_cases hl : c.state = .lost
  · simp only [hl, if_true]
  · have hshort : ¬ limit ≤ min (c.misses + 1) 255 := Nat.not_le.mpr (h.resolve_left hl)
    simp only [hl, if_false, if_neg hshort]

theorem missPoll_limit {limit : Nat} (want : Nat) {c : Channel} (hl : c.state ≠ .lost) (h : limit ≤ min (c.misses + 1) 255) :
    missPoll limit want c = toLost want { c with misses := min (c.misses + 1) 255 } := by
  rw [toLost_eq]
  simp only [missPoll, if_neg hl, if_pos h]

/-- The notice of a WRONG_KIND poll, once until the kind is right again (R76). -/
def mismatchNotices (cls : PollClass) (c : Channel) : List NoticeBody :=
  if cls = .wrongKind ∧ c.mismatch = false then [.kindMismatch c.record.address .drive .head] else []

theorem mismatchPoll_eq (cls : PollClass) (c : Channel) :
    mismatchPoll cls c = ⟨{ c with mismatch := c.mismatch || decide (cls = .wrongKind) }, mismatchNotices cls c, []⟩ := by
  unfold mismatchPoll mismatchNotices
  by_cases hfirst : cls = .wrongKind ∧ c.mismatch = false
  · simp [hfirst]
  · have hsame : (c.mismatch || decide (cls = .wrongKind)) = c.mismatch := by
      cases hm : c.mismatch <;> simp_all
    rw [if_neg hfirst, if_neg hfirst, hsame]
    rfl

theorem failPoll_short {limit : Nat} (want : Nat) (cls : PollClass) {c : Channel}
    (h : c.state = .lost ∨ min (c.misses + 1) 255 < limit) : failPoll limit want cls c =
      ⟨{ missedOnce c with mismatch := c.mismatch || decide (cls = .wrongKind) }, mismatchNotices cls c, []⟩ := by
  unfold failPoll
  rw [missPoll_short want h]
  exact mismatchPoll_eq cls (missedOnce c)

theorem toLost_changes (want : Nat) (c : Channel) : (toLost want c).changes = leaving c := rfl

theorem failPoll_limit {limit : Nat} (want : Nat) (cls : PollClass) {c : Channel} (hl : c.state ≠ .lost)
    (h : limit ≤ min (c.misses + 1) 255) : failPoll limit want cls c =
      let e := toLost want { c with misses := min (c.misses + 1) 255 }
      ⟨{ e.ch with mismatch := c.mismatch || decide (cls = .wrongKind) }, e.notices ++ mismatchNotices cls c, e.changes⟩ := by
  unfold failPoll
  rw [missPoll_limit want hl h, Eff.andThen]
  simp only [mismatchPoll_eq, List.append_nil]
  rfl

theorem polled_failed_channel (draws limit want : Nat) (r : Received) {cls : PollClass} (hc : cls ≠ .valid) (c : Channel) :
    c.polled draws limit want r cls = failPoll limit want cls c := by
  unfold Channel.polled
  split
  · exact absurd rfl hc
  · rfl

/-! ## The delivery to a channel -/

/-- The counter of free values after a reply (log 12). -/
def drawsAfter (r : Received) (d : Nat) : Nat :=
  match r with
  | .complete .drive data => if drawsFree data then d + 1 else d
  | _ => d

theorem countDraws_eq (r : Received) (s : State) : countDraws r s = aside s.loop (drawsAfter r s.draws) s := by
  rcases r with _ | _ | _ | ⟨kind, data⟩
  case complete =>
    cases kind
    case drive => by_cases h : drawsFree data = true <;> simp only [countDraws, drawsAfter, h, if_true] <;> rfl
    all_goals rfl
  all_goals rfl

/-- A reply that is not VALID carries no free value. -/
theorem drawsAfter_failed {expect : Expect} {r : Received} (hexpect : expect = .any ∨ expect = .only .drive)
    (h : classifyPoll expect r ≠ .valid) (d : Nat) : drawsAfter r d = d := by
  unfold drawsAfter
  split
  · rcases hexpect with rfl | rfl <;> exact absurd rfl h
  · rfl

theorem applyChanges_loop (cs : List QueueChange) (s : State) : (applyChanges cs s).loop = s.loop := by
  obtain ⟨_, _, _, _, h⟩ := applyChanges_fan cs s
  rw [h]

theorem applyChanges_draws (cs : List QueueChange) (s : State) : (applyChanges cs s).draws = s.draws := by
  obtain ⟨_, _, _, _, h⟩ := applyChanges_fan cs s
  rw [h]

/-- A classified poll of one channel. -/
theorem deliverChannel_eq {s : State} {before after : List Channel} {c : Channel} (hs : s.channels = before ++ c :: after)
    (ho : ∀ k ∈ before ++ after, k.record.channel ≠ c.record.channel) (r : Received) (cls : PollClass) :
    let e := c.polled s.draws (s.channelLimit c) (s.demand c).want r cls
    deliverChannel c r cls s =
      applyChanges e.changes (aside s.loop (drawsAfter r s.draws)
        { s with channels := before ++ e.ch :: after, ring := ringing e.notices s }) := by
  intro e
  rw [deliverChannel, countDraws_eq, fanEventAt_split (n := c.number) _ hs rfl ho, applyChanges_aside, applyChanges_loop,
    applyChanges_draws]

/-- A classified poll of one channel, another exchange following. -/
theorem deliverChannel_split {s : State} {before after : List Channel} {c : Channel} (hs : s.channels = before ++ c :: after)
    (ho : ∀ k ∈ before ++ after, k.record.channel ≠ c.record.channel) (r : Received) (cls : PollClass) (q : Phase) :
    let e := c.polled s.draws (s.channelLimit c) (s.demand c).want r cls
    setPhase q (deliverChannel c r cls s) =
      applyChanges e.changes (aside { s.loop with phase := q } (drawsAfter r s.draws)
        { s with channels := before ++ e.ch :: after, ring := ringing e.notices s }) := by
  intro e
  rw [deliverChannel_eq hs ho, applyChanges_aside, setPhase_eq_aside, applyChanges_aside]
  rfl

theorem channelAt_split {address : Nat} {s : State} {before after : List Channel} {c : Channel} (hs : s.channels = before ++ c :: after)
    (ha : c.record.address = address) (hfirst : ∀ k ∈ before, k.record.address ≠ address) : s.channelAt address = some c := by
  rw [State.channelAt, hs]
  exact lookup_split (key := fun k : Channel => k.record.address) hfirst ha

/-- A classified poll of a drive, another poll following: the loop is counted, then the channel moves. -/
theorem drivePoll_ends {address : Nat} {next : Poll} {rest : List Poll} {s : State} (reply : List Byte) {before after : List Channel}
    {c : Channel} (hp : s.power = .running) (hd : s.loop.draining ≠ some .poll)
    (hphase : s.loop.phase = .polls ⟨address, .only .drive⟩ (next :: rest)) (hs : s.channels = before ++ c :: after)
    (ha : c.record.address = address) (hfirst : ∀ k ∈ before, k.record.address ≠ address)
    (ho : ∀ k ∈ before ++ after, k.record.channel ≠ c.record.channel) :
    let got := receive address reply
    let cls := classifyPoll (.only .drive) got
    let valid := decide (cls = .valid)
    let e := c.polled s.draws (s.channelLimit c) (s.demand c).want got cls
    exec (.pollSlotEnd reply) s = .next (applyChanges e.changes { s with
      channels := before ++ e.ch :: after
      ring := ringing (upNotices valid s.loop ++ e.notices) s
      loop := { notedLoop valid s.loop with phase := .polls next rest }
      draws := drawsAfter got s.draws }) := by
  intro got cls valid e
  have hnoted : (noteIf valid s).channels = before ++ c :: after := by rw [noteIf_eq]; exact hs
  have hdeliver := deliverChannel_split hnoted ho got cls (.polls next rest)
  have hpoll : delivered ⟨address, .only .drive⟩ reply s = deliverChannel c got cls (noteIf valid s) := by
    simp only [delivered, deliverPoll, valid, cls, got, channelAt_split hnoted ha hfirst]
  rw [exec_pollEnd reply hp hd hphase, endPoll_next, hpoll, hdeliver, noteIf_eq, ringing_eq (upNotices valid s.loop ++ e.notices), Ring.raised_append]
  rfl

/-! ## The contents of a drive reply -/

theorem drawsAfter_drive (run speed damper trip : Byte) (d : Nat) :
    drawsAfter (.complete .drive [run, speed, damper, trip]) d = if run.toNat < 4 ∧ damper.toNat < 4 then d else d + 1 := by
  have h : drawsFree [run, speed, damper, trip] = decide (¬ (run.toNat < 4 ∧ damper.toNat < 4)) := by
    rw [Bool.eq_iff_iff]
    simp only [drawsFree, dataByte, List.getD_cons_zero, List.getD_cons_succ, Bool.or_eq_true, decide_eq_true_eq]
    omega
  simp only [drawsAfter, h, decide_not]
  by_cases hlisted : run.toNat < 4 ∧ damper.toNat < 4 <;> simp [hlisted]

/-- A channel that reaches the miss limit stands LOST in the table its event leaves (R93). -/
theorem lost_mem (want : Nat) (c d : Channel) (s : State) (hd : d ∈ s.channels) (hr : d.record = c.record) :
    d ∈ (applyChanges (toLost want c).changes s).channels :=
  applyChanges_leaving c d s hd (congrArg FanRecord.channel hr)

/-- The ring after a reply that may bring the loop up, and the notices of its delivery. -/
theorem ringing_up (ns : List NoticeBody) (s : State) :
    ringing ((if s.loop.state = .down then [.loopState .running s.loop.cycle] else []) ++ ns) s =
      ns.foldl (fun r m => r.append ⟨m, s.uptime⟩)
        (if s.loop.state = .down then s.ring.append ⟨.loopState .running s.loop.cycle, s.uptime⟩ else s.ring) := by
  split <;> rfl

theorem ringing_once (told : Bool) (n : NoticeBody) (s : State) :
    ringing (if told = false then [n] else []) s = if told then s.ring else s.ring.append ⟨n, s.uptime⟩ := by
  cases told <;> rfl

/-- Settles O42: the poll is `drivePoll_ends`; a failed one is `failPoll_short` or `failPoll_limit`. -/
theorem drivePollsMoveTheirChannel : Obligations.DrivePollsMoveTheirChannel := by
  intro address next rest reply before after c s hp hd hphase hs ha hfirst ho cls limit misses
  have hends := drivePoll_ends reply hp hd hphase hs ha hfirst ho
  have hlimit : s.channelLimit c = limit := rfl
  have hfailed (hcls : cls ≠ .valid) : exec (.pollSlotEnd reply) s =
      let e := failPoll limit (s.demand c).want cls c
      .next (applyChanges e.changes { s with
        channels := before ++ e.ch :: after
        ring := ringing e.notices s
        loop := { s.loop with phase := .polls next rest } }) := by
    have hv : decide (cls = .valid) = false := decide_eq_false hcls
    simp only [polled_failed_channel _ _ _ _ hcls, cls, hv, upNotices_false, notedLoop_false, List.nil_append,
      drawsAfter_failed (.inr rfl) hcls, hlimit] at hends
    exact hends
  refine ⟨fun run speed damper trip check hreply haddress hsum => ?_, fun hcls hkind hshort => ?_, fun hkind hshort => ?_,
    fun hcls hlost hreached => ?_⟩
  · have hgot : receive address reply = .complete .drive [run, speed, damper, trip] := by
      subst hreply
      exact receive_exact address rfl rfl hsum haddress
    have hvalid : classifyPoll (.only .drive) (.complete .drive [run, speed, damper, trip]) = .valid := rfl
    simp only [hgot, hvalid, decide_true, upNotices_true, notedLoop_true, drawsAfter_drive] at hends
    refine ⟨readDrive s.draws [run, speed, damper, trip], _, hends, rfl, rfl, ?_, ?_, ?_, ?_, ?_, ?_, ?_, ?_, ?_⟩
    iterate 8 exact fun h => by subst h; rfl
    rw [← ringing_up]
    rfl
  · rw [hfailed hcls, failPoll_short _ _ hshort]
    simp only [mismatchNotices, hkind, false_and, if_false, decide_false, Bool.or_false, applyChanges_nil]
    rfl
  · rw [hfailed (by rw [hkind]; decide), failPoll_short _ _ hshort]
    simp only [mismatchNotices, hkind, true_and, decide_true, Bool.or_true, applyChanges_nil, ringing_once, ha]
    rfl
  · intro e t
    rw [hfailed hcls, failPoll_limit _ _ hlost hreached]
    refine ⟨?_, ?_⟩
    · simp only [mismatchNotices, ha]
      rfl
    · refine ⟨{ e.ch with mismatch := c.mismatch || decide (cls = .wrongKind) },
        lost_mem _ _ _ _ (List.mem_append_right _ List.mem_cons_self) rfl, rfl, rfl, rfl, rfl, rfl, rfl, rfl, rfl, fun h => ?_, fun i h => ?_⟩
      · exact congrArg (fun o => some (Option.getD o _)) h
      · exact congrArg (fun o => some (Option.getD o _)) h

end Sys2Proof.BayLoop
end

