-- ==== Sys2Proof/Proofs/BayLoopCommands.lean ====
section
/-! PROOFS. The end of a command's slot: the acknowledgement, the miss, the limit (R16, R18, R21, R76, R83, R88, R93, R112, R178). -/

namespace Sys2Proof.BayLoop

open Sys2Proof.Machine Sys2Proof.Claims

/-! ## The end of a command exchange -/

theorem exec_commandEnd {x : CommandExchange} {rest : List Nat} {s : State} (reply : List Byte) (hp : s.power = .running)
    (hd : ∀ y, s.loop.draining ≠ some (.command y)) (hphase : s.loop.phase = .commands x rest) :
    exec (.commandSlotEnd reply) s = .next (endCommand x rest reply s) := by
  rw [exec_commandSlotEnd, powered_running hp]
  cases hl : s.loop.draining with
  | none => simp only [commandEnd, hl, hphase]
  | some left =>
    cases left with
    | poll => simp only [commandEnd, hl, hphase]
    | command y => exact absurd hl (hd y)
    | service => simp only [commandEnd, hl, hphase]

/-- The state in which the outcome of a command exchange is delivered: counted for the loop, taken by the drive (R11, R18). -/
def answered (x : CommandExchange) (ok : Bool) (s : State) : State :=
  { s with
    ring := ringing (upNotices ok s.loop) s
    loop := { notedLoop ok s.loop with drives := if ok = true then taken x.address x.image s.loop.drives else s.loop.drives } }

theorem driveAnswers_noteIf (x : CommandExchange) (ok : Bool) (s : State) :
    driveAnswers x ok (noteIf ok s) = answered x ok s := by
  rw [noteIf_eq]
  cases ok <;> rfl

theorem endCommand_eq (x : CommandExchange) (rest : List Nat) (reply : List Byte) (s : State) :
    endCommand x rest reply s =
      let ok := acknowledged (receive x.address reply)
      nextCommand rest (deliverCommand x ok (answered x ok s)) := by
  unfold endCommand
  simp only [driveAnswers_noteIf]

theorem answered_true (x : CommandExchange) (s : State) : answered x true s =
    { s with
      ring := if s.loop.state = .down then s.ring.append ⟨.loopState .running s.loop.cycle, s.uptime⟩ else s.ring
      loop := { s.loop with
        valid := true, state := .running, dead := if s.loop.state = .down then 0 else s.loop.dead
        drives := taken x.address x.image s.loop.drives } } := by
  have hring := ringing_up [] s
  rw [List.append_nil] at hring
  rw [answered, upNotices_true, notedLoop_true, hring]
  rfl

theorem answered_false (x : CommandExchange) (s : State) : answered x false s = s := by
  rw [answered, upNotices_false, notedLoop_false]
  rfl

/-! ## What an exchange does to its channel -/

/-- An acknowledged command (R83, R88). -/
theorem ackCommand_eq (image : Image) (c : Channel) :
    ackCommand image c =
      let starts := c.state = .starting ∧ c.startAcked = false ∧ 0 < image.setpoint
      { c with
        acknowledged := some image, cyclesSince := 0, misses := 0
        startAcked := c.startAcked || decide starts
        settle := if starts ∧ c.settle = none then some ⟨c.record.settle, false⟩ else c.settle } := by
  unfold ackCommand
  by_cases hstarts : c.state = .starting ∧ c.startAcked = false ∧ 0 < image.setpoint
  · simp only [if_pos hstarts, decide_eq_true hstarts, Bool.or_true]
    by_cases hsettle : c.settle = none
    · simp only [if_pos hsettle, if_pos (And.intro hstarts hsettle)]
      rfl
    · simp only [if_neg hsettle, if_neg fun h : _ ∧ _ => hsettle h.2]
  · simp only [if_neg hstarts, decide_eq_false hstarts, Bool.or_false, if_neg fun h : _ ∧ _ => hstarts h.1]

theorem deliverCommand_split {n : Nat} {x : CommandExchange} (ok : Bool) {s : State} {before after : List Channel} {c : Channel}
    (hx : x.channel = some n) (hs : s.channels = before ++ c :: after) (hc : c.record.channel = n)
    (ho : ∀ d ∈ before ++ after, d.record.channel ≠ n) :
    let e := if ok then Eff.quiet (ackCommand x.image c) else missPoll (s.channelLimit c) (s.demand c).want c
    deliverCommand x ok s = applyChanges e.changes { s with channels := before ++ e.ch :: after, ring := ringing e.notices s } := by
  intro e
  unfold deliverCommand
  rw [hx]
  exact fanEventAt_split _ hs hc ho

/-! ## The next command -/

theorem lookup_around {α : Type} {key : α → Nat} {m : Nat} {before after : List α} {a : α} (h : key a ≠ m) :
    lookup key m (before ++ a :: after) = lookup key m (before ++ after) := by
  unfold lookup
  rw [List.find?_append, List.find?_append, List.find?_cons_of_neg (by simpa using h)]

/-- What grants do to the channels: the records stay, no command is taken away, and a channel without an entry in the queue is spared. -/
def Grants (q : List QueueEntry) (f : Channel → Channel) : Prop :=
  ∀ c, (f c).record = c.record ∧ (f c).provisional = c.provisional ∧ (c.command.isSome = true → (f c).command.isSome = true)
    ∧ ((∀ e ∈ q, e.channel ≠ c.number) → f c = c)

theorem grants_id (q : List QueueEntry) : Grants q id := fun _ => ⟨rfl, rfl, id, fun _ => rfl⟩

theorem Grants.map_id {q : List QueueEntry} (l : List Channel) : ∃ f, Grants q f ∧ l = l.map f := ⟨id, grants_id q, (List.map_id l).symm⟩

theorem grants_head (e : QueueEntry) (rest : List QueueEntry) :
    Grants (e :: rest) fun c => if c.number = e.channel then grantStart c else c := by
  intro c
  dsimp only
  by_cases h : c.number = e.channel
  · rw [if_pos h]
    exact ⟨rfl, rfl, fun _ => rfl, fun hspared => absurd h.symm (hspared e List.mem_cons_self)⟩
  · rw [if_neg h]
    exact ⟨rfl, rfl, id, fun _ => rfl⟩

theorem lookFrom_grants (fuel : Nat) (s : State) : ∃ f, Grants s.queue f ∧ (lookFrom fuel s).channels = s.channels.map f := by
  induction fuel generalizing s with
  | zero => exact Grants.map_id _
  | succ n ih =>
    unfold lookFrom
    split
    · exact Grants.map_id _
    next e rest hq =>
      split
      · obtain ⟨f, hf, hchannels⟩ := ih (grant e rest s)
        refine ⟨fun c => f (if c.number = e.channel then grantStart c else c), fun c => ?_, ?_⟩
        · obtain ⟨hrecord, hprovisional, hcommand, hspared⟩ := hf (if c.number = e.channel then grantStart c else c)
          obtain ⟨hrecord', hprovisional', hcommand', hspared'⟩ := grants_head e rest c
          refine ⟨hrecord.trans hrecord', hprovisional.trans hprovisional', hcommand ∘ hcommand', fun h => ?_⟩
          have hsame := hspared' (by rwa [hq] at h)
          dsimp only at hsame ⊢
          rw [hsame] at hspared ⊢
          refine hspared fun g hg => ?_
          have hmem : g.channel ∈ rest.map QueueEntry.channel := fixHead_channels rest ▸ List.mem_map_of_mem hg
          obtain ⟨k, hk, hgk⟩ := List.mem_map.mp hmem
          exact hgk ▸ h k (by rw [hq]; exact List.mem_cons_of_mem e hk)
        · rw [hchannels]
          exact List.map_map
      · exact Grants.map_id _

theorem applyChanges_grants (cs : List QueueChange) (s : State) :
    ∃ f, Grants ((ordered cs).foldl applyChange s.queue) f ∧ (applyChanges cs s).channels = s.channels.map f := by
  unfold applyChanges
  split
  · exact lookFrom_grants _ { s with queue := (ordered cs).foldl applyChange s.queue }
  · exact Grants.map_id _

/-- The channel a command waits for is still there after an event's grants, with a command. -/
theorem lookup_applyChanges {cs : List QueueChange} {s : State} {m : Nat} {k : Channel} {i : Image}
    (hk : lookup Channel.number m s.channels = some k) (hi : k.command = some i) :
    ∃ (l : Channel) (j : Image), lookup Channel.number m (applyChanges cs s).channels = some l ∧ l.record = k.record
      ∧ l.command = some j := by
  obtain ⟨f, hf, hchannels⟩ := applyChanges_grants cs s
  obtain ⟨hrecord, -, hcommand, -⟩ := hf k
  obtain ⟨j, hj⟩ := Option.isSome_iff_exists.mp (hcommand (by rw [hi]; rfl))
  refine ⟨f k, j, ?_, hrecord, hj⟩
  have hnumber : (fun c : Channel => c.number == m) ∘ f = fun c => c.number == m :=
    funext fun c => by simp only [Function.comp_apply, Channel.number, (hf c).1]
  rw [hchannels, lookup, List.find?_map, hnumber]
  exact congrArg (Option.map f) hk

/-- Settles O45: the exchange ends in `deliverCommand_split`, and the next command goes out by `nextCommand_sent`. -/
theorem commandsAreAcknowledged : Obligations.CommandsAreAcknowledged := by
  refine ⟨fun n address m image rest reply before after c k i s hp hd hphase hs hc ho hk hi => ?_,
    fun address image reply s hp hd hphase => ?_⟩
  · intro sent
    obtain ⟨hkmem, hkm⟩ := lookup_mem hk
    have hm : ∀ d : Channel, d.record = c.record → d.number ≠ m := by
      intro d hd hdm
      exact ho k hkmem (hkm.trans (hdm.symm.trans ((congrArg FanRecord.channel hd).trans hc)))
    have hwaits (d : Channel) (hrecord : d.record = c.record) : lookup Channel.number m (before ++ d :: after) = some k :=
      (lookup_around (hm d hrecord)).trans hk
    rw [exec_commandEnd reply hp hd hphase, endCommand_eq]
    refine ⟨fun hack => ⟨?_, Drives.obeys_takes address image s.loop.drives⟩, fun hack hshort => ?_, fun hack hlost hreached => ?_⟩
    · have hdeliver := deliverCommand_split (x := ⟨some n, address, image⟩) true (s := answered ⟨some n, address, image⟩ true s)
        rfl hs hc ho
      simp only [if_true, Eff.quiet, applyChanges_nil, ringing, List.foldl_nil] at hdeliver
      simp only [hack]
      rw [hdeliver, nextCommand_sent (hwaits (ackCommand image c) (by rw [ackCommand_eq])) hi, ackCommand_eq, answered_true]
      rfl
    · have hmissed : missPoll (s.channelLimit c) (s.demand c).want c = .quiet (missedOnce c) := missPoll_short _ hshort
      have hdeliver := deliverCommand_split (x := ⟨some n, address, image⟩) false rfl hs hc ho
      simp only [Bool.false_eq_true, if_false, hmissed, Eff.quiet, applyChanges_nil, ringing, List.foldl_nil] at hdeliver
      simp only [hack, answered_false]
      rw [hdeliver, nextCommand_sent (hwaits (missedOnce c) rfl) hi]
      rfl
    · intro e u
      have hmissed : missPoll (s.channelLimit c) (s.demand c).want c = e := missPoll_limit _ hlost hreached
      have hdeliver := deliverCommand_split (x := ⟨some n, address, image⟩) false rfl hs hc ho
      simp only [Bool.false_eq_true, if_false, hmissed] at hdeliver
      obtain ⟨l, j, hl, hrecord, hj⟩ := lookup_applyChanges (cs := e.changes)
        (s := { s with channels := before ++ e.ch :: after, ring := ringing e.notices s }) (hwaits e.ch rfl) hi
      refine ⟨l, j, hl, hrecord, hj, ?_⟩
      have hloop : u.loop = s.loop := applyChanges_loop _ _
      have hsent : nextCommand (m :: rest) u = setPhase (.commands ⟨some m, k.record.address, j⟩ rest) u := by
        rw [nextCommand_sent hl hj, hrecord]
      simp only [hack, answered_false]
      rw [hdeliver]
      exact congrArg Host.Outcome.next (hsent.trans (by rw [setPhase, hloop]))
  · rw [exec_commandEnd reply hp hd hphase, endCommand_eq]
    refine ⟨_, rfl, fun hack => ?_, fun hack => ?_⟩
    · have hup := startService_begins (answered ⟨none, address, image⟩ true s)
      have hring := ringing_up [] s
      rw [List.append_nil] at hring
      simp only [hack, hring]
      rw [answered_true] at hup ⊢
      exact hup
    · have hsame := startService_begins (answered ⟨none, address, image⟩ false s)
      rw [answered_false] at hsame
      simp only [hack, answered_false]
      exact hsame

end Sys2Proof.BayLoop
end

