-- ==== Sys2Proof/Proofs/BayLoopAllotment.lean ====
section
/-! PROOFS. The command slots: who gets one and in which order, and the seams of a cycle (R4 to R6, R17, R82). -/

namespace Sys2Proof.BayLoop

open Sys2Proof.Machine Sys2Proof.Claims

/-! ## Candidates (R82) -/

theorem candidate_eq_none {c : Channel} (h : c.state = .sync ∨ c.command = none) : c.candidate = none := by
  unfold Channel.candidate
  split
  · rfl
  · rfl
  next hcommand hstate =>
    rcases h with h | h
    · exact absurd h hstate
    · rw [h] at hcommand
      cases hcommand

theorem classified_fire (c : Channel) : c.cls ≠ .normal ↔ c.cls = .extract ∨ c.cls = .isolate := by
  cases c.cls <;> simp

/-- A channel outside SYNC with a command, before it has an acknowledged one. -/
theorem candidate_unacknowledged {c : Channel} {i : Image} (hi : c.command = some i) (hs : c.state ≠ .sync)
    (ha : c.acknowledged = none) :
    c.candidate = some (if c.cls = .extract ∨ c.cls = .isolate then .fire else if i.setpoint = 0 then .stop else .speed) := by
  unfold Channel.candidate
  simp only [hi, ha, classified_fire, decide_eq_true_eq]

/-- A channel outside SYNC with a command and an acknowledged one. -/
theorem candidate_acknowledged {c : Channel} {i a : Image} (hi : c.command = some i) (hs : c.state ≠ .sync)
    (ha : c.acknowledged = some a) :
    c.candidate =
      if i = a then (if 3 ≤ c.cyclesSince then some .refresh else none)
      else some (
        if c.cls = .extract ∨ c.cls = .isolate then .fire
        else if (i.setpoint = 0 ∧ 0 < a.setpoint) ∨ (i.damper = .close ∧ a.damper = .opn) then .stop
        else if (i.damper = .opn ∧ a.damper = .close) ∨ (0 < i.setpoint ∧ a.setpoint = 0) then .start
        else .speed) := by
  unfold Channel.candidate
  simp only [hi, ha, classified_fire, decide_eq_true_eq, apply_ite some]

/-! ## The order of the slots (R17) -/

/-- The place of a class among the others. -/
def classRank : CandidateClass → Nat
  | .fire => 1
  | .stop => 2
  | .start => 3
  | .speed => 4
  | .refresh => 5

/-- Refreshes: the largest count of cycles first, the lowest channel number first among equals. -/
def Longer (c d : Channel) : Prop := d.cyclesSince < c.cyclesSince ∨ (c.cyclesSince = d.cyclesSince ∧ c.number < d.number)

/-- The order of R17 between two candidates. -/
def Precedes (c d : Channel) : Prop :=
  ∀ j k, c.candidate = some j → d.candidate = some k →
    classRank j < classRank k ∨ (j = k ∧ if k = .refresh then Longer c d else c.number < d.number)

theorem not_precedes_self {c : Channel} (h : c.candidate ≠ none) : ¬ Precedes c c := by
  obtain ⟨j, hj⟩ := Option.ne_none_iff_exists'.mp h
  intro hself
  rcases hself j j hj hj with hlt | ⟨-, hplace⟩
  · exact Nat.lt_irrefl _ hlt
  · split at hplace
    · rcases hplace with h | ⟨-, h⟩ <;> exact Nat.lt_irrefl _ h
    · exact Nat.lt_irrefl _ hplace

theorem mem_offering {cls : CandidateClass} {c : Channel} {s : State} :
    c ∈ s.offering cls ↔ c ∈ s.channels ∧ c.candidate = some cls := by
  simp [State.offering]

theorem precedes_of_rank {j k : CandidateClass} {c d : Channel} {s : State} (hlt : classRank j < classRank k)
    (hc : c ∈ s.offering j) (hd : d ∈ s.offering k) : Precedes c d := by
  intro j' k' hj hk
  rw [(mem_offering.mp hc).2] at hj
  rw [(mem_offering.mp hd).2] at hk
  cases hj
  cases hk
  exact .inl hlt

theorem offering_sorted {cls : CandidateClass} {s : State} (h : sorted Channel.number s.channels) :
    sorted Channel.number (s.offering cls) := List.Pairwise.sublist List.filter_sublist h

/-- Within a class other than REFRESH the lowest channel number comes first. -/
theorem offering_precedes {cls : CandidateClass} (hcls : cls ≠ .refresh) {s : State} (h : sorted Channel.number s.channels) :
    (s.offering cls).Pairwise Precedes := by
  refine (offering_sorted h).imp_of_mem fun {c d} hc hd hlt j k hj hk => ?_
  rw [(mem_offering.mp hc).2] at hj
  rw [(mem_offering.mp hd).2] at hk
  cases hj
  cases hk
  exact .inr ⟨rfl, by rwa [if_neg hcls]⟩

/-! ## The order of the refreshes -/

theorem insertRefresh_perm (c : Channel) (l : List Channel) : (insertRefresh c l).Perm (c :: l) := by
  induction l with
  | nil => exact .refl _
  | cons d l ih =>
    unfold insertRefresh
    split
    · exact .refl _
    · exact (ih.cons d).trans (.swap c d l)

/-- A channel whose number is larger goes behind those with the same count or a larger one. -/
theorem insertRefresh_longer {c : Channel} {l : List Channel} (hl : l.Pairwise Longer) (hc : ∀ d ∈ l, d.number < c.number) :
    (insertRefresh c l).Pairwise Longer := by
  induction l with
  | nil => exact List.pairwise_singleton _ _
  | cons d l ih =>
    obtain ⟨hd, hrest⟩ := List.pairwise_cons.mp hl
    unfold insertRefresh
    split
    next hlonger =>
      refine List.pairwise_cons.mpr ⟨fun e he => .inl ?_, hl⟩
      rcases List.mem_cons.mp he with rfl | he
      · exact hlonger
      · rcases hd e he with h | ⟨h, -⟩ <;> omega
    next hlonger =>
      refine List.pairwise_cons.mpr ⟨fun e he => ?_, ih hrest fun e he => hc e (List.mem_cons_of_mem d he)⟩
      rcases List.mem_cons.mp ((insertRefresh_perm c l).mem_iff.mp he) with rfl | he
      · have hlt := hc d List.mem_cons_self
        unfold Longer
        omega
      · exact hd e he

theorem foldl_insertRefresh_perm (l acc : List Channel) :
    (l.foldl (fun acc c => insertRefresh c acc) acc).Perm (l ++ acc) := by
  induction l generalizing acc with
  | nil => exact .refl _
  | cons c l ih => exact (ih _).trans (((insertRefresh_perm c acc).append_left l).trans List.perm_middle)

theorem foldl_insertRefresh_longer {l acc : List Channel} (hl : sorted Channel.number l) (hacc : acc.Pairwise Longer)
    (hbelow : ∀ d ∈ acc, ∀ c ∈ l, d.number < c.number) :
    (l.foldl (fun acc c => insertRefresh c acc) acc).Pairwise Longer := by
  induction l generalizing acc with
  | nil => exact hacc
  | cons c l ih =>
    obtain ⟨hc, hrest⟩ := List.pairwise_cons.mp hl
    refine ih hrest (insertRefresh_longer hacc fun d hd => hbelow d hd c List.mem_cons_self) fun d hd e he => ?_
    rcases List.mem_cons.mp ((insertRefresh_perm c acc).mem_iff.mp hd) with rfl | hd
    · exact hc e he
    · exact hbelow d hd e (List.mem_cons_of_mem c he)

theorem mem_refreshOrder {c : Channel} {l : List Channel} : c ∈ refreshOrder l ↔ c ∈ l := by
  have h := (foldl_insertRefresh_perm l []).mem_iff (a := c)
  rwa [List.append_nil] at h

theorem refreshOrder_precedes {s : State} (h : sorted Channel.number s.channels) :
    (refreshOrder (s.offering .refresh)).Pairwise Precedes := by
  have hlonger : (refreshOrder (s.offering .refresh)).Pairwise Longer :=
    foldl_insertRefresh_longer (offering_sorted h) .nil fun d hd => absurd hd List.not_mem_nil
  refine hlonger.imp_of_mem fun {c d} hc hd hcd j k hj hk => ?_
  rw [(mem_offering.mp (mem_refreshOrder.mp hc)).2] at hj
  rw [(mem_offering.mp (mem_refreshOrder.mp hd)).2] at hk
  cases hj
  cases hk
  exact .inr ⟨rfl, by rwa [if_pos rfl]⟩

/-! ## The channels that offer, in the order of R17 -/

/-- All candidates, in the order in which the slots go to them. -/
def offerings (s : State) : List Channel :=
  s.offering .fire ++ s.offering .stop ++ s.offering .start ++ s.offering .speed ++ refreshOrder (s.offering .refresh)

theorem allotted_eq (s : State) : s.allotted = ((offerings s).take 12).map Channel.number := rfl

theorem mem_offerings {c : Channel} {s : State} : c ∈ offerings s ↔ c ∈ s.channels ∧ c.candidate ≠ none := by
  simp only [offerings, List.mem_append, mem_refreshOrder, mem_offering, ← and_or_left]
  refine and_congr_right fun _ => ?_
  rcases c.candidate with _ | j
  · simp
  · cases j <;> simp

theorem offerings_precede {s : State} (h : sorted Channel.number s.channels) : (offerings s).Pairwise Precedes := by
  unfold offerings
  simp only [List.pairwise_append, List.mem_append, mem_refreshOrder]
  refine ⟨⟨⟨⟨offering_precedes (by decide) h, offering_precedes (by decide) h, ?_⟩, offering_precedes (by decide) h, ?_⟩,
    offering_precedes (by decide) h, ?_⟩, refreshOrder_precedes h, ?_⟩
  · exact fun c hc d hd => precedes_of_rank (by decide) hc hd
  · rintro c (hc | hc) d hd <;> exact precedes_of_rank (by decide) hc hd
  · rintro c ((hc | hc) | hc) d hd <;> exact precedes_of_rank (by decide) hc hd
  · rintro c (((hc | hc) | hc) | hc) d hd <;> exact precedes_of_rank (by decide) hc hd

theorem offerings_nodup {s : State} (h : sorted Channel.number s.channels) : (offerings s).Nodup := by
  refine (offerings_precede h).imp_of_mem fun {c d} hc _ hcd hsame => ?_
  subst hsame
  exact not_precedes_self (mem_offerings.mp hc).2 hcd

section Allotted

variable {s : State} (h : sorted Channel.number s.channels)

include h

theorem mem_allotted_iff {c : Channel} (hc : c ∈ s.channels) : c.number ∈ s.allotted ↔ c ∈ (offerings s).take 12 := by
  rw [allotted_eq, List.mem_map]
  refine ⟨fun ⟨d, hd, hnumber⟩ => ?_, fun hmem => ⟨c, hmem, rfl⟩⟩
  exact sorted_unique h (mem_offerings.mp (List.mem_of_mem_take hd)).1 hc hnumber ▸ hd

theorem allotted_nodup : s.allotted.Nodup := by
  rw [allotted_eq]
  refine List.Nodup.map_on (fun c hc d hd => ?_) ((offerings_nodup h).sublist (List.take_sublist 12 _))
  exact sorted_unique h (mem_offerings.mp (List.mem_of_mem_take hc)).1 (mem_offerings.mp (List.mem_of_mem_take hd)).1

theorem allotted_precede : s.allotted.Pairwise fun m n =>
    ∀ c ∈ s.channels, ∀ d ∈ s.channels, c.number = m → d.number = n → Precedes c d := by
  rw [allotted_eq, List.pairwise_map]
  refine ((offerings_precede h).sublist (List.take_sublist 12 _)).imp_of_mem fun {a b} ha hb hab c hc d hd hca hdb => ?_
  rw [sorted_unique h hc (mem_offerings.mp (List.mem_of_mem_take ha)).1 hca,
    sorted_unique h hd (mem_offerings.mp (List.mem_of_mem_take hb)).1 hdb]
  exact hab

/-- A candidate is left out only behind 12 others. -/
theorem allotted_before_left_out {d : Channel} (hd : d ∈ s.channels) (hoffers : d.candidate ≠ none) (hout : d.number ∉ s.allotted) :
    s.allotted.length = 12 ∧ ∀ c ∈ s.channels, c.number ∈ s.allotted → Precedes c d := by
  have hmem : d ∈ (offerings s).take 12 ++ (offerings s).drop 12 := by
    rw [List.take_append_drop]
    exact mem_offerings.mpr ⟨hd, hoffers⟩
  have hdrop : d ∈ (offerings s).drop 12 :=
    (List.mem_append.mp hmem).resolve_left fun htake => hout ((mem_allotted_iff h hd).mpr htake)
  have hpairs := offerings_precede h
  rw [← List.take_append_drop 12 (offerings s)] at hpairs
  obtain ⟨-, -, hcross⟩ := List.pairwise_append.mp hpairs
  refine ⟨?_, fun c hc hin => hcross c ((mem_allotted_iff h hc).mp hin) d hdrop⟩
  have hlength := List.length_pos_of_mem hdrop
  rw [List.length_drop] at hlength
  rw [allotted_eq, List.length_map, List.length_take]
  omega

end Allotted

/-! ## The seams of a cycle -/

theorem fanEvent_setPhase (f : Channel → Eff) (q : Phase) (s : State) : fanEvent f (setPhase q s) = setPhase q (fanEvent f s) := by
  have hloop : (fanEvent f s).loop = s.loop := by rw [fanEvent_eq, applyChanges_loop]
  have hdraws : (fanEvent f s).draws = s.draws := by rw [fanEvent_eq, applyChanges_draws]
  rw [setPhase_eq_aside, setPhase_eq_aside, fanEvent_aside, hloop, hdraws]

theorem noteIf_setPhase (valid : Bool) (q : Phase) (s : State) : noteIf valid (setPhase q s) = setPhase q (noteIf valid s) := by
  rw [noteIf_eq, noteIf_eq]
  rfl

theorem countDraws_setPhase (r : Received) (q : Phase) (s : State) : countDraws r (setPhase q s) = setPhase q (countDraws r s) := by
  rw [countDraws_eq, countDraws_eq]
  rfl

theorem deliverHead_setPhase (address : Nat) (f : Head → Head × List NoticeBody) (q : Phase) (s : State) :
    deliverHead address f (setPhase q s) = setPhase q (deliverHead address f s) := by
  unfold deliverHead
  simp only [raiseAll_eq]
  cases h : s.heads.find? fun k => k.record.address == address with
  | none => simp only [setPhase, h]
  | some k => simp only [setPhase, h]

theorem deliverChannel_setPhase (c : Channel) (r : Received) (cls : PollClass) (q : Phase) (s : State) :
    deliverChannel c r cls (setPhase q s) = setPhase q (deliverChannel c r cls s) := by
  unfold deliverChannel
  rw [← countDraws_setPhase]
  exact congrArg (countDraws r) (fanEvent_setPhase _ q s)

theorem makeProvisional_setPhase (addresses : List Nat) (q : Phase) (s : State) :
    makeProvisional addresses (setPhase q s) = setPhase q (makeProvisional addresses s) :=
  fanEvent_setPhase _ q { s with channels := addresses.foldl addProvisional s.channels }

theorem driveJoins_setPhase (address : Nat) (q : Phase) (s : State) :
    driveJoins address (setPhase q s) = setPhase q (driveJoins address s) := by
  unfold driveJoins
  rw [apply_ite (setPhase q), ← makeProvisional_setPhase]
  rfl

theorem driveLeaves_setPhase (address : Nat) (q : Phase) (s : State) :
    driveLeaves address (setPhase q s) = setPhase q (driveLeaves address s) := fanEvent_setPhase _ q s

/-- What a VALID kind query is for discovery: a drive that was none joins, a head that was a drive leaves (R14). -/
theorem discover_eq (address : Nat) (kind : DeviceKind) (s : State) : discover address kind s =
    let was := (lookup Discovered.address address s.loop.discovered).map Discovered.kind
    let t := recordDevice ⟨address, kind, s.loop.sweep⟩ s
    match kind with
    | .drive => if was = some .drive then t else driveJoins address t
    | .head => if was = some .drive then driveLeaves address t else t := by
  unfold discover
  cases (lookup Discovered.address address s.loop.discovered).map Discovered.kind with
  | none => cases kind <;> rfl
  | some old => cases old <;> cases kind <;> rfl

theorem discover_setPhase (address : Nat) (kind : DeviceKind) (q : Phase) (s : State) :
    discover address kind (setPhase q s) = setPhase q (discover address kind s) := by
  rw [discover_eq, discover_eq]
  cases kind with
  | drive =>
    simp only [apply_ite (setPhase q), ← driveJoins_setPhase]
    rfl
  | head =>
    simp only [apply_ite (setPhase q), ← driveLeaves_setPhase]
    rfl

/-- An entry unseen for two sweeps goes (R15). -/
def forget (address : Nat) (s : State) : State :=
  { s with loop := { s.loop with discovered := s.loop.discovered.filter fun e => e.address != address } }

theorem miss_unlisted {address : Nat} {s : State} (h : lookup Discovered.address address s.loop.discovered = none) :
    miss address s = s := by
  unfold miss
  rw [h]

theorem miss_listed {address : Nat} {s : State} {d : Discovered}
    (h : lookup Discovered.address address s.loop.discovered = some d) :
    miss address s =
      if 2 ≤ (s.loop.sweep - d.seen).toNat then
        if d.kind = .drive then driveLeaves address (forget address s) else forget address s
      else s := by
  unfold miss
  rw [h]
  obtain ⟨_, kind, _⟩ := d
  cases kind <;> rfl

theorem miss_setPhase (address : Nat) (q : Phase) (s : State) : miss address (setPhase q s) = setPhase q (miss address s) := by
  cases h : lookup Discovered.address address s.loop.discovered with
  | none => rw [miss_unlisted h, miss_unlisted (s := setPhase q s) h]
  | some d =>
    rw [miss_listed h, miss_listed (s := setPhase q s) h]
    simp only [apply_ite (setPhase q), ← driveLeaves_setPhase]
    rfl

theorem discovery_setPhase (address : Nat) (r : Received) (cls : PollClass) (q : Phase) (s : State) :
    discovery address r cls (setPhase q s) = setPhase q (discovery address r cls s) := by
  unfold discovery
  split
  · exact discover_setPhase address .head q s
  · exact discover_setPhase address .drive q s
  · exact miss_setPhase address q s

theorem deliverQuery_setPhase (address : Nat) (r : Received) (cls : PollClass) (q : Phase) (s : State) :
    deliverQuery address r cls (setPhase q s) = setPhase q (deliverQuery address r cls s) := by
  have hat : (setPhase q s).channelAt address = s.channelAt address := rfl
  unfold deliverQuery
  rw [hat, discovery_setPhase]
  cases s.channelAt address with
  | none => rfl
  | some c => exact deliverChannel_setPhase c r _ q _

theorem deliverPoll_setPhase (p : Poll) (r : Received) (cls : PollClass) (q : Phase) (s : State) :
    deliverPoll p r cls (setPhase q s) = setPhase q (deliverPoll p r cls s) := by
  have hat : (setPhase q s).channelAt p.address = s.channelAt p.address := rfl
  unfold deliverPoll
  cases p.expect with
  | any =>
    simp only [apply_ite (setPhase q), ← deliverQuery_setPhase]
    rfl
  | only kind =>
    cases kind with
    | head => exact deliverHead_setPhase p.address _ q s
    | drive =>
      simp only [hat]
      cases s.channelAt p.address with
      | none => rfl
      | some c => exact deliverChannel_setPhase c r cls q s

theorem deliverCommand_setPhase (x : CommandExchange) (ok : Bool) (q : Phase) (s : State) :
    deliverCommand x ok (setPhase q s) = setPhase q (deliverCommand x ok s) := by
  unfold deliverCommand
  cases x.channel with
  | none => rfl
  | some n => exact fanEvent_setPhase _ q s

/-- The phase of a fourth part that has begun: its exchange, or the next cycle awaited. -/
theorem startService_phase (x : CommandExchange) (rest : List Nat) (s : State) : (startService s).loop.phase ≠ .commands x rest := by
  have hidle : (completeCycle s).loop.phase = .idle := by
    by_cases h : s.evaluates = true
    · rw [completeCycle_evaluated h]
      exact congrArg Loop.phase (commitZones_loop (s.zones.map (evaluated s.heads)) (checkedState s))
    · rw [completeCycle_unevaluated (Bool.eq_false_iff.mpr h)]
      rfl
  unfold startService
  split
  · exact Phase.noConfusion
  · rw [hidle]
    exact Phase.noConfusion

theorem delivered_setPhase (p : Poll) (reply : List Byte) (q : Phase) (s : State) :
    delivered p reply (setPhase q s) = setPhase q (delivered p reply s) := by
  unfold delivered
  simp only [noteIf_setPhase, deliverPoll_setPhase]

/-- Nothing that begins after a phase depends on that phase. -/
theorem commandsBegin_setPhase {s t : State} (q : Phase) (h : CommandsBegin s t) : CommandsBegin (setPhase q s) t := h

theorem serviceBegins_setPhase {s t : State} (q : Phase) (h : ServiceBegins s t) : ServiceBegins (setPhase q s) t := h

/-- The last poll's end opens the command phase; with one poll more it would have been that poll's turn. -/
theorem lastPoll_begins {p next : Poll} {reply : List Byte} {s : State} (hp : s.power = .running)
    (hd : s.loop.draining ≠ some .poll) (hphase : s.loop.phase = .polls p []) :
    ∃ u t : State, exec (.pollSlotEnd reply) (setPhase (.polls p [next]) s) = .next u
      ∧ exec (.pollSlotEnd reply) s = .next t ∧ CommandsBegin u t := by
  refine ⟨_, _, exec_pollEnd (s := setPhase (.polls p [next]) s) reply hp hd rfl, exec_pollEnd reply hp hd hphase, ?_⟩
  rw [endPoll_next, endPoll_last, delivered_setPhase]
  exact commandsBegin_setPhase _ (commandsBegin_setPhase _ (startCommands_begins (delivered p reply s)))

/-- The last command's end opens the fourth part; with one command more it would have been that command's turn. -/
theorem lastCommand_begins {x : CommandExchange} {n : Nat} {reply : List Byte} {s : State} (hp : s.power = .running)
    (hd : ∀ y, s.loop.draining ≠ some (.command y)) (hphase : s.loop.phase = .commands x []) :
    ∃ u t : State, exec (.commandSlotEnd reply) (setPhase (.commands x [n]) s) = .next u
      ∧ exec (.commandSlotEnd reply) s = .next t ∧ ((∃ y, u.loop.phase = .commands y []) → ServiceBegins u t) := by
  refine ⟨_, _, exec_commandEnd (s := setPhase (.commands x [n]) s) reply hp hd rfl, exec_commandEnd reply hp hd hphase, ?_⟩
  have hanswered (ok : Bool) : answered x ok (setPhase (.commands x [n]) s) = setPhase (.commands x [n]) (answered x ok s) := rfl
  rw [endCommand_eq, endCommand_eq]
  simp only [hanswered, deliverCommand_setPhase]
  generalize deliverCommand x (acknowledged (receive x.address reply)) (answered x (acknowledged (receive x.address reply)) s) = d
  rintro ⟨y, hy⟩
  cases hnext : (setPhase (.commands x [n]) d).commandFor n with
  | none =>
    simp only [nextCommand, hnext] at hy
    exact absurd hy (startService_phase y [] _)
  | some z =>
    simp only [nextCommand, hnext]
    exact serviceBegins_setPhase _ (serviceBegins_setPhase _ (startService_begins d))

/-- Settles O46: the slots by the order of the candidates (`offerings_precede`), the seams by the phase's absence from every delivery. -/
theorem commandSlotsAreAllottedByClass : Obligations.CommandSlotsAreAllottedByClass := by
  refine ⟨fun s hsorted => ?_, fun c h => candidate_eq_none h, fun c i hi hs => ⟨fun ha => candidate_unacknowledged hi hs ha,
    fun a ha => ⟨fun h => ?_, fun h => ?_⟩⟩, fun reply s hp => ⟨fun p next hd hphase => lastPoll_begins hp hd hphase,
    fun x n hd hphase => lastCommand_begins hp hd hphase⟩⟩
  · intro rank first
    have hrank : rank = classRank := by
      funext cls
      cases cls <;> rfl
    have hfirst : first = Precedes := by
      simp only [first, hrank]
      rfl
    rw [hfirst]
    refine ⟨?_, allotted_nodup hsorted, fun n hn => ?_, allotted_precede hsorted,
      fun d hd hoffers hout => allotted_before_left_out hsorted hd hoffers hout⟩
    · rw [allotted_eq, List.length_map]
      exact List.length_take_le 12 _
    · rw [allotted_eq] at hn
      obtain ⟨c, hc, rfl⟩ := List.mem_map.mp hn
      obtain ⟨hmem, hoffers⟩ := mem_offerings.mp (List.mem_of_mem_take hc)
      exact ⟨c, hmem, rfl, hoffers⟩
  · rw [candidate_acknowledged hi hs ha, if_pos h]
  · rw [candidate_acknowledged hi hs ha, if_neg h]

end Sys2Proof.BayLoop
end

