-- ==== Sys2Proof/Proofs/BayLoopDiscovery.lean ====
section
/-! PROOFS. What a kind query does to the discovered list and to the provisional channels (R10, R13 to R16, R144 to R146). -/

namespace Sys2Proof.BayLoop

open Sys2Proof.Machine Sys2Proof.Claims

/-! ## What a poll keeps of its channel -/

theorem leaveStart_provisional (c : Channel) : c.leaveStart.provisional = c.provisional := by
  obtain ⟨-, hprovisional, -⟩ := leaveStart_steady c
  exact hprovisional

theorem enterFault_record (cause : FaultCause) (c : Channel) : (enterFault cause c).ch.record = c.record := (leaveStart_steady c).1

theorem enterLost_keeps (want : Nat) (c : Channel) :
    (enterLost want c).ch.record = c.record ∧ (enterLost want c).ch.provisional = c.provisional :=
  ⟨(leaveStart_steady c).1, leaveStart_provisional c⟩

theorem adopt_record (r : Report) (c : Channel) : (adopt r c).ch.record = c.record := by
  unfold adopt
  split
  · exact enterFault_record _ c
  · split
    · unfold Eff.andThen
      dsimp only
      split
      · exact (enterStopping_steady (enterRunning c).ch).1
      · rfl
    · exact (enterOff_steady c).1

theorem takeReport_record (r : Report) (c : Channel) : (takeReport r c).ch.record = c.record := by
  obtain ⟨d, hd, hrecord⟩ : ∃ d : Channel, d = { c with report := some r, misses := 0, mismatch := false, reportedSinceGrant := true }
      ∧ d.record = c.record := ⟨_, rfl, rfl⟩
  have hfault (cause : FaultCause) : (enterFault cause d).ch.record = c.record := (enterFault_record cause d).trans hrecord
  have hoff : (enterOff d).ch.record = c.record := (enterOff_steady d).1.trans hrecord
  have hqueued : (enterQueued d).ch.record = c.record := hrecord
  have hquiet : (Eff.quiet d).ch.record = c.record := hrecord
  unfold takeReport
  simp only [← hd]
  cases c.state <;> dsimp only
  case sync => exact (adopt_record r d).trans hrecord
  case off => split; exacts [hfault _, hquiet]
  case opening => split_ifs; exacts [hfault _, hqueued, hfault _, hquiet]
  case queued => split_ifs; exacts [hfault _, hfault _, hquiet]
  case starting => split; exacts [hfault _, hquiet]
  case running => split_ifs; exacts [hfault _, hfault _, hquiet]
  case stopping => split_ifs; exacts [hfault _, hoff, hquiet]
  case fault => exact hquiet
  case lost => split; exacts [rfl, adopt_record r _]

/-- What a failed poll keeps, and the only change it can report. -/
theorem failPoll_keeps (limit want : Nat) (cls : PollClass) (c : Channel) :
    (failPoll limit want cls c).ch.record = c.record ∧ (failPoll limit want cls c).ch.provisional = c.provisional
      ∧ ∀ x ∈ (failPoll limit want cls c).changes, x = .leave c.number := by
  by_cases hshort : c.state = .lost ∨ min (c.misses + 1) 255 < limit
  · rw [failPoll_short want cls hshort]
    exact ⟨rfl, rfl, fun x hx => absurd hx List.not_mem_nil⟩
  · obtain ⟨hl, hreached⟩ := not_or.mp hshort
    rw [failPoll_limit want cls hl (Nat.not_lt.mp hreached)]
    refine ⟨rfl, rfl, fun x hx => ?_⟩
    simp only [toLost_changes, leaving] at hx
    split at hx
    · exact List.mem_singleton.mp hx
    · exact absurd hx List.not_mem_nil

theorem polled_record (draws limit want : Nat) (r : Received) (cls : PollClass) (c : Channel) :
    (c.polled draws limit want r cls).ch.record = c.record := by
  unfold Channel.polled
  split
  · exact takeReport_record _ c
  · exact (failPoll_keeps limit want cls c).1

theorem deliverChannel_records (c : Channel) (r : Received) (cls : PollClass) (s : State) :
    (deliverChannel c r cls s).channels.map Channel.record = s.channels.map Channel.record := by
  unfold deliverChannel
  rw [countDraws_eq]
  refine fanEvent_map Channel.record (fun _ => rfl) (fun d => ?_) s
  split
  · exact polled_record _ _ _ r cls d
  · rfl

/-! ## What a query's delivery leaves alone -/

/-- An event of the channels, the counter of free values beside it: what a query's delivery can do after discovery's own list. -/
def ChannelStep (s t : State) : Prop :=
  ∃ channels queue held ring draws,
    t = { s with channels := channels, queue := queue, held := held, ring := ring, draws := draws }

theorem ChannelStep.refl (s : State) : ChannelStep s s := ⟨_, _, _, _, _, rfl⟩

theorem ChannelStep.trans {s t u : State} : ChannelStep s t → ChannelStep t u → ChannelStep s u := by
  rintro ⟨_, _, _, _, _, rfl⟩ ⟨c, q, h, r, d, rfl⟩
  exact ⟨c, q, h, r, d, rfl⟩

theorem channelStep_of_fan {s t : State} : FanStep s t → ChannelStep s t := by
  rintro ⟨c, q, h, ns, rfl⟩
  exact ⟨c, q, h, _, _, rfl⟩

theorem deliverChannel_step (c : Channel) (r : Received) (cls : PollClass) (s : State) : ChannelStep s (deliverChannel c r cls s) := by
  unfold deliverChannel
  rw [countDraws_eq]
  exact (channelStep_of_fan (fanEventAt_fan _ _ s)).trans ⟨_, _, _, _, _, rfl⟩

/-! ## A kind query's end -/

/-- The state a kind query is delivered in: its reply counted for the loop, the next poll on the wire. -/
def heardState (valid : Bool) (q : Phase) (s : State) : State :=
  { s with ring := ringing (upNotices valid s.loop) s, loop := { notedLoop valid s.loop with phase := q } }

theorem exec_queryEnd {address : Nat} {next : Poll} {rest : List Poll} {s : State} (reply : List Byte) (hp : s.power = .running)
    (hd : s.loop.draining ≠ some .poll) (hphase : s.loop.phase = .polls ⟨address, .any⟩ (next :: rest)) :
    let got := receive address reply
    let cls := classifyPoll .any got
    exec (.pollSlotEnd reply) s =
      .next (deliverPoll ⟨address, .any⟩ got cls (heardState (decide (cls = .valid)) (.polls next rest) s)) := by
  intro got cls
  rw [exec_pollEnd reply hp hd hphase, endPoll_next, delivered, ← deliverPoll_setPhase, noteIf_eq]
  rfl

/-- The channel that held the address takes what is left of a query. -/
def reached (owner : Option Channel) (r : Received) (cls : PollClass) (s : State) : State :=
  match owner with
  | none => s
  | some c => deliverChannel c r cls s

theorem deliverQuery_eq (address : Nat) (r : Received) (cls : PollClass) (s : State) :
    deliverQuery address r cls s = reached (s.channelAt address) r (queryClass r cls) (discovery address r cls s) := rfl

theorem reached_step (owner : Option Channel) (r : Received) (cls : PollClass) (s : State) :
    ChannelStep s (reached owner r cls s) := by
  cases owner with
  | none => exact .refl s
  | some c => exact deliverChannel_step c r cls s

theorem reached_records (owner : Option Channel) (r : Received) (cls : PollClass) (s : State) :
    (reached owner r cls s).channels.map Channel.record = s.channels.map Channel.record := by
  cases owner with
  | none => rfl
  | some c => exact deliverChannel_records c r cls s

theorem queryClass_failed (r : Received) {cls : PollClass} (h : cls ≠ .valid) : queryClass r cls = cls := by
  unfold queryClass
  split
  · exact absurd rfl h
  · rfl

/-! ## The discovered list -/

/-- A VALID query is counted, and puts its address in the list (R12, R14). -/
def enteredState (address : Nat) (kind : DeviceKind) (q : Phase) (s : State) : State :=
  { s with
    ring := ringing (if s.loop.state = .down then [.loopState .running s.loop.cycle] else []) s
    loop := { s.loop with
      phase := q, valid := true, state := .running, dead := if s.loop.state = .down then 0 else s.loop.dead
      discovered := upsert Discovered.address ⟨address, kind, s.loop.sweep⟩ s.loop.discovered } }

theorem recordDevice_heard (address : Nat) (kind : DeviceKind) (q : Phase) (s : State) :
    recordDevice ⟨address, kind, s.loop.sweep⟩ (heardState true q s) = enteredState address kind q s := by
  rw [heardState, upNotices_true, notedLoop_true]
  rfl

theorem ringing_entered (ns : List NoticeBody) (address : Nat) (kind : DeviceKind) (q : Phase) (s : State) :
    ringing ns (enteredState address kind q s) =
      ringing ((if s.loop.state = .down then [.loopState .running s.loop.cycle] else []) ++ ns) s :=
  (Ring.raised_append _ _ _ _).symm

/-- A drive's VALID query: one that was none joins (R14). -/
theorem discover_drive (address : Nat) (q : Phase) (s : State) : discover address .drive (heardState true q s) =
    if (lookup Discovered.address address s.loop.discovered).map Discovered.kind = some .drive then enteredState address .drive q s
    else driveJoins address (enteredState address .drive q s) := by
  rw [discover_eq, ← recordDevice_heard]
  rfl

/-- A head's VALID query: a drive that stood there leaves (R14). -/
theorem discover_head (address : Nat) (q : Phase) (s : State) : discover address .head (heardState true q s) =
    if (lookup Discovered.address address s.loop.discovered).map Discovered.kind = some .drive then
      driveLeaves address (enteredState address .head q s)
    else enteredState address .head q s := by
  rw [discover_eq, ← recordDevice_heard]
  rfl

theorem discover_step (address : Nat) (kind : DeviceKind) (q : Phase) (s : State) :
    ChannelStep (enteredState address kind q s) (discover address kind (heardState true q s)) := by
  cases kind with
  | drive =>
    rw [discover_drive]
    split
    · exact .refl _
    · exact channelStep_of_fan (driveJoins_fan _ _)
  | head =>
    rw [discover_head]
    split
    · exact channelStep_of_fan (driveLeaves_fan _ _)
    · exact .refl _

theorem discovery_failed (address : Nat) (r : Received) {cls : PollClass} (h : cls ≠ .valid) (s : State) :
    discovery address r cls s = miss address s := by
  unfold discovery
  split
  · exact absurd rfl h
  · exact absurd rfl h
  · rfl

/-- The list after a failed query (R15). -/
def keptEntries (address : Nat) (l : Loop) : List Discovered :=
  match lookup Discovered.address address l.discovered with
  | some d => if 2 ≤ (l.sweep - d.seen).toNat then l.discovered.filter fun e => e.address != address else l.discovered
  | none => l.discovered

/-- A failed query lets its address go (R15). -/
def missedState (address : Nat) (q : Phase) (s : State) : State :=
  { s with loop := { s.loop with phase := q, discovered := keptEntries address s.loop } }

/-- Whether a failed query loses a drive (R15). -/
def Departs (address : Nat) (l : Loop) : Prop :=
  ∃ d, lookup Discovered.address address l.discovered = some d ∧ d.kind = .drive ∧ 2 ≤ (l.sweep - d.seen).toNat

theorem heardState_false (q : Phase) (s : State) : heardState false q s = setPhase q s := by
  rw [heardState, upNotices_false, notedLoop_false]
  rfl

theorem miss_stays {address : Nat} {q : Phase} {s : State} (h : ¬ Departs address s.loop) :
    miss address (setPhase q s) = missedState address q s := by
  rw [miss_setPhase]
  unfold missedState keptEntries
  cases hfound : lookup Discovered.address address s.loop.discovered with
  | none =>
    rw [miss_unlisted hfound]
    rfl
  | some d =>
    rw [miss_listed hfound]
    by_cases hold : 2 ≤ (s.loop.sweep - d.seen).toNat
    · have hkind : d.kind ≠ .drive := fun hkind => h ⟨d, hfound, hkind, hold⟩
      simp only [if_pos hold, if_neg hkind]
      rfl
    · simp only [if_neg hold]
      rfl

theorem miss_departs {address : Nat} {q : Phase} {s : State} (h : Departs address s.loop) :
    miss address (setPhase q s) = driveLeaves address (missedState address q s) := by
  obtain ⟨d, hfound, hkind, hold⟩ := h
  rw [miss_setPhase, miss_listed hfound, if_pos hold, if_pos hkind, ← driveLeaves_setPhase]
  unfold missedState keptEntries
  simp only [hfound, if_pos hold]
  rfl

theorem miss_step (address : Nat) (q : Phase) (s : State) : ChannelStep (missedState address q s) (miss address (setPhase q s)) := by
  by_cases h : Departs address s.loop
  · rw [miss_departs h]
    exact channelStep_of_fan (driveLeaves_fan _ _)
  · rw [miss_stays h]
    exact .refl _

/-! ## A drive that joins -/

theorem driveJoins_unlatched {address : Nat} {s : State} (h : s.latches = []) : driveJoins address s = s := by
  simp [driveJoins, State.anyLatch, h]

theorem driveJoins_latched {address : Nat} {s : State} (h : s.latches ≠ []) :
    driveJoins address s = resolving (fun _ => true) { s with channels := provided s.channels address } := by
  have hany : s.anyLatch = true := by simpa [State.anyLatch] using h
  rw [driveJoins, if_pos hany, resolving_eq]
  rfl

theorem provided_held {channels : List Channel} {address : Nat} (h : ∃ c ∈ channels, c.record.address = address) :
    provided channels address = channels := by
  unfold provided
  rw [if_pos (by simpa using h)]

/-- A drive without a channel has one afterwards, while numbers last (R144). -/
theorem provided_covers (channels : List Channel) (address : Nat) :
    (∃ c ∈ provided channels address, c.record.address = address) ∨ ∀ n < 24, ∃ c ∈ provided channels address, c.number = n := by
  rw [provided_eq]
  unfold addProvisional
  split
  next hheld => exact .inl (by simpa using hheld)
  next =>
    split
    next hfull =>
      refine .inr fun n hn => ?_
      have htaken := List.find?_eq_none.mp hfull n (List.mem_range.mpr hn)
      exact hasKey_iff.mp (by simpa using htaken)
    next n _ => exact .inl ⟨_, upsert_mem, rfl⟩

theorem covers_of_records {address : Nat} {l m : List Channel} (h : l.map Channel.record = m.map Channel.record)
    (hm : (∃ c ∈ m, c.record.address = address) ∨ ∀ n < 24, ∃ c ∈ m, c.number = n) :
    (∃ c ∈ l, c.record.address = address) ∨ ∀ n < 24, ∃ c ∈ l, c.number = n := by
  have hsame : ∀ c ∈ m, ∃ d ∈ l, d.record = c.record := by
    intro c hc
    have hmem : c.record ∈ l.map Channel.record := h ▸ List.mem_map_of_mem hc
    exact List.mem_map.mp hmem
  rcases hm with ⟨c, hc, ha⟩ | hm
  · obtain ⟨d, hd, hrecord⟩ := hsame c hc
    exact .inl ⟨d, hd, hrecord ▸ ha⟩
  · refine .inr fun n hn => ?_
    obtain ⟨c, hc, hnumber⟩ := hm n hn
    obtain ⟨d, hd, hrecord⟩ := hsame c hc
    exact ⟨d, hd, (congrArg FanRecord.channel hrecord).trans hnumber⟩

/-! ## A drive that leaves -/

theorem driveLeaves_none {address : Nat} {s : State} (h : ∀ c ∈ s.channels, c.record.address ≠ address) : driveLeaves address s = s :=
  fanEvent_none fun c hc => if_neg fun ⟨_, hat, _⟩ => h c hc hat

/-- What a channel whose drive leaves does: it goes LOST, unless it is (R146). -/
def goesLost (want : Nat) (c : Channel) : Eff := if c.state = .lost then ⟨c, [], []⟩ else toLost want c

/-- The one channel at the address goes LOST (R146). -/
theorem driveLeaves_split {address : Nat} {s : State} {before after : List Channel} {c : Channel} (hs : s.channels = before ++ c :: after)
    (ha : c.record.address = address) (hprovisional : c.provisional = true) (ho : ∀ k ∈ before ++ after, k.record.address ≠ address) :
    let e := goesLost (s.demand c).want c
    driveLeaves address s = applyChanges e.changes { s with channels := before ++ e.ch :: after, ring := ringing e.notices s } := by
  intro e
  have hpart : (if c.provisional = true ∧ c.record.address = address ∧ c.state ≠ .lost then enterLost (s.demand c).want c else .quiet c) =
      e := by
    by_cases hl : c.state = .lost
    · simp only [e, goesLost, hl, ne_eq, not_true_eq_false, and_false, if_false, if_true]
      rfl
    · simp only [e, goesLost, if_neg hl, toLost_eq]
      rw [if_pos ⟨hprovisional, ha, hl⟩]
  rw [← hpart]
  exact fanEvent_single hs fun k hk => if_neg fun ⟨_, hat, _⟩ => ho k hk hat

/-! ## LOST stays LOST -/

theorem mem_ordered {x : QueueChange} {cs : List QueueChange} : x ∈ ordered cs ↔ x ∈ cs := by
  simp only [ordered, List.mem_append, List.mem_filter]
  cases x <;> simp [QueueChange.isLeave, QueueChange.isMove, QueueChange.isJoin]

/-- An event in which channels only leave the queue. -/
theorem mem_foldl_leaves {xs : List QueueChange} (h : ∀ x ∈ xs, ∃ n, x = .leave n) (q : List QueueEntry) :
    ∀ e ∈ xs.foldl applyChange q, e.channel ∈ q.map QueueEntry.channel ∧ .leave e.channel ∉ xs := by
  induction xs generalizing q with
  | nil => exact fun e he => ⟨List.mem_map_of_mem he, List.not_mem_nil⟩
  | cons x xs ih =>
    intro e he
    obtain ⟨n, rfl⟩ := h x List.mem_cons_self
    obtain ⟨hmem, hnot⟩ := ih (fun y hy => h y (List.mem_cons_of_mem _ hy)) _ e he
    rw [applyChange, fixHead_channels] at hmem
    obtain ⟨g, hg, hge⟩ := List.mem_map.mp hmem
    obtain ⟨hgq, hne⟩ := mem_removeEntry.mp hg
    refine ⟨hge ▸ List.mem_map_of_mem hgq, fun hin => ?_⟩
    rcases List.mem_cons.mp hin with hsame | hin
    · injection hsame with hsame
      exact hne (hge.trans hsame)
    · exact hnot hin

theorem lookFrom_queue (fuel : Nat) (s : State) : ∀ e ∈ (lookFrom fuel s).queue, e.channel ∈ s.queue.map QueueEntry.channel := by
  induction fuel generalizing s with
  | zero => exact fun e he => List.mem_map_of_mem he
  | succ n ih =>
    intro e he
    unfold lookFrom at he
    split at he
    · exact List.mem_map_of_mem he
    next f rest hq =>
      split at he
      · have hmem : e.channel ∈ (fixHead rest).map QueueEntry.channel := ih _ e he
        rw [fixHead_channels] at hmem
        rw [hq]
        exact List.mem_cons_of_mem _ hmem
      · exact List.mem_map_of_mem he

theorem applyChanges_queue (cs : List QueueChange) (s : State) :
    ∀ e ∈ (applyChanges cs s).queue, e.channel ∈ ((ordered cs).foldl applyChange s.queue).map QueueEntry.channel := by
  intro e he
  unfold applyChanges at he
  dsimp only at he
  split at he
  · exact lookFrom_queue _ { s with queue := (ordered cs).foldl applyChange s.queue } e he
  · exact List.mem_map_of_mem he

/-- The provisional channels at an address are LOST, and none of them waits in the queue. -/
def GoneLost (address : Nat) (s : State) : Prop :=
  ∀ c ∈ s.channels, c.record.address = address → c.provisional = true → c.state = .lost ∧ ∀ e ∈ s.queue, e.channel ≠ c.number

/-- An event that takes channels to LOST and out of the queue, and does no more to the queue, leaves them there. -/
theorem fanEvent_goneLost {address : Nat} {f : Channel → Eff} {s : State}
    (hsame : ∀ c, (f c).ch.record = c.record ∧ (f c).ch.provisional = c.provisional)
    (hleaves : ∀ c ∈ s.channels, ∀ x ∈ (f c).changes, x = .leave c.number)
    (hlost : ∀ c ∈ s.channels, c.record.address = address → c.provisional = true →
      (f c).ch.state = .lost ∧ (.leave c.number ∈ (f c).changes ∨ ∀ e ∈ s.queue, e.channel ≠ c.number)) :
    GoneLost address (fanEvent f s) := by
  rw [fanEvent_eq]
  obtain ⟨cs, hcs⟩ : ∃ cs, cs = s.channels.flatMap fun c => (f c).changes := ⟨_, rfl⟩
  rw [← hcs]
  have hall : ∀ x ∈ ordered cs, ∃ n, x = .leave n := by
    intro x hx
    rw [mem_ordered, hcs] at hx
    obtain ⟨c, hc, hxc⟩ := List.mem_flatMap.mp hx
    exact ⟨_, hleaves c hc x hxc⟩
  have hqueue := mem_foldl_leaves hall s.queue
  have hspared : ∀ c ∈ s.channels, c.record.address = address → c.provisional = true →
      ∀ e ∈ (ordered cs).foldl applyChange s.queue, e.channel ≠ c.number := by
    intro c hc ha hp e he hec
    obtain ⟨hold, hnot⟩ := hqueue e he
    rcases (hlost c hc ha hp).2 with hin | hnone
    · refine hnot ?_
      rw [mem_ordered, hcs, hec]
      exact List.mem_flatMap.mpr ⟨c, hc, hin⟩
    · obtain ⟨g, hg, hge⟩ := List.mem_map.mp hold
      exact hnone g hg (hge.trans hec)
  obtain ⟨g, hg, hchannels⟩ := applyChanges_grants cs { s with
    channels := s.channels.map fun c => (f c).ch, ring := ringing (s.channels.flatMap fun c => (f c).notices) s }
  intro d hd ha hp
  rw [hchannels] at hd
  obtain ⟨k, hk, rfl⟩ := List.mem_map.mp hd
  obtain ⟨c, hc, rfl⟩ := List.mem_map.mp hk
  obtain ⟨hrecord, hprovisional, -, hkept⟩ := hg (f c).ch
  obtain ⟨hrecord', hprovisional'⟩ := hsame c
  rw [hrecord, hrecord'] at ha
  rw [hprovisional, hprovisional'] at hp
  have hnumber : (f c).ch.number = c.number := congrArg FanRecord.channel hrecord'
  have hstill : g (f c).ch = (f c).ch := hkept fun e he => hnumber ▸ hspared c hc ha hp e he
  rw [hstill, hnumber]
  refine ⟨(hlost c hc ha hp).1, fun e he hec => ?_⟩
  obtain ⟨h, hh, hhe⟩ := List.mem_map.mp (applyChanges_queue _ _ e he)
  exact hspared c hc ha hp h hh (hhe.trans hec)

theorem driveLeaves_goneLost {address : Nat} {s : State} (h : s.unitsOk) : GoneLost address (driveLeaves address s) := by
  obtain ⟨-, hsorted, -, hentries, -⟩ := h
  have hunqueued : ∀ c ∈ s.channels, c.state ≠ .queued → ∀ e ∈ s.queue, e.channel ≠ c.number := by
    intro c hc hstate e he hec
    obtain ⟨d, hd, hnumber, hqueued, -⟩ := hentries e he
    exact hstate (sorted_unique hsorted hd hc (hnumber.trans hec) ▸ hqueued)
  refine fanEvent_goneLost (fun c => ?_) (fun c _ x hx => ?_) fun c hc ha hp => ?_
  · split
    · exact enterLost_keeps _ c
    · exact ⟨rfl, rfl⟩
  · split at hx
    · have hleave : x ∈ c.leaves := hx
      unfold Channel.leaves at hleave
      split at hleave
      · exact List.mem_singleton.mp hleave
      · exact absurd hleave List.not_mem_nil
    · exact absurd hx List.not_mem_nil
  · by_cases hl : c.state = .lost
    · rw [if_neg fun ⟨_, _, hnot⟩ => hnot hl]
      exact ⟨hl, .inr (hunqueued c hc (by rw [hl]; decide))⟩
    · rw [if_pos ⟨hp, ha, hl⟩]
      refine ⟨rfl, ?_⟩
      by_cases hq : c.state = .queued
      · have hleaves : .leave c.number ∈ c.leaves := by
          rw [Channel.leaves, if_pos hq]
          exact List.mem_singleton_self _
        exact .inl hleaves
      · exact .inr (hunqueued c hc hq)

theorem reached_goneLost {address : Nat} {owner : Option Channel} {r : Received} {cls : PollClass} {s : State} (hcls : cls ≠ .valid)
    (h : GoneLost address s) : GoneLost address (reached owner r cls s) := by
  cases owner with
  | none => exact h
  | some c =>
    have hevent : GoneLost address (fanEventAt c.number (fun d => d.polled s.draws (s.channelLimit d) (s.demand d).want r cls) s) := by
      refine fanEvent_goneLost (fun d => ?_) (fun d _ x hx => ?_) fun d hd ha hp => ?_
      · split
        · dsimp only
          rw [polled_failed_channel _ _ _ _ hcls]
          obtain ⟨hrecord, hprovisional, -⟩ := failPoll_keeps (s.channelLimit d) (s.demand d).want cls d
          exact ⟨hrecord, hprovisional⟩
        · exact ⟨rfl, rfl⟩
      · split at hx
        · dsimp only at hx
          rw [polled_failed_channel _ _ _ _ hcls] at hx
          obtain ⟨-, -, hleaves⟩ := failPoll_keeps (s.channelLimit d) (s.demand d).want cls d
          exact hleaves x hx
        · exact absurd hx List.not_mem_nil
      · obtain ⟨hlost, hunqueued⟩ := h d hd ha hp
        refine ⟨?_, .inr hunqueued⟩
        split
        · dsimp only
          rw [polled_failed_channel _ _ _ _ hcls, failPoll_short _ cls (.inl hlost)]
          exact hlost
        · exact hlost
    have hcount : reached (some c) r cls s = aside _ _ _ := countDraws_eq r _
    rw [hcount]
    exact hevent

end Sys2Proof.BayLoop
end

