-- ==== Sys2Proof/Proofs/BayLoopQueries.lean ====
section
/-! PROOFS. The kind queries of BLANK and LOADING, and those left over at a LOAD_COMMIT (R10, R13 to R16, R144 to R146). -/

namespace Sys2Proof.BayLoop

open Sys2Proof.Machine Sys2Proof.Claims

/-! ## What the owner of the address takes -/

theorem deliverChannel_number {c d : Channel} (h : c.number = d.number) (r : Received) (cls : PollClass) (s : State) :
    deliverChannel c r cls s = deliverChannel d r cls s := by
  unfold deliverChannel
  rw [h]

theorem demand_failsafe {s : State} (h : s.failsafe = true) (c : Channel) :
    (s.demand c).want = if s.latches = [] then 0 else 100 := by
  unfold State.demand State.anyLatch
  rw [if_pos h]
  cases s.latches <;> rfl

/-- The contents of a drive reply whose codes are all listed (R75). -/
theorem readDrive_listed (draws : Nat) {run damper : Byte} (speed trip : Byte) (hrun : run.toNat < 4) (hdamper : damper.toNat < 4) :
    readDrive draws [run, speed, damper, trip] =
      ⟨if run = 0 then .stopped else if run = 1 then .accelerating else if run = 2 then .running else .decelerating,
        min speed.toNat 100,
        if damper = 0 then .closed else if damper = 1 then .moving else if damper = 2 then .opn else .jammed,
        if trip = 0 then none else some trip.toNat⟩ := by
  have hcodes : ∀ b : Byte, b.toNat < 4 → b = 0 ∨ b = 1 ∨ b = 2 ∨ b = 3 := by
    intro b hb
    bv_omega
  unfold readDrive
  rcases hcodes run hrun with rfl | rfl | rfl | rfl <;> rcases hcodes damper hdamper with rfl | rfl | rfl | rfl <;> rfl

/-- A report of listed codes reaches its channel, and uses no free value. -/
theorem deliverChannel_report (c : Channel) {run damper : Byte} (speed trip : Byte) (hrun : run.toNat < 4) (hdamper : damper.toNat < 4)
    (s : State) : deliverChannel c (.complete .drive [run, speed, damper, trip]) .valid s =
      channelDoes c.record.channel (takeReport (readDrive s.draws [run, speed, damper, trip])) s := by
  have hlisted : drawsAfter (.complete .drive [run, speed, damper, trip]) s.draws = s.draws := by
    rw [drawsAfter_drive, if_pos ⟨hrun, hdamper⟩]
  obtain ⟨t, ht⟩ : ∃ t, t = fanEventAt c.number (takeReport (readDrive s.draws [run, speed, damper, trip])) s := ⟨_, rfl⟩
  have hdraws : t.draws = s.draws := by rw [ht, fanEventAt, fanEvent_eq, applyChanges_draws]
  have hcount : deliverChannel c (.complete .drive [run, speed, damper, trip]) .valid s =
      countDraws (.complete .drive [run, speed, damper, trip]) t := by rw [ht]; rfl
  have hsame : aside t.loop s.draws t = t := by rw [← hdraws]; rfl
  rw [hcount, countDraws_eq, hdraws, hlisted, hsame, ht, channelDoes_eq]
  rfl

theorem mismatchNotices_wrong {address : Nat} {c : Channel} (ha : c.record.address = address) :
    mismatchNotices .wrongKind c = if c.mismatch then [] else [.kindMismatch address .drive .head] := by
  unfold mismatchNotices
  cases c.mismatch <;> simp [ha]

theorem mismatchNotices_unnoted {address : Nat} {c : Channel} (ha : c.record.address = address) :
    mismatchNotices .wrongKind c = if true && !c.mismatch then [.kindMismatch address .drive .head] else [] := by
  rw [mismatchNotices_wrong ha]
  cases c.mismatch <;> rfl

theorem mismatchNotices_right {cls : PollClass} (h : cls ≠ .wrongKind) (c : Channel) : mismatchNotices cls c = [] :=
  if_neg fun hwrong => h hwrong.1

/-- A kind query takes either kind. -/
theorem classifyPoll_any (r : Received) : classifyPoll .any r ≠ .wrongKind := by
  rcases r with _ | _ | _ | ⟨kind, _⟩
  case complete => cases kind <;> simp [classifyPoll, ReplyKind.device]
  all_goals simp [classifyPoll]

section Failed

variable {u : State} {before after : List Channel} {c : Channel} {r : Received} {cls : PollClass}
  (hs : u.channels = before ++ c :: after) (ho : ∀ k ∈ before ++ after, k.record.channel ≠ c.record.channel)
  (hcls : cls ≠ .valid) (hdraws : drawsAfter r u.draws = u.draws) (hprovisional : c.provisional = true)

include hs ho hcls hdraws hprovisional

theorem deliverChannel_short (hshort : c.state = .lost ∨ min (c.misses + 1) 255 < 4) : deliverChannel c r cls u = { u with
    channels := before ++ { missedOnce c with mismatch := c.mismatch || decide (cls = .wrongKind) } :: after
    ring := ringing (mismatchNotices cls c) u } := by
  have hlimit : u.channelLimit c = 4 := if_pos hprovisional
  rw [deliverChannel_eq hs ho, polled_failed_channel _ _ _ _ hcls, hlimit, failPoll_short _ cls hshort, hdraws, applyChanges_nil]
  rfl

theorem deliverChannel_limit {e : Eff} (he : toLost (u.demand c).want { c with misses := min (c.misses + 1) 255 } = e)
    (hl : c.state ≠ .lost) (hreached : 4 ≤ min (c.misses + 1) 255) : deliverChannel c r cls u =
    applyChanges e.changes { u with
      channels := before ++ { e.ch with mismatch := c.mismatch || decide (cls = .wrongKind) } :: after
      ring := ringing (e.notices ++ mismatchNotices cls c) u } := by
  have hlimit : u.channelLimit c = 4 := if_pos hprovisional
  rw [deliverChannel_eq hs ho, polled_failed_channel _ _ _ _ hcls, hlimit, failPoll_limit _ cls hl hreached, hdraws, he]
  rfl

end Failed

theorem driveJoins_covers {address : Nat} {s : State} (h : s.latches ≠ []) :
    (∃ c ∈ (driveJoins address s).channels, c.record.address = address)
      ∨ ∀ n < 24, ∃ c ∈ (driveJoins address s).channels, c.number = n := by
  rw [driveJoins_latched h, resolving_eq]
  exact covers_of_records (resolveChannels_map Channel.record (fun _ _ h => h.1) _ _ _) (provided_covers s.channels address)

/-! ## The owner of an address whose drive left -/

/-- Once a channel has left the queue, the rest of its event moves no channel's number and passes the channel itself by. -/
theorem applyChanges_leaving_split {c d : Channel} {s : State} {before after : List Channel} (hn : d.number = c.number)
    (hs : s.channels = before ++ d :: after) (ho : ∀ k ∈ before ++ after, k.record.channel ≠ c.record.channel) :
    ∃ left right, (applyChanges (leaving c) s).channels = left ++ d :: right
      ∧ ∀ k ∈ left ++ right, k.record.channel ≠ c.record.channel := by
  by_cases hq : c.state = .queued
  · have hleaving : leaving c = [.leave c.number] := if_pos hq
    obtain ⟨g, hg, hchannels⟩ := applyChanges_grants (leaving c) s
    have hgone : ∀ e ∈ (ordered (leaving c)).foldl applyChange s.queue, e.channel ≠ d.number := by
      intro e he hed
      obtain ⟨-, hnot⟩ := mem_foldl_leaves (fun x hx => ⟨c.number, by
        rw [mem_ordered, hleaving] at hx
        exact List.mem_singleton.mp hx⟩) s.queue e he
      refine hnot ?_
      rw [mem_ordered, hleaving, hed, hn]
      exact List.mem_singleton_self _
    obtain ⟨-, -, -, hspared⟩ := hg d
    have hkept : g d = d := hspared hgone
    refine ⟨before.map g, after.map g, ?_, fun k hk => ?_⟩
    · rw [hchannels, hs, List.map_append, List.map_cons, hkept]
    · rw [← List.map_append] at hk
      obtain ⟨j, hj, rfl⟩ := List.mem_map.mp hk
      rw [(hg j).1]
      exact ho j hj
  · have hleaving : leaving c = [] := if_neg hq
    rw [hleaving, applyChanges_nil]
    exact ⟨before, after, hs, ho⟩

/-- A LOST channel with one miss more and, after a head's reply, the wrong kind noted (R76, R93). -/
def missedLost (wrong : Bool) (k : Channel) : Channel :=
  { k with misses := min (k.misses + 1) 255, recover := 0, mismatch := k.mismatch || wrong }

theorem missedOnce_lost (wrong : Bool) {c : Channel} (h : c.state = .lost) :
    { missedOnce c with mismatch := c.mismatch || wrong } = missedLost wrong c := by
  rw [missedOnce, if_pos h]
  rfl

theorem goesLost_ch (want : Nat) (c : Channel) : (goesLost want c).ch.state = .lost ∧ (goesLost want c).ch.record = c.record
    ∧ (goesLost want c).ch.provisional = c.provisional ∧ (goesLost want c).ch.mismatch = c.mismatch := by
  unfold goesLost
  split
  next hl => exact ⟨hl, rfl, rfl, rfl⟩
  · exact ⟨rfl, rfl, rfl, rfl⟩

theorem goesLost_changes (want : Nat) (c : Channel) : (goesLost want c).changes = leaving c := by
  unfold goesLost
  split
  next hl => rw [leaving, if_neg (by rw [hl]; decide)]
  · rfl

/-- The failed poll that follows a drive's leaving finds its channel LOST (R10, R146). -/
theorem deliverChannel_after_leaving {u : State} {before after : List Channel} {c : Channel} {r : Received} {cls : PollClass}
    (want : Nat) (hs : u.channels = before ++ (goesLost want c).ch :: after)
    (ho : ∀ k ∈ before ++ after, k.record.channel ≠ c.record.channel) (hcls : cls ≠ .valid)
    (hdraws : ∀ d, drawsAfter r d = d) (hprovisional : c.provisional = true) :
    let t := applyChanges (goesLost want c).changes u
    deliverChannel c r cls t = { t with
      channels := modify Channel.number c.number (missedLost (decide (cls = .wrongKind))) t.channels
      ring := ringing (mismatchNotices cls c) t } := by
  intro t
  obtain ⟨hlost, hrecord, hkept, hmismatch⟩ := goesLost_ch want c
  have hnumber : (goesLost want c).ch.number = c.number := congrArg FanRecord.channel hrecord
  obtain ⟨left, right, ht, hothers⟩ := applyChanges_leaving_split hnumber hs ho
  rw [← goesLost_changes want] at ht
  have hmodify : modify Channel.number c.number (missedLost (decide (cls = .wrongKind))) t.channels =
      left ++ missedLost (decide (cls = .wrongKind)) (goesLost want c).ch :: right := by
    rw [ht]
    exact modify_split hothers hnumber
  have hnotices : mismatchNotices cls (goesLost want c).ch = mismatchNotices cls c := by
    rw [mismatchNotices, hmismatch, hrecord]
    rfl
  rw [hmodify, deliverChannel_number hnumber.symm, deliverChannel_short ht (by rwa [hrecord]) hcls (hdraws _) (hkept.trans hprovisional)
    (.inl hlost), hnotices, missedOnce_lost _ hlost]

theorem channelAt_none {address : Nat} {s : State} (h : ∀ c ∈ s.channels, c.record.address ≠ address) : s.channelAt address = none :=
  lookup_eq_none (key := fun c : Channel => c.record.address).mpr h

/-! ## The queries, by what is heard and what was listed -/

section Query

variable {address : Nat} {next : Poll} {rest : List Poll} {reply : List Byte} {s : State} (hp : s.power = .running)
  (hd : s.loop.draining ≠ some .poll) (hphase : s.loop.phase = .polls ⟨address, .any⟩ (next :: rest))

include hp hd hphase

theorem query_left_over (h : s.failsafe = false) : exec (.pollSlotEnd reply) s =
    .next (heardState (decide (classifyPoll .any (receive address reply) = .valid)) (.polls next rest) s) := by
  have hfailsafe : (heardState (decide (classifyPoll .any (receive address reply) = .valid)) (.polls next rest) s).failsafe = false := h
  rw [exec_queryEnd reply hp hd hphase, deliverPoll]
  simp only [hfailsafe, Bool.false_eq_true, if_false]

variable (hfailsafe : s.failsafe = true)

include hfailsafe

theorem query_delivered : exec (.pollSlotEnd reply) s =
    let got := receive address reply
    let cls := classifyPoll .any got
    .next (reached (s.channelAt address) got (queryClass got cls)
      (discovery address got cls (heardState (decide (cls = .valid)) (.polls next rest) s))) := by
  have hheard (valid : Bool) : (heardState valid (.polls next rest) s).failsafe = true := hfailsafe
  rw [exec_queryEnd reply hp hd hphase]
  simp only [deliverPoll, deliverQuery_eq, if_pos (hheard _)]
  rfl

/-- A VALID query: discovery first, then the owner, for whom a head is the wrong kind (R10). -/
theorem query_valid (kind : DeviceKind) {data : List Byte}
    (hgot : receive address reply = .complete (if kind = .head then .head else .drive) data) : exec (.pollSlotEnd reply) s =
      .next (reached (s.channelAt address) (receive address reply) (if kind = .head then .wrongKind else .valid)
        (discover address kind (heardState true (.polls next rest) s))) := by
  rw [query_delivered hp hd hphase hfailsafe, hgot]
  cases kind <;> rfl

theorem query_drive {data : List Byte} (hgot : receive address reply = .complete .drive data) : exec (.pollSlotEnd reply) s =
    .next (reached (s.channelAt address) (.complete .drive data) .valid
      (discover address .drive (heardState true (.polls next rest) s))) := by
  rw [query_valid hp hd hphase hfailsafe .drive hgot, hgot]
  rfl

theorem query_head {data : List Byte} (hgot : receive address reply = .complete .head data) : exec (.pollSlotEnd reply) s =
    .next (reached (s.channelAt address) (.complete .head data) .wrongKind
      (discover address .head (heardState true (.polls next rest) s))) := by
  rw [query_valid hp hd hphase hfailsafe .head hgot, hgot]
  rfl

theorem query_failed (hcls : classifyPoll .any (receive address reply) ≠ .valid) : exec (.pollSlotEnd reply) s =
    .next (reached (s.channelAt address) (receive address reply) (classifyPoll .any (receive address reply))
      (miss address (setPhase (.polls next rest) s))) := by
  rw [query_delivered hp hd hphase hfailsafe]
  simp only [queryClass_failed _ hcls, discovery_failed _ _ hcls, decide_eq_false hcls, heardState_false]

/-! ## The discovered list and the channels together -/

theorem query_enters (kind : DeviceKind) {data : List Byte}
    (hgot : receive address reply = .complete (if kind = .head then .head else .drive) data) :
    let was := (lookup Discovered.address address s.loop.discovered).map Discovered.kind
    ∃ t : State, exec (.pollSlotEnd reply) s = .next t
      ∧ ChannelStep (enteredState address kind (.polls next rest) s) t
      ∧ (kind = .drive → was ≠ some .drive → s.latches ≠ [] →
          (∃ c ∈ t.channels, c.record.address = address) ∨ ∀ n < 24, ∃ c ∈ t.channels, c.number = n)
      ∧ (kind = .head → was = some .drive → s.unitsOk → GoneLost address t) := by
  intro was
  refine ⟨_, query_valid hp hd hphase hfailsafe kind hgot, (discover_step address kind _ s).trans (reached_step _ _ _ _),
    fun hkind hwas hlatched => ?_, fun hkind hwas hunits => ?_⟩
  · subst hkind
    rw [discover_drive, if_neg hwas]
    exact covers_of_records (reached_records _ _ _ _) (driveJoins_covers hlatched)
  · subst hkind
    rw [discover_head, if_pos hwas]
    exact reached_goneLost (by decide) (driveLeaves_goneLost hunits)

theorem query_misses (hcls : classifyPoll .any (receive address reply) ≠ .valid) :
    ∃ t : State, exec (.pollSlotEnd reply) s = .next t
      ∧ ChannelStep (missedState address (.polls next rest) s) t
      ∧ (Departs address s.loop → s.unitsOk → GoneLost address t) := by
  refine ⟨_, query_failed hp hd hphase hfailsafe hcls, (miss_step address _ s).trans (reached_step _ _ _ _), fun hdeparts hunits => ?_⟩
  rw [miss_departs hdeparts]
  exact reached_goneLost hcls (driveLeaves_goneLost hunits)

/-! ## Queries of an address without a channel -/

section Unowned

variable (hnone : ∀ c ∈ s.channels, c.record.address ≠ address)

include hnone

theorem query_unowned_joins {data : List Byte} (hgot : receive address reply = .complete .drive data) (hlatched : s.latches ≠ [])
    (hwas : (lookup Discovered.address address s.loop.discovered).map Discovered.kind ≠ some .drive) :
    exec (.pollSlotEnd reply) s = .next (resolving (fun _ => true) { enteredState address .drive (.polls next rest) s with
      channels := provided s.channels address }) := by
  rw [query_drive hp hd hphase hfailsafe hgot, discover_drive, if_neg hwas, channelAt_none hnone,
    driveJoins_latched (s := enteredState address .drive (.polls next rest) s) hlatched]
  rfl

theorem query_unowned_enters (kind : DeviceKind) {data : List Byte}
    (hgot : receive address reply = .complete (if kind = .head then .head else .drive) data)
    (hquiet : kind = .head ∨ (lookup Discovered.address address s.loop.discovered).map Discovered.kind = some .drive ∨ s.latches = []) :
    exec (.pollSlotEnd reply) s = .next (enteredState address kind (.polls next rest) s) := by
  rw [query_valid hp hd hphase hfailsafe kind hgot, channelAt_none hnone]
  cases kind with
  | head =>
    rw [discover_head, driveLeaves_none (s := enteredState address .head (.polls next rest) s) hnone, ite_self]
    rfl
  | drive =>
    rw [discover_drive]
    by_cases hwas : (lookup Discovered.address address s.loop.discovered).map Discovered.kind = some .drive
    · rw [if_pos hwas]
      rfl
    · have hunlatched : s.latches = [] := (hquiet.resolve_left (by decide)).resolve_left hwas
      rw [if_neg hwas, driveJoins_unlatched (s := enteredState address .drive (.polls next rest) s) hunlatched]
      rfl

theorem query_unowned_misses (hcls : classifyPoll .any (receive address reply) ≠ .valid) :
    exec (.pollSlotEnd reply) s = .next (missedState address (.polls next rest) s) := by
  rw [query_failed hp hd hphase hfailsafe hcls, channelAt_none hnone]
  by_cases h : Departs address s.loop
  · rw [miss_departs h, driveLeaves_none (s := missedState address (.polls next rest) s) hnone]
    rfl
  · rw [miss_stays h]
    rfl

end Unowned

/-! ## Queries of an address with a provisional channel -/

section Owned

variable {before after : List Channel} {c : Channel} (hs : s.channels = before ++ c :: after) (ha : c.record.address = address)
  (hprovisional : c.provisional = true) (hfirst : ∀ k ∈ before, k.record.address ≠ address)
  (ho : ∀ k ∈ before ++ after, k.record.channel ≠ c.record.channel)

include hs ha hfirst

theorem query_owned_report {run damper : Byte} (speed trip : Byte)
    (hgot : receive address reply = .complete .drive [run, speed, damper, trip]) (hrun : run.toNat < 4) (hdamper : damper.toNat < 4)
    (ho : ∀ k ∈ before ++ after, k.record.channel ≠ c.record.channel)
    (hquiet : (lookup Discovered.address address s.loop.discovered).map Discovered.kind = some .drive ∨ s.latches = []) :
    let e := takeReport (readDrive s.draws [run, speed, damper, trip]) c
    exec (.pollSlotEnd reply) s = .next (applyChanges e.changes { enteredState address .drive (.polls next rest) s with
      channels := before ++ e.ch :: after
      ring := ringing ((if s.loop.state = .down then [.loopState .running s.loop.cycle] else []) ++ e.notices) s }) := by
  intro e
  have hentered : discover address .drive (heardState true (.polls next rest) s) = enteredState address .drive (.polls next rest) s := by
    rw [discover_drive]
    by_cases hwas : (lookup Discovered.address address s.loop.discovered).map Discovered.kind = some .drive
    · rw [if_pos hwas]
    · rw [if_neg hwas, driveJoins_unlatched (s := enteredState address .drive (.polls next rest) s) (hquiet.resolve_left hwas)]
  have hdelivered := deliverChannel_report c speed trip hrun hdamper (enteredState address .drive (.polls next rest) s)
  rw [channelDoes_eq, fanEventAt_split (s := enteredState address .drive (.polls next rest) s) _ hs rfl ho, ringing_entered] at hdelivered
  rw [query_drive hp hd hphase hfailsafe hgot, channelAt_split hs ha hfirst, hentered]
  exact congrArg Host.Outcome.next hdelivered

theorem query_owned_joins {run damper : Byte} (speed trip : Byte)
    (hgot : receive address reply = .complete .drive [run, speed, damper, trip]) (hrun : run.toNat < 4) (hdamper : damper.toNat < 4)
    (hwas : (lookup Discovered.address address s.loop.discovered).map Discovered.kind ≠ some .drive) (hlatched : s.latches ≠ []) :
    exec (.pollSlotEnd reply) s = .next (channelDoes c.record.channel (takeReport (readDrive s.draws [run, speed, damper, trip]))
      (resolving (fun _ => true) (enteredState address .drive (.polls next rest) s))) := by
  obtain ⟨u, hu⟩ : ∃ u, u = enteredState address .drive (.polls next rest) s := ⟨_, rfl⟩
  have hheld : provided u.channels address = u.channels :=
    provided_held ⟨c, by rw [hu]; exact hs ▸ List.mem_append_right _ List.mem_cons_self, ha⟩
  have hjoins : driveJoins address u = resolving (fun _ => true) u := by
    rw [driveJoins_latched (by rw [hu]; exact hlatched), hheld]
  have hdraws : (resolving (fun _ => true) u).draws = s.draws := by
    rw [resolving_eq, resolveChannels, fanEvent_eq, applyChanges_draws, hu]
    rfl
  rw [query_drive hp hd hphase hfailsafe hgot, channelAt_split hs ha hfirst, discover_drive, if_neg hwas, ← hu, hjoins, ← hdraws]
  exact congrArg Host.Outcome.next (deliverChannel_report c speed trip hrun hdamper _)

theorem query_owned_head {data : List Byte} (hgot : receive address reply = .complete .head data)
    (hwas : (lookup Discovered.address address s.loop.discovered).map Discovered.kind ≠ some .drive) :
    exec (.pollSlotEnd reply) s =
      .next (deliverChannel c (.complete .head data) .wrongKind (enteredState address .head (.polls next rest) s)) := by
  rw [query_head hp hd hphase hfailsafe hgot, discover_head, channelAt_split hs ha hfirst, if_neg hwas]
  rfl

theorem query_owned_misses (hcls : classifyPoll .any (receive address reply) ≠ .valid) (hstays : ¬ Departs address s.loop) :
    exec (.pollSlotEnd reply) s = .next (deliverChannel c (receive address reply) (classifyPoll .any (receive address reply))
      (missedState address (.polls next rest) s)) := by
  rw [query_failed hp hd hphase hfailsafe hcls, channelAt_split hs ha hfirst, miss_stays hstays]
  rfl

include hprovisional ho

theorem query_owned_head_short {data : List Byte} (hgot : receive address reply = .complete .head data)
    (hwas : (lookup Discovered.address address s.loop.discovered).map Discovered.kind ≠ some .drive)
    (hshort : c.state = .lost ∨ min (c.misses + 1) 255 < 4) :
    exec (.pollSlotEnd reply) s = .next { enteredState address .head (.polls next rest) s with
      channels := before ++ { missedOnce c with mismatch := true } :: after
      ring := ringing ((if s.loop.state = .down then [.loopState .running s.loop.cycle] else [])
        ++ if c.mismatch then [] else [.kindMismatch address .drive .head]) s } := by
  rw [query_owned_head hp hd hphase hfailsafe hs ha hfirst hgot hwas,
    deliverChannel_short (u := enteredState address .head (.polls next rest) s) hs ho (by decide) rfl hprovisional hshort,
    mismatchNotices_wrong ha, ringing_entered, decide_eq_true (rfl : PollClass.wrongKind = .wrongKind), Bool.or_true]

theorem query_owned_head_limit {data : List Byte} (hgot : receive address reply = .complete .head data)
    (hwas : (lookup Discovered.address address s.loop.discovered).map Discovered.kind ≠ some .drive)
    (hl : c.state ≠ .lost) (hreached : 4 ≤ min (c.misses + 1) 255) :
    let e := toLost (if s.latches = [] then 0 else 100) { c with misses := min (c.misses + 1) 255 }
    exec (.pollSlotEnd reply) s = .next (applyChanges e.changes { enteredState address .head (.polls next rest) s with
      channels := before ++ { e.ch with mismatch := true } :: after
      ring := ringing ((if s.loop.state = .down then [.loopState .running s.loop.cycle] else []) ++ e.notices
        ++ if c.mismatch then [] else [.kindMismatch address .drive .head]) s }) := by
  have hwant : ((enteredState address .head (.polls next rest) s).demand c).want = if s.latches = [] then 0 else 100 :=
    demand_failsafe (s := enteredState address .head (.polls next rest) s) hfailsafe c
  intro e
  rw [query_owned_head hp hd hphase hfailsafe hs ha hfirst hgot hwas,
    deliverChannel_limit (u := enteredState address .head (.polls next rest) s) hs ho (by decide) rfl hprovisional
      (congrArg (fun want => toLost want _) hwant) hl hreached,
    mismatchNotices_wrong ha, ringing_entered, decide_eq_true (rfl : PollClass.wrongKind = .wrongKind), Bool.or_true, List.append_assoc]

theorem query_owned_misses_short (hcls : classifyPoll .any (receive address reply) ≠ .valid) (hstays : ¬ Departs address s.loop)
    (hshort : c.state = .lost ∨ min (c.misses + 1) 255 < 4) :
    exec (.pollSlotEnd reply) s =
      .next { missedState address (.polls next rest) s with channels := before ++ missedOnce c :: after } := by
  rw [query_owned_misses hp hd hphase hfailsafe hs ha hfirst hcls hstays,
    deliverChannel_short (u := missedState address (.polls next rest) s) hs ho hcls (drawsAfter_failed (.inl rfl) hcls _) hprovisional
      hshort, mismatchNotices_right (classifyPoll_any _), decide_eq_false (classifyPoll_any _), Bool.or_false]
  rfl

theorem query_owned_misses_limit (hcls : classifyPoll .any (receive address reply) ≠ .valid) (hstays : ¬ Departs address s.loop)
    (hl : c.state ≠ .lost) (hreached : 4 ≤ min (c.misses + 1) 255) :
    let e := toLost (if s.latches = [] then 0 else 100) { c with misses := min (c.misses + 1) 255 }
    exec (.pollSlotEnd reply) s = .next (applyChanges e.changes { missedState address (.polls next rest) s with
      channels := before ++ e.ch :: after
      ring := ringing e.notices s }) := by
  have hwant : ((missedState address (.polls next rest) s).demand c).want = if s.latches = [] then 0 else 100 :=
    demand_failsafe (s := missedState address (.polls next rest) s) hfailsafe c
  intro e
  rw [query_owned_misses hp hd hphase hfailsafe hs ha hfirst hcls hstays,
    deliverChannel_limit (u := missedState address (.polls next rest) s) hs ho hcls (drawsAfter_failed (.inl rfl) hcls _) hprovisional
      (congrArg (fun want => toLost want _) hwant) hl hreached, mismatchNotices_right (classifyPoll_any _),
    decide_eq_false (classifyPoll_any _), Bool.or_false, List.append_nil]
  rfl

variable (hothers : ∀ k ∈ before ++ after, k.record.address ≠ address)

include hothers

theorem query_owned_replaced {data : List Byte} (hgot : receive address reply = .complete .head data)
    (hwas : (lookup Discovered.address address s.loop.discovered).map Discovered.kind = some .drive) :
    let e := goesLost (if s.latches = [] then 0 else 100) c
    let t := applyChanges e.changes { enteredState address .head (.polls next rest) s with
      channels := before ++ e.ch :: after
      ring := ringing ((if s.loop.state = .down then [.loopState .running s.loop.cycle] else []) ++ e.notices) s }
    exec (.pollSlotEnd reply) s = .next { t with
      channels := modify Channel.number c.number (missedLost true) t.channels
      ring := ringing (mismatchNotices .wrongKind c) t } := by
  have hwant : ((enteredState address .head (.polls next rest) s).demand c).want = if s.latches = [] then 0 else 100 :=
    demand_failsafe (s := enteredState address .head (.polls next rest) s) hfailsafe c
  intro e t
  rw [query_head hp hd hphase hfailsafe hgot, discover_head, channelAt_split hs ha hfirst, if_pos hwas,
    driveLeaves_split (s := enteredState address .head (.polls next rest) s) hs ha hprovisional hothers, hwant, ringing_entered]
  exact congrArg Host.Outcome.next (deliverChannel_after_leaving _ rfl ho (by decide) (fun _ => rfl) hprovisional)

theorem query_owned_departs (hcls : classifyPoll .any (receive address reply) ≠ .valid) (hdeparts : Departs address s.loop) :
    let e := goesLost (if s.latches = [] then 0 else 100) c
    let t := applyChanges e.changes { missedState address (.polls next rest) s with
      channels := before ++ e.ch :: after
      ring := ringing e.notices s }
    exec (.pollSlotEnd reply) s = .next { t with channels := modify Channel.number c.number (missedLost false) t.channels } := by
  have hwant : ((missedState address (.polls next rest) s).demand c).want = if s.latches = [] then 0 else 100 :=
    demand_failsafe (s := missedState address (.polls next rest) s) hfailsafe c
  intro e t
  have hgone := deliverChannel_after_leaving (if s.latches = [] then 0 else 100)
    (u := { missedState address (.polls next rest) s with channels := before ++ e.ch :: after, ring := ringing e.notices s })
    rfl ho hcls (drawsAfter_failed (.inl rfl) hcls) hprovisional
  rw [mismatchNotices_right (classifyPoll_any _), decide_eq_false (classifyPoll_any _)] at hgone
  rw [query_failed hp hd hphase hfailsafe hcls, channelAt_split hs ha hfirst, miss_departs hdeparts,
    driveLeaves_split (s := missedState address (.polls next rest) s) hs ha hprovisional hothers, hwant]
  exact congrArg Host.Outcome.next hgone

end Owned

end Query

/-- Settles O44: each clause is the query with what is listed and who owns the address, and `query_left_over` after a LOAD_COMMIT. -/
theorem kindQueriesKeepTheDiscoveredList : Obligations.KindQueriesKeepTheDiscoveredList := by
  refine ⟨fun address kind next rest reply s hp hm hd hphase => ?_, fun address next rest reply s hp hm hd hphase => ⟨fun hcls => ?_,
    fun hcls => ?_⟩⟩
  · have hf : s.failsafe = true := (failsafe_iff s).mpr hm
    intro got held heard up entered missed
    have hdeparts (d : Discovered) (hfound : held = some d) (hkind : d.kind = .drive) (hold : 2 ≤ (s.loop.sweep - d.seen).toNat) :
        Departs address s.loop := ⟨d, hfound, hkind, hold⟩
    have hstays (h : ∀ d, held = some d → d.kind = .drive → (s.loop.sweep - d.seen).toNat < 2) : ¬ Departs address s.loop :=
      fun ⟨d, hfound, hkind, hold⟩ => Nat.not_lt.mpr hold (h d hfound hkind)
    have hmissed : missedState address (.polls next rest) s = { s with loop := missed } := by
      simp only [missedState, keptEntries, missed]
      rfl
    refine ⟨fun data hgot => ?_, fun hcls => ?_, fun hnone hlatched hwas hkind data hgot => ?_, fun hnone => ⟨fun data hgot hquiet => ?_,
      fun hcls => ?_⟩, fun before c after hs ha hprovisional hfirst ho => ?_⟩
    · obtain ⟨t, ht, ⟨channels, queue, units, ring, draws, hstep⟩, hcovers, hlost⟩ := query_enters hp hd hphase hf kind hgot
      refine ⟨t, ht, ?_, hcovers, fun hkind hwas hunits c hc ha hown => (hlost hkind hwas hunits c hc ha hown).1, ?_⟩
      · rw [hstep]
        rfl
      · rw [hstep]
        exact ⟨rfl, rfl, rfl, rfl, rfl, rfl, rfl, rfl⟩
    · obtain ⟨t, ht, ⟨channels, queue, units, ring, draws, hstep⟩, hlost⟩ := query_misses hp hd hphase hf hcls
      rw [hmissed] at hstep
      refine ⟨t, ht, ?_, fun d hfound hkind hold hunits c hc ha hown =>
        (hlost (hdeparts d hfound hkind hold) hunits c hc ha hown).1, ?_⟩
      · rw [hstep]
      · rw [hstep]
        exact ⟨rfl, rfl, rfl, rfl, rfl, rfl, rfl, rfl⟩
    · subst hkind
      exact query_unowned_joins hp hd hphase hf hnone hgot hlatched hwas
    · exact query_unowned_enters hp hd hphase hf hnone kind hgot hquiet
    · exact hmissed ▸ query_unowned_misses hp hd hphase hf hnone hcls
    · intro want
      refine ⟨fun run speed damper trip check hreply hkind haddress hsum hrun hdamper => ?_, fun hshort => ?_, fun hlost hreached => ?_,
        fun hlast => ?_⟩
      · subst hkind
        have hgot : receive address reply = .complete .drive [run, speed, damper, trip] := by
          subst hreply
          exact receive_exact address rfl rfl hsum haddress
        rw [← readDrive_listed s.draws speed trip hrun hdamper]
        exact ⟨query_owned_report hp hd hphase hf hs ha hfirst speed trip hgot hrun hdamper ho,
          query_owned_joins hp hd hphase hf hs ha hfirst speed trip hgot hrun hdamper⟩
      · refine ⟨fun data hkind hgot hwas => ?_, fun hcls hkept => ?_⟩
        · subst hkind
          exact query_owned_head_short hp hd hphase hf hs ha hprovisional hfirst ho hgot hwas hshort
        · have hends := query_owned_misses_short hp hd hphase hf hs ha hprovisional hfirst ho hcls (hstays hkept) hshort
          rw [hmissed] at hends
          exact hends
      · refine ⟨fun data hkind hgot hwas => ?_, fun hcls hkept => ?_⟩
        · subst hkind
          exact query_owned_head_limit hp hd hphase hf hs ha hprovisional hfirst ho hgot hwas hlost hreached
        · have hends := query_owned_misses_limit hp hd hphase hf hs ha hprovisional hfirst ho hcls (hstays hkept) hlost hreached
          rw [hmissed] at hends
          exact hends
      · intro e failed
        have hothers : ∀ k ∈ before ++ after, k.record.address ≠ address := fun k hk => (List.mem_append.mp hk).elim (hfirst k) (hlast k)
        refine ⟨fun data hkind hgot hwas => ?_, fun d hcls hfound hkind hold => ?_⟩
        · subst hkind
          have hends := query_owned_replaced hp hd hphase hf hs ha hprovisional hfirst ho hothers hgot hwas
          rw [mismatchNotices_unnoted ha] at hends
          exact hends
        · have hends := query_owned_departs hp hd hphase hf hs ha hprovisional hfirst ho hothers hcls (hdeparts d hfound hkind hold)
          rw [hmissed] at hends
          exact hends
  · have hf : s.failsafe = false := by
      have hscheduled := (scheduled_iff s.mode).mpr hm
      simp [State.failsafe, hscheduled]
    rw [query_left_over hp hd hphase hf, hcls, decide_eq_true (rfl : PollClass.valid = .valid), heardState, upNotices_true, notedLoop_true]
  · have hf : s.failsafe = false := by
      have hscheduled := (scheduled_iff s.mode).mpr hm
      simp [State.failsafe, hscheduled]
    rw [query_left_over hp hd hphase hf, decide_eq_false hcls, heardState_false]
    rfl

end Sys2Proof.BayLoop
end

