-- ==== Sys2Proof/Proofs/BayLoopHandOver.lean ====
section
/-! PROOFS. The hand-over of every zone's claim to channels that have just got their initial runtime: what a commit and a RESTART do
(R61, R74, R79, R178, R181). -/

namespace Sys2Proof.BayLoop

open Sys2Proof.Machine Sys2Proof.Claims

/-! ## Channels with their initial runtime -/

/-- A channel as it is made (R74). -/
def Fresh (c : Channel) : Prop := c = .initial c.record c.provisional

/-- A channel in SYNC with what a demand asks of it (R77 to R79). -/
def settled (d : Demand) (c : Channel) : Channel := { c with cls := d.cls, target := d.want, conflict := d.conflict.isSome }

theorem resolve_fresh (silent : Bool) (d : Demand) {c : Channel} (h : Fresh c) :
    resolve silent d c = ⟨settled d c, conflictNotice silent d c, []⟩ := by
  have hstate : c.state = .sync := by rw [h]; rfl
  have hcommand : c.command = none := by rw [h]; rfl
  have hfault : (if c.state = .fault then 0 else d.want) = d.want := if_neg (by rw [hstate]; decide)
  by_cases hsame : c.cls = d.cls ∧ c.target = if c.state = .fault then 0 else d.want
  · rw [resolve_same silent hsame, settled, ← hsame.1, ← hfault, ← hsame.2]
  · have hdemanded : demanded d c = settled d c := by
      rw [demanded, settled, hfault, hcommand]
      rfl
    have happly : applyTarget (settled d c) = .quiet (settled d c) := by
      have hsync : (settled d c).state = .sync := hstate
      simp only [applyTarget, hsync]
    have hmove : queueMove c (settled d c) = [] := if_neg fun hq => absurd (hstate.symm.trans hq.1) (by decide)
    rw [resolve_moved silent hsame, hdemanded, happly]
    simp only [Eff.quiet, List.append_nil, hmove]

/-- A channel that no zone binds is asked what it has from the start. -/
theorem settled_unbound {s : State} {c : Channel} (hf : s.failsafe = false) (h : Fresh c) (hunbound : s.boundClaims c.number = []) :
    settled (s.demand c) c = c := by
  have hmanual : c.manual = none := by rw [h]; rfl
  have hdemand : s.demand c = ⟨.normal, 0, none⟩ := by
    unfold State.demand
    rw [if_neg (by rw [hf]; decide), hunbound]
    simp only [wantOf, hmanual]
    cases s.mode <;> rfl
  rw [hdemand, h]
  rfl

/-! ## The claims handed over -/

theorem foldl_upsert_mem {zones : List Zone} {init : List HandedClaim} {h : HandedClaim}
    (hmem : h ∈ zones.foldl (fun l z => upsert HandedClaim.zone z.handedClaim l) init) : h ∈ init ∨ ∃ z ∈ zones, h = z.handedClaim := by
  induction zones generalizing init with
  | nil => exact .inl hmem
  | cons z zones ih =>
    rcases ih hmem with hold | ⟨y, hy, rfl⟩
    · exact (mem_upsert hold).elim (fun heq => .inr ⟨z, List.mem_cons_self, heq⟩) .inl
    · exact .inr ⟨y, List.mem_cons_of_mem z hy, rfl⟩

theorem foldl_upsert_kept {zones : List Zone} {init : List HandedClaim} {n : Nat} (h : ∃ g ∈ init, g.zone = n) :
    ∃ g ∈ zones.foldl (fun l z => upsert HandedClaim.zone z.handedClaim l) init, g.zone = n := by
  induction zones generalizing init with
  | nil => exact h
  | cons z zones ih =>
    obtain ⟨g, hg, hn⟩ := h
    refine ih ?_
    by_cases hz : z.handedClaim.zone = n
    · exact ⟨z.handedClaim, upsert_mem, hz⟩
    · exact ⟨g, mem_upsert_of_ne hg fun heq => hz (heq.symm.trans hn), hn⟩

/-- Every zone's claim is among those handed over. -/
theorem foldl_upsert_has {zones : List Zone} {init : List HandedClaim} : ∀ z ∈ zones,
    ∃ g ∈ zones.foldl (fun l z => upsert HandedClaim.zone z.handedClaim l) init, g.zone = z.number := by
  induction zones generalizing init with
  | nil => exact fun z hz => absurd hz List.not_mem_nil
  | cons y zones ih =>
    intro z hz
    rcases List.mem_cons.mp hz with rfl | hz
    · exact foldl_upsert_kept (init := upsert HandedClaim.zone z.handedClaim init) ⟨z.handedClaim, upsert_mem, rfl⟩
    · exact ih z hz

/-! ## The hand-over of all claims -/

/-- The state with every zone's claim handed over, its channels still to be resolved. -/
def allHanded (s : State) : State :=
  { s with handed := s.zones.foldl (fun l z => upsert HandedClaim.zone z.handedClaim l) s.handed }

theorem boundClaims_unbound {s : State} {n : Nat} (h : s.zones.any (Zone.binds n) = false) : s.boundClaims n = [] := by
  unfold State.boundClaims
  rw [List.filter_eq_nil_iff]
  intro g _ hany
  obtain ⟨z, hz, hbinds⟩ := List.any_eq_true.mp hany
  have hnot := List.any_eq_false.mp h z hz
  rw [Bool.and_eq_true] at hbinds
  exact hnot hbinds.2

/-- All claims handed over to fresh channels, none of them with a conflict to report. -/
theorem handOver_fresh {silent : Bool} {s : State} (hf : s.failsafe = false) (hfresh : ∀ c ∈ s.channels, Fresh c)
    (hquiet : ∀ c ∈ s.channels, conflictNotice silent ((allHanded s).demand c) c = []) :
    handOver silent (s.zones.map Zone.number) s =
      { allHanded s with channels := s.channels.map fun c => settled ((allHanded s).demand c) c } := by
  have hgiven : (s.zones.filter fun z => (s.zones.map Zone.number).contains z.number) = s.zones :=
    List.filter_eq_self.mpr fun z hz => by
      rw [List.contains_iff_mem]
      exact List.mem_map_of_mem hz
  have heffect : ∀ c ∈ s.channels, (if s.zones.any (Zone.binds c.number) then resolve silent ((allHanded s).demand c) c else .quiet c) =
      ⟨settled ((allHanded s).demand c) c, [], []⟩ := by
    intro c hc
    split
    · rw [resolve_fresh silent _ (hfresh c hc), hquiet c hc]
    next hunbound =>
      have hnone : (allHanded s).boundClaims c.number = [] := boundClaims_unbound (s := allHanded s) (Bool.eq_false_iff.mpr hunbound)
      rw [settled_unbound (s := allHanded s) hf (hfresh c hc) hnone]
      rfl
  have hhanded : handOver silent (s.zones.map Zone.number) s =
      fanEvent (fun c => if s.zones.any (Zone.binds c.number) then resolve silent ((allHanded s).demand c) c else .quiet c)
        (allHanded s) := by
    unfold handOver
    rw [hgiven]
    rfl
  rw [hhanded, fanEvent_unqueued fun c hc => by rw [heffect c hc]]
  have hnotices : ((allHanded s).channels.flatMap fun c =>
      (if s.zones.any (Zone.binds c.number) then resolve silent ((allHanded s).demand c) c else Eff.quiet c).notices) = [] :=
    List.flatMap_eq_nil_iff.mpr fun c hc => by rw [heffect c hc]
  have hchannels : ((allHanded s).channels.map fun c =>
      (if s.zones.any (Zone.binds c.number) then resolve silent ((allHanded s).demand c) c else Eff.quiet c).ch) =
        s.channels.map fun c => settled ((allHanded s).demand c) c :=
    List.map_congr_left fun c hc => by rw [heffect c hc]
  rw [hnotices, hchannels]
  rfl

end Sys2Proof.BayLoop
end

