-- ==== Sys2Proof/Proofs/BayLoopCommit.lean ====
section
/-! PROOFS. LOAD_COMMIT without violations (R16, R45, R74, R130, R175, R178). -/

namespace Sys2Proof.BayLoop

open Sys2Proof.Machine Sys2Proof.Claims

/-! ## Demands of NORMAL claims -/

theorem no_class {cls : ClaimClass} (hcls : cls ≠ .normal) {claims : List HandedClaim} (h : ∀ g ∈ claims, g.cls = .normal) :
    (claims.any fun g => decide (g.cls = cls)) = false :=
  List.any_eq_false.mpr fun g hg => by
    rw [decide_eq_true_eq, h g hg]
    exact hcls.symm

/-- In RUN, NORMAL claims ask for their largest speed within the channel's limits, without conflict (R77, R78, R80). -/
theorem demand_normal {s : State} {c : Channel} (hmode : s.mode = .run) (h : ∀ g ∈ s.boundClaims c.number, g.cls = .normal) :
    s.demand c = ⟨.normal, c.record.clip (largest ((s.boundClaims c.number).map HandedClaim.speed)), none⟩ := by
  have hextract := no_class (cls := .extract) (by decide) h
  have hisolate := no_class (cls := .isolate) (by decide) h
  have hclass : classOf (s.boundClaims c.number) = .normal := by
    rw [classOf, hextract, hisolate]
    rfl
  have hspeeds : speedsOf .normal (s.boundClaims c.number) = (s.boundClaims c.number).map HandedClaim.speed := by
    rw [speedsOf, List.filter_eq_self.mpr fun g hg => decide_eq_true (h g hg)]
  have hfailsafe : s.failsafe = false := by rw [State.failsafe, hmode]; rfl
  rw [State.demand, if_neg (by rw [hfailsafe]; decide)]
  simp only [hclass, wantOf, hmode, hspeeds, conflictOf, hextract, Bool.false_eq_true, if_false]

/-! ## The commit -/

/-- The tables and runtimes of a commit, the initial claims still to be handed over (R178). -/
def installed (c : Loaded) (s : State) : State :=
  { s with
    active := some c.active
    staging := none
    mode := .run
    loop := s.loop.committed
    queue := []
    held := 0
    heads := c.heads.map Head.initial
    channels := c.fans.map fun r => .initial r false
    zones := c.zones.map Zone.initial
    handed := []
    provisionalDue := false }

theorem handed_installed (c : Loaded) (s : State) : ∀ h ∈ (allHanded (installed c s)).handed,
    ∃ z ∈ c.zones.map Zone.initial, h = z.handedClaim := by
  intro h hh
  exact (foldl_upsert_mem hh).resolve_left List.not_mem_nil

theorem handed_normal (c : Loaded) (s : State) : ∀ h ∈ (allHanded (installed c s)).handed, h.cls = .normal := by
  intro h hh
  obtain ⟨z, hz, rfl⟩ := handed_installed c s h hh
  obtain ⟨r, -, rfl⟩ := List.mem_map.mp hz
  rfl

theorem installed_demand (c : Loaded) (s : State) (k : Channel) : (allHanded (installed c s)).demand k =
    ⟨.normal, k.record.clip (largest (((allHanded (installed c s)).boundClaims k.number).map HandedClaim.speed)), none⟩ :=
  demand_normal rfl fun g hg => handed_normal c s g (List.mem_of_mem_filter hg)

/-- The state a commit leaves but for its notice and the lines it finds to be latched. -/
def committed (c : Loaded) (s : State) : State :=
  { allHanded (installed c s) with
    channels := (installed c s).channels.map fun k => settled ((allHanded (installed c s)).demand k) k }

theorem commit_eq {c : Loaded} {s : State} (hmode : s.mode = .loading) : commit c s =
    { committed c s with
      ring := s.ring.append ⟨.mode .run .loading, s.uptime⟩, levelLatchDue := (committed c s).linesToLatch } := by
  have hfresh : ∀ k ∈ (installed c s).channels, Fresh k := by
    intro k hk
    obtain ⟨r, -, rfl⟩ := List.mem_map.mp hk
    rfl
  have hquiet : ∀ k ∈ (installed c s).channels, conflictNotice false ((allHanded (installed c s)).demand k) k = [] := by
    intro k _
    rw [installed_demand]
    rfl
  have hraised : raiseMode s.mode (committed c s) = raise (.mode .run .loading) (committed c s) := by
    have hmoved : (committed c s).mode ≠ s.mode := by
      rw [hmode]
      exact Mode.noConfusion
    rw [raiseMode, if_neg hmoved, hmode]
    rfl
  have hcommit : commit c s =
      { raiseMode s.mode (committed c s) with levelLatchDue := (raiseMode s.mode (committed c s)).linesToLatch } := by
    rw [committed, ← handOver_fresh (s := installed c s) rfl hfresh hquiet]
    rfl
  rw [hcommit, hraised]
  rfl

/-- A channel of a commit: in SYNC, with the target its claims ask for. -/
theorem mem_committed {c : Loaded} {s : State} {k : Channel} (hk : k ∈ (committed c s).channels) :
    ∃ r ∈ c.fans, k = { Channel.initial r false with
      target := r.clip (largest (((committed c s).boundClaims r.channel).map HandedClaim.speed)) } := by
  obtain ⟨j, hj, rfl⟩ := List.mem_map.mp hk
  obtain ⟨r, hr, rfl⟩ := List.mem_map.mp hj
  refine ⟨r, hr, ?_⟩
  rw [installed_demand]
  rfl

theorem committed_records (c : Loaded) (s : State) : (committed c s).channels.map Channel.record = c.fans := by
  have hsame : (committed c s).channels.map Channel.record = c.fans.map fun r => r := by
    simp only [committed, installed, List.map_map]
    rfl
  rw [hsame, List.map_id']

/-- The trigger that line records give a line (R129). -/
def triggerAmong (lines : List LineRecord) (n : Nat) : Trigger :=
  match lookup LineRecord.line n lines with
  | some r => r.trigger
  | none => .disabled

/-- The lines whose level trigger a commit's accepted level meets (R130). -/
theorem linesToLatch_committed {c : Loaded} {s : State} (hlatches : s.latches = []) : (committed c s).linesToLatch =
    (List.range 8).filter fun n => (triggerAmong c.lines n).met ((lookup FireLine.line n s.lines).bind FireLine.accepted) := by
  refine List.filter_congr fun n _ => ?_
  have hunlatched : (committed c s).latched n = false := by
    have hnone : (committed c s).latches = [] := hlatches
    rw [State.latched, hnone]
    rfl
  rw [hunlatched]
  rfl

/-- Settles O23: the committed state is `commit_eq`, its claims and channels those of `handed_installed` and `mem_committed`. -/
theorem commitEntersRun : Obligations.CommitEntersRun := by
  intro tag s st hp hm hst hlatches hclean
  have hanswer : loadCommit s = .ok (commit st.inForce s) .none := by
    have hany : s.anyLatch = false := by rw [State.anyLatch, hlatches]; rfl
    simp only [loadCommit, hm, hst, hany, hclean]
    rfl
  have hexec : exec (.loadCommit tag) s = .next (replying 0x19 tag .ok .none (commit st.inForce s)) := by
    rw [exec_loadCommit, powered_running hp, takeLoadCommit, take, hanswer]
    rfl
  rw [hexec, commit_eq hm]
  refine ⟨_, rfl, rfl, rfl, rfl, rfl, rfl, rfl, rfl, committed_records st.inForce s, fun c hc => ?_, fun h hh => ?_, fun z hz => ?_,
    fun c hc => ?_, rfl, ?_, rfl, rfl, rfl, rfl, rfl, rfl, rfl, rfl, rfl, hlatches, rfl, rfl, rfl, rfl⟩
  · obtain ⟨r, -, rfl⟩ := mem_committed hc
    exact ⟨rfl, rfl, rfl, rfl, rfl, rfl, rfl, rfl, rfl, rfl, rfl, rfl, rfl, rfl, rfl, rfl⟩
  · obtain ⟨z, hz, rfl⟩ := handed_installed _ _ h hh
    exact ⟨handed_normal _ _ _ hh, z, hz, rfl, rfl⟩
  · exact foldl_upsert_has z hz
  · obtain ⟨r, -, rfl⟩ := mem_committed hc
    rfl
  · refine (linesToLatch_committed hlatches).trans (List.filter_congr fun n _ => ?_)
    unfold triggerAmong lookup
    generalize (s.lines.find? fun l => l.line == n).bind FireLine.accepted = level
    cases st.inForce.lines.find? fun r => r.line == n with
    | none => cases level <;> rfl
    | some r =>
      obtain ⟨_, trigger, _⟩ := r
      rcases level with _ | _ | _ <;> cases trigger <;> rfl

end Sys2Proof.BayLoop
end

