-- ==== Sys2Proof/Proofs/BayLoopRestart.lean ====
section
/-! PROOFS. RESTART with CLEAR and with KEEP, and the exchange it leaves on the wire (R23, R70, R130, R149, R180 to R182). -/

namespace Sys2Proof.BayLoop

open Sys2Proof.Machine Sys2Proof.Claims

/-! ## The cycle that begins -/

theorem raiseMode_same {previous : Mode} {s : State} (h : s.mode = previous) : raiseMode previous s = s := if_pos h

theorem raiseMode_moved {previous : Mode} {s : State} (h : s.mode ≠ previous) :
    raiseMode previous s = { s with ring := s.ring.append ⟨.mode s.mode previous, s.uptime⟩ } := if_neg h

theorem raiseMode_eq (previous : Mode) (s : State) :
    raiseMode previous s = { s with ring := if s.mode = previous then s.ring else s.ring.append ⟨.mode s.mode previous, s.uptime⟩ } := by
  by_cases h : s.mode = previous
  · rw [raiseMode_same h, if_pos h]
  · rw [raiseMode_moved h, if_neg h]

/-- A restart whose first cycle has a poll due. -/
theorem afterRestart_polls {previous : Mode} {s : State} {p : Poll} {rest : List Poll} (h : s.duePolls = p :: rest) :
    afterRestart previous s = { s with
      loop := { openedLoop s with phase := .polls p rest }
      ring := if s.mode = previous then s.ring else s.ring.append ⟨.mode s.mode previous, s.uptime⟩ } := by
  rw [afterRestart, beginCycle_polls h, raiseMode_eq]

/-- The discovery cycle a restart begins, before the last part of a sweep. -/
theorem duePolls_discovery {s : State} (hm : s.mode.scheduled = false) (h : s.loop.pointer ≠ 3) :
    s.duePolls = ⟨16 * s.loop.pointer + 1, .any⟩ :: (List.range 15).map fun n => ⟨16 * s.loop.pointer + 2 + n, .any⟩ := by
  rw [duePolls_unscheduled hm, queryAddresses_early h, List.map_cons, List.map_map]
  rfl

theorem duePolls_discovery_last {s : State} (hm : s.mode.scheduled = false) (h : s.loop.pointer = 3) :
    s.duePolls = ⟨49, .any⟩ :: (List.range 14).map fun n => ⟨50 + n, .any⟩ := by
  rw [duePolls_unscheduled hm, h, queryAddresses_last, List.map_cons, List.map_map]
  rfl

theorem leftover_eq (l : Loop) : l.phase.leftover = onTheWire l := by
  unfold Phase.leftover onTheWire
  cases l.phase <;> rfl

theorem anyLatch_eq (s : State) : s.anyLatch = decide (s.latches ≠ []) := by
  unfold State.anyLatch
  cases s.latches <;> rfl

theorem period_unscheduled {s : State} (h : s.mode.scheduled = false) : s.period = .one := by
  unfold State.period
  cases s.active with
  | none => rfl
  | some a => simp only [h, Bool.false_eq_true, if_false]

/-! ## RESTART with CLEAR -/

/-- The lines the failsafe has to latch: those whose accepted level is HIGH (R130, R143). -/
theorem linesToLatch_failsafe {s : State} (h : s.failsafe = true) : s.linesToLatch = (List.range 8).filter fun n =>
    !(s.latches.any fun l => l.line == n) && (s.lines.find? fun l => l.line == n).any fun l => l.accepted = some .high := by
  refine List.filter_congr fun n _ => ?_
  have htrigger : s.triggerInForce n = .levelHigh := if_pos h
  rw [State.levelMet, htrigger, State.latched]
  congr 1
  unfold lookup
  cases s.lines.find? fun l => l.line == n with
  | none => rfl
  | some l =>
    simp only [Option.bind_some, Option.any_some]
    rcases l.accepted with _ | _ | _ <;> rfl

/-- Settles O27: the first discovery cycle begins on the bare tables, by `afterRestart_polls`. -/
theorem restartClearForgetsTheConfiguration : Obligations.RestartClearForgetsTheConfiguration := by
  intro tag s hp
  have hdue : (restartCleared s).duePolls = ⟨1, .any⟩ :: (List.range 15).map fun n => ⟨16 * 0 + 2 + n, .any⟩ :=
    duePolls_discovery (s := restartCleared s) rfl (Nat.ne_of_lt (Nat.zero_lt_succ 2))
  have hperiod : (restartCleared s).period = .one := period_unscheduled (s := restartCleared s) rfl
  have hfirst := afterRestart_polls (previous := s.mode) hdue
  have hmode : (afterRestart s.mode (restartCleared s)).mode = .blank := by rw [hfirst]; rfl
  have hfailsafe : (afterRestart s.mode (restartCleared s)).failsafe = true := by rw [State.failsafe, hmode]; rfl
  refine ⟨{ afterRestart s.mode (restartCleared s) with levelLatchDue := (afterRestart s.mode (restartCleared s)).linesToLatch }, ?_, ?_⟩
  · rw [exec_restartClear, powered_running hp, ← hmode]
    rfl
  · have hpolls : ((List.range 15).map fun n => (⟨16 * 0 + 2 + n, .any⟩ : Poll)) = (List.range 15).map fun n => ⟨n + 2, .any⟩ := rfl
    rw [linesToLatch_failsafe hfailsafe, hfirst, hpolls, openedLoop, hdue, hperiod]
    simp only [restartCleared, restartCommon, Loop.restarted, leftover_eq, anyLatch_eq, eq_comm (a := Mode.blank), List.isEmpty_cons,
      Bool.not_false, Bool.false_eq_true, if_false]

/-! ## What a RESTART leaves on the wire -/

theorem exec_poll_drained {reply : List Byte} {s : State} (hp : s.power = .running) (h : s.loop.draining = some .poll) :
    exec (.pollSlotEnd reply) s = .next (drained s) := by
  rw [exec_pollSlotEnd, powered_running hp]
  simp only [pollEnd, h]

theorem exec_service_drained {reply : List Byte} {s : State} (hp : s.power = .running) (h : s.loop.draining = some .service) :
    exec (.serviceSlotEnd reply) s = .next (drained s) := by
  rw [exec_serviceSlotEnd, powered_running hp]
  simp only [serviceEnd, h]

theorem exec_command_drained {reply : List Byte} {x : CommandExchange} {s : State} (hp : s.power = .running)
    (h : s.loop.draining = some (.command x)) :
    exec (.commandSlotEnd reply) s = .next (drained (driveAnswers x (acknowledged (receive x.address reply)) s)) := by
  rw [exec_commandSlotEnd, powered_running hp]
  simp only [commandEnd, h]

theorem drained_driveAnswers (x : CommandExchange) (ok : Bool) (s : State) : drained (driveAnswers x ok s) =
    { s with loop := { s.loop with
      draining := none, drives := if ok then taken x.address x.image s.loop.drives else s.loop.drives } } := by
  cases ok <;> rfl

/-! ## RESTART with KEEP in BLANK and LOADING -/

theorem restartUnconfigured_polls (s : State) : ∃ p rest, (restartUnconfigured s).duePolls = p :: rest := by
  by_cases h : (restartUnconfigured s).loop.pointer = 3
  · exact ⟨_, _, duePolls_discovery_last (s := restartUnconfigured s) rfl h⟩
  · exact ⟨_, _, duePolls_discovery (s := restartUnconfigured s) rfl h⟩

/-! ## RESTART with KEEP in RUN and MANUAL: the zones -/

theorem restarted_none {records : List LineRecord} {latched : List Nat} {z : Zone} (h : governor records latched z.number = none) :
    z.restarted records latched = .initial z.record := by
  simp only [Zone.restarted, h]

theorem restarted_some {records : List LineRecord} {latched : List Nat} {z : Zone} {g : Nat} {a : Assignment}
    (h : governor records latched z.number = some (g, a)) :
    z.restarted records latched = { (Zone.initial z.record).enterFire g a with conflict := conflictSet records latched g z.number } := by
  simp only [Zone.restarted, h]

theorem restarted_record (records : List LineRecord) (latched : List Nat) (z : Zone) : (z.restarted records latched).record = z.record := by
  cases h : governor records latched z.number with
  | none => rw [restarted_none h]; rfl
  | some ga =>
    obtain ⟨g, a⟩ := ga
    rw [restarted_some h]
    cases a <;> rfl

/-- A restarted zone follows the latch list, and has its starting values but for the fire state (R70, R149). -/
theorem restarted_starts (records : List LineRecord) (latched : List Nat) (z : Zone) :
    let r := z.restarted records latched
    r.fireOk records latched ∧ r.coLevel = none ∧ r.no2Level = none ∧ r.liveCount = 0 ∧ r.hold = none ∧ r.boost = none
      ∧ r.grace = ⟨120, false⟩ ∧ (r.governing = none → r.state = .quiet ∧ r.claim = r.record.idle ∧ r.claimClass = .normal) := by
  have hnumber : (z.restarted records latched).number = z.number := congrArg ZoneRecord.zone (restarted_record records latched z)
  dsimp only
  unfold Zone.fireOk
  rw [hnumber]
  cases h : governor records latched z.number with
  | none =>
    rw [restarted_none h]
    exact ⟨⟨rfl, rfl, rfl⟩, rfl, rfl, rfl, rfl, rfl, rfl, fun _ => ⟨rfl, rfl, rfl⟩⟩
  | some ga =>
    obtain ⟨g, a⟩ := ga
    rw [restarted_some h]
    cases a with
    | extract speed => exact ⟨⟨rfl, rfl, rfl, rfl, rfl⟩, rfl, rfl, rfl, rfl, rfl, rfl, fun hnone => nomatch hnone⟩
    | isolate => exact ⟨⟨rfl, rfl, rfl, rfl, rfl⟩, rfl, rfl, rfl, rfl, rfl, rfl, fun hnone => nomatch hnone⟩

/-- Among heads that have not been heard, an evaluation leaves a zone in its grace as it is (R46 to R49). -/
theorem evaluated_unheard {heads : List Head} {z : Zone} (hheads : ∀ h ∈ heads, h.state = .unseen) (hlive : z.liveCount = 0)
    (hco : z.coLevel = none) (hno2 : z.no2Level = none) (hgrace : z.grace.remaining ≠ 0) : evaluated heads z = z := by
  have hown : ∀ h ∈ heads.filter (fun h => z.record.heads.contains h.number), h.state = .unseen :=
    fun h hh => hheads h (List.mem_of_mem_filter hh)
  have hcount : ((heads.filter fun h => z.record.heads.contains h.number).filter fun h => h.state = .live) = [] := by
    rw [List.filter_eq_nil_iff]
    intro h hh
    rw [hown h hh]
    decide
  have hoffers (g : Gas) : (heads.filter fun h => z.record.heads.contains h.number).filterMap (Head.offers g) = [] := by
    rw [List.filterMap_eq_nil_iff]
    intro h hh
    simp only [Head.offers, hown h hh]
  have hrefresh : z.refresh heads = z := by
    have hsame : z.refresh heads = { z with liveCount := 0, coLevel := none, no2Level := none } := by
      simp only [Zone.refresh, hcount, hoffers]
      rfl
    rw [hsame]
    obtain ⟨record, state, coLevel, no2Level, liveCount⟩ := z
    cases hlive
    cases hco
    cases hno2
    rfl
  have hmove : z.move = none := by
    have hover : z.graceOver = false := by simpa [Zone.graceOver] using hgrace
    simp only [Zone.move, hlive, hover, Bool.false_and, Bool.false_eq_true, if_false, if_true, ite_self]
  rw [evaluated, hrefresh, Zone.decided, hmove]

/-! ## A cycle without polls, commands and attempts -/

theorem startCommands_quiet {s : State} (hsync : ∀ c ∈ s.channels, c.state = .sync) (hslot : s.slot = .idle) :
    startCommands s = completeCycle s := by
  have hnone : offerings s = [] := by
    rw [List.eq_nil_iff_forall_not_mem]
    intro c hc
    obtain ⟨hmem, hoffers⟩ := mem_offerings.mp hc
    exact hoffers (candidate_eq_none (.inl (hsync c hmem)))
  have hallotted : s.allotted = [] := by
    rw [allotted_eq, hnone]
    rfl
  have hattempt : s.slot.attempt = none := by
    rw [hslot]
    rfl
  simp only [startCommands, hallotted, nextCommand, startService, hattempt]

theorem commitZones_same {s : State} : commitZones s.zones s = s := by
  have hclaims : claimsChanged s.zones s.zones = [] := by
    have h := claimsChanged_map_eq_nil (f := id) (zones := s.zones) fun _ _ => ⟨rfl, rfl⟩
    rwa [List.map_id] at h
  have hstates : stateNotices s.zones s.zones = [] := by
    have h := stateNotices_map id s.zones
    rw [List.map_id] at h
    simpa using h
  rw [commitZones_unclaimed hclaims, hstates]
  rfl

/-- The completion of an unpolled cycle whose evaluation moves no zone. -/
theorem completeCycle_still {s : State} (hevaluates : s.evaluates = true) (hmode : s.mode = .run) (hvalid : s.loop.valid = false)
    (hpolled : s.loop.polled = false) (hzones : ∀ z ∈ s.zones, evaluated s.heads z = z) : completeCycle s = { s with
      loop := { s.loop with phase := .idle, cycle := s.loop.cycle + 1 }
      channels := s.channels.map Channel.countCycle } := by
  have hfalls : ¬ Falls s.loop := fun h => by
    obtain ⟨⟨-, h⟩, -⟩ := h
    rw [hpolled] at h
    cases h
  have hloaded : ¬ (s.mode = .blank ∨ s.mode = .loading) := by
    rw [hmode]
    decide
  have hloop : endedLoop s = { s.loop with phase := .idle, cycle := s.loop.cycle + 1 } := by
    simp only [endedLoop, checkedLoop, if_neg hfalls, hvalid, hpolled, hloaded, Bool.false_eq_true, if_false, false_and, not_false_iff,
      if_true]
  have hsame : s.zones.map (evaluated s.heads) = (checkedState s).zones := by
    conv_rhs => rw [← List.map_id (checkedState s).zones]
    exact List.map_congr_left hzones
  rw [completeCycle_evaluated hevaluates, hsame, commitZones_same, checkedState, hloop, downNotices, if_neg hfalls]
  rfl

/-! ## RESTART with KEEP in RUN and MANUAL -/

/-- The kept tables from their starting values, the claims still to be handed over (R181). -/
def keptTables (s : State) : State :=
  { restartCommon s with
    mode := .run
    loop := s.loop.restarted true
    heads := s.heads.map fun h => .initial h.record
    zones := s.zones.map (Zone.restarted s.lineRecords s.latchedLines)
    channels := s.channels.map fun c => .initial c.record c.provisional
    handed := []
    provisionalDue := false }

/-- A kept channel from its starting values, with what its claims ask of it, its cycles counted. -/
def keptChannel (s : State) (cycles : Nat) (c : Channel) : Channel :=
  { settled ((allHanded (keptTables s)).demand c) c with cyclesSince := cycles }

theorem keptChannel_zero {s : State} {c : Channel} (h : Fresh c) :
    keptChannel s 0 c = settled ((allHanded (keptTables s)).demand c) c := by
  rw [keptChannel, h]
  rfl

theorem keptTables_fresh (s : State) : ∀ c ∈ (keptTables s).channels, Fresh c := by
  intro c hc
  obtain ⟨k, -, rfl⟩ := List.mem_map.mp hc
  rfl

theorem conflictNotice_silent (d : Demand) (c : Channel) : conflictNotice true d c = [] := by
  unfold conflictNotice
  cases d.conflict <;> simp

theorem restartScheduled_eq (s : State) : restartScheduled s =
    { allHanded (keptTables s) with channels := (keptTables s).channels.map (keptChannel s 0) } := by
  have hhanded := handOver_fresh (silent := true) (s := keptTables s) rfl (keptTables_fresh s) fun _ _ => conflictNotice_silent _ _
  have hchannels : ((keptTables s).channels.map fun c => settled ((allHanded (keptTables s)).demand c) c) =
      (keptTables s).channels.map (keptChannel s 0) :=
    List.map_congr_left fun c hc => (keptChannel_zero (keptTables_fresh s c hc)).symm
  rw [← hchannels, ← hhanded]
  rfl

/-- The schedule entries due in the first cycle (R7). -/
def firstDue (a : Active) : List SlotEntry := a.schedule.filter fun e => 0 % e.divider == e.phase

/-- The exchanges of the first cycle: its polls, or none at all. -/
def firstPhase (a : Active) : Phase :=
  match firstDue a with
  | e :: rest => .polls ⟨e.address, .only e.kind⟩ (rest.map fun e => ⟨e.address, .only e.kind⟩)
  | [] => .idle

/-- The state after a RESTART with KEEP in RUN or MANUAL but for MODE (R23, R181): without a poll due the first cycle is complete. -/
def keptStart (s : State) (a : Active) : State :=
  { allHanded (keptTables s) with
    loop := { openedLoop (keptTables s) with
      polled := decide (firstDue a ≠ []), phase := firstPhase a, cycle := if firstDue a = [] then 1 else 0 }
    channels := (keptTables s).channels.map (keptChannel s (if firstDue a = [] then 1 else 0)) }

theorem beginCycle_kept {s : State} {a : Active} (ha : s.active = some a) : beginCycle (restartScheduled s) = keptStart s a := by
  have hdue : (restartScheduled s).duePolls = (firstDue a).map fun e => ⟨e.address, .only e.kind⟩ := by
    rw [restartScheduled_eq]
    exact duePolls_scheduled rfl ha
  have hopened : openedLoop (restartScheduled s) = { openedLoop (keptTables s) with polled := !(restartScheduled s).duePolls.isEmpty } := by
    unfold openedLoop
    rw [restartScheduled_eq]
    rfl
  unfold keptStart firstPhase
  cases hfirst : firstDue a with
  | cons e rest =>
    rw [hfirst, List.map_cons] at hdue
    rw [beginCycle_polls hdue, hopened, hdue, restartScheduled_eq]
    rfl
  | nil =>
    rw [hfirst, List.map_nil] at hdue
    obtain ⟨u, hu⟩ : ∃ u : State, u = { allHanded (keptTables s) with
        channels := (keptTables s).channels.map (keptChannel s 0), loop := { openedLoop (keptTables s) with polled := false } } := ⟨_, rfl⟩
    have hunheard : ∀ h ∈ u.heads, h.state = .unseen := by
      intro h hh
      rw [hu] at hh
      obtain ⟨k, -, rfl⟩ := List.mem_map.mp hh
      rfl
    have hzones : ∀ z ∈ u.zones, evaluated u.heads z = z := by
      intro z hz
      rw [hu] at hz
      obtain ⟨y, -, rfl⟩ := List.mem_map.mp hz
      obtain ⟨-, hco, hno2, hlive, -, -, hgrace, -⟩ := restarted_starts s.lineRecords s.latchedLines y
      exact evaluated_unheard hunheard hlive hco hno2 (by rw [hgrace]; decide)
    have hsync : ∀ c ∈ u.channels, c.state = .sync := by
      intro c hc
      rw [hu] at hc
      obtain ⟨k, hk, rfl⟩ := List.mem_map.mp hc
      exact congrArg Channel.state (keptTables_fresh s k hk)
    have hcounted : u.channels.map Channel.countCycle = (keptTables s).channels.map (keptChannel s 1) := by
      rw [hu]
      exact List.map_map
    have hbegins : beginCycle (restartScheduled s) = startCommands u := by
      rw [beginCycle_unpolled hdue, hopened, hdue, restartScheduled_eq, hu]
      rfl
    rw [hbegins, startCommands_quiet hsync (by rw [hu]; rfl),
      completeCycle_still (by rw [hu]; rfl) (by rw [hu]; rfl) (by rw [hu]; rfl) (by rw [hu]) hzones, hcounted, hu]
    rfl

theorem keptChannel_resolved {s : State} {a : Active} {c : Channel} (hc : c ∈ (keptStart s a).channels) :
    (keptStart s a).resolved c := by
  obtain ⟨k, hk, rfl⟩ := List.mem_map.mp hc
  have hfault : (keptChannel s (if firstDue a = [] then 1 else 0) k).state ≠ .fault := by
    have hsync : (keptChannel s (if firstDue a = [] then 1 else 0) k).state = .sync := congrArg Channel.state (keptTables_fresh s k hk)
    rw [hsync]
    decide
  refine ⟨rfl, ?_, rfl⟩
  rw [if_neg hfault]
  rfl

theorem restartKeep_scheduled {s : State} {a : Active} (hm : s.mode.scheduled = true) (ha : s.active = some a) :
    afterRestart s.mode (if s.mode.scheduled then restartScheduled s else restartUnconfigured s) =
      { keptStart s a with ring := if s.mode = .manual then s.ring.append ⟨.mode .run .manual, s.uptime⟩ else s.ring } := by
  rw [if_pos hm, afterRestart, beginCycle_kept ha, raiseMode_eq]
  rcases (scheduled_iff s.mode).mp hm with h | h
  · simp only [h, reduceCtorEq, if_false]
    rfl
  · simp only [h, if_true]
    rfl

theorem restartKeep_unscheduled {s : State} {p : Poll} {rest : List Poll} (hm : s.mode.scheduled = false)
    (hdue : (restartUnconfigured s).duePolls = p :: rest) :
    afterRestart s.mode (if s.mode.scheduled then restartScheduled s else restartUnconfigured s) =
      { restartUnconfigured s with
        loop := { openedLoop (restartUnconfigured s) with phase := .polls p rest, polled := true }
        ring := if s.mode = .loading then s.ring.append ⟨.mode .blank .loading, s.uptime⟩ else s.ring } := by
  have hpolled : openedLoop (restartUnconfigured s) = { openedLoop (restartUnconfigured s) with polled := true } := by
    simp only [openedLoop, hdue, List.isEmpty_cons, Bool.not_false]
  rw [if_neg (by rw [hm]; decide), afterRestart_polls hdue, hpolled]
  rcases (unscheduled_iff s.mode).mp hm with h | h
  · simp only [h, reduceCtorEq, if_false]
    rfl
  · simp only [h, if_true]
    rfl

theorem firstPhase_polls {a : Active} {e : SlotEntry} {rest : List SlotEntry} (h : firstDue a = e :: rest) :
    firstPhase a = .polls ⟨e.address, .only e.kind⟩ (rest.map fun e => ⟨e.address, .only e.kind⟩) := by
  rw [firstPhase, h]

theorem firstPhase_idle {a : Active} (h : firstDue a = []) : firstPhase a = .idle := by
  rw [firstPhase, h]

theorem draining_eq (l : Loop) : l.draining.or l.phase.leftover = l.draining.or (onTheWire l) := by rw [leftover_eq]

theorem keptTables_period {s : State} {a : Active} (ha : s.active = some a) : (keptTables s).period = a.period := by
  have hkept : (keptTables s).active = some a := ha
  rw [State.period, hkept]
  rfl

/-- Settles O26: in RUN and MANUAL the state is `keptStart`, in BLANK and LOADING that of the first discovery cycle; the exchange left on the
wire ends in `drained`. -/
theorem restartKeepStartsOver : Obligations.RestartKeepStartsOver := by
  refine ⟨fun tag s hp hactive => ?_, fun reply s hp => ⟨fun h => exec_poll_drained hp h, fun h => exec_service_drained hp h,
    fun x h => ?_⟩⟩
  · intro period
    obtain ⟨t, ht⟩ : ∃ t, t = afterRestart s.mode (if s.mode.scheduled then restartScheduled s else restartUnconfigured s) := ⟨_, rfl⟩
    have hexec : exec (.restartKeep tag) s = .next (replying 0x1A tag .ok (.mode t.mode) t) := by
      rw [exec_restartKeep, powered_running hp, ht]
      rfl
    refine ⟨t, hexec, ?_⟩
    cases hm : s.mode.scheduled with
    | true =>
      rw [hm] at hactive
      obtain ⟨a, ha⟩ := Option.isSome_iff_exists.mp hactive
      have hrun : s.mode = .run ∨ s.mode = .manual := (scheduled_iff s.mode).mp hm
      have hloaded : s.mode ≠ .blank := fun h => by rw [h] at hm; cases hm
      have hperiod : (keptTables s).period = period := by
        rw [keptTables_period ha]
        simp only [period, ha]
      rw [restartKeep_scheduled hm ha] at ht
      subst ht
      refine ⟨(if_pos hrun).symm, rfl, rfl, rfl, rfl, rfl, rfl, rfl, rfl, rfl, rfl, rfl, rfl, rfl, rfl, rfl, by simp; rfl, rfl, rfl, rfl,
        congrArg (CycleMark.mk 0) hperiod, hperiod, congrArg (marked · s.loop.drives) hperiod, draining_eq s.loop, rfl, rfl, rfl,
        fun _ => ⟨rfl, rfl, rfl⟩, fun h => absurd h hloaded, fun h => Bool.noConfusion h, fun b hb => ?_⟩
      obtain rfl : a = b := Option.some.inj (ha.symm.trans hb)
      intro due
      refine ⟨fun e rest hdue => ⟨if_neg ?_, firstPhase_polls hdue⟩, fun hdue => ⟨if_pos hdue, firstPhase_idle hdue⟩, rfl, rfl, ?_,
        fun z hz => ?_, rfl, ?_, fun c hc => ?_, rfl⟩
      · exact fun hnone => List.cons_ne_nil e rest (hdue.symm.trans hnone)
      · exact List.map_map.trans (List.map_congr_left fun z _ => restarted_record _ _ z)
      · obtain ⟨y, -, rfl⟩ := List.mem_map.mp hz
        have hlines : s.lineRecords = a.lines := by rw [State.lineRecords, ha]
        have hstarts := restarted_starts s.lineRecords s.latchedLines y
        rw [hlines] at hstarts ⊢
        exact hstarts
      · exact List.map_map.trans List.map_map
      · have hresolved := keptChannel_resolved hc
        obtain ⟨k, hk, rfl⟩ := List.mem_map.mp hc
        obtain ⟨j, -, rfl⟩ := List.mem_map.mp hk
        exact ⟨rfl, rfl, rfl, rfl, rfl, rfl, rfl, rfl, rfl, rfl, rfl, rfl, rfl, rfl, rfl, rfl, hresolved⟩
    | false =>
      obtain ⟨p, rest, hdue⟩ := restartUnconfigured_polls s
      have hnone : s.active = none := by
        rw [hm] at hactive
        exact Option.not_isSome_iff_eq_none.mp (by rw [hactive]; decide)
      have hneither : ¬ (s.mode = .run ∨ s.mode = .manual) := fun h => by rw [(scheduled_iff s.mode).mpr h] at hm; cases hm
      have hperiod : (restartUnconfigured s).period = period := by
        rw [period_unscheduled (s := restartUnconfigured s) rfl]
        simp only [period, hnone]
      have hkeep : s.mode ≠ .blank → decide (s.mode = .loading) = true := fun h =>
        decide_eq_true (((unscheduled_iff s.mode).mp hm).resolve_left h)
      have hforget : s.mode = .blank → decide (s.mode = .loading) = false := fun h => by rw [h]; rfl
      rw [restartKeep_unscheduled hm hdue] at ht
      subst ht
      refine ⟨(if_neg hneither).symm, rfl, rfl, rfl, rfl, rfl, rfl, rfl, rfl, rfl, rfl, rfl, rfl, rfl, rfl, rfl, ?_, rfl, rfl, rfl,
        congrArg (CycleMark.mk 0) hperiod, hperiod, congrArg (marked · s.loop.drives) hperiod, draining_eq s.loop, rfl, rfl, rfl,
        fun h => ?_, fun h => ?_, fun _ => ⟨rfl, rfl, rfl, rfl, rfl, rfl, fun h => ?_, fun h => ?_, rfl⟩, fun b hb => ?_⟩
      · exact (anyLatch_eq s).trans (by simp)
      · exact ⟨if_pos (hkeep h), if_pos (hkeep h), if_pos (hkeep h)⟩
      · have hdropped : ¬ decide (s.mode = .loading) = true := Bool.eq_false_iff.mp (hforget h)
        exact ⟨if_neg hdropped, if_neg hdropped, if_neg hdropped⟩
      · obtain ⟨rfl, rfl⟩ := List.cons.inj
          (hdue.symm.trans (duePolls_discovery (s := restartUnconfigured s) rfl (Nat.ne_of_lt h)))
        rfl
      · obtain ⟨rfl, rfl⟩ := List.cons.inj (hdue.symm.trans (duePolls_discovery_last (s := restartUnconfigured s) rfl h))
        rfl
      · rw [hnone] at hb
        cases hb
  · rw [exec_command_drained hp h, drained_driveAnswers]

end Sys2Proof.BayLoop
end

