-- ==== Sys2Proof/Proofs/GasHeadsEvaluation.lean ====
section
/-! PROOFS. The evaluation of a zone: what its LIVE heads offer, its levels, the state it moves to and its claim (R36, R37, R46, R48 to R54,
R56, R59, R60). -/

namespace Sys2Proof.GasHeads

open Sys2Proof.Machine Sys2Proof.Claims

/-! ## What the LIVE heads offer -/

/-- A head's window for a gas. -/
def window (g : Gas) (h : Head) : List Nat :=
  match g with
  | .co => h.coWindow
  | .no2 => h.no2Window

/-- Only a LIVE head offers an average, and it is its window's (R37). -/
theorem offers_eq_some {g : Gas} {h : Head} {v : Nat} : h.offers g = some v ↔ h.state = .live ∧ average (window g h) = some v := by
  cases hs : h.state <;> cases g <;> simp [Head.offers, window, hs]

/-- The LIVE heads that a zone's record names. -/
def liveHeads (heads : List Head) (z : Zone) : List Head := heads.filter fun h => h.record.head ∈ z.record.heads ∧ h.state = .live

theorem mem_liveHeads {heads : List Head} {z : Zone} {h : Head} :
    h ∈ liveHeads heads z ↔ h ∈ heads ∧ h.record.head ∈ z.record.heads ∧ h.state = .live := by
  simp [liveHeads]

theorem refresh_liveCount (heads : List Head) (z : Zone) : (z.refresh heads).liveCount = (liveHeads heads z).length := by
  simp only [Zone.refresh, liveHeads, List.filter_filter, Head.number]
  refine congrArg List.length (List.filter_congr fun h _ => ?_)
  rw [Bool.eq_iff_iff]
  simp [and_comm]

/-- The largest of what a zone's heads offer is the largest average of its LIVE heads (R46). -/
theorem largest_offer {heads : List Head} {z : Zone} {g : Gas} {v : Nat} :
    largest? ((heads.filter fun h => z.record.heads.contains h.number).filterMap (Head.offers g)) = some v ↔
      (∃ h ∈ liveHeads heads z, average (window g h) = some v)
        ∧ ∀ h ∈ liveHeads heads z, ∀ w, average (window g h) = some w → w ≤ v := by
  have hoffered (w : Nat) : w ∈ (heads.filter fun h => z.record.heads.contains h.number).filterMap (Head.offers g) ↔
      ∃ h ∈ liveHeads heads z, average (window g h) = some w := by
    simp only [List.mem_filterMap, List.mem_filter, List.contains_iff_mem, Head.number, offers_eq_some, mem_liveHeads, and_assoc]
  rw [largest?_eq_some]
  simp only [hoffered]
  exact and_congr_right fun _ => ⟨fun h k hk w hw => h w ⟨k, hk, hw⟩, fun h w ⟨k, hk, hw⟩ => h k hk w hw⟩

theorem average_eq (w : List Nat) : average w = if w = [] then none else some (w.sum / w.length) := by
  simp only [average, List.isEmpty_iff]

/-! ## Levels and thresholds -/

/-- Some level present is at or above its gas's threshold: what a rise needs (R48). -/
def Reaches (f : Limits → Nat) (z : Zone) : Prop :=
  (∃ v, z.coLevel = some v ∧ f z.record.co ≤ v) ∨ ∃ v, z.no2Level = some v ∧ f z.record.no2 ≤ v

/-- Every level present is below its gas's threshold: what a fall needs (R48). -/
def Under (f : Limits → Nat) (z : Zone) : Prop :=
  (∀ v, z.coLevel = some v → v < f z.record.co) ∧ ∀ v, z.no2Level = some v → v < f z.record.no2

theorem mem_present {z : Zone} {p : Nat × Limits} :
    p ∈ z.present ↔ (z.coLevel = some p.1 ∧ p.2 = z.record.co) ∨ (z.no2Level = some p.1 ∧ p.2 = z.record.no2) := by
  obtain ⟨v, l⟩ := p
  simp [Zone.present, eq_comm]

theorem any_present_iff (f : Limits → Nat) (z : Zone) : (z.present.any fun p => f p.2 ≤ p.1) = true ↔ Reaches f z := by
  simp only [List.any_eq_true, mem_present, decide_eq_true_eq, Prod.exists, Reaches]
  constructor
  · rintro ⟨v, l, ⟨hv, rfl⟩ | ⟨hv, rfl⟩, hle⟩
    · exact .inl ⟨v, hv, hle⟩
    · exact .inr ⟨v, hv, hle⟩
  · rintro (⟨v, hv, hle⟩ | ⟨v, hv, hle⟩)
    · exact ⟨v, _, .inl ⟨hv, rfl⟩, hle⟩
    · exact ⟨v, _, .inr ⟨hv, rfl⟩, hle⟩

theorem all_present_iff (f : Limits → Nat) (z : Zone) : (z.present.all fun p => p.1 < f p.2) = true ↔ Under f z := by
  simp only [List.all_eq_true, mem_present, decide_eq_true_eq, Prod.forall, Under]
  constructor
  · exact fun h => ⟨fun v hv => h v _ (.inl ⟨hv, rfl⟩), fun v hv => h v _ (.inr ⟨hv, rfl⟩)⟩
  · rintro ⟨hco, hno2⟩ v l (⟨hv, rfl⟩ | ⟨hv, rfl⟩)
    · exact hco v hv
    · exact hno2 v hv

theorem risingTwo_iff {z : Zone} : z.risingTwo = true ↔ Reaches Limits.high2 z := any_present_iff _ z
theorem risingOne_iff {z : Zone} : z.risingOne = true ↔ Reaches Limits.high1 z := any_present_iff _ z
theorem belowOne_iff {z : Zone} : z.belowOne = true ↔ Under Limits.low1 z := all_present_iff _ z
theorem belowTwo_iff {z : Zone} : z.belowTwo = true ↔ Under Limits.low2 z := all_present_iff _ z

theorem present_eq_nil_iff {z : Zone} : z.present.isEmpty = true ↔ z.coLevel = none ∧ z.no2Level = none := by
  simp [Zone.present]

/-! ## The move -/

theorem isFire_iff (st : ZoneState) : st.isFire = true ↔ st = .fireExtract ∨ st = .fireIsolate := by
  cases st <;> simp [ZoneState.isFire]

theorem move_of_fire {z : Zone} (h : z.state.isFire = true) : z.move = none := if_pos h

section
variable {z : Zone} (hfire : z.state.isFire = false)
include hfire

/-- Without a LIVE head a zone goes BLIND once its grace is over (R49). -/
theorem move_without_heads (hlive : z.liveCount = 0) :
    z.move = if z.grace.remaining = 0 ∧ z.state ≠ .blind then some .blind else none := by
  simp [Zone.move, hfire, hlive, Zone.graceOver]

theorem move_without_levels (hlive : z.liveCount ≠ 0) (hco : z.coLevel = none) (hno2 : z.no2Level = none) : z.move = none := by
  simp only [Zone.move, hfire, hlive, present_eq_nil_iff.mpr ⟨hco, hno2⟩, Bool.false_eq_true, if_false, if_true]

theorem move_with_levels (hlive : z.liveCount ≠ 0) (hlevel : z.coLevel ≠ none ∨ z.no2Level ≠ none) : z.move = z.moveOnLevels := by
  have hpresent : ¬ z.present.isEmpty = true := fun h => by
    obtain ⟨hco, hno2⟩ := present_eq_nil_iff.mp h
    exact hlevel.elim (· hco) (· hno2)
  simp only [Zone.move, hfire, hlive, hpresent, Bool.false_eq_true, if_false]

/-- Every NORMAL state but PURGE_2 rises to PURGE_2 at `high2` (R50, R51, R53, R54). -/
theorem moveOnLevels_high2 (hstate : z.state ≠ .purge2) (h : Reaches Limits.high2 z) : z.moveOnLevels = some .purge2 := by
  have hrises := risingTwo_iff.mpr h
  cases hs : z.state with
  | quiet | purge1 | runOn | blind => simp [Zone.moveOnLevels, hs, hrises]
  | purge2 => exact absurd hs hstate
  | fireExtract | fireIsolate => simp [hs, ZoneState.isFire] at hfire

/-- Below `high2`, QUIET, RUN_ON and BLIND rise to PURGE_1 at `high1` (R50, R53, R54). -/
theorem moveOnLevels_high1 (hone : z.state ≠ .purge1) (htwo : z.state ≠ .purge2) (hlow : ¬ Reaches Limits.high2 z)
    (h : Reaches Limits.high1 z) : z.moveOnLevels = some .purge1 := by
  have hnot := mt risingTwo_iff.mp hlow
  have hrises := risingOne_iff.mpr h
  cases hs : z.state with
  | quiet | runOn | blind => simp [Zone.moveOnLevels, hs, hnot, hrises]
  | purge1 => exact absurd hs hone
  | purge2 => exact absurd hs htwo
  | fireExtract | fireIsolate => simp [hs, ZoneState.isFire] at hfire

end

/-- Below `high1` QUIET and RUN_ON stay, BLIND moves to RUN_ON (R50, R53, R54). -/
theorem moveOnLevels_calm {z : Zone} (hstate : z.state = .quiet ∨ z.state = .runOn ∨ z.state = .blind)
    (htwo : ¬ Reaches Limits.high2 z) (hone : ¬ Reaches Limits.high1 z) :
    z.moveOnLevels = if z.state = .blind then some .runOn else none := by
  rw [← risingTwo_iff] at htwo
  rw [← risingOne_iff] at hone
  rcases hstate with hs | hs | hs <;> simp [Zone.moveOnLevels, hs, htwo, hone]

open Classical in
/-- PURGE_1 below `high2` leaves only to RUN_ON (R51). -/
theorem moveOnLevels_purge1 {z : Zone} (hs : z.state = .purge1) (htwo : ¬ Reaches Limits.high2 z) :
    z.moveOnLevels = if Under Limits.low1 z then some .runOn else none := by
  rw [← risingTwo_iff] at htwo
  simp [Zone.moveOnLevels, hs, htwo, belowOne_iff]

open Classical in
/-- PURGE_2 falls to RUN_ON below `low1`, else to PURGE_1 below `low2` (R52). -/
theorem moveOnLevels_purge2 {z : Zone} (hs : z.state = .purge2) :
    z.moveOnLevels = if Under Limits.low1 z then some .runOn else if Under Limits.low2 z then some .purge1 else none := by
  simp [Zone.moveOnLevels, hs, belowOne_iff, belowTwo_iff]

/-! ## The decision -/

theorem decided_of_stay {z : Zone} (h : z.move = none) : z.decided = z := by simp only [Zone.decided, h]

/-- A zone brought to a NORMAL state: the claim is the state's, raised by a boost (R59, R60); RUN_ON loads the hold (R56). -/
theorem enter_normal {new : ZoneState} (hnew : new.isFire = false) (z : Zone) : z.enter new = { z with
    state := new, claim := max (z.record.claimOf new) ((z.boost.map Boost.speed).getD 0), claimClass := .normal
    governing := none, conflict := [], hold := if new = .runOn then some ⟨z.record.hold, false⟩ else none } := by
  rw [Zone.enter, Zone.reclaim, if_neg (ne_true_of_eq_false hnew)]
  rfl

theorem decided_of_move {z : Zone} {new : ZoneState} (hnew : new.isFire = false) (h : z.move = some new) : z.decided = { z with
    state := new, claim := max (z.record.claimOf new) ((z.boost.map Boost.speed).getD 0), claimClass := .normal
    governing := none, conflict := [], hold := if new = .runOn then some ⟨z.record.hold, false⟩ else none } := by
  simp only [Zone.decided, h]
  exact enter_normal hnew z

/-- Settles O47: the levels are `largest_offer`, the decision is the move of the zone's case, entered or not made. -/
theorem evaluationDecidesAZone : Obligations.EvaluationDecidesAZone := by
  refine ⟨fun heads z => ⟨?_, fun v => largest_offer, fun v => largest_offer⟩, average_eq, fun z => ?_⟩
  · exact congrArg (fun n => { z.refresh heads with liveCount := n }) (refresh_liveCount heads z)
  · intro rises below boosted moved two one runOn
    refine ⟨fun h => decided_of_stay (move_of_fire ((isFire_iff _).mpr h)), fun hextract hisolate => ?_⟩
    have hfire : z.state.isFire = false := by
      rw [← Bool.not_eq_true, isFire_iff]
      exact not_or.mpr ⟨hextract, hisolate⟩
    refine ⟨fun hlive => ?_, fun hlive hco hno2 => decided_of_stay (move_without_levels hfire hlive hco hno2),
      fun hlive hlevel => ?_⟩
    · have hmove := move_without_heads hfire hlive
      split_ifs at hmove ⊢
      · exact decided_of_move rfl hmove
      · exact decided_of_stay hmove
    · have hmove : z.move = z.moveOnLevels := move_with_levels hfire hlive hlevel
      refine ⟨fun htwo h => decided_of_move rfl (hmove.trans (moveOnLevels_high2 hfire htwo h)),
        fun hone htwo hlow h => decided_of_move rfl (hmove.trans (moveOnLevels_high1 hfire hone htwo hlow h)),
        fun hs h2 h1 => decided_of_stay ?_, fun hs h2 h1 => decided_of_move rfl ?_,
        fun hs h2 hb => decided_of_move rfl ?_, fun hs h2 hb => decided_of_stay ?_,
        fun hs hb => decided_of_move rfl ?_, fun hs hb h => decided_of_move rfl ?_, fun hs hb h => decided_of_stay ?_⟩
      · rw [hmove, moveOnLevels_calm (hs.imp_right .inl) h2 h1]
        rcases hs with hs | hs <;> rw [hs] <;> rfl
      · exact hmove.trans ((moveOnLevels_calm (.inr (.inr hs)) h2 h1).trans (if_pos hs))
      · exact hmove.trans ((moveOnLevels_purge1 hs h2).trans (if_pos hb))
      · exact hmove.trans ((moveOnLevels_purge1 hs h2).trans (if_neg hb))
      · exact hmove.trans ((moveOnLevels_purge2 hs).trans (if_pos hb))
      · exact hmove.trans ((moveOnLevels_purge2 hs).trans ((if_neg hb).trans (if_pos h)))
      · exact hmove.trans ((moveOnLevels_purge2 hs).trans ((if_neg hb).trans (if_neg h)))

end Sys2Proof.GasHeads
end

