-- ==== Sys2Proof/Proofs/GasHeadsReads.lean ====
section
/-! PROOFS. GET_HEAD and GET_ZONE (R39, R69). -/

namespace Sys2Proof.GasHeads

open Sys2Proof.Machine Sys2Proof.Claims Sys2Proof.BayLoop

/-! ## A read of a numbered record -/

section
variable {most n : Nat} {inMode : Bool} {record : Option ReplyBody} {s : State}

theorem readRecord_beyond (h : most < n) : readRecord most inMode n record s = .badField s 1 := if_pos h

theorem readRecord_wrongMode (h : n ≤ most) (hmode : inMode = false) : readRecord most inMode n record s = .refuse s .wrongMode :=
  (if_neg (Nat.not_lt.mpr h)).trans (if_pos hmode)

theorem readRecord_absent (h : n ≤ most) (hmode : inMode = true) : readRecord most inMode n none s = .refuse s .notFound :=
  (if_neg (Nat.not_lt.mpr h)).trans (if_neg (ne_false_of_eq_true hmode))

theorem readRecord_present {b : ReplyBody} (h : n ≤ most) (hmode : inMode = true) : readRecord most inMode n (some b) s = .ok s b :=
  (if_neg (Nat.not_lt.mpr h)).trans (if_neg (ne_false_of_eq_true hmode))

end

/-! ## The record looked up, as its view -/

section
variable {α β : Type} {key : α → Nat} {n : Nat} {l before after : List α} {a : α} (view : α → β)

theorem map_lookup_absent (h : ∀ b ∈ l, key b ≠ n) : (lookup key n l).map view = none := by
  rw [lookup_eq_none.mpr h]
  rfl

theorem map_lookup_split (hl : l = before ++ a :: after) (hbefore : ∀ b ∈ before, key b ≠ n) (ha : key a = n) :
    (lookup key n l).map view = some (view a) := by
  rw [hl, lookup_split hbefore ha]
  rfl

end

/-! ## The answers -/

/-- A request whose owner answers and changes nothing begins its reply alone (R190, R191). -/
theorem powered_take {kind tag : Nat} {owner : State → Answer} {s : State} {status : Status} {body : ReplyBody}
    (hp : s.power = .running) (h : owner s = ⟨s, status, body⟩) :
    powered s (take kind tag owner) = .next (replying kind tag status body s) := by
  rw [powered_running hp, take, h]
  rfl

/-- Settles O28: each answer is a `readRecord` of what `lookup` finds, and a reply is all that changes. -/
theorem headsAndZonesAreRead : Obligations.HeadsAndZonesAreRead := by
  intro tag n s hp
  have answersHead {status : Status} {body : ReplyBody} (h : getHead n s = ⟨s, status, body⟩) :
      exec (.getHead tag n) s = .next (replying 0x21 tag status body s) := (exec_getHead tag n s).trans (powered_take hp h)
  have answersZone {status : Status} {body : ReplyBody} (h : getZone n s = ⟨s, status, body⟩) :
      exec (.getZone tag n) s = .next (replying 0x22 tag status body s) := (exec_getZone tag n s).trans (powered_take hp h)
  refine ⟨fun h => answersHead (readRecord_beyond h),
    fun h hm => answersHead (readRecord_wrongMode h ((unscheduled_iff _).mpr hm)),
    fun h hm => ⟨fun hnone => ?_, fun before k after hheads hbefore hk => ?_⟩,
    fun h => answersZone (readRecord_beyond h),
    fun h hm => answersZone (readRecord_wrongMode h ((unscheduled_iff _).mpr hm)),
    fun h hm => ⟨fun hnone => ?_, fun before z after hzones hbefore hz => ?_⟩⟩
  · have hview : s.headView? n = none := map_lookup_absent (key := Head.number) Head.view hnone
    refine answersHead ?_
    rw [getHead, hview]
    exact readRecord_absent h ((scheduled_iff _).mpr hm)
  · have hview : s.headView? n = some k.view := map_lookup_split (key := Head.number) Head.view hheads hbefore hk
    refine answersHead ?_
    rw [getHead, hview]
    exact readRecord_present h ((scheduled_iff _).mpr hm)
  · have hview : s.zoneView? n = none := map_lookup_absent (key := Zone.number) Zone.view hnone
    refine answersZone ?_
    rw [getZone, hview]
    exact readRecord_present h ((scheduled_iff _).mpr hm)
  · have hview : s.zoneView? n = some z.view := map_lookup_split (key := Zone.number) Zone.view hzones hbefore hz
    refine answersZone ?_
    rw [getZone, hview]
    exact readRecord_present h ((scheduled_iff _).mpr hm)

end Sys2Proof.GasHeads
end

