-- ==== Sys2Proof/Proofs/ZoneChannelMoves.lean ====
section
/-! PROOFS. What every move of one channel keeps: its record, its holding, what the start queue is told of it, and the demand it meets
(R74, R77 to R80, R84 to R96, R111 to R113). -/

namespace Sys2Proof.ZoneEvaluation

open Sys2Proof.Machine Sys2Proof.Claims Sys2Proof.BayLoop

/-! ## Sound moves -/

/-- The class, the target and the conflict of a channel are those of a demand, the target 0 in FAULT. -/
def Meets (d : Demand) (c : Channel) : Prop :=
  c.cls = d.cls ∧ c.target = (if c.state = .fault then 0 else d.want) ∧ c.conflict = d.conflict.isSome

theorem resolved_iff (s : State) (c : Channel) : s.resolved c ↔ Meets (s.demand c) c := Iff.rfl

/-- What no move of a channel touches: its record, whether it is provisional, its manual setpoint, its holding. -/
def SameHolder (c d : Channel) : Prop :=
  d.record = c.record ∧ d.provisional = c.provisional ∧ d.manual = c.manual ∧ d.holding = c.holding

/-- The start queue is told of a move into QUEUED, within it, out of it, or out and in again, and of nothing else (R111 to R113). -/
def Reported (c : Channel) (e : Eff) : Prop :=
  (e.changes = [] ∧ (e.ch.state = .queued ↔ c.state = .queued))
  ∨ (c.state = .queued ∧ e.ch.state = .queued ∧ ∃ k, e.changes = [.move c.number k])
  ∨ (c.state ≠ .queued ∧ e.ch.state = .queued ∧ ∃ k, e.changes = [.join c.number k c.record.cost])
  ∨ (c.state = .queued ∧ e.ch.state ≠ .queued ∧ e.changes = [.leave c.number])
  ∨ (c.state = .queued ∧ e.ch.state = .queued ∧ ∃ k, e.changes = [.leave c.number, .join c.number k c.record.cost])

/-- A move that keeps the books of the start queue and of the units. -/
def Booked (c : Channel) (e : Eff) : Prop := SameHolder c e.ch ∧ Reported c e ∧ (c.holdingOk → e.ch.holdingOk)

/-- A booked move that leaves a channel resolved. -/
def Sound (d : Demand) (c : Channel) (e : Eff) : Prop := Booked c e ∧ (Meets d c → Meets d e.ch)

theorem SameHolder.refl (c : Channel) : SameHolder c c := ⟨rfl, rfl, rfl, rfl⟩

/-- A move that stays in a state other than QUEUED, or in QUEUED, and tells the queue nothing. -/
theorem reported_quiet {c : Channel} {e : Eff} (hchanges : e.changes = []) (hstate : e.ch.state = .queued ↔ c.state = .queued) :
    Reported c e := .inl ⟨hchanges, hstate⟩

theorem reported_leaves {c : Channel} {e : Eff} (hchanges : e.changes = c.leaves) (hstate : e.ch.state ≠ .queued) : Reported c e := by
  unfold Channel.leaves at hchanges
  by_cases hq : c.state = .queued
  · exact .inr (.inr (.inr (.inl ⟨hq, hstate, by rw [hchanges, if_pos hq]⟩)))
  · exact reported_quiet (by rw [hchanges, if_neg hq]) ⟨fun h => absurd h hstate, fun h => absurd h hq⟩

/-- What of a channel the books and the demands read. -/
def SameStanding (c d : Channel) : Prop :=
  SameHolder c d ∧ d.state = c.state ∧ d.settle.isSome = c.settle.isSome ∧ d.cls = c.cls ∧ d.target = c.target ∧ d.conflict = c.conflict

theorem quiet_sound (d : Demand) {c k : Channel} (h : SameStanding c k) : Sound d c (.quiet k) := by
  obtain ⟨hholder, hstate, hsettle, hcls, htarget, hconflict⟩ := h
  refine ⟨⟨hholder, reported_quiet rfl (by rw [← hstate]; rfl), fun hok => ?_⟩, fun hmeets => ?_⟩
  · obtain ⟨-, -, -, hholding⟩ := hholder
    simpa only [Eff.quiet, Channel.holdingOk, hstate, hsettle, hholding] using hok
  · simpa only [Eff.quiet, Meets, hstate, hcls, htarget, hconflict] using hmeets

theorem stay_sound (d : Demand) (c : Channel) : Sound d c (.quiet c) := quiet_sound d ⟨.refl c, rfl, rfl, rfl, rfl, rfl⟩

/-- A move of a channel that differs from another in what nothing here reads. -/
theorem Sound.of_standing {d : Demand} {c k : Channel} {e : Eff} (h : SameStanding c k) (he : Sound d k e) : Sound d c e := by
  obtain ⟨⟨hrecord, hprovisional, hmanual, hholding⟩, hstate, hsettle, hcls, htarget, hconflict⟩ := h
  obtain ⟨⟨hholder, hreported, hok⟩, hmeets⟩ := he
  refine ⟨⟨?_, ?_, fun h => hok ?_⟩, fun h => hmeets ?_⟩
  · simpa only [SameHolder, hrecord, hprovisional, hmanual, hholding] using hholder
  · simpa only [Reported, Channel.number, hrecord, hstate] using hreported
  · simpa only [Channel.holdingOk, hstate, hsettle, hholding] using h
  · simpa only [Meets, hstate, hcls, htarget, hconflict] using h

/-! ## Entries into states -/

/-- What an entry keeps besides the state: class, target and conflict, so that a channel outside FAULT still meets its demand. -/
def SameDemand (c d : Channel) : Prop := d.cls = c.cls ∧ d.target = c.target ∧ d.conflict = c.conflict ∧ d.state ≠ .fault

theorem SameDemand.meets {d : Demand} {c k : Channel} (h : SameDemand c k) (hc : c.state ≠ .fault) (hmeets : Meets d c) : Meets d k := by
  obtain ⟨hcls, htarget, hconflict, hstate⟩ := h
  rw [Meets, if_neg hc] at hmeets
  rwa [Meets, if_neg hstate, hcls, htarget, hconflict]

theorem leaveStart_same (c : Channel) :
    SameHolder c c.leaveStart ∧ c.leaveStart.cls = c.cls ∧ c.leaveStart.target = c.target ∧ c.leaveStart.conflict = c.conflict := by
  unfold Channel.leaveStart
  split <;> exact ⟨.refl c, rfl, rfl, rfl⟩

/-- A start left loads the settle timer of a holding channel alone. -/
theorem leaveStart_settle {c : Channel} (h : c.settle.isSome = true → c.holding = true) :
    c.leaveStart.settle.isSome = true → c.holding = true := by
  unfold Channel.leaveStart
  split
  next hstart => exact fun _ => hstart.2.1
  · exact h

theorem startSequence_booked {c : Channel} (hstate : c.state = .off) (hholding : c.holding = false) :
    Booked c (startSequence c) ∧ SameDemand c (startSequence c).ch := by
  have hnot : c.state ≠ .queued := by rw [hstate]; decide
  unfold startSequence enterQueued
  split
  · refine ⟨⟨.refl c, .inr (.inr (.inl ⟨hnot, rfl, _, rfl⟩)), fun h => ⟨h.1, fun _ => hholding, nofun⟩⟩, rfl, rfl, rfl, nofun⟩
  · refine ⟨⟨.refl c, reported_quiet rfl ⟨nofun, fun h => absurd h hnot⟩, fun h => ⟨h.1, fun _ => hholding, nofun⟩⟩,
      rfl, rfl, rfl, nofun⟩

theorem enterQueued_booked {c : Channel} (hstate : c.state ≠ .queued) (hholding : c.holding = false) :
    Booked c (enterQueued c) ∧ SameDemand c (enterQueued c).ch :=
  ⟨⟨.refl c, .inr (.inr (.inl ⟨hstate, rfl, _, rfl⟩)), fun h => ⟨h.1, fun _ => hholding, nofun⟩⟩, rfl, rfl, rfl, nofun⟩

/-- Entry to OFF, where a start follows at once outside a holding: a QUEUED channel may leave the queue and join it again. -/
theorem enterOff_booked (c : Channel) : Booked c (enterOff c) ∧ SameDemand c (enterOff c).ch := by
  obtain ⟨off, hoff⟩ : ∃ off : Channel, off = { c.setImage 0 .close with
    state := .off, faultCause := none, damper := none, coast := none } := ⟨_, rfl⟩
  have henter : enterOff c = Eff.andThen ⟨off, [.fanState c.number .off c.state], c.leaves⟩ fun d =>
      if 0 < d.target ∧ d.holding = false then startSequence d else .quiet d := by rw [hoff]; rfl
  have hholder : SameHolder c off := by rw [hoff]; exact .refl c
  have hrecord : off.record = c.record := hholder.1
  have hstate : off.state = .off := by rw [hoff]
  have hdemand : SameDemand c off := by rw [hoff]; exact ⟨rfl, rfl, rfl, nofun⟩
  have hok : c.holdingOk → off.holdingOk := by rw [hoff]; exact fun h => ⟨h.1, nofun, nofun⟩
  rw [henter, Eff.andThen]
  dsimp only
  by_cases hstart : 0 < off.target ∧ off.holding = false
  · rw [if_pos hstart]
    obtain ⟨⟨hholder', hreported, hok'⟩, hcls, htarget, hconflict, hfault⟩ := startSequence_booked hstate hstart.2
    refine ⟨⟨?_, ?_, hok' ∘ hok⟩, hcls.trans hdemand.1, htarget.trans hdemand.2.1, hconflict.trans hdemand.2.2.1, hfault⟩
    · simpa only [SameHolder, hholder.1, hholder.2.1, hholder.2.2.1, hholder.2.2.2] using hholder'
    · rcases hreported with ⟨hnone, hqueued⟩ | ⟨hq, -⟩ | ⟨-, hqueued, k, hjoin⟩ | ⟨hq, -⟩ | ⟨hq, -⟩
      · exact reported_leaves (by dsimp only; rw [hnone, List.append_nil]) fun h => absurd (hstate.symm.trans (hqueued.mp h)) (by decide)
      · exact absurd (hstate.symm.trans hq) (by decide)
      · have hjoin' : (startSequence off).changes = [.join c.number k c.record.cost] := by rw [hjoin, Channel.number, hrecord]; rfl
        by_cases hq : c.state = .queued
        · exact .inr (.inr (.inr (.inr ⟨hq, hqueued, k, by dsimp only; rw [hjoin', Channel.leaves, if_pos hq]; rfl⟩)))
        · exact .inr (.inr (.inl ⟨hq, hqueued, k, by dsimp only; rw [hjoin', Channel.leaves, if_neg hq]; rfl⟩))
      · exact absurd (hstate.symm.trans hq) (by decide)
      · exact absurd (hstate.symm.trans hq) (by decide)
  · rw [if_neg hstart]
    exact ⟨⟨hholder, reported_leaves (List.append_nil _) fun h => absurd (hstate.symm.trans h) (by decide), hok⟩, hdemand⟩

theorem enterOff_sound (d : Demand) {c : Channel} (h : c.state ≠ .fault) : Sound d c (enterOff c) :=
  ⟨(enterOff_booked c).1, (enterOff_booked c).2.meets h⟩

theorem enterStopping_sound (d : Demand) {c : Channel} (hq : c.state ≠ .queued) (hf : c.state ≠ .fault) :
    Sound d c (enterStopping c) := by
  obtain ⟨⟨hrecord, hprovisional, hmanual, hholding⟩, hcls, htarget, hconflict⟩ := leaveStart_same c
  refine ⟨⟨⟨hrecord, hprovisional, hmanual, hholding⟩, reported_quiet rfl ⟨nofun, fun h => absurd h hq⟩, fun h => ⟨fun hs => ?_, nofun, nofun⟩⟩,
    SameDemand.meets ⟨hcls, htarget, hconflict, nofun⟩ hf⟩
  exact hholding.trans (leaveStart_settle h.1 hs)

theorem enterRunning_sound (d : Demand) {c : Channel} (hq : c.state ≠ .queued) (hf : c.state ≠ .fault) : Sound d c (enterRunning c) :=
  ⟨⟨.refl c, reported_quiet rfl ⟨nofun, fun h => absurd h hq⟩, fun h => ⟨h.1, nofun, nofun⟩⟩,
    SameDemand.meets ⟨rfl, rfl, rfl, nofun⟩ hf⟩

theorem enterFault_sound (d : Demand) (cause : FaultCause) (c : Channel) : Sound d c (enterFault cause c) := by
  obtain ⟨⟨hrecord, hprovisional, hmanual, hholding⟩, hcls, -, hconflict⟩ := leaveStart_same c
  refine ⟨⟨⟨hrecord, hprovisional, hmanual, hholding⟩, reported_leaves rfl nofun, fun h => ⟨fun hs => ?_, nofun, nofun⟩⟩,
    fun h => ⟨hcls.trans h.1, rfl, hconflict.trans h.2.2⟩⟩
  exact hholding.trans (leaveStart_settle h.1 hs)

/-- Entry to LOST: a channel that leaves FAULT takes the target its claims want (R79). -/
theorem enterLost_sound (d : Demand) (c : Channel) : Sound d c (enterLost d.want c) := by
  obtain ⟨⟨hrecord, hprovisional, hmanual, hholding⟩, hcls, -, hconflict⟩ := leaveStart_same c
  refine ⟨⟨⟨hrecord, hprovisional, hmanual, hholding⟩, reported_leaves rfl nofun, fun h => ⟨fun hs => ?_, nofun, nofun⟩⟩,
    fun h => ⟨hcls.trans h.1, ?_, hconflict.trans h.2.2⟩⟩
  · exact hholding.trans (leaveStart_settle h.1 hs)
  · obtain ⟨-, htarget, -⟩ := h
    change (if c.state = .fault then d.want else c.target) = d.want
    split
    · rfl
    next hf => rw [htarget, if_neg hf]

/-! ## Resolution -/

/-- The move of a channel whose class and target a resolution has set, by its state (R85 to R95). -/
theorem applyTarget_sound (d : Demand) (c : Channel) : Sound d c (applyTarget c) := by
  have hsame (set : Nat) (damper : DamperCmd) : Sound d c (.quiet (c.setImage set damper)) :=
    quiet_sound d ⟨.refl c, rfl, rfl, rfl, rfl, rfl⟩
  have hset (set : Nat) : Sound d c (.quiet (c.setSetpoint set)) := quiet_sound d ⟨.refl c, rfl, rfl, rfl, rfl, rfl⟩
  have hstay := stay_sound d c
  unfold applyTarget
  cases hs : c.state <;> dsimp only
  case sync => exact hstay
  case off =>
    split
    next hstart =>
      obtain ⟨hbooked, hdemand⟩ := startSequence_booked hs hstart.2
      exact ⟨hbooked, hdemand.meets (by rw [hs]; decide)⟩
    · exact hstay
  case opening => split; exacts [enterOff_sound d (by rw [hs]; decide), hstay]
  case queued => split; exacts [enterOff_sound d (by rw [hs]; decide), hstay]
  case starting => split; exacts [enterStopping_sound d (by rw [hs]; decide) (by rw [hs]; decide), hsame _ _]
  case running => split; exacts [enterStopping_sound d (by rw [hs]; decide) (by rw [hs]; decide), hsame _ _]
  case stopping =>
    have hf : c.state ≠ .fault := by rw [hs]; decide
    have hq : c.state ≠ .queued := by rw [hs]; decide
    split_ifs with htarget hholding
    · exact hstay
    · exact ⟨⟨.refl c, reported_quiet rfl ⟨nofun, fun h => absurd h hq⟩, fun h => ⟨h.1, nofun, fun _ => hholding⟩⟩,
        SameDemand.meets ⟨rfl, rfl, rfl, nofun⟩ hf⟩
    · obtain ⟨hbooked, hdemand⟩ := enterQueued_booked hq (Bool.eq_false_iff.mpr hholding)
      exact ⟨hbooked, hdemand.meets hf⟩
  case fault => split; exacts [hsame _ _, hstay]
  case lost => split_ifs; exacts [hsame _ _, hset _, hset _, hstay]

/-- A QUEUED channel that stays QUEUED under a new target tells the queue nothing but its class (R79). -/
theorem applyTarget_queued {c : Channel} (hs : c.state = .queued) (hq : (applyTarget c).ch.state = .queued) :
    (applyTarget c).changes = [] := by
  have happly : applyTarget c = if c.target = 0 then enterOff c else .quiet c := by simp only [applyTarget, hs]
  rw [happly] at hq ⊢
  split
  next htarget =>
    have hoff : (enterOff c).ch.state = .off := by
      have hnot : ¬ (0 < c.target ∧ c.holding = false) := fun h => absurd htarget (Nat.ne_of_gt h.1)
      unfold enterOff Eff.andThen
      dsimp only
      exact congrArg (fun e : Eff => e.ch.state) (if_neg hnot)
    rw [if_pos htarget, hoff] at hq
    cases hq
  · rfl

/-- A resolution keeps the books and meets the demand it resolves to (R78 to R80). -/
theorem resolve_booked (silent : Bool) (d : Demand) (c : Channel) :
    Booked c (resolve silent d c) ∧ Meets d (resolve silent d c).ch := by
  by_cases h : c.cls = d.cls ∧ c.target = if c.state = .fault then 0 else d.want
  · rw [resolve_same silent h]
    exact ⟨⟨.refl c, reported_quiet rfl .rfl, id⟩, h.1, h.2, rfl⟩
  · rw [resolve_moved silent h]
    obtain ⟨⟨hholder, hreported, hok⟩, hmeets⟩ := applyTarget_sound d (demanded d c)
    refine ⟨⟨hholder, ?_, hok⟩, hmeets ⟨rfl, rfl, rfl⟩⟩
    obtain ⟨e, he⟩ : ∃ e, e = applyTarget (demanded d c) := ⟨_, rfl⟩
    have hnumber : e.ch.number = c.number := by rw [he]; exact congrArg FanRecord.channel hholder.1
    have hquiet (hq : ¬ (c.state = .queued ∧ e.ch.state = .queued)) : queueMove c e.ch = [] := if_neg fun hm => hq ⟨hm.1, hm.2.1⟩
    rw [← he] at hreported ⊢
    by_cases hq : c.state = .queued ∧ e.ch.state = .queued
    · have hnone : e.changes = [] := by rw [he]; exact applyTarget_queued (c := demanded d c) hq.1 (by rw [← he]; exact hq.2)
      unfold Reported queueMove
      rw [hnone, List.nil_append, hnumber]
      split
      · exact .inr (.inl ⟨hq.1, hq.2, _, rfl⟩)
      · exact .inl ⟨rfl, fun _ => hq.1, fun _ => hq.2⟩
    · rw [hquiet hq, List.append_nil]
      exact hreported

/-! ## Reports, polls, acknowledgements, expiries -/

theorem adopt_sound (d : Demand) (r : Report) {c : Channel} (hq : c.state ≠ .queued) (hf : c.state ≠ .fault) : Sound d c (adopt r c) := by
  unfold adopt
  split
  · exact enterFault_sound d _ c
  · split
    · obtain ⟨⟨hholder, -, hok⟩, hmeets⟩ := enterRunning_sound d hq hf
      unfold Eff.andThen
      dsimp only
      split
      · obtain ⟨⟨hholder', -, hok'⟩, hmeets'⟩ := enterStopping_sound d (c := (enterRunning c).ch) nofun nofun
        refine ⟨⟨hholder', reported_quiet rfl ⟨nofun, fun h => absurd h hq⟩, hok' ∘ hok⟩, hmeets' ∘ hmeets⟩
      · exact ⟨⟨hholder, reported_quiet rfl ⟨nofun, fun h => absurd h hq⟩, hok⟩, hmeets⟩
    · exact enterOff_sound d hf

theorem takeReport_sound (d : Demand) (r : Report) (c : Channel) : Sound d c (takeReport r c) := by
  obtain ⟨k, hk, hstanding⟩ : ∃ k : Channel, k = { c with report := some r, misses := 0, mismatch := false, reportedSinceGrant := true }
      ∧ SameStanding c k := ⟨_, rfl, .refl c, rfl, rfl, rfl, rfl, rfl⟩
  have hstate : k.state = c.state := hstanding.2.1
  have hfault (cause : FaultCause) : Sound d c (enterFault cause k) := (enterFault_sound d cause k).of_standing hstanding
  have hquiet : Sound d c (.quiet k) := quiet_sound d hstanding
  unfold takeReport
  simp only [← hk]
  cases hs : c.state <;> rw [hs] at hstate <;> dsimp only
  case sync => exact (adopt_sound d r (by rw [hstate]; decide) (by rw [hstate]; decide)).of_standing hstanding
  case off => split; exacts [hfault _, hquiet]
  case opening =>
    split_ifs
    · exact hfault _
    · refine Sound.of_standing hstanding ⟨⟨.refl k, .inr (.inr (.inl ⟨by rw [hstate]; decide, rfl, _, rfl⟩)), fun h => ?_⟩,
        SameDemand.meets ⟨rfl, rfl, rfl, nofun⟩ (by rw [hstate]; decide)⟩
      exact ⟨h.1, fun _ => h.2.1 (.inl hstate), nofun⟩
    · exact hfault _
    · exact hquiet
  case queued => split_ifs; exacts [hfault _, hfault _, hquiet]
  case starting => split; exacts [hfault _, hquiet]
  case running => split_ifs; exacts [hfault _, hfault _, hquiet]
  case stopping => split_ifs; exacts [hfault _, (enterOff_sound d (by rw [hstate]; decide)).of_standing hstanding, hquiet]
  case fault => exact hquiet
  case lost =>
    split
    · exact quiet_sound d ⟨.refl c, hs.symm, rfl, rfl, rfl, rfl⟩
    · exact Sound.of_standing (k := { c with
          state := .lost, report := some r, misses := 0, mismatch := false, reportedSinceGrant := true, recover := 0 })
        ⟨.refl c, hs.symm, rfl, rfl, rfl, rfl⟩ (adopt_sound d r (show FanState.lost ≠ .queued by decide) (show FanState.lost ≠ .fault by decide))

theorem missPoll_sound (d : Demand) (limit : Nat) (c : Channel) : Sound d c (missPoll limit d.want c) := by
  unfold missPoll
  dsimp only
  split_ifs
  · exact quiet_sound d ⟨.refl c, rfl, rfl, rfl, rfl, rfl⟩
  · exact Sound.of_standing (k := { c with misses := min (c.misses + 1) 255 }) ⟨.refl c, rfl, rfl, rfl, rfl, rfl⟩ (enterLost_sound d _)
  · exact quiet_sound d ⟨.refl c, rfl, rfl, rfl, rfl, rfl⟩

/-- A move followed by a change of what nothing here reads, with notices of its own. -/
theorem Sound.andThen {d : Demand} {c : Channel} {e : Eff} {f : Channel → Eff} (he : Sound d c e) (hf : SameStanding e.ch (f e.ch).ch)
    (hchanges : (f e.ch).changes = []) : Sound d c (e.andThen f) := by
  obtain ⟨⟨hholder, hreported, hok⟩, hmeets⟩ := he
  obtain ⟨⟨⟨hrecord', hprovisional', hmanual', hholding'⟩, -, hok'⟩, hmeets'⟩ := quiet_sound d hf
  obtain ⟨hrecord, hprovisional, hmanual, hholding⟩ := hholder
  refine ⟨⟨⟨hrecord'.trans hrecord, hprovisional'.trans hprovisional, hmanual'.trans hmanual, hholding'.trans hholding⟩, ?_,
    hok' ∘ hok⟩, hmeets' ∘ hmeets⟩
  · have hstate : (f e.ch).ch.state = e.ch.state := hf.2.1
    simpa only [Reported, Eff.andThen, hchanges, List.append_nil, hstate] using hreported

theorem failPoll_sound (d : Demand) (limit : Nat) (cls : PollClass) (c : Channel) : Sound d c (failPoll limit d.want cls c) := by
  have hmismatch (k : Channel) : SameStanding k (mismatchPoll cls k).ch ∧ (mismatchPoll cls k).changes = [] := by
    unfold mismatchPoll
    split <;> exact ⟨⟨.refl k, rfl, rfl, rfl, rfl, rfl⟩, rfl⟩
  exact (missPoll_sound d limit c).andThen (hmismatch _).1 (hmismatch _).2

theorem polled_sound (d : Demand) (draws limit : Nat) (r : Received) (cls : PollClass) (c : Channel) :
    Sound d c (c.polled draws limit d.want r cls) := by
  unfold Channel.polled
  split
  · exact takeReport_sound d _ c
  · exact failPoll_sound d limit cls c

/-- An acknowledgement loads the settle timer of a STARTING channel alone, which holds its units (R88). -/
theorem ackCommand_sound (d : Demand) (carried : Image) (c : Channel) : Sound d c (.quiet (ackCommand carried c)) := by
  unfold ackCommand
  dsimp only
  split
  next hstart =>
    refine ⟨⟨.refl c, reported_quiet rfl .rfl, fun h => ⟨fun _ => h.2.2 hstart.1, h.2.1, h.2.2⟩⟩, id⟩
  · exact quiet_sound d ⟨.refl c, rfl, rfl, rfl, rfl, rfl⟩

theorem damperExpired_sound (d : Demand) (c : Channel) : Sound d c (damperExpired c) := by
  unfold damperExpired
  split
  · exact enterFault_sound d _ c
  · exact stay_sound d c

theorem coastExpired_sound (d : Demand) (c : Channel) : Sound d c (coastExpired c) := by
  unfold coastExpired
  split
  next hs => exact enterOff_sound d (by rw [hs]; decide)
  · exact stay_sound d c

/-- CLEAR_FAULT resolves the channel to what its claims want (R96). -/
theorem clearedFault_sound (d : Demand) (c : Channel) : Sound d c (clearedFault d c) := by
  obtain ⟨⟨hholder, hreported, hok⟩, hcls, htarget, hconflict, hfault⟩ := enterOff_booked { c with target := d.want, cls := d.cls }
  refine ⟨⟨hholder, hreported, hok⟩, fun h => ⟨hcls, ?_, hconflict.trans h.2.2⟩⟩
  rw [clearedFault, if_neg hfault]
  exact htarget

theorem afterSettle_holder (c : Channel) : SameHolder c (afterSettle c).ch := by
  have hfault : SameHolder c (enterFault .noStart c).ch := (enterFault_sound ⟨.normal, 0, none⟩ .noStart c).1.1
  unfold afterSettle
  cases c.state <;> dsimp only
  case starting =>
    split
    · split; exacts [.refl c, hfault]
    · split; exacts [.refl c, hfault]
    · exact hfault
  case off =>
    split
    · unfold startSequence
      split <;> exact .refl c
    · exact .refl c
  all_goals exact .refl c

/-- A holding ends before its channel acts (R89): the channel may be STARTING without its units then, and leaves that state. -/
theorem afterSettle_booked (d : Demand) {c : Channel} (hholding : c.holding = false) (hsettle : c.settle = none) :
    SameHolder c (afterSettle c).ch ∧ Reported c (afterSettle c) ∧ (afterSettle c).ch.holdingOk
      ∧ (Meets d c → Meets d (afterSettle c).ch) := by
  refine ⟨afterSettle_holder c, ?_⟩
  have hidle : c.state ≠ .starting → c.holdingOk := fun hs => ⟨by simp [hsettle], fun _ => hholding, fun h => absurd h hs⟩
  have hsound {e : Eff} (h : Sound d c e) (hok : e.ch.holdingOk) :
      Reported c e ∧ e.ch.holdingOk ∧ (Meets d c → Meets d e.ch) := ⟨h.1.2.1, hok, h.2⟩
  unfold afterSettle
  cases hs : c.state
  case starting =>
    have hrunning := hsound (enterRunning_sound d (c := c) (by rw [hs]; decide) (by rw [hs]; decide))
      ⟨fun h => by simp [enterRunning, Channel.setImage, hsettle] at h, nofun, nofun⟩
    have hsettle' : c.leaveStart.settle = none := by simp [Channel.leaveStart, hholding, hsettle]
    have hfault := hsound (enterFault_sound d .noStart c)
      ⟨fun h => absurd (hsettle' ▸ h) (by decide), nofun, nofun⟩
    dsimp only
    split
    · split; exacts [hrunning, hfault]
    · split; exacts [hrunning, hfault]
    · exact hfault
  case off =>
    obtain ⟨hbooked, hdemand⟩ := startSequence_booked hs hholding
    dsimp only
    split
    · exact hsound ⟨hbooked, hdemand.meets (by rw [hs]; decide)⟩ (hbooked.2.2 (hidle (by rw [hs]; decide)))
    · exact hsound (stay_sound d c) (hidle (by rw [hs]; decide))
  all_goals exact hsound (stay_sound d c) (hidle (by rw [hs]; decide))

end Sys2Proof.ZoneEvaluation
end

