-- ==== Sys2Proof/Proofs/ZoneMoves.lean ====
section
/-! PROOFS. What a step can do to the tables, said once: every command is a chain of a few moves of the tables, so that a law of the tables
is kept by every step when it is kept by each move. -/

namespace Sys2Proof.ZoneEvaluation

open Sys2Proof.Machine Sys2Proof.Claims Sys2Proof.BayLoop

/-! ## The moves -/

/-- The tables a state holds: what no command aside touches. -/
def tablesOf (s : State) :=
  ((s.mode, s.active, s.staging, s.heads, s.zones, s.handed), (s.channels, s.queue, s.held, s.latches))

theorem tablesOf_inj {s t : State} (h : tablesOf t = tablesOf s) :
    (t.mode = s.mode ∧ t.active = s.active ∧ t.staging = s.staging ∧ t.heads = s.heads ∧ t.zones = s.zones ∧ t.handed = s.handed)
      ∧ t.channels = s.channels ∧ t.queue = s.queue ∧ t.held = s.held ∧ t.latches = s.latches := by
  simpa only [tablesOf, Prod.mk.injEq] using h

/-- What the books read of a queue entry. -/
def entryKey (e : QueueEntry) : Nat × Nat := (e.channel, e.cost)

/-- What the claims and their channels read of a zone. -/
def SameClaim (z y : Zone) : Prop := y.handedClaim = z.handedClaim ∧ y.record.fans = z.record.fans

/-- One move of the tables, or a chain of them. -/
inductive Move : State → State → Prop where
  | beside {s t : State} (h : tablesOf t = tablesOf s) : Move s t
  | trans {s t u : State} (h : Move s t) (h' : Move t u) : Move s u
  /-- Heads come from heads alone. -/
  | heads (l : List Head) {s : State} (h : s.heads = [] → l = []) : Move s { s with heads := l }
  /-- An event of the channels (R74 to R96). -/
  | fans (f : Channel → Eff) {s : State} (h : ∀ c ∈ s.channels, Sound (s.demand c) c (f c)) : Move s (fanEvent f s)
  | look (s : State) : Move s (look s)
  /-- A settle expiry (R89). -/
  | settle (n : Nat) (s : State) : Move s (settleExpired n s)
  /-- The counts of the queue's entries (R105, R119, R120). -/
  | queue (q : List QueueEntry) {s : State} (h : q.map entryKey = s.queue.map entryKey) : Move s { s with queue := q }
  /-- Timers and records of zones, their claims aside (R55, R57, R65, R66). -/
  | zones (f : Zone → Zone) {s : State} (h : ∀ z, SameClaim z (f z)) : Move s { s with zones := s.zones.map f }
  /-- Claims that change and are handed over (R61). -/
  | claims (f : Zone → Zone) {s : State} (h : ∀ z, (f z).record = z.record) : Move s (commitZones (s.zones.map f) s)
  /-- Latches outside the failsafe, or under it with the same demand (R131, R145). -/
  | latches (l : List Latch) {s : State} (h : s.failsafe = false ∨ l.isEmpty = s.latches.isEmpty) : Move s { s with latches := l }
  /-- The failsafe acts, under a new latch list (R144, R145). -/
  | failsafe (addresses : List Nat) (l : List Latch) {s : State} (h : s.failsafe = true) :
      Move s (makeProvisional addresses { s with latches := l })
  | setpoint (n setpoint : Nat) (s : State) : Move s (applySetpoint n setpoint s)
  /-- MANUAL mode is entered or left (R179). -/
  | manual (mode : Mode) (setpoint : Channel → Option Nat) {s : State} (h : s.mode.scheduled = true) (hm : mode.scheduled = true) :
      Move s (resolveChannels false (fun _ => true)
        { s with mode := mode, channels := s.channels.map fun c => { c with manual := setpoint c } })
  /-- A record is staged (R172). -/
  | staged (st new : Staging) {s : State} (hmode : s.mode = .loading) (h : s.staging = some st)
      (hfans : sorted LoadFan.channel st.fans → sorted LoadFan.channel new.fans)
      (hzones : sorted LoadZone.zone st.zones → sorted LoadZone.zone new.zones) : Move s (withStaging new s)
  | loadBegun {s : State} (h : s.mode = .blank) : Move s { s with mode := .loading, staging := some .empty }
  | loadAbandoned {s : State} (h : s.mode = .loading) : Move s { s with mode := .blank, staging := none }
  | committed (st : Staging) {s : State} (hmode : s.mode = .loading) (h : s.staging = some st) : Move s (commit st.inForce s)
  | restarted {s : State} (h : s.mode.scheduled = true) : Move s (restartScheduled s)
  | unconfigured {s : State} (h : s.mode.scheduled = false) : Move s (restartUnconfigured s)
  | cleared (s : State) : Move s (restartCleared s)
  | reset (s : State) : Move s s.cleared

theorem Move.refl (s : State) : Move s s := .beside rfl

/-- A change of what no table holds, before a move. -/
theorem Move.after {s t u : State} (h' : Move t u) (h : tablesOf t = tablesOf s) : Move s u := .trans (.beside h) h'

/-! ## Notices and replies -/

theorem raise_move (n : NoticeBody) (s : State) : Move s (raise n s) := .beside rfl

theorem raiseAll_move (ns : List NoticeBody) (s : State) : Move s (raiseAll ns s) := by
  rw [raiseAll_eq]
  exact .beside rfl

theorem raiseMode_move (previous : Mode) (s : State) : Move s (raiseMode previous s) := by
  unfold raiseMode
  split
  · exact .refl s
  · exact raise_move _ s

theorem respond_move {kind tag : Nat} {s : State} {a : Answer} (h : Move s a.state) : Move s (respond kind tag a) := h.trans (.beside rfl)

/-! ## Channels -/

theorem fanAt_move (n : Nat) {f : Channel → Eff} {s : State} (h : ∀ c ∈ s.channels, Sound (s.demand c) c (f c)) :
    Move s (fanEventAt n f s) :=
  .fans _ fun c hc => by
    split
    · exact h c hc
    · exact stay_sound _ c

/-- Timers and counts of the channels. -/
theorem channels_move (f : Channel → Channel) {s : State} (h : ∀ c, SameStanding c (f c)) :
    Move s { s with channels := s.channels.map f } := by
  have hevent : Move s (fanEvent (fun c => .quiet (f c)) s) := .fans _ fun c _ => quiet_sound _ (h c)
  rw [fanEvent_unqueued fun _ _ => rfl] at hevent
  exact hevent.trans (.beside rfl)

theorem driveJoins_move (address : Nat) {s : State} (h : s.failsafe = true) : Move s (driveJoins address s) := by
  unfold driveJoins
  split
  · exact .failsafe [address] s.latches h
  · exact .refl s

theorem driveLeaves_move (address : Nat) (s : State) : Move s (driveLeaves address s) :=
  .fans _ fun c _ => by
    split
    · exact enterLost_sound _ c
    · exact stay_sound _ c

theorem deliverChannel_move (c : Channel) (r : Received) (cls : PollClass) (s : State) : Move s (deliverChannel c r cls s) := by
  unfold deliverChannel
  rw [countDraws_eq]
  exact (fanAt_move c.number fun d _ => polled_sound (s.demand d) _ _ r cls d).trans (.beside rfl)

theorem deliverCommand_move (x : CommandExchange) (ok : Bool) (s : State) : Move s (deliverCommand x ok s) := by
  unfold deliverCommand
  split
  · exact .refl s
  · refine fanAt_move _ fun c _ => ?_
    split
    · exact ackCommand_sound _ _ c
    · exact missPoll_sound (s.demand c) _ c

theorem damperTimeout_move (n : Nat) (s : State) : Move s (damperTimeout n s) :=
  fanAt_move n fun c _ => by
    split
    · exact damperExpired_sound _ c
    · exact stay_sound _ c

theorem coastTimeout_move (n : Nat) (s : State) : Move s (coastTimeout n s) :=
  fanAt_move n fun c _ => by
    split
    · exact coastExpired_sound _ c
    · exact stay_sound _ c

theorem stall_move (s : State) : Move s (stall s) := by
  unfold stall
  split
  · exact .refl s
  next e rest hq =>
    split
    · exact (Move.queue ({ e with stalled := true } :: rest) (by rw [hq]; rfl)).trans (raise_move _ _)
    · exact .refl s

theorem setFeeder_move (silent : Bool) (f : Feeder) (s : State) : Move s (setFeeder silent f s) := by
  unfold setFeeder
  dsimp only
  have hset : Move s { s with feeder := f } := .beside rfl
  split_ifs
  · exact hset
  · exact hset.trans (.look _)
  · exact (hset.trans (raise_move _ _)).trans (.look _)

/-! ## Zones -/

theorem changeZone_move (n : Nat) {f : Zone → Zone} (s : State) (h : ∀ z, (f z).record = z.record) : Move s (changeZone n f s) :=
  .claims (fun z => if z.number = n then f z else z) fun z => by
    split
    · exact h z
    · rfl

theorem enter_record (new : ZoneState) (z : Zone) : (z.enter new).record = z.record := reclaim_record _

theorem enterFire_record (line : Nat) (a : Assignment) (z : Zone) : (z.enterFire line a).record = z.record := by
  cases a <;> rfl

theorem latch_record (records : List LineRecord) (line : Nat) (z : Zone) : (z.latch records line).1.record = z.record := by
  unfold Zone.latch
  split
  · rfl
  · split
    · split
      · rfl
      · split <;> rfl
    · exact enterFire_record _ _ z

theorem release_record (records : List LineRecord) (cleared latched : List Nat) (z : Zone) :
    (z.release records cleared latched).1.record = z.record := by
  unfold Zone.release
  split
  · rfl
  · split
    · split
      · exact enterFire_record _ _ z
      · exact enter_record _ z
    · rfl

theorem holdExpired_record (z : Zone) : z.holdExpired.record = z.record := by
  unfold Zone.holdExpired
  split
  · split
    · exact enter_record _ z
    · rfl
  · rfl

theorem evaluate_move (s : State) : Move s (evaluate s) := .claims _ fun z => evaluated_record s.heads z

theorem applyPlan_move (line : Nat) (s : State) : Move s (applyPlan line s) := by
  unfold applyPlan
  dsimp only
  rw [raiseAll_eq, List.map_map]
  exact (Move.claims (s := { s with ring := _ }) _ fun z => latch_record s.lineRecords line z).after rfl

theorem releaseZones_move (cleared : List Nat) (s : State) : Move s (releaseZones cleared s) := by
  unfold releaseZones
  dsimp only
  rw [raiseAll_eq, List.map_map]
  exact (Move.claims (s := { s with ring := _ }) _ fun z => release_record s.lineRecords cleared s.latchedLines z).after rfl

theorem boostZones_move (zones : ZoneSet) (b : Option Boost) (s : State) : Move s (boostZones zones b s) :=
  .claims _ fun z => by
    split
    · exact reclaim_record _
    · rfl

theorem boostTimeout_move (n : Nat) (s : State) : Move s (boostTimeout n s) := by
  unfold boostTimeout
  split
  · exact .refl s
  · split
    · exact .refl s
    · split
      · refine Move.trans ?_ (raise_move _ _)
        exact changeZone_move n s fun z => reclaim_record _
      · exact .refl s

/-- A change of one zone's timers or thresholds. -/
theorem modifyZone_move (n : Nat) (f : Zone → Zone) {s : State} (h : ∀ z, SameClaim z (f z)) :
    Move s { s with zones := modify Zone.number n f s.zones } :=
  .zones (fun z => if z.number = n then f z else z) fun z => by
    split
    · exact h z
    · exact ⟨rfl, rfl⟩

theorem graceTimeout_move (n : Nat) (s : State) : Move s (graceTimeout n s) :=
  modifyZone_move n _ fun z => by
    unfold Zone.graceExpired
    split <;> exact ⟨rfl, rfl⟩

theorem entryKey_tick (q : List QueueEntry) : (q.map QueueEntry.tick).map entryKey = q.map entryKey := by
  rw [List.map_map]
  rfl

theorem secondsTick_move (s : State) : Move s (secondsTick s) := by
  have hzones : Move s { s with zones := s.zones.map Zone.tick } := .zones _ fun z => ⟨rfl, rfl⟩
  have hqueue : Move { s with zones := s.zones.map Zone.tick }
      { s with zones := s.zones.map Zone.tick, queue := s.queue.map QueueEntry.tick } := .queue _ (entryKey_tick s.queue)
  have hchannels := channels_move Channel.tick (s := { s with zones := s.zones.map Zone.tick, queue := s.queue.map QueueEntry.tick })
    fun c => ⟨.refl c, rfl, by simp [Channel.tick], rfl, rfl, rfl⟩
  exact ((hzones.trans hqueue).trans hchannels).trans (.beside rfl)

/-! ## Latches, the slot, the heads -/

theorem lapseWrite_move (s : State) : Move s (lapseWrite s) := by
  unfold lapseWrite
  split
  · split
    · exact (raise_move _ _).after rfl
    · exact .refl s
  · exact .refl s

theorem lapseResult_move (s : State) : Move s (lapseResult s) := by
  unfold lapseResult
  split
  · split
    · exact (raise_move _ _).after rfl
    · exact .refl s
  · exact .refl s

theorem setLatch_move (line : Nat) (s : State) : Move s (setLatch line s) := by
  obtain ⟨l, hl⟩ : ∃ l, l = s.latches ++ [⟨line, s.uptime, s.causeFor line⟩] := ⟨_, rfl⟩
  obtain ⟨n, hn⟩ : ∃ n : NoticeBody, n = .fireLatch line (s.causeFor line) l.length := ⟨_, rfl⟩
  unfold setLatch
  dsimp only
  rw [← hl, ← hn]
  refine Move.trans ?_ (lapseWrite_move _)
  have hring : Move s { s with ring := s.ring.append ⟨n, s.uptime⟩ } := .beside rfl
  split
  next h => exact hring.trans (.failsafe (s := { s with ring := _ }) _ l h)
  next h => exact (hring.trans (.latches (s := { s with ring := _ }) l (.inl (Bool.eq_false_iff.mpr h)))).trans (applyPlan_move line _)

theorem levelLatch_move (s : State) : Move s (levelLatch s) := by
  unfold levelLatch
  split
  · exact .refl s
  next line rest _ =>
    have hdue : Move s { s with levelLatchDue := rest } := .beside rfl
    dsimp only
    split
    · exact hdue.trans (setLatch_move _ _)
    · exact hdue

theorem acceptLine_move (line : Nat) (s : State) : Move s (acceptLine line s) := by
  unfold acceptLine
  split
  · exact .refl s
  next level initial _ =>
    have hlines : Move s { s with lines := modify FireLine.line line (FireLine.accept level) s.lines } := .beside rfl
    dsimp only
    split
    · exact hlines.trans (setLatch_move _ _)
    · exact hlines

theorem restartMake_move (s : State) : Move s (restartMake s) := by
  have hdue : Move s { s with provisionalDue := false } := .beside rfl
  unfold restartMake
  dsimp only
  split
  next h => exact hdue.trans (.failsafe (s := { s with provisionalDue := false }) _ s.latches h.2.1)
  · exact hdue

/-- Some latches are cleared under the failsafe: the list is empty before as after, or becomes empty. -/
theorem fireReset_move (lines : OctetSet) (s : State) : Move s (fireReset lines s).state := by
  obtain ⟨left, hleft⟩ : ∃ left, left = s.latches.filter fun l => !s.clears lines l := ⟨_, rfl⟩
  obtain ⟨ns, hns⟩ : ∃ ns : List NoticeBody,
    ns = (s.latches.filter (s.clears lines)).map fun l => .fireClear l.line left.length l.setAt := ⟨_, rfl⟩
  have hring : Move s { s with ring := s.ring.raised s.uptime ns } := .beside rfl
  have hstate : (fireReset lines s).state =
      if (s.latches.filter (s.clears lines)).isEmpty then raiseAll ns { s with latches := left }
      else if s.failsafe then
        (if left.isEmpty then resolveChannels false (fun _ => true) (raiseAll ns { s with latches := left })
          else raiseAll ns { s with latches := left })
      else releaseZones ((s.latches.filter (s.clears lines)).map Latch.line) (raiseAll ns { s with latches := left }) := by
    rw [hns, hleft]
    rfl
  have hlatches (h : s.failsafe = false ∨ left.isEmpty = s.latches.isEmpty) : Move s (raiseAll ns { s with latches := left }) := by
    rw [raiseAll_eq]
    exact hring.trans (.latches (s := { s with ring := _ }) left h)
  rw [hstate]
  split_ifs with hnone hfailsafe hempty
  · refine hlatches (.inr ?_)
    have hall : left = s.latches := by
      rw [hleft, List.filter_eq_self]
      intro l hl
      have hkept := List.filter_eq_nil_iff.mp (List.isEmpty_iff.mp hnone) l hl
      simpa using hkept
    rw [hall]
  · rw [raiseAll_eq]
    exact hring.trans (.failsafe (s := { s with ring := _ }) [] left hfailsafe)
  · refine hlatches (.inr ?_)
    have hsome : s.latches ≠ [] := fun h => hempty (by rw [hleft, h]; rfl)
    rw [Bool.eq_false_iff.mpr hempty, List.isEmpty_eq_false_iff.mpr hsome]
  · exact (hlatches (.inl (Bool.eq_false_iff.mpr hfailsafe))).trans (releaseZones_move _ _)

theorem memberDone_move (k : ServiceKey) (ms : List Member) (result : List ResultEntry) (s : State) :
    Move s (memberDone k ms result s) := by
  unfold memberDone
  split
  · exact (raise_move _ _).after rfl
  · exact .beside rfl

theorem deliverService_move (reply : Option ServiceReply) (s : State) : Move s (deliverService reply s) := by
  unfold deliverService
  split
  · dsimp only
    split
    · exact memberDone_move _ _ _ s
    · exact memberDone_move _ _ _ s
    · split
      · exact .beside rfl
      · exact memberDone_move _ _ _ s
  · exact .refl s

/-- A poll's head stays in its table: no heads come from none. -/
theorem deliverHead_move (address : Nat) (f : Head → Head × List NoticeBody) (s : State) : Move s (deliverHead address f s) := by
  unfold deliverHead
  split
  · exact .refl s
  next h _ =>
    refine Move.trans (t := { s with heads := modify Head.number h.number (fun _ => (f h).1) s.heads }) ?_ (raiseAll_move _ _)
    exact .heads _ fun hnone => by
      rw [hnone]
      rfl

/-! ## The cycle -/

theorem setPhase_move (p : Phase) (s : State) : Move s (setPhase p s) := .beside rfl

theorem noteIf_move (valid : Bool) (s : State) : Move s (noteIf valid s) := by
  rw [noteIf_eq]
  exact .beside rfl

theorem completeCycle_move (s : State) : Move s (completeCycle s) := by
  have hchecked : Move s (loopCheck s) := by
    rw [loopCheck_eq]
    exact .beside rfl
  have hevaluated : Move s (if s.evaluates then evaluate (loopCheck s) else loopCheck s) := by
    split
    · exact hchecked.trans (evaluate_move _)
    · exact hchecked
  have hcounted := channels_move Channel.countCycle (s := if s.evaluates then evaluate (loopCheck s) else loopCheck s)
    fun c => ⟨.refl c, rfl, rfl, rfl, rfl, rfl⟩
  exact (hevaluated.trans hcounted).trans (.beside rfl)

theorem startService_move (s : State) : Move s (startService s) := by
  unfold startService
  split
  · exact .beside rfl
  · exact completeCycle_move s

theorem nextCommand_move (l : List Nat) (s : State) : Move s (nextCommand l s) := by
  induction l with
  | nil => exact startService_move s
  | cons n rest ih =>
    unfold nextCommand
    split
    · exact setPhase_move _ s
    · exact ih

theorem nextPoll_move (l : List Poll) (s : State) : Move s (nextPoll l s) := by
  cases l with
  | nil => exact nextCommand_move _ s
  | cons p rest => exact setPhase_move _ s

theorem beginCycle_move (s : State) : Move s (beginCycle s) :=
  (nextPoll_move _ _).after rfl

theorem cycleBoundary_move (s : State) : Move s (cycleBoundary s) := by
  unfold cycleBoundary
  split
  · exact beginCycle_move s
  · exact .refl s

/-! ## Slot ends -/

theorem discover_move (address : Nat) (kind : DeviceKind) {s : State} (h : s.failsafe = true) : Move s (discover address kind s) := by
  have hrecorded : Move s (recordDevice ⟨address, kind, s.loop.sweep⟩ s) := .beside rfl
  unfold discover
  dsimp only
  split
  · exact hrecorded.trans (driveJoins_move _ h)
  · exact hrecorded.trans (driveJoins_move _ h)
  · exact hrecorded.trans (driveLeaves_move _ _)
  · exact hrecorded

theorem miss_move (address : Nat) (s : State) : Move s (miss address s) := by
  unfold miss
  split
  · exact .refl s
  · split
    · dsimp only
      split
      · exact (driveLeaves_move _ _).after rfl
      · exact .beside rfl
    · exact .refl s

theorem discovery_move (address : Nat) (r : Received) (cls : PollClass) {s : State} (h : s.failsafe = true) :
    Move s (discovery address r cls s) := by
  unfold discovery
  split
  · exact discover_move _ _ h
  · exact discover_move _ _ h
  · exact miss_move _ s

theorem deliverQuery_move (address : Nat) (r : Received) (cls : PollClass) {s : State} (h : s.failsafe = true) :
    Move s (deliverQuery address r cls s) := by
  unfold deliverQuery
  dsimp only
  split
  · exact discovery_move _ _ _ h
  · exact (discovery_move _ _ _ h).trans (deliverChannel_move _ _ _ _)

theorem deliverPoll_move (p : Poll) (r : Received) (cls : PollClass) (s : State) : Move s (deliverPoll p r cls s) := by
  unfold deliverPoll
  split
  · exact deliverHead_move _ _ s
  · split
    · exact .refl s
    · exact deliverChannel_move _ _ _ s
  · split
    next h => exact deliverQuery_move _ _ _ h
    · exact .refl s

theorem pollEnd_move (reply : List Byte) (s : State) : Move s (pollEnd reply s) := by
  unfold pollEnd
  split
  · exact .beside rfl
  · exact ((noteIf_move _ s).trans (deliverPoll_move _ _ _ _)).trans (nextPoll_move _ _)
  · exact .refl s

theorem driveAnswers_move (x : CommandExchange) (ok : Bool) (s : State) : Move s (driveAnswers x ok s) := by
  unfold driveAnswers
  split
  · exact .beside rfl
  · exact .refl s

theorem commandEnd_move (reply : List Byte) (s : State) : Move s (commandEnd reply s) := by
  unfold commandEnd
  split
  · exact (driveAnswers_move _ _ s).trans (.beside rfl)
  · exact (((noteIf_move _ s).trans (driveAnswers_move _ _ _)).trans (deliverCommand_move _ _ _)).trans (nextCommand_move _ _)
  · exact .refl s

theorem serviceEnd_move (reply : List Byte) (s : State) : Move s (serviceEnd reply s) := by
  unfold serviceEnd
  split
  · exact .beside rfl
  · exact ((noteIf_move _ s).trans (deliverService_move _ _)).trans (completeCycle_move _)
  · exact .refl s

end Sys2Proof.ZoneEvaluation
end

