-- ==== Sys2Proof/Proofs/ZoneSteps.lean ====
section
/-! PROOFS. Every request, every command and every step as a chain of moves of the tables. -/

namespace Sys2Proof.ZoneEvaluation

open Sys2Proof.Machine Sys2Proof.Claims Sys2Proof.BayLoop

/-! ## Loading a configuration -/

theorem loadRecord_move {checks : List (Nat × Bool)} {store : Staging → Answer} {s : State}
    (h : ∀ st, s.mode = .loading → s.staging = some st → Move s (store st).state) : Move s (loadRecord checks store s).state := by
  unfold loadRecord
  split
  · exact .refl s
  · split
    next st hmode hstaging => exact h st hmode hstaging
    · exact .refl s

theorem loadLoop_move (r : LoadLoop) (s : State) : Move s (loadLoop r s).state :=
  loadRecord_move fun st hm hs => .staged st _ hm hs id id

theorem loadFeeder_move (r : LoadFeeder) (s : State) : Move s (loadFeeder r s).state :=
  loadRecord_move fun st hm hs => .staged st _ hm hs id id

theorem loadHead_move (r : LoadHead) (s : State) : Move s (loadHead r s).state :=
  loadRecord_move fun st hm hs => .staged st { st with heads := _ } hm hs id id

theorem loadFan_move (r : LoadFan) (s : State) : Move s (loadFan r s).state :=
  loadRecord_move fun st hm hs => .staged st { st with fans := _ } hm hs sorted_upsert id

theorem loadZone_move (r : LoadZone) (s : State) : Move s (loadZone r s).state :=
  loadRecord_move fun st hm hs => .staged st { st with zones := _ } hm hs id sorted_upsert

theorem loadSlot_move (r : LoadSlot) (s : State) : Move s (loadSlot r s).state :=
  loadRecord_move fun st hm hs => by
    dsimp only
    split
    · exact .staged st { st with slots := _ } hm hs id id
    · exact .refl s

theorem loadLine_move (r : LoadLine) (s : State) : Move s (loadLine r s).state :=
  loadRecord_move fun st hm hs => .staged st { st with lines := _ } hm hs id id

theorem loadBegin_move (s : State) : Move s (loadBegin s).state := by
  unfold loadBegin
  split
  next h => exact (Move.loadBegun h).trans (raiseMode_move _ _)
  · exact .refl s

theorem loadAbandon_move (s : State) : Move s (loadAbandon s).state := by
  unfold loadAbandon
  split
  next h => exact (Move.loadAbandoned h).trans (raiseMode_move _ _)
  · exact .refl s

theorem loadCommit_move (s : State) : Move s (loadCommit s).state := by
  unfold loadCommit
  split
  next st hmode hstaging =>
    split
    · exact .refl s
    · split
      · exact .beside rfl
      · exact .committed st hmode hstaging
  · exact .refl s

/-! ## Modes -/

theorem manualEnter_move (s : State) : Move s (manualEnter s).state := by
  unfold manualEnter
  split
  next h => exact (Move.manual .manual (fun c => some c.target) (by rw [h]; rfl) rfl).trans (raiseMode_move _ _)
  · exact .refl s

theorem manualLeave_move (s : State) : Move s (manualLeave s).state := by
  unfold manualLeave
  split
  next h => exact (Move.manual .run (fun _ => none) (by rw [h]; rfl) rfl).trans (raiseMode_move _ _)
  · exact .refl s

theorem afterRestart_move (previous : Mode) (s : State) : Move s (afterRestart previous s) :=
  (beginCycle_move s).trans (raiseMode_move previous _)

theorem restartKeep_move (s : State) : Move s (restartKeep s).state := by
  refine Move.trans (t := if s.mode.scheduled then restartScheduled s else restartUnconfigured s) ?_ (afterRestart_move _ _)
  split
  next h => exact .restarted h
  next h => exact .unconfigured (Bool.eq_false_iff.mpr h)

theorem restartClear_move (s : State) : Move s (restartClear s).state :=
  ((Move.cleared s).trans (afterRestart_move _ _)).trans (.beside rfl)

/-! ## Requests that read, fetch and tune -/

theorem readRecord_move (most : Nat) (inMode : Bool) (n : Nat) (record : Option ReplyBody) (s : State) :
    Move s (readRecord most inMode n record s).state := by
  unfold readRecord
  split_ifs
  · exact .refl s
  · exact .refl s
  · cases record <;> exact .refl s

theorem fetch_move (count : Nat) (s : State) : Move s (fetch count s).state := by
  unfold fetch
  split
  · exact .refl s
  · exact .beside rfl

theorem snapTake_move (s : State) : Move s (snapTake s).state := by
  unfold snapTake
  split
  · exact .refl s
  · split
    · exact .refl s
    · exact .beside rfl

theorem snapRead_move (page : Nat) (s : State) : Move s (snapRead page s).state := by
  unfold snapRead
  split
  · exact .refl s
  · exact .refl s
  · exact .beside rfl

theorem boost_move (zones : ZoneSet) (speed duration : Nat) (s : State) : Move s (boost zones speed duration s).state := by
  unfold boost
  split
  · exact .refl s
  · split
    · exact .refl s
    · split
      · exact .refl s
      · exact boostZones_move _ _ s

theorem tuneZone_move (n : Nat) {f : Zone → Zone} (h : ∀ z, SameClaim z (f z)) (s : State) : Move s (tuneZone n f s).state := by
  unfold tuneZone
  split_ifs
  · exact .refl s
  · exact .refl s
  · exact modifyZone_move n f h

theorem setLimits_move (zone gas low1 high1 low2 high2 : Nat) (s : State) :
    Move s (setLimits zone gas low1 high1 low2 high2 s).state := by
  unfold setLimits
  split
  · exact .refl s
  · refine tuneZone_move zone (fun z => ?_) s
    unfold Zone.setLimits
    split <;> exact ⟨rfl, rfl⟩

theorem setHold_move (zone preload : Nat) (s : State) : Move s (setHold zone preload s).state := by
  unfold setHold
  split
  · exact .refl s
  · refine tuneZone_move zone (fun z => ?_) s
    exact ⟨rfl, rfl⟩

theorem setFan_move (n setpoint : Nat) (s : State) : Move s (setFan n setpoint s).state := by
  unfold setFan
  split
  · exact .refl s
  · split_ifs
    · exact .refl s
    · exact .refl s
    · exact .setpoint n setpoint s

theorem clearFault_move (n : Nat) (s : State) : Move s (clearFault n s).state := by
  unfold clearFault
  split
  · exact .refl s
  · split
    · exact .refl s
    · split
      · exact .refl s
      · split
        · exact .refl s
        · exact fanAt_move n fun c _ => clearedFault_sound (s.demand c) c

theorem feederRequest_move (code : Nat) (s : State) : Move s (feederRequest code s).state := by
  unfold feederRequest
  split
  · exact .refl s
  · exact setFeeder_move _ _ s

theorem slotAnswer_move (key : ServiceKey) (s : State) : Move s (slotAnswer key s).state := by
  unfold slotAnswer
  split
  · exact .beside rfl
  · split <;> exact .refl s
  · split
    · exact .beside rfl
    · exact .refl s

theorem serviceRequest_move (key : ServiceKey) (s : State) : Move s (serviceRequest key s).state := by
  unfold serviceRequest
  have hrefused {status : Status} {body : ReplyBody} : Move s (Answer.refuse s status body).state := .refl s
  split_ifs
  exacts [.refl s, .refl s, slotAnswer_move key s, hrefused, hrefused, hrefused, hrefused, slotAnswer_move key s]

/-! ## The owners of the requests -/

theorem take_move (kind tag : Nat) {owner : State → Answer} {s : State} (h : Move s (owner s).state) : Move s (take kind tag owner s) :=
  respond_move h

theorem handToOwner_move (i : Instr) (s : State) : Move s (handToOwner i s) := by
  cases i
  case identify => exact take_move _ _ (.refl s)
  case linkStatus => exact take_move _ _ (owner := linkStatus) (.beside rfl)
  case fetch tag count => exact take_move _ _ (fetch_move count s)
  case snapTake => exact take_move _ _ (snapTake_move s)
  case snapRead tag page => exact take_move _ _ (snapRead_move page s)
  case snapRelease => exact take_move _ _ (owner := snapRelease) (.beside rfl)
  case loadBegin => exact take_move _ _ (loadBegin_move s)
  case loadLoop tag r => exact take_move _ _ (loadLoop_move r s)
  case loadFeeder tag r => exact take_move _ _ (loadFeeder_move r s)
  case loadHead tag r => exact take_move _ _ (loadHead_move r s)
  case loadFan tag r => exact take_move _ _ (loadFan_move r s)
  case loadZone tag r => exact take_move _ _ (loadZone_move r s)
  case loadSlot tag r => exact take_move _ _ (loadSlot_move r s)
  case loadLine tag r => exact take_move _ _ (loadLine_move r s)
  case loadAbandon => exact take_move _ _ (loadAbandon_move s)
  case loadCommit => exact take_move _ _ (loadCommit_move s)
  case restartKeep => exact take_move _ _ (restartKeep_move s)
  case restartClear => exact take_move _ _ (restartClear_move s)
  case manualEnter => exact take_move _ _ (manualEnter_move s)
  case manualLeave => exact take_move _ _ (manualLeave_move s)
  case discovered => exact take_move _ _ (.refl s)
  case getHead => exact take_move _ _ (readRecord_move _ _ _ _ s)
  case getZone => exact take_move _ _ (readRecord_move _ _ _ _ s)
  case getFan => exact take_move _ _ (readRecord_move _ _ _ _ s)
  case getGroup => exact take_move _ _ (readRecord_move _ _ _ _ s)
  case getQueue => exact take_move _ _ (.refl s)
  case boost tag zones speed duration => exact take_move _ _ (boost_move zones speed duration s)
  case setLimits => exact take_move _ _ (setLimits_move _ _ _ _ _ _ s)
  case setHold tag zone preload => exact take_move _ _ (setHold_move zone preload s)
  case setFan tag n setpoint => exact take_move _ _ (setFan_move n setpoint s)
  case clearFault tag n => exact take_move _ _ (clearFault_move n s)
  case feeder tag code => exact take_move _ _ (feederRequest_move code s)
  case fireReset tag lines => exact take_move _ _ (fireReset_move lines s)
  case itemRead => exact take_move _ _ (serviceRequest_move _ s)
  case itemWrite => exact take_move _ _ (serviceRequest_move _ s)
  case groupRead => exact take_move _ _ (serviceRequest_move _ s)
  case groupWrite => exact take_move _ _ (serviceRequest_move _ s)
  case serviceCancel => exact take_move _ _ (owner := serviceCancel) (.beside rfl)
  all_goals exact .refl s

/-! ## The host link -/

theorem takeFrame_move (f : Frame) (s : State) : Move s (takeFrame f s) := by
  unfold takeFrame
  split
  · exact .beside rfl
  · split
    · exact take_move _ _ (.refl s)
    · split
      · exact take_move _ _ (.refl s)
      · split
        · exact take_move _ _ (.refl s)
        · exact handToOwner_move _ s

theorem holdFrame_move (f : Frame) (s : State) : Move s (holdFrame f s) := by
  unfold holdFrame
  split
  · exact takeFrame_move f s
  · exact .beside rfl
  · exact .beside rfl

theorem takeByte_move (length : Nat) (body : List Byte) (s : State) : Move s (takeByte length body s) := by
  unfold takeByte completeFrame
  split_ifs
  · exact .beside rfl
  · exact (holdFrame_move _ _).after rfl
  · exact .beside rfl

theorem receiveByte_move (byte : Byte) (framingError : Bool) (s : State) : Move s (receiveByte byte framingError s) := by
  unfold receiveByte
  split
  · split
    · exact .beside rfl
    · exact .refl s
  · split <;> exact .beside rfl
  · split
    · exact .beside rfl
    · exact takeByte_move _ _ s

theorem gapTimeout_move (s : State) : Move s (gapTimeout s) := by
  unfold gapTimeout
  split
  · exact .refl s
  · exact .beside rfl
  · exact .beside rfl

theorem endReply_move (s : State) : Move s (endReply s) := by
  unfold endReply
  split
  · exact .refl s
  · dsimp only
    have hsent : Move s { s with link := { s.link with reply := none, waiting := none } } := .beside rfl
    split
    · exact hsent
    · exact hsent.trans (takeFrame_move _ _)

/-! ## Resets -/

theorem endReset_move (cause : ResetCause) (straps : Straps) (s : State) : Move s (endReset cause straps s) :=
  (Move.reset s).trans (Move.trans (t := { s.cleared with power := .running, resetCause := cause, link := .cleared (bitRateOf straps) })
    (.beside rfl) (beginCycle_move _))

theorem powerOn_move (straps : Straps) (s : State) : Move s (powerOn straps s) := by
  unfold powerOn
  split
  · exact endReset_move _ _ s
  · exact (Move.reset s).trans (.beside rfl)

theorem pinReset_move (s : State) : Move s (pinReset s) := by
  unfold pinReset
  split
  · exact (Move.reset s).trans (.beside rfl)
  · exact .beside rfl
  · exact .beside rfl

theorem pinResetEnd_move (straps : Straps) (s : State) : Move s (pinResetEnd straps s) := by
  unfold pinResetEnd
  split
  · exact .beside rfl
  · exact (endReset_move _ _ _).after rfl
  · exact .beside rfl

/-! ## Commands and steps -/

theorem powered_move {f : State → State} {s t : State} (hf : Move s (f s)) (h : powered s f = .next t) : Move s t := by
  rcases powered_next h with rfl | rfl
  · exact hf
  · exact .refl _

/-- A request given as a command is taken as its owner takes it from a frame. -/
theorem exec_request {i : Instr} {s t : State} (h : exec i s = .next t) (howner : exec i s = powered s (handToOwner i)) : Move s t :=
  powered_move (handToOwner_move i s) (howner.symm.trans h)

theorem next_move {s t u : State} (h : (.next u : Host.Outcome State Fault Refusal) = .next t) (hu : Move s u) : Move s t := by
  cases h
  exact hu

theorem exec_move (i : Instr) {s t : State} (h : exec i s = .next t) : Move s t := by
  cases i
  case powerOn straps => exact next_move h (powerOn_move straps s)
  case pinReset => exact next_move h (pinReset_move s)
  case pinResetEnd straps => exact next_move h (pinResetEnd_move straps s)
  case supplyLoss => exact next_move h ((Move.reset s).trans (.beside rfl))
  case hostByteReceived byte framingError => exact powered_move (receiveByte_move byte framingError s) h
  case interByteGapTimeout => exact powered_move (gapTimeout_move s) h
  case replySent => exact powered_move (endReply_move s) h
  case cycleBegin => exact powered_move (cycleBoundary_move s) h
  case pollSlotEnd reply => exact powered_move (pollEnd_move reply s) h
  case commandSlotEnd reply => exact powered_move (commandEnd_move reply s) h
  case serviceSlotEnd reply => exact powered_move (serviceEnd_move reply s) h
  case secondsTick => exact powered_move (secondsTick_move s) h
  case settleExpiry n => exact powered_move (.settle n s) h
  case damperTimerExpiry n => exact powered_move (damperTimeout_move n s) h
  case coastTimerExpiry n => exact powered_move (coastTimeout_move n s) h
  case holdExpiry n => exact powered_move (changeZone_move n s holdExpired_record) h
  case boostExpiry n => exact powered_move (boostTimeout_move n s) h
  case graceExpiry n => exact powered_move (graceTimeout_move n s) h
  case collectionExpiry => exact powered_move (lapseResult_move s) h
  case queueStall => exact powered_move (stall_move s) h
  case fireLineLevelChange line level => exact next_move h (.beside rfl)
  case fireLineAccepted line => exact powered_move (acceptLine_move line s) h
  case commitLevelLatch => exact powered_move (levelLatch_move s) h
  case restartProvisionalMake => exact powered_move (restartMake_move s) h
  case feedLevelChange level => exact next_move h (.beside rfl)
  case feedAccepted =>
    refine powered_move ?_ h
    unfold feedAccepted
    split
    · exact .refl s
    · exact setFeeder_move _ _ s
  all_goals exact exec_request h rfl

/-- Every step is a chain of moves of the tables. -/
theorem step_move {s t : State} (h : step s = .next t) : Move s t := by
  unfold step at h
  split at h
  · exact (powered_move (f := tenth) (.beside rfl) h).after rfl
  next i rest _ => exact (exec_move i h).after rfl

/-- A law that every move of the tables keeps is kept by every step. -/
theorem kept_of_moves {law : State → Prop} (h : ∀ s t, Move s t → law s → law t) : Kept law :=
  fun s t hs hstep => h s t (step_move hstep) hs

end Sys2Proof.ZoneEvaluation
end

