-- ==== Sys2Proof/Proofs/ZoneTables.lean ====
section
/-! PROOFS. The tables that exist are those of the mode, at every step (R44, R73, R103, R168). -/

namespace Sys2Proof.ZoneEvaluation

open Sys2Proof.Machine Sys2Proof.Claims Sys2Proof.BayLoop

/-! ## The law beside the channels, and the channels' part of it -/

/-- The tables of a mode, the channels aside. -/
def TablesOfMode (s : State) : Prop :=
  (s.active.isSome = s.mode.scheduled) ∧ (s.staging.isSome = decide (s.mode = .loading))
    ∧ (s.mode.scheduled = false → s.heads = [] ∧ s.zones = [] ∧ s.handed = [])

/-- The channels of a mode: provisional ones under the failsafe, configured ones in RUN and MANUAL. -/
def ChannelsOfMode (s : State) : Prop := ∀ c ∈ s.channels, c.provisional = !s.mode.scheduled

theorem tablesOk_iff (s : State) : s.tablesOk ↔ TablesOfMode s ∧ ChannelsOfMode s :=
  ⟨fun ⟨hactive, hstaging, hempty, hchannels⟩ => ⟨⟨hactive, hstaging, hempty⟩, hchannels⟩,
    fun ⟨⟨hactive, hstaging, hempty⟩, hchannels⟩ => ⟨hactive, hstaging, hempty, hchannels⟩⟩

/-- The channels' part is kept with the flags of the channels. -/
theorem channelsOfMode_of_map {s t : State} (hmode : t.mode.scheduled = s.mode.scheduled)
    (hmap : t.channels.map Channel.provisional = s.channels.map Channel.provisional) (h : ChannelsOfMode s) : ChannelsOfMode t := by
  intro c hc
  have hflag : c.provisional ∈ s.channels.map Channel.provisional := hmap ▸ List.mem_map_of_mem hc
  obtain ⟨d, hd, heq⟩ := List.mem_map.mp hflag
  rw [hmode, ← heq]
  exact h d hd

/-- An event of the channels beside the other tables. -/
theorem tablesOfMode_fan {s t : State} (h : FanStep s t) : TablesOfMode s → TablesOfMode t := by
  obtain ⟨c, q, held, ns, rfl⟩ := h
  exact id

theorem fanEvent_provisional {f : Channel → Eff} {s : State} (h : ∀ c ∈ s.channels, (f c).ch.provisional = c.provisional) :
    (fanEvent f s).channels.map Channel.provisional = s.channels.map Channel.provisional := by
  rw [fanEvent_eq, applyChanges_map Channel.provisional fun _ => rfl, List.map_map]
  exact List.map_congr_left h

theorem resolveChannels_provisional (silent : Bool) (choose : Channel → Bool) (s : State) :
    (resolveChannels silent choose s).channels.map Channel.provisional = s.channels.map Channel.provisional :=
  resolveChannels_map Channel.provisional (fun _ _ h => h.2.1) silent choose s

/-! ## The moves -/

theorem settleExpired_provisional (n : Nat) (s : State) :
    (settleExpired n s).channels.map Channel.provisional = s.channels.map Channel.provisional := by
  unfold settleExpired
  split
  · rfl
  · split
    · refine (fanEvent_provisional fun c _ => ?_).trans ((lookFrom_map Channel.provisional (fun _ => rfl) _ _).trans
        (map_modify (f := endHolding) (fun _ => rfl) _))
      split
      · exact (afterSettle_holder c).2.1
      · rfl
    · rfl

/-- The provisional channels made for drives (R144). -/
theorem addProvisional_provisional {channels : List Channel} {address : Nat} {c : Channel} (h : c ∈ addProvisional channels address) :
    c ∈ channels ∨ c.provisional = true := by
  unfold addProvisional at h
  split at h
  · exact .inl h
  · split at h
    · exact .inl h
    · exact (mem_upsert h).elim (fun heq => .inr (by rw [heq]; rfl)) .inl

theorem foldl_addProvisional {addresses : List Nat} {channels : List Channel} {c : Channel}
    (h : c ∈ addresses.foldl addProvisional channels) : c ∈ channels ∨ c.provisional = true := by
  induction addresses generalizing channels with
  | nil => exact .inl h
  | cons a addresses ih =>
    rcases ih h with h | h
    · exact addProvisional_provisional h
    · exact .inr h

/-- An event of the channels that keeps the flags keeps the law. -/
theorem tablesOk_of_fan {s t : State} (hfan : FanStep s t)
    (hmap : t.channels.map Channel.provisional = s.channels.map Channel.provisional) (h : s.tablesOk) : t.tablesOk := by
  rw [tablesOk_iff] at h ⊢
  have hmode : t.mode = s.mode := hfan.work.keeps.2.2.1
  exact ⟨tablesOfMode_fan hfan h.1, channelsOfMode_of_map (by rw [hmode]) hmap h.2⟩

theorem resolveChannels_tables {silent : Bool} {choose : Channel → Bool} {s : State} (h : s.tablesOk) :
    (resolveChannels silent choose s).tablesOk :=
  tablesOk_of_fan (resolveChannels_fan silent choose s) (resolveChannels_provisional silent choose s) h

theorem commitZones_tables (f : Zone → Zone) {s : State} (h : s.tablesOk) : (commitZones (s.zones.map f) s).tablesOk := by
  obtain ⟨hactive, hstaging, hempty, hchannels⟩ := h
  unfold commitZones
  rw [raiseAll_eq]
  refine resolveChannels_tables ⟨hactive, hstaging, fun hun => ?_, hchannels⟩
  obtain ⟨hheads, hzones, hhanded⟩ := hempty hun
  simp only [hzones, List.map_nil, List.filter_nil, List.foldl_nil]
  exact ⟨hheads, trivial, hhanded⟩

/-- Every move keeps the tables those of the mode. -/
theorem move_tables {s t : State} (h : Move s t) : s.tablesOk → t.tablesOk := by
  induction h with
  | @beside s t h =>
    obtain ⟨⟨hmode, hactive, hstaging, hheads, hzones, hhanded⟩, hchannels, -⟩ := tablesOf_inj h
    unfold State.tablesOk
    rw [hmode, hactive, hstaging, hheads, hzones, hhanded, hchannels]
    exact id
  | heads l h =>
    rintro ⟨hactive, hstaging, hempty, hchannels⟩
    exact ⟨hactive, hstaging, fun hun => ⟨h (hempty hun).1, (hempty hun).2⟩, hchannels⟩
  | trans _ _ ih ih' => exact ih' ∘ ih
  | fans f h => exact tablesOk_of_fan (fanEvent_fan f _) (fanEvent_provisional fun c hc => (h c hc).1.1.2.1)
  | look s => exact tablesOk_of_fan (look_fan s) (lookFrom_map Channel.provisional (fun _ => rfl) _ s)
  | settle n s => exact tablesOk_of_fan (settleExpired_fan n s) (settleExpired_provisional n s)
  | queue q h => exact id
  | zones f h =>
    rintro ⟨hactive, hstaging, hempty, hchannels⟩
    refine ⟨hactive, hstaging, fun hun => ?_, hchannels⟩
    obtain ⟨hheads, hzones, hhanded⟩ := hempty hun
    exact ⟨hheads, by rw [hzones, List.map_nil], hhanded⟩
  | claims f h => exact commitZones_tables f
  | latches l h => exact id
  | @failsafe addresses l s h =>
    rintro ⟨hactive, hstaging, hempty, hchannels⟩
    refine resolveChannels_tables ⟨hactive, hstaging, hempty, fun c hc => ?_⟩
    exact (foldl_addProvisional hc).elim (hchannels c) fun hmade => hmade.trans h.symm
  | setpoint n v s =>
    rintro ⟨hactive, hstaging, hempty, hchannels⟩
    refine resolveChannels_tables ⟨hactive, hstaging, hempty, fun c hc => ?_⟩
    obtain ⟨d, hd, rfl⟩ := mem_modify.mp hc
    split
    · exact hchannels d hd
    · exact hchannels d hd
  | @manual mode setpoint s h hm =>
    rintro ⟨hactive, hstaging, -, hchannels⟩
    have hnot {m : Mode} (hs : m.scheduled = true) : decide (m = .loading) = false :=
      decide_eq_false fun hloading => by
        rw [hloading] at hs
        cases hs
    refine resolveChannels_tables ⟨by rw [hactive, h, hm], by rw [hstaging, hnot h, hnot hm],
      fun hun => absurd (hm.symm.trans hun) (by decide), fun c hc => ?_⟩
    obtain ⟨d, hd, rfl⟩ := List.mem_map.mp hc
    dsimp only
    rw [hchannels d hd, h, hm]
  | staged st new hmode h hfans hzones =>
    rintro ⟨hactive, -, hempty, hchannels⟩
    exact ⟨hactive, by rw [withStaging_staging, withStaging_mode, hmode]; rfl, hempty, hchannels⟩
  | loadBegun h =>
    rintro ⟨hactive, -, hempty, hchannels⟩
    rw [h] at hactive hempty hchannels
    exact ⟨hactive, rfl, hempty, hchannels⟩
  | loadAbandoned h =>
    rintro ⟨hactive, -, hempty, hchannels⟩
    rw [h] at hactive hempty hchannels
    exact ⟨hactive, rfl, hempty, hchannels⟩
  | @committed st s hmode h =>
    intro _
    rw [commit_eq hmode]
    refine ⟨rfl, rfl, nofun, fun c hc => ?_⟩
    obtain ⟨r, -, rfl⟩ := mem_committed hc
    rfl
  | restarted h =>
    rintro ⟨hactive, -, -, hchannels⟩
    rw [restartScheduled_eq]
    refine ⟨hactive.trans h, rfl, nofun, fun c hc => ?_⟩
    obtain ⟨k, hk, rfl⟩ := List.mem_map.mp hc
    obtain ⟨d, hd, rfl⟩ := List.mem_map.mp hk
    exact (hchannels d hd).trans (by rw [h]; rfl)
  | unconfigured h =>
    rintro ⟨hactive, -, hempty, -⟩
    exact ⟨hactive.trans h, rfl, fun _ => hempty h, List.forall_mem_nil _⟩
  | cleared s => exact fun _ => ⟨rfl, rfl, fun _ => ⟨rfl, rfl, rfl⟩, List.forall_mem_nil _⟩
  | reset s => exact fun _ => ⟨rfl, rfl, fun _ => ⟨rfl, rfl, rfl⟩, List.forall_mem_nil _⟩

/-- Settles O55: every move of the tables keeps them those of the mode. -/
theorem tablesFollowTheMode : Obligations.TablesFollowTheMode := kept_of_moves fun _ _ => move_tables

end Sys2Proof.ZoneEvaluation
end

