-- ==== Sys2Proof/Proofs/ZoneBooks.lean ====
section
/-! PROOFS. The books of the start queue and of the inrush units: what each event of the channels does to them (R105, R106, R111 to R116). -/

namespace Sys2Proof.ZoneEvaluation

open Sys2Proof.Machine Sys2Proof.Claims Sys2Proof.BayLoop

/-! ## The books -/

/-- The queue entry that a channel should have (R105). -/
def waitOf (c : Channel) : List (Nat × Nat) := if c.state = .queued then [(c.number, c.record.cost)] else []

/-- The units that a channel holds (R106). -/
def unitsOf (c : Channel) : Nat := if c.holding then c.record.cost else 0

/-- The books of the units and the start queue: the part of `unitsOk` that is about the channels together, where no QUEUED channel
holds units. -/
def Books (s : State) : Prop :=
  s.held = (s.channels.map unitsOf).sum ∧ sorted Channel.number s.channels
    ∧ (s.queue.map entryKey).Perm (s.channels.flatMap waitOf)
    ∧ ∀ c ∈ s.channels, c.state = .queued → c.holding = false

theorem holdersCost_eq (l : List Channel) : holdersCost l = (l.map unitsOf).sum := by
  induction l with
  | nil => rfl
  | cons c l ih =>
    unfold holdersCost at ih ⊢
    cases h : c.holding <;> simp [h, unitsOf, ih]

theorem mem_waits {l : List Channel} {k : Nat × Nat} :
    k ∈ l.flatMap waitOf ↔ ∃ c ∈ l, c.state = .queued ∧ c.number = k.1 ∧ c.record.cost = k.2 := by
  have hone (c : Channel) : k ∈ waitOf c ↔ c.state = .queued ∧ c.number = k.1 ∧ c.record.cost = k.2 := by
    unfold waitOf
    split
    next h => simp [h, Prod.ext_iff, eq_comm]
    next h => simp [h]
  simp only [List.mem_flatMap, hone]

/-- The channels that wait stand under their numbers once. -/
theorem waits_nodup {l : List Channel} (h : sorted Channel.number l) : ((l.flatMap waitOf).map Prod.fst).Nodup := by
  have hsub : ((l.flatMap waitOf).map Prod.fst).Sublist (l.map Channel.number) := by
    induction l with
    | nil => exact .slnil
    | cons c l ih =>
      have htail := ih (List.Pairwise.tail h)
      simp only [List.flatMap_cons, List.map_append, List.map_cons]
      unfold waitOf
      split
      · exact htail.cons_cons _
      · exact htail.cons _
  exact (sorted_nodup h).sublist hsub

theorem channels_of_keys (q : List QueueEntry) : q.map QueueEntry.channel = (q.map entryKey).map Prod.fst := by
  rw [List.map_map]
  rfl

/-- The books are right, with what each channel and the staged records keep by themselves. -/
theorem unitsOk_iff (s : State) : s.unitsOk ↔
    Books s ∧ (∀ c ∈ s.channels, c.holdingOk) ∧ ∀ st, s.staging = some st → sorted LoadFan.channel st.fans := by
  unfold State.unitsOk Books
  rw [holdersCost_eq]
  constructor
  · rintro ⟨hheld, hsorted, hnodup, hentries, hqueued, hok, hstaged⟩
    refine ⟨⟨hheld, hsorted, ?_, fun c hc hq => (hok c hc).2.1 (.inr hq)⟩, hok, hstaged⟩
    rw [channels_of_keys] at hnodup
    refine (List.perm_ext_iff_of_nodup hnodup.of_map (waits_nodup hsorted).of_map).mpr fun k => ?_
    rw [mem_waits]
    constructor
    · intro hk
      obtain ⟨e, he, rfl⟩ := List.mem_map.mp hk
      obtain ⟨c, hc, hnumber, hq, hcost⟩ := hentries e he
      exact ⟨c, hc, hq, hnumber, hcost⟩
    · rintro ⟨c, hc, hq, hnumber, hcost⟩
      obtain ⟨e, he, hchannel⟩ := List.mem_map.mp (hqueued c hc hq)
      obtain ⟨d, hd, hsame, -, hprice⟩ := hentries e he
      have hunique : d = c := sorted_unique hsorted hd hc (hsame.trans hchannel)
      exact List.mem_map.mpr ⟨e, he, Prod.ext (hchannel.trans hnumber) (by rw [← hcost, ← hunique, hprice]; rfl)⟩
  · rintro ⟨⟨hheld, hsorted, hperm, -⟩, hok, hstaged⟩
    refine ⟨hheld, hsorted, ?_, fun e he => ?_, fun c hc hq => ?_, hok, hstaged⟩
    · rw [channels_of_keys]
      exact (hperm.map Prod.fst).nodup_iff.mpr (waits_nodup hsorted)
    · obtain ⟨c, hc, hq, hnumber, hcost⟩ := mem_waits.mp (hperm.mem_iff.mp (List.mem_map_of_mem he))
      exact ⟨c, hc, hnumber, hq, hcost⟩
    · rw [channels_of_keys]
      have hk : (c.number, c.record.cost) ∈ s.queue.map entryKey := hperm.mem_iff.mpr (mem_waits.mpr ⟨c, hc, hq, rfl, rfl⟩)
      exact List.mem_map_of_mem (f := Prod.fst) hk

/-- The others of a table in which keys stand once. -/
theorem others_of_nodup {α : Type} {key : α → Nat} {before after : List α} {a : α} (h : ((before ++ a :: after).map key).Nodup) :
    ∀ b ∈ before ++ after, key b ≠ key a := by
  rw [(List.perm_middle.map key).nodup_iff, List.map_cons, List.nodup_cons] at h
  exact fun b hb heq => h.1 (List.mem_map.mpr ⟨b, hb, heq⟩)

/-! ## Looks (R115, R116) -/

/-- A channel after a look: as it was, or granted. -/
def Granted (c d : Channel) : Prop := d = c ∨ (c.state = .queued ∧ d = grantStart c)

theorem Granted.trans {c d e : Channel} (h : Granted c d) (h' : Granted d e) : Granted c e := by
  rcases h with rfl | ⟨hq, rfl⟩
  · exact h'
  · rcases h' with rfl | ⟨hagain, -⟩
    · exact .inr ⟨hq, rfl⟩
    · cases hagain

theorem Granted.holdingOk {c d : Channel} (h : Granted c d) (hok : c.holdingOk) : d.holdingOk := by
  rcases h with rfl | ⟨-, rfl⟩
  · exact hok
  · exact ⟨fun _ => rfl, nofun, fun _ => rfl⟩

theorem Granted.meets {c d : Channel} (h : Granted c d) {m : Demand} (hmeets : Meets m c) : Meets m d := by
  rcases h with rfl | ⟨hq, rfl⟩
  · exact hmeets
  · have hsame : SameDemand c (grantStart c) := ⟨rfl, rfl, rfl, nofun⟩
    exact hsame.meets (by rw [hq]; decide) hmeets

theorem fixHead_keys (q : List QueueEntry) : (fixHead q).map entryKey = q.map entryKey := fixHead_costs q

/-- The head is granted: its channel no longer waits and holds its cost. -/
theorem grant_books {e : QueueEntry} {rest : List QueueEntry} {s : State} (hq : s.queue = e :: rest) (h : Books s) :
    Books (grant e rest s) ∧ ∀ d ∈ (grant e rest s).channels, ∃ c ∈ s.channels, Granted c d := by
  obtain ⟨hheld, hsorted, hperm, hfree⟩ := h
  rw [hq, List.map_cons] at hperm
  obtain ⟨c, hc, hqueued, hnumber, hcost⟩ := mem_waits.mp (hperm.mem_iff.mp List.mem_cons_self)
  obtain ⟨before, after, hsplit⟩ := List.append_of_mem hc
  have hholding := hfree c hc hqueued
  have hothers : ∀ b ∈ before ++ after, b.number ≠ e.channel := by
    have hchannel : e.channel = c.number := hnumber.symm
    rw [hchannel]
    exact others_of_nodup (hsplit ▸ sorted_nodup hsorted)
  have hchannels : (grant e rest s).channels = before ++ grantStart c :: after := by
    unfold grant
    dsimp only
    rw [hsplit]
    exact modify_split hothers hnumber
  refine ⟨⟨?_, ?_, ?_, fun d hd => ?_⟩, fun d hd => ?_⟩
  · have hunits : unitsOf c = 0 := by simp [unitsOf, hholding]
    have hgranted : unitsOf (grantStart c) = e.cost := hcost
    have hsum : s.held + e.cost = ((before ++ grantStart c :: after).map unitsOf).sum := by
      simp only [hheld, hsplit, List.map_append, List.map_cons, List.sum_append, List.sum_cons, hunits, hgranted]
      omega
    rw [hchannels]
    exact hsum
  · exact sorted_modify (f := grantStart) (fun _ => rfl) hsorted
  · have hgone : waitOf (grantStart c) = [] := rfl
    have hkey : waitOf c = [entryKey e] := (if_pos hqueued).trans (by rw [hnumber, hcost, entryKey])
    rw [hchannels]
    simp only [hsplit, List.flatMap_append, List.flatMap_cons, hkey, List.singleton_append, hgone, List.nil_append] at hperm ⊢
    have hrest : (fixHead rest).map entryKey = rest.map entryKey := fixHead_keys rest
    exact hrest ▸ (hperm.trans List.perm_middle).cons_inv
  · rw [hchannels] at hd
    intro hwaits
    rcases List.mem_append.mp hd with hd | hd
    · exact hfree d (by rw [hsplit]; exact List.mem_append_left _ hd) hwaits
    · rcases List.mem_cons.mp hd with rfl | hd
      · cases hwaits
      · exact hfree d (by rw [hsplit]; exact List.mem_append_right _ (List.mem_cons_of_mem _ hd)) hwaits
  · obtain ⟨b, hb, rfl⟩ := mem_modify.mp hd
    refine ⟨b, hb, ?_⟩
    split
    next heq =>
      have hsame : b = c := sorted_unique hsorted hb hc (heq.trans hnumber.symm)
      exact .inr ⟨by rw [hsame]; exact hqueued, rfl⟩
    · exact .inl rfl

theorem lookFrom_books (fuel : Nat) {s : State} (h : Books s) :
    Books (lookFrom fuel s) ∧ ∀ d ∈ (lookFrom fuel s).channels, ∃ c ∈ s.channels, Granted c d := by
  induction fuel generalizing s with
  | zero => exact ⟨h, fun d hd => ⟨d, hd, .inl rfl⟩⟩
  | succ n ih =>
    unfold lookFrom
    split
    · exact ⟨h, fun d hd => ⟨d, hd, .inl rfl⟩⟩
    next e rest hq =>
      split
      · obtain ⟨hbooks, hgranted⟩ := grant_books hq h
        obtain ⟨hbooks', hgranted'⟩ := ih hbooks
        refine ⟨hbooks', fun d hd => ?_⟩
        obtain ⟨b, hb, hbd⟩ := hgranted' d hd
        obtain ⟨c, hc, hcb⟩ := hgranted b hb
        exact ⟨c, hc, hcb.trans hbd⟩
      · exact ⟨h, fun d hd => ⟨d, hd, .inl rfl⟩⟩

theorem look_books {s : State} (h : Books s) : Books (look s) ∧ ∀ d ∈ (look s).channels, ∃ c ∈ s.channels, Granted c d :=
  lookFrom_books _ h

/-! ## Changes of the queue (R111 to R114) -/

/-- The channel that a change takes out of the queue. -/
def leaverOf : QueueChange → List Nat
  | .leave n => [n]
  | _ => []

/-- The key of the entry that a change puts into the queue. -/
def joinerOf : QueueChange → List (Nat × Nat)
  | .join n _ cost => [(n, cost)]
  | _ => []

theorem placeEntry_keys (e : QueueEntry) (q : List QueueEntry) :
    ((fixHead (placeEntry e q)).map entryKey).Perm (entryKey e :: q.map entryKey) := by
  rw [fixHead_keys]
  exact (placeEntry_perm e q).map entryKey

theorem removeEntry_keys (n : Nat) (q : List QueueEntry) :
    (removeEntry n q).map entryKey = (q.map entryKey).filter fun k => k.1 != n := by
  rw [removeEntry, List.filter_map]
  rfl

theorem leaves_keys (cs : List QueueChange) (q : List QueueEntry) :
    ((cs.filter QueueChange.isLeave).foldl applyChange q).map entryKey =
      (q.map entryKey).filter fun k => !(cs.flatMap leaverOf).contains k.1 := by
  induction cs generalizing q with
  | nil => simp
  | cons x cs ih =>
    cases x with
    | leave n =>
      have happly : (applyChange q (.leave n)).map entryKey = (q.map entryKey).filter fun k => k.1 != n := by
        rw [applyChange, fixHead_keys, removeEntry_keys]
      have hfold : ((QueueChange.leave n :: cs).filter QueueChange.isLeave).foldl applyChange q =
        (cs.filter QueueChange.isLeave).foldl applyChange (applyChange q (.leave n)) := rfl
      rw [hfold, ih, happly, List.filter_filter]
      refine List.filter_congr fun k _ => ?_
      rw [Bool.eq_iff_iff]
      simp [leaverOf, and_comm]
    | join n cls cost => exact ih q
    | move n cls => exact ih q

/-- A move changes the order of the entries alone. -/
theorem move_keys (n : Nat) (cls : QueueClass) {q : List QueueEntry} (h : ((q.map entryKey).map Prod.fst).Nodup) :
    ((applyChange q (.move n cls)).map entryKey).Perm (q.map entryKey) := by
  simp only [applyChange]
  split
  · exact .refl _
  next e he =>
    obtain ⟨hmem, hchannel⟩ := lookup_mem he
    obtain ⟨before, after, rfl⟩ := List.append_of_mem hmem
    have hothers : ∀ b ∈ before ++ after, b.channel ≠ n := by
      rw [← channels_of_keys] at h
      rw [← hchannel]
      exact others_of_nodup h
    have hremoved : removeEntry n (before ++ e :: after) = before ++ after := by
      have hkept : (before ++ after).filter (fun b => b.channel != n) = before ++ after :=
        List.filter_eq_self.mpr fun b hb => by simpa using hothers b hb
      rw [removeEntry, List.filter_append, List.filter_cons, hchannel]
      simpa [List.filter_append] using hkept
    rw [hremoved]
    refine (placeEntry_keys _ _).trans ?_
    exact (List.perm_middle.symm.map entryKey : ((e :: (before ++ after)).map entryKey).Perm _)

theorem moves_keys (cs : List QueueChange) {q : List QueueEntry} (h : ((q.map entryKey).map Prod.fst).Nodup) :
    (((cs.filter QueueChange.isMove).foldl applyChange q).map entryKey).Perm (q.map entryKey) := by
  induction cs generalizing q with
  | nil => exact .refl _
  | cons x cs ih =>
    cases x with
    | leave n => exact ih h
    | join n cls cost => exact ih h
    | move n cls =>
      have hmoved := move_keys n cls h
      exact (ih ((hmoved.map Prod.fst).nodup_iff.mpr h)).trans hmoved

theorem joins_keys (cs : List QueueChange) (q : List QueueEntry) :
    (((cs.filter QueueChange.isJoin).foldl applyChange q).map entryKey).Perm (cs.flatMap joinerOf ++ q.map entryKey) := by
  induction cs generalizing q with
  | nil => exact .refl _
  | cons x cs ih =>
    cases x with
    | leave n => exact ih q
    | move n cls => exact ih q
    | join n cls cost =>
      have hjoined : ((applyChange q (.join n cls cost)).map entryKey).Perm ((n, cost) :: q.map entryKey) := placeEntry_keys _ _
      exact ((ih (applyChange q (.join n cls cost))).trans (hjoined.append_left _)).trans List.perm_middle

/-- What the changes of one event make of the queue. -/
theorem ordered_keys (cs : List QueueChange) {q : List QueueEntry} (h : ((q.map entryKey).map Prod.fst).Nodup) :
    (((ordered cs).foldl applyChange q).map entryKey).Perm
      (cs.flatMap joinerOf ++ (q.map entryKey).filter fun k => !(cs.flatMap leaverOf).contains k.1) := by
  unfold ordered
  rw [List.foldl_append, List.foldl_append]
  have hleft := leaves_keys cs q
  have hnodup : ((((cs.filter QueueChange.isLeave).foldl applyChange q).map entryKey).map Prod.fst).Nodup := by
    rw [hleft]
    exact h.sublist (List.filter_sublist.map Prod.fst)
  have hmoved := moves_keys cs hnodup
  rw [hleft] at hmoved
  exact (joins_keys cs _).trans (hmoved.append_left _)

/-! ## Events of the channels -/

/-- What a channel tells the queue makes its entry what it should be. -/
theorem Reported.waits {c : Channel} {e : Eff} (h : Reported c e) (hrecord : e.ch.record = c.record) :
    e.changes.flatMap joinerOf ++ (waitOf c).filter (fun k => !(e.changes.flatMap leaverOf).contains k.1) = waitOf e.ch := by
  have hnumber : e.ch.number = c.number := congrArg FanRecord.channel hrecord
  rcases h with ⟨hchanges, hsame⟩ | ⟨hq, hq', k, hchanges⟩ | ⟨hq, hq', k, hchanges⟩ | ⟨hq, hq', hchanges⟩ | ⟨hq, hq', k, hchanges⟩
  · by_cases hq : c.state = .queued
    · simp [hchanges, waitOf, hq, hsame.mpr hq, hnumber, hrecord]
    · simp [hchanges, waitOf, hq, hsame]
  all_goals simp [hchanges, waitOf, joinerOf, leaverOf, hq, hq', hnumber, hrecord]

theorem Reported.leavers {c : Channel} {e : Eff} (h : Reported c e) : ∀ n ∈ e.changes.flatMap leaverOf, n = c.number := by
  rcases h with ⟨hchanges, -⟩ | ⟨-, -, k, hchanges⟩ | ⟨-, -, k, hchanges⟩ | ⟨-, -, hchanges⟩ | ⟨-, -, k, hchanges⟩ <;>
    simp [hchanges, leaverOf]

/-- The channels that leave are those that say so themselves. -/
theorem contains_leavers {f : Channel → Eff} {l : List Channel} (hsorted : sorted Channel.number l)
    (h : ∀ c ∈ l, Reported c (f c)) {c : Channel} (hc : c ∈ l) :
    ((l.flatMap fun d => (f d).changes).flatMap leaverOf).contains c.number =
      ((f c).changes.flatMap leaverOf).contains c.number := by
  rw [Bool.eq_iff_iff, List.contains_iff_mem, List.contains_iff_mem, List.flatMap_assoc, List.mem_flatMap]
  constructor
  · rintro ⟨d, hd, hleaves⟩
    have hsame : c = d := sorted_unique hsorted hc hd ((h d hd).leavers _ hleaves)
    rwa [hsame] at hleaves ⊢
  · exact fun hleaves => ⟨c, hc, hleaves⟩

/-- The changes of an event make the queue that of the channels after it. -/
theorem event_keys {f : Channel → Eff} {l : List Channel} {q : List QueueEntry} (hsorted : sorted Channel.number l)
    (hperm : (q.map entryKey).Perm (l.flatMap waitOf)) (h : ∀ c ∈ l, SameHolder c (f c).ch ∧ Reported c (f c)) :
    (((ordered (l.flatMap fun c => (f c).changes)).foldl applyChange q).map entryKey).Perm
      ((l.map fun c => (f c).ch).flatMap waitOf) := by
  obtain ⟨cs, hcs⟩ : ∃ cs, cs = l.flatMap fun c => (f c).changes := ⟨_, rfl⟩
  have hstay : (l.flatMap waitOf).filter (fun k => !(cs.flatMap leaverOf).contains k.1) =
      l.flatMap fun c => (waitOf c).filter fun k => !((f c).changes.flatMap leaverOf).contains k.1 := by
    rw [List.filter_flatMap]
    refine List.flatMap_congr fun c hc => List.filter_congr fun k hk => ?_
    have hnumber : k.1 = c.number := by
      unfold waitOf at hk
      split at hk
      · exact congrArg Prod.fst (List.mem_singleton.mp hk)
      · cases hk
    rw [hnumber, hcs, contains_leavers hsorted (fun d hd => (h d hd).2) hc]
  have heach : (l.map fun c => (f c).ch).flatMap waitOf = l.flatMap fun c => (f c).changes.flatMap joinerOf ++
      (waitOf c).filter fun k => !((f c).changes.flatMap leaverOf).contains k.1 := by
    rw [List.flatMap_map]
    exact List.flatMap_congr fun c hc => ((h c hc).2.waits (h c hc).1.1).symm
  rw [← hcs, heach]
  refine (ordered_keys cs ((hperm.map Prod.fst).nodup_iff.mpr (waits_nodup hsorted))).trans ?_
  refine ((hperm.filter _).append_left _).trans ?_
  rw [hstay, hcs, List.flatMap_assoc]
  exact List.flatMap_append_perm l _ _

theorem applyChanges_books {cs : List QueueChange} {s : State}
    (h : Books { s with queue := (ordered cs).foldl applyChange s.queue }) :
    Books (applyChanges cs s) ∧ ∀ d ∈ (applyChanges cs s).channels, ∃ c ∈ s.channels, Granted c d := by
  unfold applyChanges
  split
  · exact look_books h
  · exact ⟨h, fun d hd => ⟨d, hd, .inl rfl⟩⟩

/-- An event of the channels keeps the books; a channel after it is as the event left it, or granted since. -/
theorem fanEvent_books {f : Channel → Eff} {s : State} (hbooks : Books s)
    (h : ∀ c ∈ s.channels, SameHolder c (f c).ch ∧ Reported c (f c) ∧ (f c).ch.holdingOk) :
    Books (fanEvent f s) ∧ ∀ d ∈ (fanEvent f s).channels, ∃ c ∈ s.channels, Granted (f c).ch d := by
  obtain ⟨hheld, hsorted, hperm, -⟩ := hbooks
  have hafter := applyChanges_books (cs := s.channels.flatMap fun c => (f c).changes) (s := { s with
      channels := s.channels.map fun c => (f c).ch
      ring := ringing (s.channels.flatMap fun c => (f c).notices) s }) ⟨?_, ?_, ?_, ?_⟩
  · rw [fanEvent_eq]
    refine ⟨hafter.1, fun d hd => ?_⟩
    obtain ⟨k, hk, hgranted⟩ := hafter.2 d hd
    obtain ⟨c, hc, rfl⟩ := List.mem_map.mp hk
    exact ⟨c, hc, hgranted⟩
  · have hunits : (s.channels.map fun c => (f c).ch).map unitsOf = s.channels.map unitsOf := by
      rw [List.map_map]
      refine List.map_congr_left fun c hc => ?_
      obtain ⟨⟨hrecord, -, -, hholding⟩, -⟩ := h c hc
      simp only [Function.comp, unitsOf, hrecord, hholding]
    exact hheld.trans (congrArg List.sum hunits.symm)
  · refine List.pairwise_map.mpr (hsorted.imp_of_mem fun {c d} hc hd hlt => ?_)
    unfold Channel.number at hlt ⊢
    rwa [(h c hc).1.1, (h d hd).1.1]
  · exact event_keys hsorted hperm fun c hc => ⟨(h c hc).1, (h c hc).2.1⟩
  · intro d hd hq
    obtain ⟨c, hc, rfl⟩ := List.mem_map.mp hd
    exact (h c hc).2.2.2.1 (.inr hq)

end Sys2Proof.ZoneEvaluation
end

