-- ==== Sys2Proof/Proofs/ZoneClaims.lean ====
section
/-! PROOFS. Every zone's claim reaches the channels it binds, at every step (R61, R77 to R80, R145, R171). -/

namespace Sys2Proof.ZoneEvaluation

open Sys2Proof.Machine Sys2Proof.Claims Sys2Proof.BayLoop

/-! ## The law in parts -/

/-- The claims handed over are those of the zones, which stand under their numbers once. -/
def Handed (s : State) : Prop := s.handed = s.zones.map Zone.handedClaim ∧ sorted Zone.number s.zones

/-- The staged channels and zones stand under their numbers once (R171). -/
def StagedOnce (s : State) : Prop := ∀ st, s.staging = some st → sorted LoadFan.channel st.fans ∧ sorted LoadZone.zone st.zones

/-- The books, the channels one by one, the claims and the staged records. -/
def Reached (s : State) : Prop :=
  Books s ∧ (∀ c ∈ s.channels, c.holdingOk ∧ Meets (s.demand c) c) ∧ Handed s ∧ StagedOnce s

theorem reached_iff (s : State) : s.unitsOk ∧ s.claimsOk ↔ Reached s := by
  rw [unitsOk_iff]
  constructor
  · rintro ⟨⟨hbooks, hok, hfans⟩, hhanded, hresolved, hsorted, hzones⟩
    exact ⟨hbooks, fun c hc => ⟨hok c hc, hresolved c hc⟩, ⟨hhanded, hsorted⟩, fun st hst => ⟨hfans st hst, hzones st hst⟩⟩
  · rintro ⟨hbooks, hchannels, ⟨hhanded, hsorted⟩, hstaged⟩
    exact ⟨⟨hbooks, fun c hc => (hchannels c hc).1, fun st hst => (hstaged st hst).1⟩, hhanded, fun c hc => (hchannels c hc).2,
      hsorted, fun st hst => (hstaged st hst).2⟩

/-! ## Demands -/

theorem demand_same {s : State} {c d : Channel} (hrecord : d.record = c.record) (hmanual : d.manual = c.manual) :
    s.demand d = s.demand c := by
  unfold State.demand wantOf Channel.number
  rw [hrecord, hmanual]

theorem demand_congr {s t : State} (hmode : t.mode = s.mode) (hlatches : s.failsafe = false ∨ t.latches.isEmpty = s.latches.isEmpty)
    {c : Channel} (hbound : t.boundClaims c.number = s.boundClaims c.number) : t.demand c = s.demand c := by
  have hfailsafe : t.failsafe = s.failsafe := by rw [State.failsafe, hmode, State.failsafe]
  unfold State.demand
  rw [hfailsafe]
  rcases hlatches with hf | hl
  · rw [hf, hbound, hmode]
    rfl
  · rw [hbound, hmode, State.anyLatch, hl]
    rfl

theorem demand_of_fan {s t : State} (h : FanStep s t) (c : Channel) : t.demand c = s.demand c := by
  obtain ⟨_, _, _, _, rfl⟩ := h
  rfl

/-- The claims of a channel's bound zones, once they are handed over. -/
theorem boundClaims_handed {s : State} (h : Handed s) (n : Nat) :
    s.boundClaims n = (s.zones.filter (Zone.binds n)).map Zone.handedClaim := by
  obtain ⟨hhanded, hsorted⟩ := h
  unfold State.boundClaims
  rw [hhanded, List.filter_map]
  congr 1
  refine List.filter_congr fun z hz => ?_
  rw [Bool.eq_iff_iff, Function.comp, List.any_eq_true]
  constructor
  · rintro ⟨y, hy, hbinds⟩
    rw [Bool.and_eq_true, beq_iff_eq] at hbinds
    rw [sorted_unique hsorted hz hy hbinds.1.symm]
    exact hbinds.2
  · exact fun hbinds => ⟨z, hz, by rw [hbinds, Bool.and_true, beq_iff_eq]; rfl⟩

/-! ## What the law reads -/

/-- The law reads no more than this of a state. -/
theorem Reached.congr {s t : State} (h : Reached s) (hmode : t.mode = s.mode) (hstaging : t.staging = s.staging)
    (hzones : t.zones = s.zones) (hhanded : t.handed = s.handed) (hchannels : t.channels = s.channels)
    (hqueue : t.queue.map entryKey = s.queue.map entryKey) (hheld : t.held = s.held)
    (hlatches : s.failsafe = false ∨ t.latches.isEmpty = s.latches.isEmpty) : Reached t := by
  obtain ⟨hbooks, hmeets, hclaims, hstaged⟩ := h
  refine ⟨?_, fun c hc => ?_, ?_, ?_⟩
  · unfold Books
    rwa [hheld, hchannels, hqueue]
  · rw [hchannels] at hc
    rw [demand_congr hmode hlatches (by unfold State.boundClaims; rw [hzones, hhanded])]
    exact hmeets c hc
  · unfold Handed
    rwa [hzones, hhanded]
  · unfold StagedOnce
    rwa [hstaging]

theorem raiseAll_reached {ns : List NoticeBody} {s : State} (h : Reached s) : Reached (raiseAll ns s) := by
  rw [raiseAll_eq]
  exact h.congr rfl rfl rfl rfl rfl rfl rfl (.inr rfl)

/-! ## Events of the channels -/

theorem handed_of_fan {s t : State} (h : FanStep s t) : Handed s → Handed t := by
  obtain ⟨_, _, _, _, rfl⟩ := h
  exact id

theorem stagedOnce_of_fan {s t : State} (h : FanStep s t) : StagedOnce s → StagedOnce t := by
  obtain ⟨_, _, _, _, rfl⟩ := h
  exact id

theorem Granted.demand {c d : Channel} (h : Granted c d) (s : State) : s.demand d = s.demand c := by
  rcases h with rfl | ⟨-, rfl⟩
  · rfl
  · exact demand_same rfl rfl

theorem fanEvent_reached {f : Channel → Eff} {s : State} (hbooks : Books s) (hhanded : Handed s) (hstaged : StagedOnce s)
    (h : ∀ c ∈ s.channels, (SameHolder c (f c).ch ∧ Reported c (f c) ∧ (f c).ch.holdingOk) ∧ Meets (s.demand c) (f c).ch) :
    Reached (fanEvent f s) := by
  obtain ⟨hbooks', hgranted⟩ := fanEvent_books hbooks fun c hc => (h c hc).1
  refine ⟨hbooks', fun d hd => ?_, handed_of_fan (fanEvent_fan f s) hhanded, stagedOnce_of_fan (fanEvent_fan f s) hstaged⟩
  obtain ⟨c, hc, hgrant⟩ := hgranted d hd
  obtain ⟨⟨⟨hrecord, -, hmanual, -⟩, -, hok⟩, hmeets⟩ := h c hc
  rw [demand_of_fan (fanEvent_fan f s), hgrant.demand, demand_same hrecord hmanual]
  exact ⟨hgrant.holdingOk hok, hgrant.meets hmeets⟩

theorem look_reached {s : State} (h : Reached s) : Reached (look s) := by
  obtain ⟨hbooks, hmeets, hhanded, hstaged⟩ := h
  obtain ⟨hbooks', hgranted⟩ := look_books hbooks
  refine ⟨hbooks', fun d hd => ?_, handed_of_fan (look_fan s) hhanded, stagedOnce_of_fan (look_fan s) hstaged⟩
  obtain ⟨c, hc, hgrant⟩ := hgranted d hd
  rw [demand_of_fan (look_fan s), hgrant.demand]
  exact ⟨hgrant.holdingOk (hmeets c hc).1, hgrant.meets (hmeets c hc).2⟩

/-- A resolution brings the channels chosen to what is asked of them; the others have it already. -/
theorem resolveChannels_reached {silent : Bool} {choose : Channel → Bool} {s : State} (hbooks : Books s) (hhanded : Handed s)
    (hstaged : StagedOnce s) (h : ∀ c ∈ s.channels, c.holdingOk ∧ (choose c = false → Meets (s.demand c) c)) :
    Reached (resolveChannels silent choose s) := by
  refine fanEvent_reached hbooks hhanded hstaged fun c hc => ?_
  obtain ⟨hok, hunchosen⟩ := h c hc
  split
  · obtain ⟨⟨hholder, hreported, hok'⟩, hmeets⟩ := resolve_booked silent (s.demand c) c
    exact ⟨⟨hholder, hreported, hok' hok⟩, hmeets⟩
  next hnot =>
    obtain ⟨⟨hholder, hreported, hok'⟩, hmeets⟩ := stay_sound (s.demand c) c
    exact ⟨⟨hholder, hreported, hok' hok⟩, hmeets (hunchosen (Bool.eq_false_iff.mpr hnot))⟩

/-! ## Settle expiries -/

/-- The units of a holding are returned (R89, R118). -/
def returned (n cost : Nat) (s : State) : State :=
  { s with held := s.held - cost, channels := modify Channel.number n endHolding s.channels }

theorem returned_books {c : Channel} {s : State} (hc : c ∈ s.channels) (hholding : c.holding = true) (h : Books s) :
    Books (returned c.number c.record.cost s) := by
  obtain ⟨hheld, hsorted, hperm, hfree⟩ := h
  refine ⟨?_, sorted_modify (f := endHolding) (fun _ => rfl) hsorted, ?_, fun d hd hq => ?_⟩
  · obtain ⟨before, after, hsplit⟩ := List.append_of_mem hc
    have hothers : ∀ b ∈ before ++ after, b.number ≠ c.number := others_of_nodup (hsplit ▸ sorted_nodup hsorted)
    have hchannels : (returned c.number c.record.cost s).channels = before ++ endHolding c :: after := by
      unfold returned
      dsimp only
      rw [hsplit]
      exact modify_split hothers rfl
    have hunits : unitsOf c = c.record.cost := if_pos hholding
    have hended : unitsOf (endHolding c) = 0 := rfl
    have hsum : s.held - c.record.cost = ((before ++ endHolding c :: after).map unitsOf).sum := by
      simp only [hheld, hsplit, List.map_append, List.map_cons, List.sum_append, List.sum_cons, hunits, hended]
      omega
    rw [hchannels]
    exact hsum
  · have hwaits : (modify Channel.number c.number endHolding s.channels).flatMap waitOf = s.channels.flatMap waitOf := by
      unfold Machine.modify
      rw [List.flatMap_map]
      refine List.flatMap_congr fun d _ => ?_
      split <;> rfl
    have hqueue : (s.queue.map entryKey).Perm ((modify Channel.number c.number endHolding s.channels).flatMap waitOf) :=
      hwaits.symm ▸ hperm
    exact hqueue
  · obtain ⟨b, hb, rfl⟩ := mem_modify.mp hd
    split
    · rfl
    next hne =>
      rw [if_neg hne] at hq
      exact hfree b hb hq

/-- The channel whose units are returned has nothing left of its holding; the others are as they were. -/
theorem mem_returned {c d : Channel} {cost : Nat} {s : State} (h : Reached s) (hc : c ∈ s.channels) (hholding : c.holding = true)
    (hd : d ∈ (returned c.number cost s).channels) : Meets (s.demand d) d
      ∧ (d.number = c.number ∧ d.state ≠ .queued ∧ d.holding = false ∧ d.settle = none ∨ d.number ≠ c.number ∧ d.holdingOk) := by
  obtain ⟨⟨-, hsorted, -, hfree⟩, hmeets, -⟩ := h
  obtain ⟨b, hb, rfl⟩ := mem_modify.mp hd
  split
  next heq =>
    refine ⟨(hmeets b hb).2, .inl ⟨heq, fun hq => ?_, rfl, rfl⟩⟩
    have hnone := hfree b hb hq
    rw [sorted_unique hsorted hb hc heq, hholding] at hnone
    cases hnone
  next hne => exact ⟨(hmeets b hb).2, .inr ⟨hne, (hmeets b hb).1⟩⟩

/-- A settle expiry: the units are returned and the queue is looked at, then the channel acts by its state. -/
theorem settled_reached {c : Channel} {s : State} (h : Reached s) (hc : c ∈ s.channels) (hholding : c.holding = true) :
    Reached (fanEventAt c.number afterSettle (look (returned c.number c.record.cost s))) := by
  obtain ⟨hbooks, -, hhanded, hstaged⟩ := id h
  obtain ⟨hlooked, hgranted⟩ := look_books (returned_books hc hholding hbooks)
  have hfan : FanStep s (look (returned c.number c.record.cost s)) := FanStep.trans ⟨_, _, _, [], rfl⟩ (look_fan _)
  refine fanEvent_reached hlooked (handed_of_fan hfan hhanded) (stagedOnce_of_fan hfan hstaged) fun d hd => ?_
  obtain ⟨b, hb, hgrant⟩ := hgranted d hd
  obtain ⟨hmeets, ⟨hnumber, hstate, hfree, hsettle⟩ | ⟨hnumber, hok⟩⟩ := mem_returned h hc hholding hb
  · obtain rfl : d = b := hgrant.resolve_right fun hq => hstate hq.1
    rw [demand_of_fan hfan, if_pos hnumber]
    obtain ⟨hholder, hreported, hok, hkept⟩ := afterSettle_booked (s.demand d) hfree hsettle
    exact ⟨⟨hholder, hreported, hok⟩, hkept hmeets⟩
  · have hother : d.number ≠ c.number := by
      rcases hgrant with rfl | ⟨-, rfl⟩
      · exact hnumber
      · exact hnumber
    rw [demand_of_fan hfan, hgrant.demand, if_neg hother]
    exact ⟨⟨.refl d, reported_quiet rfl .rfl, hgrant.holdingOk hok⟩, hgrant.meets hmeets⟩

theorem isSome_of_due {t : Option Timer} (h : expiryDue t = true) : t.isSome = true := by
  cases t with
  | none => cases h
  | some t => rfl

theorem returnUnits_ended (n cost : Nat) (s : State) :
    returnUnits cost { s with channels := modify Channel.number n endHolding s.channels } = look (returned n cost s) := rfl

theorem settleExpired_reached (n : Nat) {s : State} (h : Reached s) : Reached (settleExpired n s) := by
  unfold settleExpired
  split
  · exact h
  next c hlookup =>
    obtain ⟨hc, rfl⟩ := lookup_mem hlookup
    split
    next hdue =>
      obtain ⟨-, hmeets, -⟩ := id h
      rw [returnUnits_ended]
      exact settled_reached h hc ((hmeets c hc).1.1 (isSome_of_due hdue))
    · exact h

end Sys2Proof.ZoneEvaluation
end

