-- ==== Sys2Proof/Proofs/ZoneHandOver.lean ====
section
/-! PROOFS. Hand-overs, the failsafe, commits and restarts: each leaves every claim handed over and every channel resolved (R61, R79, R145,
R178, R181). -/

namespace Sys2Proof.ZoneEvaluation

open Sys2Proof.Machine Sys2Proof.Claims Sys2Proof.BayLoop

/-! ## Claims put in their places -/

theorem mem_upsert_iff {α : Type} {key : α → Nat} {a b : α} {l : List α} (h : sorted key l) :
    b ∈ upsert key a l ↔ b = a ∨ (b ∈ l ∧ key b ≠ key a) := by
  constructor
  · intro hb
    by_cases hkey : key b = key a
    · exact .inl (sorted_unique (sorted_upsert h) hb upsert_mem hkey)
    · exact (mem_upsert hb).imp_right fun hmem => ⟨hmem, hkey⟩
  · rintro (rfl | ⟨hmem, hkey⟩)
    · exact upsert_mem
    · exact mem_upsert_of_ne hmem hkey

/-- The claims of some zones handed over to a list. -/
def handing (given : List Zone) (init : List HandedClaim) : List HandedClaim :=
  given.foldl (fun l z => upsert HandedClaim.zone z.handedClaim l) init

theorem sorted_handing (given : List Zone) {init : List HandedClaim} (h : sorted HandedClaim.zone init) :
    sorted HandedClaim.zone (handing given init) := by
  induction given generalizing init with
  | nil => exact h
  | cons z given ih => exact ih (sorted_upsert h)

theorem mem_handing {given : List Zone} {init : List HandedClaim} (hgiven : sorted Zone.number given)
    (h : sorted HandedClaim.zone init) {g : HandedClaim} :
    g ∈ handing given init ↔ (∃ z ∈ given, g = z.handedClaim) ∨ (g ∈ init ∧ ∀ z ∈ given, g.zone ≠ z.number) := by
  induction given generalizing init with
  | nil => simp [handing]
  | cons z given ih =>
    obtain ⟨hfirst, hrest⟩ := List.pairwise_cons.mp hgiven
    have hstep : handing (z :: given) init = handing given (upsert HandedClaim.zone z.handedClaim init) := rfl
    rw [hstep, ih hrest (sorted_upsert h), mem_upsert_iff h]
    simp only [List.mem_cons, exists_eq_or_imp, forall_eq_or_imp]
    constructor
    · rintro (hgiven | ⟨rfl | ⟨hmem, hkey⟩, hnone⟩)
      · exact .inl (.inr hgiven)
      · exact .inl (.inl rfl)
      · exact .inr ⟨hmem, hkey, hnone⟩
    · rintro ((rfl | hgiven) | ⟨hmem, hkey, hnone⟩)
      · exact .inr ⟨.inl rfl, fun y hy => (hfirst y hy).ne⟩
      · exact .inl hgiven
      · exact .inr ⟨.inr ⟨hmem, hkey⟩, hnone⟩

theorem sorted_handedClaims {zones : List Zone} (h : sorted Zone.number zones) :
    sorted HandedClaim.zone (zones.map Zone.handedClaim) := List.pairwise_map.mpr h

/-- Sorted tables with the same records are the same. -/
theorem sorted_ext {α : Type} {key : α → Nat} {l m : List α} (hl : sorted key l) (hm : sorted key m) (h : ∀ a, a ∈ l ↔ a ∈ m) :
    l = m := by
  have hirrefl : Std.Irrefl fun a b : α => key a < key b := ⟨fun a => lt_irrefl (key a)⟩
  have hantisymm : Std.Antisymm fun a b : α => key a < key b := ⟨fun a b hab hba => absurd hba (Nat.lt_asymm hab)⟩
  exact hl.eq_of_mem_iff hm h

/-- After a hand-over every claim has been handed over, when the zones left out had theirs handed over already. -/
theorem handing_eq {zones : List Zone} {given : Zone → Bool} {init : List HandedClaim} (hzones : sorted Zone.number zones)
    (hinit : sorted HandedClaim.zone init) (hnumbers : ∀ g ∈ init, ∃ z ∈ zones, z.number = g.zone)
    (hkept : ∀ z ∈ zones, given z = false → z.handedClaim ∈ init) :
    handing (zones.filter given) init = zones.map Zone.handedClaim := by
  have hgiven : sorted Zone.number (zones.filter given) := List.Pairwise.filter _ hzones
  refine sorted_ext (sorted_handing _ hinit) (sorted_handedClaims hzones) fun g => ?_
  rw [mem_handing hgiven hinit, List.mem_map]
  constructor
  · rintro (⟨z, hz, rfl⟩ | ⟨hg, hnone⟩)
    · exact ⟨z, List.mem_of_mem_filter hz, rfl⟩
    · obtain ⟨z, hz, hnumber⟩ := hnumbers g hg
      have hleft : given z = false := Bool.eq_false_iff.mpr fun htrue => hnone z (List.mem_filter.mpr ⟨hz, htrue⟩) hnumber.symm
      exact ⟨z, hz, sorted_unique hinit (hkept z hz hleft) hg hnumber⟩
  · rintro ⟨z, hz, rfl⟩
    by_cases hz' : given z = true
    · exact .inl ⟨z, List.mem_filter.mpr ⟨hz, hz'⟩, rfl⟩
    · refine .inr ⟨hkept z hz (Bool.eq_false_iff.mpr hz'), fun y hy heq => hz' ?_⟩
      rw [sorted_unique hzones hz (List.mem_of_mem_filter hy) heq]
      exact (List.mem_filter.mp hy).2

/-! ## Changed claims (R61) -/

theorem unchanged_claim {f : Zone → Zone} {zones : List Zone} (hrecord : ∀ z, (f z).record = z.record) {z : Zone} (hz : z ∈ zones)
    (h : (claimsChanged zones (zones.map f)).contains z.number = false) : (f z).handedClaim = z.handedClaim := by
  have hnumber : (f z).number = z.number := congrArg ZoneRecord.zone (hrecord z)
  have hsame : z.claimDiffers (f z) = false := Bool.eq_false_iff.mpr fun hdiffers => by
    have hchanged : z.number ∈ claimsChanged zones (zones.map f) := by
      unfold claimsChanged
      rw [← List.map_prod_left_eq_zip]
      exact List.mem_map.mpr ⟨(z, f z), List.mem_filter.mpr ⟨List.mem_map_of_mem hz, hdiffers⟩, hnumber⟩
    rw [← List.contains_iff_mem, h] at hchanged
    cases hchanged
  have hclaim : z.claim = (f z).claim ∧ z.claimClass = (f z).claimClass := by
    have hiff := claimDiffers_iff z (f z)
    rw [hsame] at hiff
    tauto
  unfold Zone.handedClaim
  rw [hnumber, ← hclaim.1, ← hclaim.2]

/-- The zones whose claims a change of all zones changes. -/
def changedZones (f : Zone → Zone) (s : State) : List Zone :=
  (s.zones.map f).filter fun z => (claimsChanged s.zones (s.zones.map f)).contains z.number

/-- The state with the changed claims handed over, its channels still to be resolved. -/
def handedOver (f : Zone → Zone) (s : State) : State :=
  { s with zones := s.zones.map f, handed := handing (changedZones f s) s.handed }

theorem commitZones_eq (f : Zone → Zone) (s : State) : commitZones (s.zones.map f) s = raiseAll (stateNotices s.zones (s.zones.map f))
    (resolveChannels false (fun c => (changedZones f s).any (Zone.binds c.number)) (handedOver f s)) := rfl

theorem handedOver_handed {f : Zone → Zone} {s : State} (hrecord : ∀ z, (f z).record = z.record) (h : Handed s) :
    Handed (handedOver f s) := by
  obtain ⟨hall, hsorted⟩ := h
  have hnumber (z : Zone) : (f z).number = z.number := congrArg ZoneRecord.zone (hrecord z)
  have hsorted' : sorted Zone.number (s.zones.map f) := sorted_map hnumber hsorted
  refine ⟨?_, hsorted'⟩
  unfold handedOver changedZones
  rw [hall]
  refine handing_eq hsorted' (sorted_handedClaims hsorted) (fun g hg => ?_) fun y hy hkept => ?_
  · obtain ⟨z, hz, rfl⟩ := List.mem_map.mp hg
    exact ⟨f z, List.mem_map_of_mem hz, hnumber z⟩
  · obtain ⟨z, hz, rfl⟩ := List.mem_map.mp hy
    rw [hnumber] at hkept
    rw [unchanged_claim hrecord hz hkept]
    exact List.mem_map_of_mem hz

/-- A channel that no changed zone binds is asked what it was. -/
theorem handedOver_demand {f : Zone → Zone} {s : State} (hrecord : ∀ z, (f z).record = z.record) (h : Handed s) {c : Channel}
    (hunbound : (changedZones f s).any (Zone.binds c.number) = false) : (handedOver f s).demand c = s.demand c := by
  have hnumber (z : Zone) : (f z).number = z.number := congrArg ZoneRecord.zone (hrecord z)
  have hbinds (z : Zone) : (f z).binds c.number = z.binds c.number := by rw [Zone.binds, hrecord, Zone.binds]
  have hzones : (handedOver f s).zones.filter (Zone.binds c.number) = (s.zones.filter (Zone.binds c.number)).map f := by
    unfold handedOver
    rw [List.filter_map]
    exact congrArg (List.map f) (List.filter_congr fun z _ => hbinds z)
  refine demand_congr (s := s) (t := handedOver f s) rfl (.inr rfl) ?_
  rw [boundClaims_handed (handedOver_handed hrecord h), boundClaims_handed h, hzones, List.map_map]
  refine List.map_congr_left fun z hz => ?_
  obtain ⟨hmem, hbound⟩ := List.mem_filter.mp hz
  refine unchanged_claim hrecord hmem (Bool.eq_false_iff.mpr fun hchanged => ?_)
  have hnot := List.any_eq_false.mp hunbound (f z)
    (List.mem_filter.mpr ⟨List.mem_map_of_mem hmem, by rw [hnumber]; exact hchanged⟩)
  rw [hbinds] at hnot
  exact hnot hbound

theorem commitZones_reached {f : Zone → Zone} {s : State} (hrecord : ∀ z, (f z).record = z.record) (h : Reached s) :
    Reached (commitZones (s.zones.map f) s) := by
  obtain ⟨hbooks, hmeets, hhanded, hstaged⟩ := h
  rw [commitZones_eq]
  refine raiseAll_reached (resolveChannels_reached hbooks (handedOver_handed hrecord hhanded) hstaged fun c hc =>
    ⟨(hmeets c hc).1, fun hunbound => ?_⟩)
  rw [handedOver_demand hrecord hhanded hunbound]
  exact (hmeets c hc).2

/-- Timers, counts and records of zones do not reach the channels. -/
theorem zones_reached {f : Zone → Zone} {s : State} (hf : ∀ z, SameClaim z (f z)) (h : Reached s) :
    Reached { s with zones := s.zones.map f } := by
  obtain ⟨hbooks, hmeets, hhanded, hstaged⟩ := h
  have hclaims : (s.zones.map f).map Zone.handedClaim = s.zones.map Zone.handedClaim := by
    rw [List.map_map]
    exact List.map_congr_left fun z _ => (hf z).1
  have hnumber (z : Zone) : (f z).number = z.number := congrArg HandedClaim.zone (hf z).1
  have hhanded' : Handed { s with zones := s.zones.map f } := ⟨hhanded.1.trans hclaims.symm, sorted_map hnumber hhanded.2⟩
  refine ⟨hbooks, fun c hc => ⟨(hmeets c hc).1, ?_⟩, hhanded', hstaged⟩
  have hbound : State.boundClaims { s with zones := s.zones.map f } c.number = s.boundClaims c.number := by
    rw [boundClaims_handed hhanded', boundClaims_handed hhanded, List.filter_map, List.map_map]
    have hfilter : s.zones.filter (Zone.binds c.number ∘ f) = s.zones.filter (Zone.binds c.number) :=
      List.filter_congr fun z _ => by rw [Function.comp, Zone.binds, (hf z).2, Zone.binds]
    rw [hfilter]
    exact List.map_congr_left fun z _ => (hf z).1
  rw [demand_congr (s := s) (t := { s with zones := s.zones.map f }) rfl (.inr rfl) hbound]
  exact (hmeets c hc).2

/-! ## The failsafe (R144, R145) -/

theorem upsert_perm {α : Type} {key : α → Nat} {a : α} {l : List α} (h : ∀ b ∈ l, key b ≠ key a) : (upsert key a l).Perm (a :: l) := by
  induction l with
  | nil => exact .refl _
  | cons b l ih =>
    unfold upsert
    split_ifs with hlt heq
    · exact .refl _
    · exact absurd heq.symm (h b List.mem_cons_self)
    · exact ((ih fun c hc => h c (List.mem_cons_of_mem b hc)).cons b).trans (.swap a b l)

/-- A channel made under a free number waits for nothing and holds nothing. -/
theorem addProvisional_books (address : Nat) {s : State} (h : Books s) (hok : ∀ c ∈ s.channels, c.holdingOk) :
    Books { s with channels := addProvisional s.channels address } ∧ ∀ c ∈ addProvisional s.channels address, c.holdingOk := by
  obtain ⟨hheld, hsorted, hperm, hfree⟩ := id h
  unfold addProvisional
  split
  · exact ⟨h, hok⟩
  · split
    · exact ⟨h, hok⟩
    next n hn =>
      obtain ⟨k, hk⟩ : ∃ k, k = Channel.initial (.provisional n address) true := ⟨_, rfl⟩
      have hstate : k.state = .sync := by rw [hk]; rfl
      have hholding : k.holding = false := by rw [hk]; rfl
      have hsettle : k.settle = none := by rw [hk]; rfl
      have hkey : k.number = n := by rw [hk]; rfl
      have hnew : (upsert Channel.number k s.channels).Perm (k :: s.channels) := by
        refine upsert_perm fun b hb heq => ?_
        have hnone := List.find?_some hn
        rw [Bool.not_eq_true', hasKey_false] at hnone
        exact hnone b hb (heq.trans hkey)
      have hidle : k.holdingOk := ⟨by simp [hsettle], by simp [hholding], by simp [hstate]⟩
      rw [← hk]
      refine ⟨⟨?_, sorted_upsert hsorted, ?_, fun c hc hq => ?_⟩, fun c hc => ?_⟩
      · rw [(hnew.map unitsOf).sum_eq]
        simpa [unitsOf, hholding] using hheld
      · refine hperm.trans ((List.Perm.flatMap_right waitOf hnew).trans ?_).symm
        simp [waitOf, hstate]
      · rcases mem_upsert hc with rfl | hc
        · exact hholding
        · exact hfree c hc hq
      · rcases mem_upsert hc with rfl | hc
        · exact hidle
        · exact hok c hc

theorem provisional_books (addresses : List Nat) {s : State} (h : Books s) (hok : ∀ c ∈ s.channels, c.holdingOk) :
    Books { s with channels := addresses.foldl addProvisional s.channels }
      ∧ ∀ c ∈ addresses.foldl addProvisional s.channels, c.holdingOk := by
  induction addresses generalizing s with
  | nil => exact ⟨h, hok⟩
  | cons a addresses ih =>
    obtain ⟨hbooks, hok'⟩ := addProvisional_books a h hok
    exact ih hbooks hok'

/-- The failsafe resolves every channel, those it makes among them. -/
theorem makeProvisional_reached (addresses : List Nat) (l : List Latch) {s : State} (h : Reached s) :
    Reached (makeProvisional addresses { s with latches := l }) := by
  obtain ⟨hbooks, hmeets, hhanded, hstaged⟩ := h
  obtain ⟨hmade, hok⟩ := provisional_books addresses hbooks fun c hc => (hmeets c hc).1
  exact resolveChannels_reached hmade hhanded hstaged fun c hc => ⟨hok c hc, nofun⟩

/-! ## Manual setpoints (R98, R179) -/

/-- The manual setpoints are no part of the books. -/
theorem manual_books {g : Channel → Channel} {s : State} (hg : ∀ c, ∃ m, g c = { c with manual := m }) (h : Books s)
    (hok : ∀ c ∈ s.channels, c.holdingOk) :
    Books { s with channels := s.channels.map g } ∧ ∀ c ∈ s.channels.map g, c.holdingOk := by
  obtain ⟨hheld, hsorted, hperm, hfree⟩ := h
  have hsame {β : Type} {p : Channel → β} (hp : ∀ c m, p { c with manual := m } = p c) (c : Channel) : p (g c) = p c := by
    obtain ⟨m, hm⟩ := hg c
    rw [hm, hp]
  have hunits := hsame (p := unitsOf) fun _ _ => rfl
  have hwaits := hsame (p := waitOf) fun _ _ => rfl
  refine ⟨⟨?_, sorted_map (hsame fun _ _ => rfl) hsorted, ?_, ?_⟩, ?_⟩
  · rw [List.map_map]
    exact hheld.trans (congrArg List.sum (List.map_congr_left fun c _ => (hunits c).symm))
  · rw [List.flatMap_map]
    exact hperm.trans (.of_eq (List.flatMap_congr fun c _ => (hwaits c).symm))
  · rw [List.forall_mem_map]
    intro c hc
    rw [hsame (p := Channel.state) fun _ _ => rfl, hsame (p := Channel.holding) fun _ _ => rfl]
    exact hfree c hc
  · rw [List.forall_mem_map]
    intro c hc
    rw [hsame (p := Channel.holdingOk) fun _ _ => rfl]
    exact hok c hc

theorem manual_reached {mode : Mode} {setpoint : Channel → Option Nat} {s : State} (h : Reached s) :
    Reached (resolveChannels false (fun _ => true)
      { s with mode := mode, channels := s.channels.map fun c => { c with manual := setpoint c } }) := by
  obtain ⟨hbooks, hmeets, hhanded, hstaged⟩ := h
  obtain ⟨hset, hok⟩ := manual_books (fun c => ⟨setpoint c, rfl⟩) hbooks fun c hc => (hmeets c hc).1
  exact resolveChannels_reached hset hhanded hstaged fun c hc => ⟨hok c hc, nofun⟩

theorem applySetpoint_reached (n setpoint : Nat) {s : State} (h : Reached s) : Reached (applySetpoint n setpoint s) := by
  obtain ⟨hbooks, hmeets, hhanded, hstaged⟩ := h
  have hset (c : Channel) : ∃ m, (if c.number = n then { c with manual := some setpoint } else c) = { c with manual := m } := by
    split
    · exact ⟨_, rfl⟩
    · exact ⟨c.manual, rfl⟩
  obtain ⟨hbooks', hok⟩ := manual_books hset hbooks fun c hc => (hmeets c hc).1
  refine resolveChannels_reached hbooks' hhanded hstaged fun c hc => ⟨hok c hc, fun hother => ?_⟩
  obtain ⟨d, hd, rfl⟩ := mem_modify.mp hc
  have hne : d.number ≠ n := by
    intro heq
    rw [if_pos heq] at hother
    exact beq_eq_false_iff_ne.mp hother heq
  rw [if_neg hne]
  exact (hmeets d hd).2

/-! ## Tables that are made anew (R178, R180 to R182) -/

/-- Channels in SYNC, an empty queue, no units held. -/
theorem fresh_reached {s : State} (hidle : ∀ c ∈ s.channels, (c.state = .sync ∧ c.holding = false ∧ c.settle = none) ∧ Meets (s.demand c) c)
    (hsorted : sorted Channel.number s.channels) (hqueue : s.queue = []) (hheld : s.held = 0) (hstaging : s.staging = none)
    (hhanded : Handed s) : Reached s := by
  have hunits : s.channels.map unitsOf = s.channels.map fun _ => 0 :=
    List.map_congr_left fun c hc => if_neg (by rw [(hidle c hc).1.2.1]; decide)
  have hwaits : s.channels.flatMap waitOf = [] :=
    List.flatMap_eq_nil_iff.mpr fun c hc => if_neg (by rw [(hidle c hc).1.1]; decide)
  refine ⟨⟨?_, hsorted, ?_, fun c hc hq => ?_⟩, fun c hc => ?_, hhanded, ?_⟩
  · rw [hheld, hunits]
    simp
  · rw [hqueue, hwaits]
    exact .nil
  · exact (hidle c hc).1.2.1
  · obtain ⟨⟨hstate, hholding, hsettle⟩, hmeets⟩ := hidle c hc
    exact ⟨⟨by simp [hsettle], by simp [hholding], by simp [hstate]⟩, hmeets⟩
  · intro st hst
    rw [hstaging] at hst
    cases hst

theorem settled_idle (d : Demand) {c : Channel} (h : Fresh c) :
    ((settled d c).state = .sync ∧ (settled d c).holding = false ∧ (settled d c).settle = none) ∧ Meets d (settled d c) := by
  rw [h]
  exact ⟨⟨rfl, rfl, rfl⟩, rfl, rfl, rfl⟩

/-- All claims handed over at once. -/
theorem allHanded_handed {s : State} (hhanded : s.handed = []) (hsorted : sorted Zone.number s.zones) : Handed (allHanded s) := by
  refine ⟨?_, hsorted⟩
  have hall : handing (s.zones.filter fun _ => true) [] = s.zones.map Zone.handedClaim :=
    handing_eq hsorted .nil (List.forall_mem_nil _) fun _ _ h => absurd h (by decide)
  rw [List.filter_true] at hall
  rw [← hhanded] at hall
  exact hall

/-- A commit hands over every claim of the zones it installs to the channels it installs (R178). -/
theorem commit_reached {st : Staging} {s : State} (hmode : s.mode = .loading) (hstaging : s.staging = some st) (h : Reached s) :
    Reached (commit st.inForce s) := by
  obtain ⟨-, -, -, hstaged⟩ := h
  obtain ⟨hfans, hzones⟩ := hstaged st hstaging
  have hsortedZones : sorted Zone.number (installed st.inForce s).zones := List.pairwise_map.mpr (List.pairwise_map.mpr hzones)
  have hsortedFans : sorted Channel.number (committed st.inForce s).channels :=
    List.pairwise_map.mpr (List.pairwise_map.mpr (List.pairwise_map.mpr hfans))
  have hhanded : Handed (committed st.inForce s) := allHanded_handed (s := installed st.inForce s) rfl hsortedZones
  rw [commit_eq hmode]
  have hcommitted : Reached (committed st.inForce s) := by
    refine fresh_reached (fun c hc => ?_) hsortedFans rfl rfl rfl hhanded
    obtain ⟨k, hk, rfl⟩ := List.mem_map.mp hc
    obtain ⟨r, -, rfl⟩ := List.mem_map.mp hk
    exact settled_idle ((allHanded (installed st.inForce s)).demand (.initial r false)) rfl
  exact hcommitted.congr rfl rfl rfl rfl rfl rfl rfl (.inr rfl)

/-- A RESTART with KEEP hands over the initial claims of the kept zones (R181). -/
theorem restartScheduled_reached {s : State} (h : Reached s) : Reached (restartScheduled s) := by
  obtain ⟨⟨-, hsorted, -⟩, -, ⟨-, hzones⟩, -⟩ := h
  have hsortedZones : sorted Zone.number (keptTables s).zones :=
    sorted_map (key := Zone.number) (fun z => congrArg ZoneRecord.zone (restarted_record s.lineRecords s.latchedLines z)) hzones
  have hhanded : Handed (restartScheduled s) := by
    rw [restartScheduled_eq]
    exact allHanded_handed (s := keptTables s) rfl hsortedZones
  rw [restartScheduled_eq] at hhanded ⊢
  refine fresh_reached (fun c hc => ?_) (List.pairwise_map.mpr (List.pairwise_map.mpr hsorted)) rfl rfl rfl hhanded
  obtain ⟨k, hk, rfl⟩ := List.mem_map.mp hc
  have hfresh := keptTables_fresh s k hk
  rw [keptChannel_zero hfresh]
  exact settled_idle ((allHanded (keptTables s)).demand k) hfresh

/-- Under the failsafe the mode and the staged records are not asked. -/
theorem load_reached {mode : Mode} {staging : Option Staging} {s : State} (hs : s.mode.scheduled = false)
    (hmode : mode.scheduled = false)
    (hstaged : ∀ st, staging = some st → sorted LoadFan.channel st.fans ∧ sorted LoadZone.zone st.zones) (h : Reached s) :
    Reached { s with mode := mode, staging := staging } := by
  obtain ⟨hbooks, hmeets, hhanded, -⟩ := h
  refine ⟨hbooks, fun c hc => ⟨(hmeets c hc).1, ?_⟩, hhanded, hstaged⟩
  have hdemand : State.demand { s with mode := mode, staging := staging } c = s.demand c := by
    unfold State.demand State.failsafe
    rw [hs, hmode]
    rfl
  rw [hdemand]
  exact (hmeets c hc).2

/-! ## Every move -/

/-- Every move of the tables keeps claims, channels and books together. -/
theorem move_reached {s t : State} (h : Move s t) : Reached s → Reached t := by
  induction h with
  | beside h =>
    obtain ⟨⟨hmode, -, hstaging, -, hzones, hhanded⟩, hchannels, hqueue, hheld, hlatches⟩ := tablesOf_inj h
    exact fun hr => hr.congr hmode hstaging hzones hhanded hchannels (by rw [hqueue]) hheld (.inr (by rw [hlatches]))
  | heads l h => exact fun hr => hr.congr rfl rfl rfl rfl rfl rfl rfl (.inr rfl)
  | trans _ _ ih ih' => exact ih' ∘ ih
  | fans f h =>
    rintro ⟨hbooks, hmeets, hhanded, hstaged⟩
    refine fanEvent_reached hbooks hhanded hstaged fun c hc => ?_
    obtain ⟨⟨hholder, hreported, hok⟩, hkept⟩ := h c hc
    exact ⟨⟨hholder, hreported, hok (hmeets c hc).1⟩, hkept (hmeets c hc).2⟩
  | look s => exact look_reached
  | settle n s => exact settleExpired_reached n
  | queue q h => exact fun hr => hr.congr rfl rfl rfl rfl rfl h rfl (.inr rfl)
  | zones f h => exact zones_reached h
  | claims f h => exact commitZones_reached h
  | latches l h => exact fun hr => hr.congr rfl rfl rfl rfl rfl rfl rfl h
  | failsafe addresses l h => exact makeProvisional_reached addresses l
  | setpoint n v s => exact applySetpoint_reached n v
  | manual mode setpoint h hm => exact manual_reached
  | staged st new hmode h hfans hzones =>
    rintro ⟨hbooks, hmeets, hhanded, hstaged⟩
    obtain ⟨hfans', hzones'⟩ := hstaged st h
    refine ⟨hbooks, hmeets, hhanded, fun st' hst => ?_⟩
    obtain rfl : new = st' := Option.some.inj hst
    exact ⟨hfans hfans', hzones hzones'⟩
  | loadBegun h =>
    exact load_reached (by rw [h]; rfl) rfl fun st hst => by
      obtain rfl : Staging.empty = st := Option.some.inj hst
      exact ⟨.nil, .nil⟩
  | loadAbandoned h => exact load_reached (by rw [h]; rfl) rfl nofun
  | committed st hmode h => exact commit_reached hmode h
  | restarted h => exact restartScheduled_reached
  | unconfigured h =>
    rintro ⟨-, -, hhanded, -⟩
    exact fresh_reached (List.forall_mem_nil _) .nil rfl rfl rfl hhanded
  | cleared s => exact fun _ => fresh_reached (List.forall_mem_nil _) .nil rfl rfl rfl ⟨rfl, .nil⟩
  | reset s => exact fun _ => fresh_reached (List.forall_mem_nil _) .nil rfl rfl rfl ⟨rfl, .nil⟩

/-- Settles O60: every move of the tables keeps the law, in the parts of `Reached`. -/
theorem claimsReachTheChannels : Obligations.ClaimsReachTheChannels :=
  kept_of_moves fun s t hmove h => (reached_iff t).mpr (move_reached hmove ((reached_iff s).mp h))

end Sys2Proof.ZoneEvaluation
end

