-- ==== Sys2Proof/Proofs/ZoneTime.lean ====
section
/-! PROOFS. The seconds tick, the stall, and the expiries of a zone's timers (R55 to R58, R119, R120). -/

namespace Sys2Proof.ZoneEvaluation

open Sys2Proof.Machine Sys2Proof.Claims Sys2Proof.BayLoop Sys2Proof.GasHeads

/-! ## The tick and the stall -/

theorem stall_empty {s : State} (h : s.queue = []) : stall s = s := by simp only [stall, h]

theorem stall_due {e : QueueEntry} {rest : List QueueEntry} {s : State} (h : s.queue = e :: rest) (htime : 60 ≤ e.headTime.getD 0)
    (hstalled : e.stalled = false) :
    stall s = raise (.queueStall e.channel e.cost s.held) { s with queue := { e with stalled := true } :: rest } := by
  simp only [stall, h]
  exact if_pos ⟨htime, hstalled⟩

theorem stall_early {e : QueueEntry} {rest : List QueueEntry} {s : State} (h : s.queue = e :: rest)
    (hnot : e.headTime.getD 0 < 60 ∨ e.stalled = true) : stall s = s := by
  simp only [stall, h]
  refine if_neg fun ⟨htime, hstalled⟩ => ?_
  rcases hnot with hless | hreported
  · exact Nat.not_le.mpr hless htime
  · rw [hstalled] at hreported
    cases hreported

theorem slot_tick (slot : ServiceSlot) : slot.tick =
    match slot with
    | .ready k ms r x => .ready k ms r x.tick
    | other => other := by cases slot <;> rfl

/-- Settles O50: the tick is `secondsTick` field by field, and the stall acts by the head of the queue. -/
theorem secondsTickAndStall : Obligations.SecondsTickAndStall := by
  intro s hp
  refine ⟨?_, fun hq => ?_, fun e rest hq => ⟨fun htime hstalled => ?_, fun hnot => ?_⟩⟩
  · rw [exec_secondsTick, powered_running hp, secondsTick, slot_tick]
    rfl
  · rw [exec_queueStall, powered_running hp, stall_empty hq]
  · rw [exec_queueStall, powered_running hp, stall_due hq htime hstalled]
    rfl
  · rw [exec_queueStall, powered_running hp, stall_early hq hnot]

/-! ## What a hand-over leaves -/

/-- An event of the channels is known by its notices. -/
theorem besidesFans_of_fan {s t : State} (h : FanStep s t) {ns : List NoticeBody} (hns : ∀ n ∈ ns, FanNotice n)
    (hring : t.ring = ringing ns s) : sameBesidesFans s t := by
  obtain ⟨channels, queue, held, _, rfl⟩ := h
  exact ⟨ns, hns, by rw [← hring]⟩

theorem resolveChannels_besidesFans (silent : Bool) (choose : Channel → Bool) (s : State) :
    sameBesidesFans s (resolveChannels silent choose s) := by
  refine besidesFans_of_fan (resolveChannels_fan silent choose s) (fun n hn => ?_) (fanEvent_ring _ s)
  obtain ⟨c, -, hc⟩ := List.mem_flatMap.mp hn
  split at hc
  · exact resolve_notices silent _ c n hc
  · cases hc

theorem resolveChannels_handed (silent : Bool) (choose : Channel → Bool) (s : State) :
    (resolveChannels silent choose s).handed = s.handed := by
  obtain ⟨_, _, _, _, h⟩ := resolveChannels_fan silent choose s
  rw [h]

/-- A hand-over changes the claims handed over, and what the events of the channels change. -/
theorem handOver_besidesFans (silent : Bool) (changed : List Nat) (s : State) :
    sameBesidesFans { s with handed := (handOver silent changed s).handed } (handOver silent changed s) := by
  unfold handOver
  dsimp only
  rw [resolveChannels_handed]
  exact resolveChannels_besidesFans silent _ _

/-! ## One zone of the table -/

theorem stateNotices_same (zones : List Zone) : stateNotices zones zones = [] := by
  have h := stateNotices_map id zones
  rw [List.map_id] at h
  simpa using h

theorem stateNotices_append {a b c d : List Zone} (h : a.length = c.length) :
    stateNotices (a ++ b) (c ++ d) = stateNotices a c ++ stateNotices b d := by
  unfold stateNotices
  rw [List.zip_append h, List.filter_append, List.map_append]

/-- ZONE_STATE where one zone has changed: its own, when it has moved. -/
theorem stateNotices_split (before after : List Zone) (z y : Zone) :
    stateNotices (before ++ z :: after) (before ++ y :: after) = if z.state ≠ y.state then [y.notice] else [] := by
  have hone : stateNotices [z] [y] = if z.state ≠ y.state then [y.notice] else [] := by
    unfold stateNotices
    by_cases h : z.state = y.state <;> simp [h]
  rw [stateNotices_append rfl, stateNotices_same, List.nil_append, ← hone]
  have hrest : stateNotices ([z] ++ after) ([y] ++ after) = stateNotices [z] [y] ++ stateNotices after after := stateNotices_append rfl
  rw [stateNotices_same, List.append_nil] at hrest
  exact hrest

/-- A commit in which no zone moves. -/
theorem commitZones_unmoved {zones : List Zone} {s : State} (h : stateNotices s.zones zones = []) :
    sameBesidesFans { s with handed := (commitZones zones s).handed, zones := zones } (commitZones zones s) := by
  have hcommit : commitZones zones s = handOver false (claimsChanged s.zones zones) { s with zones := zones } := by
    unfold commitZones
    rw [h]
    rfl
  rw [hcommit]
  exact handOver_besidesFans false _ { s with zones := zones }

/-! ## The expiries -/

section
variable {n : Nat} {before after : List Zone} {z : Zone} {s : State}

theorem modify_zone (f : Zone → Zone) (hzones : s.zones = before ++ z :: after) (hnumber : z.number = n)
    (hothers : ∀ y ∈ before ++ after, y.number ≠ n) : modify Zone.number n f s.zones = before ++ f z :: after := by
  rw [hzones]
  exact modify_split hothers hnumber

theorem holdExpired_due {k : Timer} (hstate : z.state = .runOn) (hhold : z.hold = some k) (hdue : k.due = true) :
    z.holdExpired = { z with
      state := .quiet, hold := none, governing := none, conflict := []
      claim := max z.record.idle ((z.boost.map Boost.speed).getD 0), claimClass := .normal } := by
  unfold Zone.holdExpired
  simp only [hstate]
  rw [if_pos (by rw [hhold]; exact hdue), enter_normal rfl]
  rfl

theorem holdExpired_early (h : z.state ≠ .runOn ∨ z.hold = none ∨ ∃ k, z.hold = some k ∧ k.due = false) : z.holdExpired = z := by
  unfold Zone.holdExpired
  split
  next hstate =>
    have hnot : expiryDue z.hold = false := by
      rcases h with hmoved | hnone | ⟨k, hk, hdue⟩
      · exact absurd hstate hmoved
      · rw [hnone]
        rfl
      · rw [hk]
        exact hdue
    rw [hnot]
    rfl
  · rfl

/-- A zone whose boost has ended. -/
theorem reclaim_unboosted (z : Zone) : Zone.reclaim { z with boost := none } =
    if z.state = .fireExtract ∨ z.state = .fireIsolate then { z with boost := none }
    else { z with boost := none, claim := z.record.claimOf z.state, claimClass := .normal } := by
  unfold Zone.reclaim
  simp only [GasHeads.isFire_iff, Option.map_none, Option.getD_none, Nat.max_zero]

theorem reclaim_state (z : Zone) : z.reclaim.state = z.state := by
  unfold Zone.reclaim
  split <;> rfl

theorem boostTimeout_due {b : Boost} (hlookup : lookup Zone.number n s.zones = some z) (hb : z.boost = some b)
    (hdue : b.timer.due = true) : boostTimeout n s =
      raise (.boostEnd n b.speed z.state) (changeZone n (fun z => Zone.reclaim { z with boost := none }) s) := by
  simp only [boostTimeout, hlookup, hb, hdue]
  rfl

theorem boostTimeout_early (hlookup : lookup Zone.number n s.zones = some z)
    (h : z.boost = none ∨ ∃ b, z.boost = some b ∧ b.timer.due = false) : boostTimeout n s = s := by
  rcases h with hnone | ⟨b, hb, hdue⟩
  · simp only [boostTimeout, hlookup, hnone]
  · simp only [boostTimeout, hlookup, hb, hdue]
    rfl

/-- The expiry of a zone's hold commits the table with that zone in QUIET, and ZONE_STATE says so. -/
theorem commitZones_quiet {y : Zone} (hzones : s.zones = before ++ z :: after) (hmoved : z.state ≠ y.state) :
    ∃ t : State, commitZones (before ++ y :: after) s = raise y.notice t
      ∧ sameBesidesFans { s with handed := t.handed, zones := before ++ y :: after } t := by
  refine ⟨handOver false (claimsChanged s.zones (before ++ y :: after)) { s with zones := before ++ y :: after }, ?_,
    handOver_besidesFans false _ { s with zones := before ++ y :: after }⟩
  unfold commitZones
  rw [hzones, stateNotices_split, if_pos hmoved]
  rfl

end

/-- Settles O51: each expiry changes its zone alone, and what follows is a commit of the table. -/
theorem zoneTimersExpire : Obligations.ZoneTimersExpire := by
  intro n before after z s hp hzones hnumber hothers
  have hmodify (f : Zone → Zone) := modify_zone f hzones hnumber hothers
  have hlookup : lookup Zone.number n s.zones = some z := by
    rw [hzones]
    exact lookup_split (fun y hy => hothers y (List.mem_append_left _ hy)) hnumber
  refine ⟨fun k hstate hhold hdue => ⟨?_, ?_⟩, fun h => ?_, fun b hb hdue => ⟨?_, ?_⟩, fun h => ?_, ?_⟩
  · rw [exec_holdExpiry, powered_running hp, holdTimeout, changeZone, hmodify, holdExpired_due hstate hhold hdue, zonesBecome_eq]
  · have hexpired := holdExpired_due hstate hhold hdue
    have hmoved : z.state ≠ z.holdExpired.state := by
      rw [hexpired, hstate]
      exact ZoneState.noConfusion
    obtain ⟨t, ht, hbesides⟩ := commitZones_quiet hzones hmoved
    rw [zonesBecome_eq, ← hexpired]
    refine ⟨t, ?_, hbesides⟩
    rw [ht, Zone.notice, hexpired, ← hnumber]
    rfl
  · rw [exec_holdExpiry, powered_running hp, holdTimeout, changeZone, hmodify, holdExpired_early h, ← hzones, commitZones_same]
  · rw [exec_boostExpiry, powered_running hp, boostTimeout_due hlookup hb hdue, changeZone, hmodify, reclaim_unboosted, zonesBecome_eq]
    rfl
  · rw [zonesBecome_eq, ← reclaim_unboosted]
    refine commitZones_unmoved ?_
    rw [hzones, stateNotices_split, if_neg]
    exact not_not_intro (reclaim_state { z with boost := none }).symm
  · rw [exec_boostExpiry, powered_running hp, boostTimeout_early hlookup h]
  · rw [exec_graceExpiry, powered_running hp, graceTimeout, hmodify]
    rfl

end Sys2Proof.ZoneEvaluation
end

