-- ==== Sys2Proof/Proofs/ZoneRequests.lean ====
section
/-! PROOFS. BOOST, SET_LIMITS and SET_HOLD (R63 to R66). -/

namespace Sys2Proof.ZoneEvaluation

open Sys2Proof.Machine Sys2Proof.Claims Sys2Proof.BayLoop Sys2Proof.GasHeads

/-! ## Answers -/

/-- A request whose owner answers from a state begins its reply there (R190, R191). -/
theorem powered_answer {kind tag : Nat} {owner : State → Answer} {s t : State} {status : Status} {body : ReplyBody}
    (hp : s.power = .running) (h : owner s = ⟨t, status, body⟩) :
    powered s (take kind tag owner) = .next (replying kind tag status body t) := by
  rw [powered_running hp, take, h]
  rfl

theorem failsafe_true {s : State} (h : s.mode = .blank ∨ s.mode = .loading) : s.failsafe = true := (failsafe_iff s).mpr h

theorem failsafe_false {s : State} (h : s.mode = .run ∨ s.mode = .manual) : s.failsafe = false := by
  rw [State.failsafe, (scheduled_iff s.mode).mpr h]
  rfl

/-! ## BOOST -/

/-- The fields of BOOST and their checks (R63). -/
def boostChecks (zones : ZoneSet) (speed duration : Nat) : List (Nat × Bool) :=
  [(1, decide (zones ≠ 0)), (2, duration == 0 || within 1 100 speed), (3, duration == 0 || within 60 7200 duration)]

theorem boostChecks_pass (zones : ZoneSet) (speed duration : Nat) : (∀ p ∈ boostChecks zones speed duration, p.2 = true) ↔
    zones ≠ 0 ∧ (duration = 0 ∨ 1 ≤ speed ∧ speed ≤ 100 ∧ 60 ≤ duration ∧ duration ≤ 7200) := by
  simp only [boostChecks, List.forall_mem_cons, List.not_mem_nil, false_imp_iff, implies_true, and_true, decide_eq_true_eq,
    Bool.or_eq_true, beq_iff_eq, within_iff]
  tauto

section
variable {zones : ZoneSet} {speed duration : Nat} {s : State}

theorem boost_badField (h : ¬ ∀ p ∈ boostChecks zones speed duration, p.2 = true) :
    ∃ p, boost zones speed duration s = .badField s p := by
  obtain ⟨p, hp⟩ := firstBad_isSome h
  unfold boostChecks at hp
  exact ⟨p, by simp only [boost, hp]⟩

theorem boost_failsafe (h : ∀ p ∈ boostChecks zones speed duration, p.2 = true) (hf : s.failsafe = true) :
    boost zones speed duration s = .refuse s .wrongMode := by
  have hnone := firstBad_eq_none.mpr h
  unfold boostChecks at hnone
  simp only [boost, hnone, hf, if_true]

theorem boost_inactive {n : Nat} (h : ∀ p ∈ boostChecks zones speed duration, p.2 = true) (hf : s.failsafe = false)
    (hn : s.firstInactive zones = some n) : boost zones speed duration s = .refuse s .notFound (.zoneNumber n) := by
  have hnone := firstBad_eq_none.mpr h
  unfold boostChecks at hnone
  simp only [boost, hnone, hf, hn, Bool.false_eq_true, if_false]

theorem boost_active (h : ∀ p ∈ boostChecks zones speed duration, p.2 = true) (hf : s.failsafe = false)
    (hall : s.firstInactive zones = none) :
    boost zones speed duration s = .ok (boostZones zones (boostOf speed duration) s) .none := by
  have hnone := firstBad_eq_none.mpr h
  unfold boostChecks at hnone
  simp only [boost, hnone, hf, hall, Bool.false_eq_true, if_false]

/-- The first zone named that is not configured. -/
theorem firstInactive_first {n : Nat} (hn : n < 16) (hnamed : zones.getLsbD n = true) (hnone : ∀ z ∈ s.zones, z.number ≠ n)
    (hbefore : ∀ m, m < n → m < 16 ∧ zones.getLsbD m = true → ∃ z ∈ s.zones, z.number = m) : s.firstInactive zones = some n := by
  unfold State.firstInactive members
  rw [List.find?_filter, List.find?_range_eq_some]
  refine ⟨?_, List.mem_range.mpr hn, fun m hm => ?_⟩
  · rw [hnamed, hasKey_false.mpr hnone]
    rfl
  · by_cases hset : zones.getLsbD m = true
    · rw [hasKey_iff.mpr (hbefore m hm ⟨by omega, hset⟩)]
      simp
    · simp [hset]

theorem firstInactive_none (h : ∀ n, n < 16 ∧ zones.getLsbD n = true → ∃ z ∈ s.zones, z.number = n) : s.firstInactive zones = none := by
  unfold State.firstInactive members
  rw [List.find?_eq_none]
  intro n hn
  obtain ⟨hrange, hnamed⟩ := List.mem_filter.mp hn
  rw [hasKey_iff.mpr (h n ⟨List.mem_range.mp hrange, hnamed⟩)]
  decide

/-- A zone under a BOOST that names it (R60, R63). -/
theorem reclaim_boosted (speed duration : Nat) (z : Zone) : Zone.reclaim { z with boost := boostOf speed duration } =
    if z.state = .fireExtract ∨ z.state = .fireIsolate then
      { z with boost := if duration = 0 then none else some ⟨speed, ⟨duration, false⟩⟩ }
    else { z with
      boost := if duration = 0 then none else some ⟨speed, ⟨duration, false⟩⟩
      claim := max (z.record.claimOf z.state) (if duration = 0 then 0 else speed)
      claimClass := .normal } := by
  have hspeed : ((boostOf speed duration).map Boost.speed).getD 0 = if duration = 0 then 0 else speed := by
    unfold boostOf
    split <;> rfl
  unfold Zone.reclaim
  simp only [GasHeads.isFire_iff, hspeed]
  rfl

/-- The zone table after a BOOST. -/
def boosted (zones : ZoneSet) (speed duration : Nat) (s : State) : List Zone :=
  s.zones.map fun z => if zones.getLsbD z.number then Zone.reclaim { z with boost := boostOf speed duration } else z

theorem boosted_unmoved (zones : ZoneSet) (speed duration : Nat) (s : State) : stateNotices s.zones (boosted zones speed duration s) = [] := by
  unfold boosted
  rw [stateNotices_map, List.filter_eq_nil_iff.mpr, List.map_nil]
  intro z _
  rw [decide_eq_true_eq, not_not]
  split
  · exact reclaim_state { z with boost := boostOf speed duration }
  · rfl

end

/-- Settles O30: the checks are `boostChecks_pass`, the zone that is missed is the first in `members`, and the table is committed. -/
theorem boostRaisesNamedZones : Obligations.BoostRaisesNamedZones := by
  intro tag zones speed duration s hp
  dsimp only
  rw [← boostChecks_pass, exec_boost, takeBoost]
  refine ⟨fun hbad => ?_, fun hgood hm => ?_, fun hgood hm => ⟨fun n hnamed hnone hbefore => ?_, fun hall => ?_⟩⟩
  · obtain ⟨p, hbadField⟩ := boost_badField (s := s) hbad
    exact ⟨p, powered_answer hp hbadField⟩
  · exact powered_answer hp (boost_failsafe hgood (failsafe_true hm))
  · exact powered_answer hp (boost_inactive hgood (failsafe_false hm) (firstInactive_first hnamed.1 hnamed.2 hnone hbefore))
  · have hnew : (s.zones.map fun z => if zones.getLsbD z.record.zone = true then
        (if z.state = .fireExtract ∨ z.state = .fireIsolate then
          { z with boost := if duration = 0 then none else some ⟨speed, ⟨duration, false⟩⟩ }
        else { z with
          boost := if duration = 0 then none else some ⟨speed, ⟨duration, false⟩⟩
          claim := max (z.record.claimOf z.state) (if duration = 0 then 0 else speed)
          claimClass := .normal })
        else z) = boosted zones speed duration s := by
      unfold boosted
      simp only [reclaim_boosted]
      rfl
    rw [hnew, zonesBecome_eq]
    have hbesides := commitZones_unmoved (boosted_unmoved zones speed duration s)
    refine ⟨powered_answer hp (boost_active hgood (failsafe_false hm) (firstInactive_none hall)), ?_, hbesides⟩
    · obtain ⟨ns, -, hcommit⟩ := hbesides
      rw [hcommit]

/-! ## SET_LIMITS and SET_HOLD -/

theorem gasOf_isSome (gas : Nat) : (gasOf gas).isSome = true ↔ gas ≤ 1 := by
  match gas with
  | 0 => simp [gasOf]
  | 1 => simp [gasOf]
  | n + 2 => simp [gasOf]

theorem top_of_gas (gas : Nat) (h : gas ≤ 1) : ((gasOf gas).getD .co).top = if gas = 1 then 250 else 1000 := by
  match gas, h with
  | 0, _ => rfl
  | 1, _ => rfl

theorem setLimits_gas (gas : Nat) (h : gas ≤ 1) (l : Limits) (z : Zone) : Zone.setLimits ((gasOf gas).getD .co) l z =
    if gas = 0 then { z with record := { z.record with co := l } } else { z with record := { z.record with no2 := l } } := by
  match gas, h with
  | 0, _ => rfl
  | 1, _ => rfl

/-- The fields of SET_LIMITS that pass: in order, the highest within the gas's range (R43, R65). -/
theorem limitsChecks_pass (zone gas low1 high1 low2 high2 : Nat) :
    (∀ p ∈ limitsChecks zone (gasOf gas) ⟨low1, high1, low2, high2⟩, p.2 = true) ↔
      zone ≤ 15 ∧ gas ≤ 1 ∧ high2 ≤ (if gas = 1 then 250 else 1000) ∧ low1 < high1 ∧ high1 ≤ low2 ∧ low2 < high2 := by
  simp only [limitsChecks, List.forall_mem_cons, List.not_mem_nil, false_imp_iff, implies_true, and_true, decide_eq_true_eq,
    within_iff, gasOf_isSome]
  by_cases hgas : gas ≤ 1
  · rw [top_of_gas gas hgas]
    omega
  · tauto

/-- The fields of SET_HOLD and their checks (R66). -/
def holdChecks (zone preload : Nat) : List (Nat × Bool) := [(1, within 0 15 zone), (2, within 10 3600 preload)]

theorem holdChecks_pass (zone preload : Nat) :
    (∀ p ∈ holdChecks zone preload, p.2 = true) ↔ zone ≤ 15 ∧ 10 ≤ preload ∧ preload ≤ 3600 := by
  simp only [holdChecks, List.forall_mem_cons, List.not_mem_nil, false_imp_iff, implies_true, and_true, within_iff]
  omega

section
variable {zone gas preload : Nat} {l : Limits} {s : State}

theorem setLimits_badField {low1 high1 low2 high2 : Nat}
    (h : ¬ ∀ p ∈ limitsChecks zone (gasOf gas) ⟨low1, high1, low2, high2⟩, p.2 = true) :
    ∃ p, setLimits zone gas low1 high1 low2 high2 s = .badField s p := by
  obtain ⟨p, hp⟩ := firstBad_isSome h
  exact ⟨p, by simp only [setLimits, hp]⟩

theorem setLimits_checked {low1 high1 low2 high2 : Nat}
    (h : ∀ p ∈ limitsChecks zone (gasOf gas) ⟨low1, high1, low2, high2⟩, p.2 = true) :
    setLimits zone gas low1 high1 low2 high2 s = tuneZone zone (Zone.setLimits ((gasOf gas).getD .co) ⟨low1, high1, low2, high2⟩) s := by
  simp only [setLimits, firstBad_eq_none.mpr h]

theorem setHold_badField (h : ¬ ∀ p ∈ holdChecks zone preload, p.2 = true) : ∃ p, setHold zone preload s = .badField s p := by
  obtain ⟨p, hp⟩ := firstBad_isSome h
  unfold holdChecks at hp
  exact ⟨p, by simp only [setHold, hp]⟩

theorem setHold_checked (h : ∀ p ∈ holdChecks zone preload, p.2 = true) :
    setHold zone preload s = tuneZone zone (fun z => { z with record := { z.record with hold := preload } }) s := by
  have hnone := firstBad_eq_none.mpr h
  unfold holdChecks at hnone
  simp only [setHold, hnone]

theorem tuneZone_failsafe (f : Zone → Zone) (hf : s.failsafe = true) : tuneZone zone f s = .refuse s .wrongMode := if_pos hf

theorem tuneZone_absent (f : Zone → Zone) (hf : s.failsafe = false) (h : ∀ z ∈ s.zones, z.number ≠ zone) :
    tuneZone zone f s = .refuse s .notFound := by
  rw [tuneZone, if_neg (by rw [hf]; decide), if_pos (hasKey_false.mpr h)]

theorem tuneZone_present (f : Zone → Zone) (hf : s.failsafe = false) (h : ∃ z ∈ s.zones, z.number = zone) :
    tuneZone zone f s = .ok { s with zones := s.zones.map fun z => if z.number ≠ zone then z else f z } .none := by
  rw [tuneZone, if_neg (by rw [hf]; decide), if_neg (by rw [hasKey_iff.mpr h]; decide)]
  simp only [Machine.modify, ite_not]

end

/-- Settles O31: the checks are `limitsChecks_pass` and `holdChecks_pass`, and both requests are `tuneZone` when they pass. -/
theorem limitsAndHoldsAreTuned : Obligations.LimitsAndHoldsAreTuned := by
  intro tag zone gas low1 high1 low2 high2 preload s hp
  dsimp only
  rw [← limitsChecks_pass, ← holdChecks_pass, exec_setLimits, exec_setHold, takeSetLimits, takeSetHold]
  refine ⟨fun hbad => ?_, fun hbad => ?_, fun hm => ?_, fun hm => ⟨fun hnone => ?_, fun hsome => ⟨fun hgood => ?_, fun hgood => ?_⟩⟩⟩
  · obtain ⟨p, hbadField⟩ := setLimits_badField (s := s) hbad
    exact ⟨p, powered_answer hp hbadField⟩
  · obtain ⟨p, hbadField⟩ := setHold_badField (s := s) hbad
    exact ⟨p, powered_answer hp hbadField⟩
  · have hf := failsafe_true hm
    exact ⟨fun hgood => powered_answer hp ((setLimits_checked hgood).trans (tuneZone_failsafe _ hf)),
      fun hgood => powered_answer hp ((setHold_checked hgood).trans (tuneZone_failsafe _ hf))⟩
  · have hf := failsafe_false hm
    exact ⟨fun hgood => powered_answer hp ((setLimits_checked hgood).trans (tuneZone_absent _ hf hnone)),
      fun hgood => powered_answer hp ((setHold_checked hgood).trans (tuneZone_absent _ hf hnone))⟩
  · obtain ⟨-, hgas, -⟩ := (limitsChecks_pass ..).mp hgood
    have htuned := (setLimits_checked hgood).trans (tuneZone_present _ (failsafe_false hm) hsome)
    simp only [setLimits_gas gas hgas] at htuned
    exact powered_answer hp htuned
  · exact powered_answer hp ((setHold_checked hgood).trans (tuneZone_present _ (failsafe_false hm) hsome))

end Sys2Proof.ZoneEvaluation
end

