-- ==== Sys2Proof/Proofs/ZoneTargets.lean ====
section
/-! PROOFS. What the claims of its bound zones, a manual setpoint or the failsafe ask of a channel, and what a resolution does in each state
(R73, R77 to R80, R85 to R95, R145). -/

namespace Sys2Proof.ZoneEvaluation

open Sys2Proof.Machine Sys2Proof.Claims Sys2Proof.BayLoop

/-! ## Claims by class (R77) -/

theorem any_class {cls : ClaimClass} {claims : List HandedClaim} :
    (claims.any fun h => decide (h.cls = cls)) = true ↔ ∃ h ∈ claims, h.cls = cls := by simp

theorem any_class_false {cls : ClaimClass} {claims : List HandedClaim} :
    (claims.any fun h => decide (h.cls = cls)) = false ↔ ∀ h ∈ claims, h.cls ≠ cls := by simp

theorem classOf_extract {claims : List HandedClaim} (h : ∃ g ∈ claims, g.cls = .extract) : classOf claims = .extract :=
  if_pos (any_class.mpr h)

theorem classOf_isolate {claims : List HandedClaim} (hno : ∀ g ∈ claims, g.cls ≠ .extract) (h : ∃ g ∈ claims, g.cls = .isolate) :
    classOf claims = .isolate := by
  rw [classOf, any_class_false.mpr hno, any_class.mpr h]
  rfl

theorem classOf_normal {claims : List HandedClaim} (h : ∀ g ∈ claims, g.cls = .normal) : classOf claims = .normal := by
  rw [classOf, no_class (by decide) h, no_class (by decide) h]
  rfl

theorem conflictOf_none {claims : List HandedClaim} (h : ∀ g ∈ claims, g.cls ≠ .extract) : conflictOf claims = none := by
  rw [conflictOf, any_class_false.mpr h]
  rfl

/-- The conflict is the lowest isolating zone, under an extracting one (R80). -/
theorem conflictOf_eq_some {claims : List HandedClaim} {z : Nat} : conflictOf claims = some z ↔
    (∃ h ∈ claims, h.cls = .extract) ∧ (∃ h ∈ claims, h.cls = .isolate ∧ h.zone = z)
      ∧ ∀ h ∈ claims, h.cls = .isolate → z ≤ h.zone := by
  by_cases hextract : ∃ h ∈ claims, h.cls = .extract
  · have hmin : conflictOf claims = ((claims.filter fun h => decide (h.cls = .isolate)).map HandedClaim.zone).min? :=
      if_pos (any_class.mpr hextract)
    rw [hmin, List.min?_eq_some_iff]
    simp only [List.mem_map, List.mem_filter, decide_eq_true_eq, and_assoc, forall_exists_index, and_imp, hextract, true_and]
    refine and_congr_right fun _ => ⟨fun h g hg hcls => h _ g hg hcls rfl, ?_⟩
    rintro h _ g hg hcls rfl
    exact h g hg hcls
  · have hnone : conflictOf claims = none := conflictOf_none fun g hg hcls => hextract ⟨g, hg, hcls⟩
    simp [hnone, hextract]

theorem conflictOf_ne_none {claims : List HandedClaim} : conflictOf claims ≠ none ↔
    (∃ h ∈ claims, h.cls = .extract) ∧ ∃ h ∈ claims, h.cls = .isolate := by
  rw [Option.ne_none_iff_exists']
  constructor
  · rintro ⟨z, hz⟩
    obtain ⟨hextract, ⟨h, hh, hcls, -⟩, -⟩ := conflictOf_eq_some.mp hz
    exact ⟨hextract, h, hh, hcls⟩
  · rintro ⟨hextract, h, hh, hcls⟩
    have hmin : conflictOf claims = ((claims.filter fun h => decide (h.cls = .isolate)).map HandedClaim.zone).min? :=
      if_pos (any_class.mpr hextract)
    rw [hmin, ← Option.isSome_iff_exists, List.isSome_min?_iff]
    exact List.ne_nil_of_mem (List.mem_map_of_mem (List.mem_filter.mpr ⟨hh, decide_eq_true hcls⟩))

/-! ## Demands (R78, R145) -/

theorem largest_eq {l : List Nat} {v : Nat} (hle : ∀ w ∈ l, w ≤ v) (hmem : v = 0 ∨ v ∈ l) : largest l = v := by
  refine le_antisymm ?_ ?_
  · rcases largest_mem l with hzero | hin
    · omega
    · exact hle _ hin
  · rcases hmem with rfl | hin
    · exact Nat.zero_le _
    · exact le_largest hin

theorem demand_of_failsafe {s : State} (hm : s.mode = .blank ∨ s.mode = .loading) (c : Channel) :
    s.demand c = if s.latches = [] then ⟨.normal, 0, none⟩ else ⟨.extract, 100, none⟩ := by
  unfold State.demand
  rw [if_pos ((failsafe_iff s).mpr hm), anyLatch_eq]
  simp only [decide_eq_true_eq, ne_eq, ite_not]

theorem demand_of_claims {s : State} (hm : s.mode = .run ∨ s.mode = .manual) (c : Channel) : s.demand c =
    ⟨classOf (s.boundClaims c.number), wantOf s.mode c (s.boundClaims c.number), conflictOf (s.boundClaims c.number)⟩ := by
  have hf : s.failsafe = false := by
    rw [State.failsafe, (scheduled_iff s.mode).mpr hm]
    rfl
  unfold State.demand
  rw [if_neg (by rw [hf]; decide)]

section
variable {mode : Mode} {c : Channel} {claims : List HandedClaim}

theorem wantOf_extract (h : classOf claims = .extract) :
    wantOf mode c claims = max c.record.min (largest (speedsOf .extract claims)) := by
  simp only [wantOf, h, Nat.max_def]

theorem wantOf_isolate (h : classOf claims = .isolate) : wantOf mode c claims = 0 := by simp only [wantOf, h]

theorem wantOf_manual (h : classOf claims = .normal) : wantOf .manual c claims = c.record.clip (c.manual.getD 0) := by
  simp only [wantOf, h]

theorem wantOf_run (h : classOf claims = .normal) : wantOf .run c claims = c.record.clip (largest (speedsOf .normal claims)) := by
  simp only [wantOf, h]

/-- An extracting channel is asked for the largest speed claimed, at least its minimum (R78). -/
theorem wantOf_extract_bounds (h : classOf claims = .extract) :
    c.record.min ≤ wantOf mode c claims ∧ (∀ v ∈ speedsOf .extract claims, v ≤ wantOf mode c claims)
      ∧ (wantOf mode c claims = c.record.min ∨ wantOf mode c claims ∈ speedsOf .extract claims) := by
  rw [wantOf_extract h]
  refine ⟨le_max_left .., fun v hv => (le_largest hv).trans (le_max_right ..), ?_⟩
  rcases largest_mem (speedsOf .extract claims) with hzero | hin
  · exact .inl (by rw [hzero, Nat.max_zero])
  · rcases max_choice c.record.min (largest (speedsOf .extract claims)) with heq | heq
    · exact .inl heq
    · exact .inr (by rw [heq]; exact hin)

end

theorem clip_eq (r : FanRecord) (v : Nat) : r.clip v = if v = 0 then 0 else min r.max (max r.min v) := rfl

/-! ## The rule of each state (R85 to R95) -/

section
variable {c : Channel}

theorem applyTarget_sync (h : c.state = .sync) : applyTarget c = .quiet c := by simp only [applyTarget, h]

theorem applyTarget_off (h : c.state = .off) :
    applyTarget c = if 0 < c.target ∧ c.holding = false then startSequence c else .quiet c := by simp only [applyTarget, h]

theorem applyTarget_waiting (h : c.state = .opening ∨ c.state = .queued) :
    applyTarget c = if c.target = 0 then enterOff c else .quiet c := by
  rcases h with h | h <;> simp only [applyTarget, h]

theorem applyTarget_turning (h : c.state = .starting ∨ c.state = .running) :
    applyTarget c = if c.target = 0 then enterStopping c else .quiet (c.setImage c.target .opn) := by
  rcases h with h | h <;> simp only [applyTarget, h]

theorem applyTarget_stopping (h : c.state = .stopping) : applyTarget c =
    if c.target = 0 then .quiet c
    else if c.holding then .quiet { c.setImage c.target .opn with state := .starting, coast := none }
    else enterQueued c := by simp only [applyTarget, h]

theorem applyTarget_fault (h : c.state = .fault) : applyTarget c = .quiet (if c.cls = .isolate then c.setImage 0 .close else c) := by
  simp only [applyTarget, h]

theorem applyTarget_lost (h : c.state = .lost) : applyTarget c =
    if c.cls = .isolate then .quiet (c.setImage 0 .close)
    else if c.target = 0 then .quiet (c.setSetpoint 0)
    else if 0 < (c.command.map Image.setpoint).getD 0 then .quiet (c.setSetpoint c.target)
    else .quiet c := by simp only [applyTarget, h]

/-- A channel without a target stays in OFF once it is there. -/
theorem enterOff_untargeted (h : c.target = 0) : enterOff c =
    ⟨{ c.setImage 0 .close with state := .off, faultCause := none, damper := none, coast := none },
      [.fanState c.number .off c.state], c.leaves⟩ := by
  have hidle : ¬ (0 < c.target ∧ c.holding = false) := fun hstart => by omega
  have hoff : enterOff c = Eff.andThen
      ⟨{ c.setImage 0 .close with state := .off, faultCause := none, damper := none, coast := none },
        [.fanState c.number .off c.state], c.leaves⟩
      fun d => if 0 < d.target ∧ d.holding = false then startSequence d else .quiet d := rfl
  rw [hoff, Eff.andThen]
  dsimp only
  rw [if_neg (c := 0 < (c.setImage 0 .close).target ∧ (c.setImage 0 .close).holding = false) hidle]
  simp [Eff.quiet]

end

/-! ## Resolutions -/

section
variable {silent : Bool} {d : Demand} {c e : Channel} {ns : List NoticeBody} {qs : List QueueChange}

theorem queueMove_none (h : c.state ≠ .queued ∨ e.state ≠ .queued) : queueMove c e = [] :=
  if_neg fun ⟨hc, he, _⟩ => h.elim (fun hne => hne hc) fun hne => hne he

theorem queueMove_stay (hc : c.state = .queued) (he : e.state = .queued) : queueMove c e =
    if (c.cls = .extract ↔ e.cls = .extract) then [] else [.move e.number e.cls.queueClass] := by
  have hclass : (c.cls.queueClass ≠ e.cls.queueClass) ↔ ¬ (c.cls = .extract ↔ e.cls = .extract) := by
    cases c.cls <;> cases e.cls <;> decide
  unfold queueMove
  simp only [hc, he, true_and, hclass, ite_not]

/-- A resolution that moves class or target, by what the rule of the channel's state does. -/
theorem resolve_to (hmoved : ¬ (c.cls = d.cls ∧ c.target = if c.state = .fault then 0 else d.want))
    (happly : applyTarget (demanded d c) = ⟨e, ns, qs⟩) (hmove : queueMove c e = []) :
    resolve silent d c = ⟨e, conflictNotice silent d c ++ ns, qs⟩ := by
  rw [resolve_moved silent hmoved, happly, hmove, List.append_nil]

/-- A resolution of a channel that stays in QUEUED moves its entry with its class alone (R113). -/
theorem resolve_waits (h : c.state = .queued) (hmoved : ¬ (c.cls = d.cls ∧ c.target = if c.state = .fault then 0 else d.want))
    (happly : applyTarget (demanded d c) = .quiet (demanded d c)) : resolve silent d c = ⟨demanded d c, conflictNotice silent d c ++ [],
      if (c.cls = .extract ↔ d.cls = .extract) then [] else [.move c.number d.cls.queueClass]⟩ := by
  have hmove : queueMove c (demanded d c) = if (c.cls = .extract ↔ d.cls = .extract) then [] else [.move c.number d.cls.queueClass] :=
    queueMove_stay h h
  rw [resolve_moved silent hmoved, happly, Eff.quiet, hmove, List.nil_append]

theorem demanded_target (h : c.state ≠ .fault) : (demanded d c).target = d.want := if_neg h

theorem demanded_damper (d : Demand) (c : Channel) : (demanded d c).command.map Image.damper = c.command.map Image.damper := by
  unfold demanded
  rw [Option.map_map]
  rfl

theorem demanded_setpoint (d : Demand) (c : Channel) : (demanded d c).command.map Image.setpoint = c.command.map Image.setpoint := by
  unfold demanded
  rw [Option.map_map]
  rfl

end

/-! ## What O48 states of demands and of resolutions -/

/-- The demand of a channel by the claims of its bound zones. -/
theorem demand_cases {s : State} (hm : s.mode = .run ∨ s.mode = .manual) (c : Channel) :
    let claims := s.boundClaims c.number
    ((∃ h ∈ claims, h.cls = .extract) → (s.demand c).cls = .extract
      ∧ c.record.min ≤ (s.demand c).want ∧ (∀ v ∈ speedsOf .extract claims, v ≤ (s.demand c).want)
      ∧ ((s.demand c).want = c.record.min ∨ (s.demand c).want ∈ speedsOf .extract claims))
    ∧ ((∀ h ∈ claims, h.cls ≠ .extract) → (∃ h ∈ claims, h.cls = .isolate) → s.demand c = ⟨.isolate, 0, none⟩)
    ∧ ((∀ h ∈ claims, h.cls = .normal) →
      (s.mode = .manual → s.demand c = ⟨.normal, c.record.clip (c.manual.getD 0), none⟩)
      ∧ (s.mode = .run → ∀ v, (∀ w ∈ speedsOf .normal claims, w ≤ v) → (v = 0 ∨ v ∈ speedsOf .normal claims) →
          s.demand c = ⟨.normal, c.record.clip v, none⟩))
    ∧ ((s.demand c).conflict ≠ none ↔ (∃ h ∈ claims, h.cls = .extract) ∧ ∃ h ∈ claims, h.cls = .isolate)
    ∧ ∀ z, (s.demand c).conflict = some z ↔ (∃ h ∈ claims, h.cls = .extract)
        ∧ (∃ h ∈ claims, h.cls = .isolate ∧ h.zone = z) ∧ ∀ h ∈ claims, h.cls = .isolate → z ≤ h.zone := by
  dsimp only
  rw [demand_of_claims hm]
  refine ⟨fun hextract => ?_, fun hno hisolate => ?_, fun hnormal => ⟨fun hmanual => ?_, fun hrun v hle hmem => ?_⟩,
    conflictOf_ne_none, fun z => conflictOf_eq_some⟩
  · exact ⟨classOf_extract hextract, wantOf_extract_bounds (classOf_extract hextract)⟩
  · have hcls := classOf_isolate hno hisolate
    rw [wantOf_isolate hcls, hcls, conflictOf_none hno]
  · have hcls := classOf_normal hnormal
    rw [hmanual, wantOf_manual hcls, hcls, conflictOf_none fun g hg => by rw [hnormal g hg]; decide]
  · have hcls := classOf_normal hnormal
    rw [hrun, wantOf_run hcls, hcls, largest_eq hle hmem, conflictOf_none fun g hg => by rw [hnormal g hg]; decide]

/-! ## What each state does with a demand -/

section
variable {d : Demand} {c : Channel}

theorem demanded_off (h : c.state = .off) : applyTarget (demanded d c) =
    if 0 < d.want ∧ c.holding = false then startSequence (demanded d c) else .quiet (demanded d c) := by
  rw [applyTarget_off (c := demanded d c) h, demanded_target (by rw [h]; decide)]
  rfl

theorem demanded_off_stays (h : c.state = .off) (hidle : d.want = 0 ∨ c.holding = true) :
    applyTarget (demanded d c) = .quiet (demanded d c) := by
  rw [demanded_off h, if_neg]
  rintro ⟨hwant, hfree⟩
  rcases hidle with hnone | hholding
  · omega
  · exact absurd (hholding.symm.trans hfree) (by decide)

theorem demanded_off_queues (h : c.state = .off) (hwant : 0 < d.want) (hfree : c.holding = false)
    (hopen : c.report.map Report.damper = some .opn) : applyTarget (demanded d c) = enterQueued (demanded d c) := by
  rw [demanded_off h, if_pos ⟨hwant, hfree⟩]
  exact if_pos hopen

theorem demanded_off_opens (h : c.state = .off) (hwant : 0 < d.want) (hfree : c.holding = false)
    (hshut : c.report.map Report.damper ≠ some .opn) : applyTarget (demanded d c) =
      .quiet { (demanded d c).setImage 0 .opn with state := .opening, damper := some (.load c.record.damperTimeout) } := by
  rw [demanded_off h, if_pos ⟨hwant, hfree⟩]
  exact if_neg hshut

theorem demanded_waiting (h : c.state = .opening ∨ c.state = .queued) : applyTarget (demanded d c) =
    if d.want = 0 then enterOff (demanded d c) else .quiet (demanded d c) := by
  rw [applyTarget_waiting (c := demanded d c) h, demanded_target (by rcases h with h | h <;> rw [h] <;> decide)]

theorem demanded_waiting_ends (h : c.state = .opening ∨ c.state = .queued) (hwant : d.want = 0) : applyTarget (demanded d c) =
    ⟨{ (demanded d c).setImage 0 .close with state := .off, faultCause := none, damper := none, coast := none },
      [.fanState c.number .off c.state], c.leaves⟩ := by
  have htarget : (demanded d c).target = 0 := (demanded_target (by rcases h with h | h <;> rw [h] <;> decide)).trans hwant
  rw [demanded_waiting h, if_pos hwant, enterOff_untargeted htarget]
  rfl

theorem demanded_opening_ends (h : c.state = .opening) (hwant : d.want = 0) : applyTarget (demanded d c) =
    ⟨{ (demanded d c).setImage 0 .close with state := .off, faultCause := none, damper := none, coast := none },
      [.fanState c.number .off .opening], []⟩ := by
  have hleaves : c.leaves = [] := if_neg (by rw [h]; decide)
  rw [demanded_waiting_ends (.inl h) hwant, h, hleaves]

theorem demanded_queued_ends (h : c.state = .queued) (hwant : d.want = 0) : applyTarget (demanded d c) =
    ⟨{ (demanded d c).setImage 0 .close with state := .off, faultCause := none, damper := none, coast := none },
      [.fanState c.number .off .queued], [.leave c.number]⟩ := by
  have hleaves : c.leaves = [.leave c.number] := if_pos h
  rw [demanded_waiting_ends (.inr h) hwant, h, hleaves]

theorem demanded_waiting_stays (h : c.state = .opening ∨ c.state = .queued) (hwant : 0 < d.want) :
    applyTarget (demanded d c) = .quiet (demanded d c) := by rw [demanded_waiting h, if_neg hwant.ne']

theorem demanded_turning (h : c.state = .starting ∨ c.state = .running) : applyTarget (demanded d c) =
    if d.want = 0 then enterStopping (demanded d c) else .quiet ((demanded d c).setImage d.want .opn) := by
  rw [applyTarget_turning (c := demanded d c) h, demanded_target (by rcases h with h | h <;> rw [h] <;> decide)]

theorem demanded_turning_stops (h : c.state = .starting ∨ c.state = .running) (hwant : d.want = 0) :
    applyTarget (demanded d c) = ⟨toStopping (demanded d c), [], []⟩ := by rw [demanded_turning h, if_pos hwant, toStopping_eq]

theorem demanded_turning_turns (h : c.state = .starting ∨ c.state = .running) (hwant : 0 < d.want) :
    applyTarget (demanded d c) = .quiet ((demanded d c).setImage d.want .opn) := by rw [demanded_turning h, if_neg hwant.ne']

theorem demanded_stopping (h : c.state = .stopping) : applyTarget (demanded d c) =
    if d.want = 0 then .quiet (demanded d c)
    else if c.holding then .quiet { (demanded d c).setImage d.want .opn with state := .starting, coast := none }
    else enterQueued (demanded d c) := by
  rw [applyTarget_stopping (c := demanded d c) h, demanded_target (by rw [h]; decide)]
  rfl

theorem demanded_stopping_stays (h : c.state = .stopping) (hwant : d.want = 0) :
    applyTarget (demanded d c) = .quiet (demanded d c) := by rw [demanded_stopping h, if_pos hwant]

theorem demanded_stopping_restarts (h : c.state = .stopping) (hwant : 0 < d.want) (hholding : c.holding = true) :
    applyTarget (demanded d c) = .quiet { (demanded d c).setImage d.want .opn with state := .starting, coast := none } := by
  rw [demanded_stopping h, if_neg hwant.ne', if_pos hholding]

theorem demanded_stopping_queues (h : c.state = .stopping) (hwant : 0 < d.want) (hfree : c.holding = false) :
    applyTarget (demanded d c) = enterQueued (demanded d c) := by
  rw [demanded_stopping h, if_neg hwant.ne', if_neg (by rw [hfree]; decide)]

theorem demanded_fault (h : c.state = .fault) : applyTarget (demanded d c) =
    .quiet (if d.cls = .isolate then (demanded d c).setImage 0 .close else demanded d c) := applyTarget_fault (c := demanded d c) h

theorem demanded_lost_isolates (h : c.state = .lost) (hcls : d.cls = .isolate) :
    applyTarget (demanded d c) = .quiet ((demanded d c).setImage 0 .close) :=
  (applyTarget_lost (c := demanded d c) h).trans (if_pos hcls)

theorem setSetpoint_demanded (v : Nat) : (demanded d c).setSetpoint v =
    (demanded d c).setImage v ((c.command.map Image.damper).getD .close) := by rw [Channel.setSetpoint, demanded_damper]

theorem demanded_lost (h : c.state = .lost) (hcls : d.cls ≠ .isolate) : applyTarget (demanded d c) =
    if d.want = 0 then .quiet ((demanded d c).setSetpoint 0)
    else if 0 < (c.command.map Image.setpoint).getD 0 then .quiet ((demanded d c).setSetpoint d.want)
    else .quiet (demanded d c) := by
  rw [applyTarget_lost (c := demanded d c) h, if_neg (c := (demanded d c).cls = .isolate) hcls, demanded_setpoint,
    demanded_target (by rw [h]; decide)]

theorem demanded_lost_stops (h : c.state = .lost) (hcls : d.cls ≠ .isolate) (hwant : d.want = 0) : applyTarget (demanded d c) =
    .quiet ((demanded d c).setImage 0 ((c.command.map Image.damper).getD .close)) := by
  rw [demanded_lost h hcls, if_pos hwant, setSetpoint_demanded]

theorem demanded_lost_turns (h : c.state = .lost) (hcls : d.cls ≠ .isolate) (hwant : 0 < d.want)
    (hset : 0 < (c.command.map Image.setpoint).getD 0) : applyTarget (demanded d c) =
      .quiet ((demanded d c).setImage d.want ((c.command.map Image.damper).getD .close)) := by
  rw [demanded_lost h hcls, if_neg hwant.ne', if_pos hset, setSetpoint_demanded]

theorem demanded_lost_stays (h : c.state = .lost) (hcls : d.cls ≠ .isolate) (hwant : 0 < d.want)
    (hset : (c.command.map Image.setpoint).getD 0 = 0) : applyTarget (demanded d c) = .quiet (demanded d c) := by
  rw [demanded_lost h hcls, if_neg hwant.ne', if_neg (by omega)]

end

/-- Settles O48: the demands are `demand_cases`; a resolution is `resolve_to` with what the channel's state does with the demand. -/
theorem targetsFollowTheBoundClaims : Obligations.TargetsFollowTheBoundClaims := by
  refine ⟨fun c s => ⟨rfl, fun hm => demand_of_failsafe hm c, fun hm => demand_cases hm c⟩, ?_⟩
  intro silent d c target fallback queueClass onset set image held does off queued join stopping
  have hclass : queueClass = d.cls.queueClass := queueClass_eq d.cls
  have hjoin : join = .join c.number d.cls.queueClass c.record.cost := by rw [← hclass]
  refine ⟨fun h => ?_, fun h => ?_⟩
  · have hsame := resolve_same silent h
    rwa [← List.append_nil (conflictNotice silent d c)] at hsame
  have acts {e : Channel} {ns : List NoticeBody} {qs : List QueueChange} (hmove : c.state ≠ .queued ∨ e.state ≠ .queued)
    (happly : applyTarget (demanded d c) = ⟨e, ns, qs⟩) : does e ns qs := resolve_to h happly (queueMove_none hmove)
  have unqueued {st : FanState} (hs : c.state = st) (hst : st ≠ .queued := by decide) {e : Channel} :
    c.state ≠ .queued ∨ e.state ≠ .queued := .inl (hs ▸ hst)
  refine ⟨fun hs => acts (unqueued hs) (applyTarget_sync hs),
    fun hs hidle => acts (unqueued hs) (demanded_off_stays hs hidle),
    fun hs hwant hfree hopen => ?offQueues,
    fun hs hwant hfree hshut => acts (unqueued hs) (demanded_off_opens hs hwant hfree hshut),
    fun hs hwant => acts (unqueued hs) (demanded_opening_ends hs hwant),
    fun hs hwant => acts (unqueued hs) (demanded_waiting_stays (.inl hs) hwant),
    fun hs hwant => acts (.inr nofun) (demanded_queued_ends hs hwant),
    fun hs hwant => ?queuedStays,
    fun hs hwant => acts (hs.elim (unqueued ·) (unqueued ·)) (demanded_turning_stops hs hwant),
    fun hs hwant => acts (hs.elim (unqueued ·) (unqueued ·)) (demanded_turning_turns hs hwant),
    fun hs hwant => acts (unqueued hs) (demanded_stopping_stays hs hwant),
    fun hs hwant hholding => acts (unqueued hs) (demanded_stopping_restarts hs hwant hholding),
    fun hs hwant hfree => ?stoppingQueues,
    fun hs => acts (unqueued hs) (demanded_fault hs),
    fun hs hcls => acts (unqueued hs) (demanded_lost_isolates hs hcls),
    fun hs hcls hwant => acts (unqueued hs) (demanded_lost_stops hs hcls hwant),
    fun hs hcls hwant hset => acts (unqueued hs) (demanded_lost_turns hs hcls hwant hset),
    fun hs hcls hwant hset => acts (unqueued hs) (demanded_lost_stays hs hcls hwant hset)⟩
  case offQueues =>
    rw [hjoin]
    exact acts (unqueued hs) (demanded_off_queues hs hwant hfree hopen)
  case queuedStays =>
    rw [hclass]
    exact resolve_waits hs h (demanded_waiting_stays (.inr hs) hwant)
  case stoppingQueues =>
    rw [hjoin]
    exact acts (unqueued hs) (demanded_stopping_queues hs hwant hfree)

end Sys2Proof.ZoneEvaluation
end

