-- ==== Sys2Proof/Proofs/ZoneFireReset.lean ====
section
/-! PROOFS. FIRE_RESET: the latches it clears, and what becomes of the zones and channels (R133, R134, R137 to R141, R145). -/

namespace Sys2Proof.ZoneEvaluation

open Sys2Proof.Machine Sys2Proof.Claims Sys2Proof.BayLoop Sys2Proof.GasHeads

/-! ## Triggers (R129, R143) -/

theorem triggerInForce_eq (s : State) (n : Nat) : s.triggerInForce n =
    if s.mode = .blank ∨ s.mode = .loading then .levelHigh else ((s.lineRecord n).map LineRecord.trigger).getD .disabled := by
  unfold State.triggerInForce
  simp only [failsafe_iff]
  cases s.lineRecord n <;> rfl

theorem met_iff (t : Trigger) (accepted : Option PinLevel) : t.met accepted = true ↔
    (t = .levelHigh ∧ accepted = some .high) ∨ (t = .levelLow ∧ accepted = some .low) := by
  unfold Trigger.met
  split <;> simp_all

/-! ## The event -/

/-- The latches a FIRE_RESET clears (R137). -/
def clearedBy (lines : OctetSet) (s : State) : List Latch := s.latches.filter (s.clears lines)

/-- The latches it leaves. -/
def leftBy (lines : OctetSet) (s : State) : List Latch := s.latches.filter fun l => !s.clears lines l

/-- The state with the latches cleared and FIRE_CLEAR raised for each. -/
def listedBy (lines : OctetSet) (s : State) : State :=
  { s with
    latches := leftBy lines s
    ring := ringing ((clearedBy lines s).map fun l => .fireClear l.line (leftBy lines s).length l.setAt) s }

/-- The state a FIRE_RESET leaves, its reply aside. -/
def resetBy (lines : OctetSet) (s : State) : State :=
  if (clearedBy lines s).isEmpty then listedBy lines s
  else if s.failsafe then
    (if (leftBy lines s).isEmpty then resolveChannels false (fun _ => true) (listedBy lines s) else listedBy lines s)
  else releaseZones ((clearedBy lines s).map Latch.line) (listedBy lines s)

theorem fireReset_state (lines : OctetSet) (s : State) : fireReset lines s = .ok (resetBy lines s)
    (.fireReset ((List.range 8).filter fun l => lines.getLsbD l && s.latched l && s.levelMet l)
      (resetBy lines s).latches (resetBy lines s).lineViews) := by
  unfold fireReset
  dsimp only
  rw [raiseAll_eq_ringing]
  rfl

section
variable {lines : OctetSet} {s : State}

theorem resetBy_zone (lines : OctetSet) (s : State) : ZoneStep (listedBy lines s) (resetBy lines s) := by
  unfold resetBy
  split_ifs
  · exact .refl _
  · exact (resolveChannels_fan _ _ _).zone
  · exact .refl _
  · exact releaseZones_zone _ _

theorem resetBy_none (h : clearedBy lines s = []) : resetBy lines s = s := by
  have hleft : leftBy lines s = s.latches := List.filter_eq_self.mpr fun l hl => by
    simpa using List.filter_eq_nil_iff.mp h l hl
  have hlisted : resetBy lines s = listedBy lines s := if_pos (List.isEmpty_iff.mpr h)
  rw [hlisted, listedBy, h, hleft]
  rfl

theorem resetBy_failsafe (h : clearedBy lines s ≠ []) (hf : s.failsafe = true) : resetBy lines s =
    if leftBy lines s = [] then resolving (fun _ => true) (listedBy lines s) else listedBy lines s := by
  rw [resetBy, if_neg (by simpa using h), if_pos hf, resolving_eq]
  simp only [List.isEmpty_iff]

theorem resetBy_releases (h : clearedBy lines s ≠ []) (hf : s.failsafe = false) :
    resetBy lines s = zonesRelease ((clearedBy lines s).map Latch.line) (listedBy lines s) := by
  rw [resetBy, if_neg (by simpa using h), if_neg (by rw [hf]; decide), zonesRelease_eq]

/-- A FIRE_RESET changes the latches, the zones and the channels, and the ring takes FIRE_CLEAR first. -/
theorem resetBy_frame (lines : OctetSet) (s : State) : resetBy lines s = { s with
      latches := leftBy lines s, zones := (resetBy lines s).zones, handed := (resetBy lines s).handed
      channels := (resetBy lines s).channels, queue := (resetBy lines s).queue, held := (resetBy lines s).held
      ring := (resetBy lines s).ring }
    ∧ ∃ later : List NoticeBody, (resetBy lines s).ring = later.foldl (fun r m => r.append ⟨m, s.uptime⟩)
        ((clearedBy lines s).foldl (fun r l => r.append ⟨.fireClear l.line (leftBy lines s).length l.setAt, s.uptime⟩) s.ring) := by
  obtain ⟨channels, queue, held, ns, zones, handed, hstep⟩ := resetBy_zone lines s
  rw [hstep]
  refine ⟨rfl, ns, ?_⟩
  have hring : (listedBy lines s).ring =
      (clearedBy lines s).foldl (fun r l => r.append ⟨.fireClear l.line (leftBy lines s).length l.setAt, s.uptime⟩) s.ring :=
    List.foldl_map
  rw [← hring]
  rfl

/-! ## Under the failsafe (R145) -/

/-- Without a latch the failsafe asks every channel to stop. -/
theorem resolved_unlatched {t : State} (hf : t.failsafe = true) (hl : t.latches = []) :
    ∀ c ∈ (resolveChannels false (fun _ => true) t).channels, c.cls = .normal ∧ c.target = 0 := by
  have hdemand (c : Channel) : t.demand c = ⟨.normal, 0, none⟩ := by
    rw [demand_of_failsafe ((failsafe_iff t).mp hf), if_pos hl]
  have hmap : (resolveChannels false (fun _ => true) t).channels.map (fun c => (c.cls, c.target)) =
      t.channels.map fun _ => (ClaimClass.normal, 0) := by
    have hevent : resolveChannels false (fun _ => true) t = fanEvent (fun c => resolve false (t.demand c) c) t := rfl
    rw [hevent, fanEvent_eq, applyChanges_map (fun c => (c.cls, c.target)) fun _ => rfl, List.map_map]
    refine List.map_congr_left fun c _ => ?_
    obtain ⟨-, hcls, htarget, -⟩ := resolve_booked false (t.demand c) c
    rw [hdemand] at hcls htarget
    simp only [Function.comp, hdemand, hcls, htarget, ite_self]
  intro c hc
  have hpair : (c.cls, c.target) ∈ t.channels.map fun _ => (ClaimClass.normal, 0) := hmap ▸ List.mem_map_of_mem hc
  obtain ⟨-, -, heq⟩ := List.mem_map.mp hpair
  exact ⟨(congrArg Prod.fst heq).symm, (congrArg Prod.snd heq).symm⟩

end

/-! ## Zones under a latch list (R133, R134) -/

/-- A zone in the fire state that a line's plan assigns it, with a conflict set. -/
def Governed (g : Nat) (a : Assignment) (conflict : List Nat) (z : Zone) : Prop :=
  match a with
  | .extract speed =>
    z.state = .fireExtract ∧ z.governing = some g ∧ z.claim = speed ∧ z.claimClass = .extract ∧ z.conflict = conflict
  | .isolate => z.state = .fireIsolate ∧ z.governing = some g ∧ z.claim = 0 ∧ z.claimClass = .isolate ∧ z.conflict = conflict

section
variable {records : List LineRecord} {latched : List Nat} {g : Nat} {a : Assignment} {z : Zone}

theorem Governed.fields {conflict : List Nat} (h : Governed g a conflict z) : z.governing = some g ∧ z.conflict = conflict := by
  cases a <;> exact ⟨h.2.1, h.2.2.2.2⟩

theorem Governed.withConflict {conflict : List Nat} (h : Governed g a conflict z) (l : List Nat) :
    Governed g a l { z with conflict := l } := by
  cases a with
  | extract speed =>
    obtain ⟨hstate, hgoverning, hclaim, hcls, -⟩ := h
    exact ⟨hstate, hgoverning, hclaim, hcls, rfl⟩
  | isolate =>
    obtain ⟨hstate, hgoverning, hclaim, hcls, -⟩ := h
    exact ⟨hstate, hgoverning, hclaim, hcls, rfl⟩

theorem enterFire_governed (g : Nat) (a : Assignment) (conflict : List Nat) (z : Zone) :
    Governed g a conflict { z.enterFire g a with conflict := conflict } := by
  cases a <;> exact ⟨rfl, rfl, rfl, rfl, rfl⟩

theorem fireOk_governed (h : governor records latched z.number = some (g, a)) :
    z.fireOk records latched ↔ Governed g a (conflictSet records latched g z.number) z := by
  unfold Zone.fireOk
  rw [h]
  cases a <;> exact Iff.rfl

theorem fireOk_ungoverned (h : governor records latched z.number = none) :
    z.fireOk records latched ↔ z.state.isFire = false ∧ z.governing = none ∧ z.conflict = [] := by
  unfold Zone.fireOk
  rw [h]

theorem governor_mem {n : Nat} (h : governor records latched n = some (g, a)) : g ∈ latched := by
  obtain ⟨l, hl, hmap⟩ := List.exists_of_findSome?_eq_some h
  obtain ⟨b, -, heq⟩ := Option.map_eq_some_iff.mp hmap
  have hsame : l = g := congrArg Prod.fst heq
  exact hsame ▸ hl

theorem governor_none {n : Nat} : governor records latched n = none ↔ ∀ l ∈ latched, assignment records l n = none := by
  simp [governor]

/-- A line that governs a zone governs it still while it stays latched. -/
theorem governor_filter {n : Nat} {keep : Nat → Bool} (h : governor records latched n = some (g, a)) (hg : keep g = true) :
    governor records (latched.filter keep) n = some (g, a) := by
  induction latched with
  | nil => cases h
  | cons l latched ih =>
    unfold governor at h ih ⊢
    rw [List.findSome?_cons] at h
    cases hl : assignment records l n with
    | none =>
      rw [hl] at h
      have hrest := ih h
      rw [List.filter_cons]
      split
      · rw [List.findSome?_cons, hl]
        exact hrest
      · exact hrest
    | some b =>
      rw [hl] at h
      obtain ⟨rfl, rfl⟩ := Prod.mk.inj (Option.some.inj h)
      rw [List.filter_cons_of_pos hg, List.findSome?_cons, hl]
      rfl

/-! ## Zones released (R139, R140) -/

theorem release_kept {cleared left : List Nat} (hg : z.governing = some g) (h : g ∉ cleared) :
    (z.release records cleared left).1 = { z with conflict := z.conflict.filter fun l => !cleared.contains l } := by
  have hnot : cleared.contains g = false := by simpa using h
  simp only [Zone.release, hg, hnot, Bool.false_eq_true, if_false]

theorem release_passed {cleared left : List Nat} {n : Nat} (hg : z.governing = some g) (h : g ∈ cleared)
    (hnext : governor records left z.number = some (n, a)) :
    (z.release records cleared left).1 = { z.enterFire n a with conflict := conflictSet records left n z.number } := by
  have hin : cleared.contains g = true := by simpa using h
  simp only [Zone.release, hg, hin, if_true, hnext]

theorem release_freed {cleared left : List Nat} (hg : z.governing = some g) (h : g ∈ cleared)
    (hnone : governor records left z.number = none) :
    (z.release records cleared left).1 = z.enter (if z.liveCount = 0 ∧ z.graceOver = true then .blind else .runOn) := by
  have hin : cleared.contains g = true := by simpa using h
  simp only [Zone.release, hg, hin, if_true, hnone]

theorem freed_normal (z : Zone) : (if z.liveCount = 0 ∧ z.graceOver = true then ZoneState.blind else .runOn).isFire = false := by
  split <;> rfl

/-- A conflict set loses the lines that are cleared. -/
theorem conflictSet_filter (clears : Nat → Bool) (n : Nat) :
    (conflictSet records latched g n).filter (fun l => !(latched.filter clears).contains l) =
      conflictSet records (latched.filter fun l => !clears l) g n := by
  unfold conflictSet
  rw [List.filter_filter, List.filter_filter]
  refine List.filter_congr fun l hl => ?_
  have hin : (latched.filter clears).contains l = clears l := by
    rw [Bool.eq_iff_iff, List.contains_iff_mem, List.mem_filter]
    exact and_iff_right hl
  rw [hin, Bool.and_comm]

/-- A zone that followed the latch list follows it after some lines are cleared: it stays, passes to the next line, or is free. -/
theorem release_fireOk (clears : Nat → Bool) (h : z.fireOk records latched) :
    (z.release records (latched.filter clears) (latched.filter fun l => !clears l)).1.fireOk records
      (latched.filter fun l => !clears l) := by
  cases hgovernor : governor records latched z.number with
  | none =>
    obtain ⟨hstate, hfree, hconflict⟩ := (fireOk_ungoverned hgovernor).mp h
    have hstill : governor records (latched.filter fun l => !clears l) z.number = none :=
      governor_none.mpr fun l hl => governor_none.mp hgovernor l (List.mem_of_mem_filter hl)
    have hsame : (z.release records (latched.filter clears) (latched.filter fun l => !clears l)).1 = z := by
      simp only [Zone.release, hfree]
    rw [hsame]
    exact (fireOk_ungoverned hstill).mpr ⟨hstate, hfree, hconflict⟩
  | some ga =>
    obtain ⟨g, a⟩ := ga
    have hgoverned := (fireOk_governed hgovernor).mp h
    obtain ⟨hgoverning, hconflict⟩ := hgoverned.fields
    have hmem := governor_mem hgovernor
    cases hcleared : clears g with
    | false =>
      have hkept : g ∉ latched.filter clears := fun hin => by
        rw [(List.mem_filter.mp hin).2] at hcleared
        cases hcleared
      have hstill : governor records (latched.filter fun l => !clears l) z.number = some (g, a) :=
        governor_filter (keep := fun l => !clears l) hgovernor (by rw [hcleared]; rfl)
      rw [release_kept hgoverning hkept, hconflict, conflictSet_filter]
      refine (fireOk_governed (g := g) (a := a) ?_).mpr (hgoverned.withConflict _)
      exact hstill
    | true =>
      have hin : g ∈ latched.filter clears := List.mem_filter.mpr ⟨hmem, hcleared⟩
      cases hnext : governor records (latched.filter fun l => !clears l) z.number with
      | none =>
        have hnumber : (z.enter (if z.liveCount = 0 ∧ z.graceOver = true then .blind else .runOn)).number = z.number :=
          congrArg ZoneRecord.zone (enter_record _ z)
        rw [release_freed hgoverning hin hnext, fireOk_ungoverned (by rw [hnumber]; exact hnext), enter_normal (freed_normal z)]
        exact ⟨freed_normal z, rfl, rfl⟩
      | some next =>
        obtain ⟨n, b⟩ := next
        have hnumber : (z.enterFire n b).number = z.number := congrArg ZoneRecord.zone (enterFire_record n b z)
        rw [release_passed hgoverning hin hnext]
        refine (fireOk_governed (g := n) (a := b) ?_).mpr ?_
        · exact (congrArg _ hnumber).trans hnext
        · rw [← hnumber]
          exact enterFire_governed n b _ z

end

/-! ## The zones after a FIRE_RESET -/

section
variable {lines : OctetSet} {s : State}

theorem clears_line (lines : OctetSet) (s : State) (l : Latch) : s.clears lines l = (lines.getLsbD l.line && !s.levelMet l.line) := rfl

theorem cleared_lines (lines : OctetSet) (s : State) : (clearedBy lines s).map Latch.line =
    s.latchedLines.filter fun n => lines.getLsbD n && !s.levelMet n := by
  rw [State.latchedLines, List.filter_map]
  rfl

theorem left_lines (lines : OctetSet) (s : State) : (leftBy lines s).map Latch.line =
    s.latchedLines.filter fun n => !(lines.getLsbD n && !s.levelMet n) := by
  rw [State.latchedLines, List.filter_map]
  rfl

theorem resetBy_zones (h : clearedBy lines s ≠ []) (hf : s.failsafe = false) : (resetBy lines s).zones = s.zones.map fun z =>
    (z.release s.lineRecords ((clearedBy lines s).map Latch.line) ((leftBy lines s).map Latch.line)).1 := by
  rw [resetBy_releases h hf, zonesRelease_eq, releaseZones, commitZones_frame]
  exact List.map_map

theorem resetBy_zones_failsafe (hf : s.failsafe = true) : (resetBy lines s).zones = s.zones := by
  have hresolved : (resolveChannels false (fun _ => true) (listedBy lines s)).zones = s.zones := by
    obtain ⟨_, _, _, _, h⟩ := resolveChannels_fan false (fun _ => true) (listedBy lines s)
    rw [h]
    rfl
  unfold resetBy
  rw [if_pos hf]
  split_ifs
  · rfl
  · exact hresolved
  · rfl

/-- Every zone follows the latches that are left. -/
theorem resetBy_fireOk (hf : s.failsafe = false) (h : s.firesOk) :
    ∀ z ∈ (resetBy lines s).zones, z.fireOk s.lineRecords ((leftBy lines s).map Latch.line) := by
  intro y hy
  by_cases hnone : clearedBy lines s = []
  · have hleft : leftBy lines s = s.latches := by
      have hframe := (resetBy_frame lines s).1
      rw [resetBy_none hnone] at hframe
      exact (congrArg State.latches hframe).symm
    rw [resetBy_none hnone] at hy
    rw [hleft]
    exact h.2 y hy
  · rw [resetBy_zones hnone hf, cleared_lines, left_lines] at hy
    obtain ⟨z, hz, rfl⟩ := List.mem_map.mp hy
    rw [left_lines]
    exact release_fireOk _ (h.2 z hz)

/-- A zone whose governing line is cleared, and that no latched line names, goes to BLIND or RUN_ON with its boost (R139). -/
theorem resetBy_frees (hf : s.failsafe = false) {z : Zone} (hz : z ∈ s.zones) {g : Nat} (hg : z.governing = some g)
    (hcleared : g ∈ (clearedBy lines s).map Latch.line)
    (hnone : ∀ k ∈ leftBy lines s, assignment s.lineRecords k.line z.number = none) :
    ∃ y ∈ (resetBy lines s).zones, y.record = z.record ∧ y.boost = z.boost
      ∧ y.state = (if z.liveCount = 0 ∧ z.grace.remaining = 0 then .blind else .runOn)
      ∧ y.hold = if z.liveCount = 0 ∧ z.grace.remaining = 0 then none else some ⟨z.record.hold, false⟩ := by
  have hsome : clearedBy lines s ≠ [] := by
    intro hempty
    rw [hempty] at hcleared
    cases hcleared
  have hgovernor : governor s.lineRecords ((leftBy lines s).map Latch.line) z.number = none :=
    governor_none.mpr (List.forall_mem_map.mpr hnone)
  refine ⟨_, by rw [resetBy_zones hsome hf]; exact List.mem_map_of_mem hz, ?_⟩
  rw [release_freed hg hcleared hgovernor, enter_normal (freed_normal z)]
  have hblind : (z.liveCount = 0 ∧ z.graceOver = true) ↔ (z.liveCount = 0 ∧ z.grace.remaining = 0) := by
    simp [Zone.graceOver]
  simp only [hblind]
  refine ⟨trivial, trivial, trivial, ?_⟩
  split <;> rfl

end

/-- Settles O35: the event is `resetBy`, its zones those of `Zone.release`. -/
theorem fireResetClearsLatches : Obligations.FireResetClearsLatches := by
  intro tag lines s hp tr accepted met cleared left held
  have htr (n : Nat) : s.triggerInForce n = tr n := triggerInForce_eq s n
  have hmet (n : Nat) : s.levelMet n = true ↔ met n := by
    rw [State.levelMet, met_iff, htr]
    exact Iff.rfl
  have hclears (l : Latch) : s.clears lines l = true ↔ lines.getLsbD l.line = true ∧ ¬ met l.line := by
    rw [clears_line, Bool.and_eq_true, Bool.not_eq_true', ← Bool.not_eq_true, hmet]
  have hcleared : cleared = clearedBy lines s := List.filter_congr fun l _ => by
    rw [Bool.eq_iff_iff, hclears, decide_eq_true_iff]
  have hleft : left = leftBy lines s := List.filter_congr fun l _ => by
    rw [Bool.eq_iff_iff, Bool.not_eq_true', ← Bool.not_eq_true, hclears, decide_eq_true_iff]
  have hheld : held = (List.range 8).filter fun l => lines.getLsbD l && s.latched l && s.levelMet l :=
    List.filter_congr fun n _ => by
      rw [Bool.eq_iff_iff, Bool.and_eq_true, Bool.and_eq_true, hmet, decide_eq_true_iff, and_assoc]
      simp [State.latched]
  clear_value cleared left held
  subst hcleared hleft hheld
  obtain ⟨hframe, hring⟩ := resetBy_frame lines s
  refine ⟨resetBy lines s, ?_, hframe, resetBy_none, fun hsome => ⟨fun hm => resetBy_failsafe hsome (failsafe_true hm),
    fun hm => resetBy_releases hsome (failsafe_false hm)⟩, hring, fun hm => ⟨?_, fun hsome hempty => ?_⟩,
    fun hm hok => ⟨resetBy_fireOk (failsafe_false hm) hok, fun z hz g hg => resetBy_frees (failsafe_false hm) hz hg⟩⟩
  · have hlatches : (resetBy lines s).latches = leftBy lines s := by rw [hframe]
    have hviews : (resetBy lines s).lineViews = s.lines.map fun l => ⟨tr l.line, l.accepted, l.pendingLevel.isSome⟩ := by
      have hsame : (resetBy lines s).lineViews = s.lineViews := by
        rw [hframe]
        rfl
      rw [hsame, State.lineViews]
      simp only [htr]
    rw [exec_fireReset, takeFireReset, ← hlatches, ← hviews]
    exact powered_answer hp (fireReset_state lines s)
  · exact resetBy_zones_failsafe (failsafe_true hm)
  · rw [resetBy_failsafe hsome (failsafe_true hm), if_pos hempty, resolving_eq]
    exact resolved_unlatched (t := listedBy lines s) (failsafe_true hm) hempty

end Sys2Proof.ZoneEvaluation
end

