-- ==== Sys2Proof/Proofs/FanReports.lean ====
section
/-! PROOFS. What a VALID report does to a channel, state by state (R75, R84 to R95). -/

namespace Sys2Proof.FanChannels

open Sys2Proof.Machine Sys2Proof.Claims Sys2Proof.BayLoop

/-! ## The rule of each state -/

/-- A channel with a report stored (R75). -/
def reported (r : Report) (c : Channel) : Channel :=
  { c with report := some r, misses := 0, mismatch := false, reportedSinceGrant := true }

section
variable {r : Report} {c : Channel}

theorem takeReport_sync (h : c.state = .sync) : takeReport r c = adopt r (reported r c) := by
  cases c; cases h; rfl

theorem takeReport_steady (h : c.state = .off ∨ c.state = .starting) :
    takeReport r c = if r.trip.isSome then enterFault .trip (reported r c) else .quiet (reported r c) := by
  cases c; rcases h with h | h <;> cases h <;> rfl

theorem takeReport_opening (h : c.state = .opening) : takeReport r c =
    if r.trip.isSome then enterFault .trip (reported r c)
    else if r.damper = .opn then enterQueued (reported r c)
    else if r.damper = .jammed then enterFault .damper (reported r c)
    else .quiet (reported r c) := by
  cases c; cases h; rfl

theorem takeReport_queued (h : c.state = .queued) : takeReport r c =
    if r.trip.isSome then enterFault .trip (reported r c)
    else if r.damper = .jammed then enterFault .damper (reported r c) else .quiet (reported r c) := by
  cases c; cases h; rfl

theorem takeReport_running (h : c.state = .running) : takeReport r c =
    if r.trip.isSome then enterFault .trip (reported r c)
    else if r.run = .stopped ∧ 0 < c.target then enterFault .stall (reported r c) else .quiet (reported r c) := by
  cases c; cases h; rfl

theorem takeReport_stopping (h : c.state = .stopping) : takeReport r c =
    if r.trip.isSome then enterFault .trip (reported r c)
    else if r.run = .stopped then enterOff (reported r c) else .quiet (reported r c) := by
  cases c; cases h; rfl

theorem takeReport_fault (h : c.state = .fault) : takeReport r c = .quiet (reported r c) := by
  cases c; cases h; rfl

theorem takeReport_lost (h : c.state = .lost) : takeReport r c =
    if c.recover = 0 then .quiet { reported r c with recover := 1 } else adopt r { reported r c with recover := 0 } := by
  cases c; cases h; rfl

end

/-! ## Adoption (R84, R94) -/

/-- Adoption in the words of the statements. -/
theorem adopt_eq (r : Report) (c : Channel) : adopt r c =
    if r.trip ≠ none then toFault .trip c
    else if (r.run = .running ∨ r.run = .accelerating) ∧ r.damper = .opn then
      ⟨if c.target = 0 then toStopping (toRunning c).ch else (toRunning c).ch, (toRunning c).notices, (toRunning c).changes⟩
    else toOff c := by
  have hturning : (enterRunning c).andThen (fun d => if d.target = 0 then enterStopping d else .quiet d) =
      ⟨if c.target = 0 then toStopping (toRunning c).ch else (toRunning c).ch, (toRunning c).notices, (toRunning c).changes⟩ := by
    have htarget : (enterRunning c).ch.target = c.target := rfl
    unfold Eff.andThen
    dsimp only
    rw [htarget, ← toRunning_eq]
    split
    · rw [← toStopping_eq]
      simp only [List.append_nil]
    · simp only [Eff.quiet, List.append_nil]
  unfold adopt
  rw [hturning, toFault_eq, toOff_eq]
  simp only [Option.isSome_iff_ne_none]

theorem enterOff_state (c : Channel) : (enterOff c).ch.state =
    if c.target = 0 ∨ c.holding = true then .off else if c.report.map Report.damper = some .opn then .queued else .opening := by
  have hstart : (enterOff c).ch.state = (if 0 < c.target ∧ c.holding = false then
      (if c.report.map Report.damper = some .opn then FanState.queued else .opening) else .off) := by
    rw [← toOff_eq]
    unfold toOff toStart
    dsimp only
    split
    · split <;> rfl
    · rfl
  rw [hstart]
  by_cases hidle : c.target = 0 ∨ c.holding = true
  · rw [if_pos hidle, if_neg]
    rintro ⟨htarget, hfree⟩
    exact hidle.elim (Nat.ne_of_gt htarget) (by rw [hfree]; exact Bool.false_ne_true)
  · obtain ⟨htarget, hfree⟩ := not_or.mp hidle
    rw [if_neg hidle, if_pos ⟨Nat.pos_of_ne_zero htarget, Bool.eq_false_iff.mpr hfree⟩]

/-- A report is adopted from SYNC, and from LOST when it is the second VALID one in a row. -/
theorem takeReport_adopts {r : Report} {c : Channel} (h : c.state = .sync ∨ c.state = .lost ∧ c.recover ≠ 0) :
    ∃ k : Channel, takeReport r c = adopt r k ∧ k.state = c.state ∧ k.record = c.record ∧ k.target = c.target
      ∧ k.holding = c.holding ∧ k.report = some r := by
  rcases h with hs | ⟨hs, hrecover⟩
  · exact ⟨reported r c, takeReport_sync hs, rfl, rfl, rfl, rfl, rfl⟩
  · exact ⟨{ reported r c with recover := 0 }, by rw [takeReport_lost hs, if_neg hrecover], rfl, rfl, rfl, rfl, rfl⟩

/-! ## Trips (R92) -/

theorem takeReport_trips {r : Report} {c : Channel} (hlost : c.state ≠ .lost ∨ c.recover ≠ 0) (hfault : c.state ≠ .fault)
    (htrip : r.trip ≠ none) : ∃ k : Channel, takeReport r c = enterFault .trip k ∧ k.state = c.state ∧ k.record = c.record := by
  have hsome : r.trip.isSome = true := Option.isSome_iff_ne_none.mpr htrip
  have hadopts (h : c.state = .sync ∨ c.state = .lost ∧ c.recover ≠ 0) :
      ∃ k : Channel, takeReport r c = enterFault .trip k ∧ k.state = c.state ∧ k.record = c.record := by
    obtain ⟨k, hk, hstate, hrecord, -⟩ := takeReport_adopts (r := r) h
    exact ⟨k, hk.trans (if_pos hsome), hstate, hrecord⟩
  cases hs : c.state
  case sync => exact hs ▸ hadopts (.inl hs)
  case lost => exact hs ▸ hadopts (.inr ⟨hs, hlost.resolve_left (not_not_intro hs)⟩)
  case fault => exact absurd hs hfault
  case off => exact ⟨reported r c, (takeReport_steady (.inl hs)).trans (if_pos hsome), hs, rfl⟩
  case starting => exact ⟨reported r c, (takeReport_steady (.inr hs)).trans (if_pos hsome), hs, rfl⟩
  case opening => exact ⟨reported r c, (takeReport_opening hs).trans (if_pos hsome), hs, rfl⟩
  case queued => exact ⟨reported r c, (takeReport_queued hs).trans (if_pos hsome), hs, rfl⟩
  case running => exact ⟨reported r c, (takeReport_running hs).trans (if_pos hsome), hs, rfl⟩
  case stopping => exact ⟨reported r c, (takeReport_stopping hs).trans (if_pos hsome), hs, rfl⟩

/-! ## What no report changes -/

/-- What a report stores, and what of a channel it leaves alone. -/
def lasting (c : Channel) :=
  ((c.report, c.misses, c.mismatch, c.reportedSinceGrant),
    (c.record, c.holding, c.cls, c.acknowledged, c.manual, c.cyclesSince, c.conflict))

theorem leaveStart_lasting (c : Channel) : lasting c.leaveStart = lasting c := by
  unfold Channel.leaveStart
  split <;> rfl

theorem enterFault_lasting (cause : FaultCause) (c : Channel) : lasting (enterFault cause c).ch = lasting c := leaveStart_lasting c

theorem enterOff_lasting (c : Channel) : lasting (enterOff c).ch = lasting c := by
  rw [← toOff_eq]
  unfold toOff toStart
  dsimp only
  split
  · split <;> rfl
  · rfl

theorem adopt_lasting (r : Report) (c : Channel) : lasting (adopt r c).ch = lasting c := by
  unfold adopt
  split
  · exact enterFault_lasting _ c
  · split
    · unfold Eff.andThen
      dsimp only
      split
      · exact leaveStart_lasting (enterRunning c).ch
      · rfl
    · exact enterOff_lasting c

theorem takeReport_lasting (r : Report) (c : Channel) : lasting (takeReport r c).ch = lasting (reported r c) := by
  cases hs : c.state
  case sync => rw [takeReport_sync hs, adopt_lasting]
  case fault => rw [takeReport_fault hs]; rfl
  case lost =>
    rw [takeReport_lost hs]
    split
    · rfl
    · exact adopt_lasting r _
  case off => rw [takeReport_steady (.inl hs)]; split; exacts [enterFault_lasting _ _, rfl]
  case starting => rw [takeReport_steady (.inr hs)]; split; exacts [enterFault_lasting _ _, rfl]
  case opening => rw [takeReport_opening hs]; split_ifs; exacts [enterFault_lasting _ _, rfl, enterFault_lasting _ _, rfl]
  case queued => rw [takeReport_queued hs]; split_ifs; exacts [enterFault_lasting _ _, enterFault_lasting _ _, rfl]
  case running => rw [takeReport_running hs]; split_ifs; exacts [enterFault_lasting _ _, enterFault_lasting _ _, rfl]
  case stopping => rw [takeReport_stopping hs]; split_ifs; exacts [enterFault_lasting _ _, enterOff_lasting _, rfl]

/-! ## The state after a report -/

/-- The state that a report without a trip leaves to a channel in each state but SYNC and LOST (R84 to R92). -/
theorem state_after_report {r : Report} {c : Channel} (htrip : r.trip = none) :
    (c.state = .off → (takeReport r c).ch.state = .off)
    ∧ (c.state = .opening → (takeReport r c).ch.state =
        if r.damper = .opn then .queued else if r.damper = .jammed then .fault else .opening)
    ∧ (c.state = .queued → (takeReport r c).ch.state = if r.damper = .jammed then .fault else .queued)
    ∧ (c.state = .starting → (takeReport r c).ch.state = .starting)
    ∧ (c.state = .running → (takeReport r c).ch.state = if r.run = .stopped ∧ 0 < c.target then .fault else .running)
    ∧ (c.state = .stopping → r.run ≠ .stopped → (takeReport r c).ch.state = .stopping)
    ∧ (c.state = .stopping → r.run = .stopped → c.target = 0 → (takeReport r c).ch.state = .off) := by
  have hnone : ¬ r.trip.isSome = true := by rw [htrip]; exact Bool.false_ne_true
  refine ⟨fun hs => ?_, fun hs => ?_, fun hs => ?_, fun hs => ?_, fun hs => ?_, fun hs hrun => ?_, fun hs hrun htarget => ?_⟩
  · rw [takeReport_steady (.inl hs), if_neg hnone]
    exact hs
  · rw [takeReport_opening hs, if_neg hnone]
    split_ifs
    exacts [rfl, rfl, hs]
  · rw [takeReport_queued hs, if_neg hnone]
    split
    exacts [rfl, hs]
  · rw [takeReport_steady (.inr hs), if_neg hnone]
    exact hs
  · rw [takeReport_running hs, if_neg hnone]
    split
    exacts [rfl, hs]
  · rw [takeReport_stopping hs, if_neg hnone, if_neg hrun]
    exact hs
  · rw [takeReport_stopping hs, if_neg hnone, if_pos hrun, enterOff_state]
    exact if_pos (.inl htarget)

/-- A report adopted without a trip: the fan turns and its channel runs or stops, or the channel is OFF and may start (R84). -/
theorem adopted_after_report {r : Report} {c : Channel} (htrip : r.trip = none)
    (h : c.state = .sync ∨ (c.state = .lost ∧ c.recover = 1)) :
    ((r.run = .running ∨ r.run = .accelerating) ∧ r.damper = .opn →
      (takeReport r c).ch.state = (if c.target = 0 then .stopping else .running)
        ∧ (takeReport r c).notices = [.fanState c.number .running c.state])
    ∧ (¬ ((r.run = .running ∨ r.run = .accelerating) ∧ r.damper = .opn) →
      (takeReport r c).notices = [.fanState c.number .off c.state]
        ∧ (takeReport r c).ch.state =
          if c.target = 0 ∨ c.holding = true then .off else if r.damper = .opn then .queued else .opening) := by
  obtain ⟨k, hk, hstate, hrecord, htarget, hholding, hreport⟩ :=
    takeReport_adopts (r := r) (h.imp_right fun hl => ⟨hl.1, by rw [hl.2]; exact one_ne_zero⟩)
  have hnumber : k.number = c.number := congrArg FanRecord.channel hrecord
  rw [hk, adopt_eq, if_neg (not_not_intro htrip), ← hstate, ← hnumber, ← htarget, ← hholding]
  refine ⟨fun hturns => ?_, fun hstill => ?_⟩
  · rw [if_pos hturns]
    refine ⟨?_, rfl⟩
    dsimp only
    split <;> rfl
  · rw [if_neg hstill, toOff_eq]
    refine ⟨enterOff_notices k, ?_⟩
    rw [enterOff_state, hreport]
    simp only [Option.map_some, Option.some.injEq]

/-- Settles O43: the rule of each state, with what every report stores and leaves alone. -/
theorem reportsMoveChannelsByTheirState : Obligations.ReportsMoveChannelsByTheirState := by
  intro r c e after
  obtain ⟨⟨hreport, hmisses, hmismatch, hsince⟩, hrecord, hholding, hcls, hacknowledged, hmanual, hcycles, hconflict⟩ :
      (e.ch.report = some r ∧ e.ch.misses = 0 ∧ e.ch.mismatch = false ∧ e.ch.reportedSinceGrant = true)
        ∧ e.ch.record = c.record ∧ e.ch.holding = c.holding ∧ e.ch.cls = c.cls ∧ e.ch.acknowledged = c.acknowledged
        ∧ e.ch.manual = c.manual ∧ e.ch.cyclesSince = c.cyclesSince ∧ e.ch.conflict = c.conflict := by
    simpa only [lasting, reported, Prod.mk.injEq] using takeReport_lasting r c
  refine ⟨fun hlost hfault htrip => ?_, fun htrip => ⟨adopted_after_report htrip, state_after_report htrip⟩, fun hs => ?_,
    fun hs hrecover => ?_, hreport, hmisses, hmismatch, hsince, hrecord, hholding, hcls, hacknowledged, hmanual, hcycles,
    hconflict, ?_⟩
  · obtain ⟨k, hk, hstate, hnumber⟩ := takeReport_trips hlost hfault htrip
    have htripped : e = enterFault .trip k := hk
    rw [Channel.number, ← hstate, ← hnumber, show after = e.ch.state from rfl, htripped]
    exact ⟨rfl, rfl, rfl, rfl⟩
  · have hkept : e = .quiet (reported r c) := takeReport_fault hs
    rw [show after = e.ch.state from rfl, hkept]
    exact ⟨hs, rfl⟩
  · have hfirst : e = .quiet { reported r c with recover := 1 } := (takeReport_lost hs).trans (if_pos hrecover)
    rw [show after = e.ch.state from rfl, hfirst]
    exact ⟨hs, rfl⟩
  · intro stored adopted still
    have hwords : ∀ d : Channel, adopt r d = adopted d := adopt_eq r
    have hevent : e = takeReport r c := rfl
    have hstored : reported r c = stored := rfl
    have hstill : Eff.quiet stored = still := rfl
    rw [hevent]
    have hsome : r.trip.isSome = true ↔ r.trip ≠ none := Option.isSome_iff_ne_none
    split
    next hs => rw [takeReport_sync hs, hwords, hstored]
    next hs => rw [takeReport_lost hs, hwords]; rfl
    next hs => exact takeReport_fault hs
    next hs => simp only [takeReport_steady (.inl hs), hstored, hstill, hsome, toFault_eq]
    next hs => simp only [takeReport_steady (.inr hs), hstored, hstill, hsome, toFault_eq]
    next hs => simp only [takeReport_opening hs, hstored, hstill, hsome, toFault_eq, toQueued_eq]
    next hs => simp only [takeReport_queued hs, hstored, hstill, hsome, toFault_eq]
    next hs => simp only [takeReport_running hs, hstored, hstill, hsome, toFault_eq]
    next hs => simp only [takeReport_stopping hs, hstored, hstill, hsome, toFault_eq, toOff_eq]

end Sys2Proof.FanChannels
end

