-- ==== Sys2Proof/Proofs/FanDescent.lean ====
section
/-! PROOFS. Where the channels of a state come from: after every step each channel is one that stood before it, or one just made, after a
few moves of a single channel; so a law of single channels is kept by every step when those moves keep it. -/

namespace Sys2Proof.FanChannels

open Sys2Proof.Machine Sys2Proof.Claims Sys2Proof.BayLoop

/-! ## The moves of one channel -/

/-- What an event can do to one channel. -/
inductive ChannelMove : Channel → Channel → Prop where
  /-- A resolution (R77 to R80). -/
  | resolved (silent : Bool) (d : Demand) (c : Channel) : ChannelMove c (resolve silent d c).ch
  /-- A classified poll (R75, R76). -/
  | polled (draws limit want : Nat) (r : Received) (cls : PollClass) (c : Channel) :
      ChannelMove c (c.polled draws limit want r cls).ch
  /-- A command that was not acknowledged (R76, R93). -/
  | missed (limit want : Nat) (c : Channel) : ChannelMove c (missPoll limit want c).ch
  /-- A command that was (R83, R88). -/
  | acknowledged (carried : Image) (c : Channel) : ChannelMove c (ackCommand carried c)
  /-- A drive that left the discovered list (R146). -/
  | lost (want : Nat) (c : Channel) : ChannelMove c (enterLost want c).ch
  /-- Damper timer expiry (R86). -/
  | damper (c : Channel) : ChannelMove c (damperExpired c).ch
  /-- Coast timer expiry (R91). -/
  | coast (c : Channel) : ChannelMove c (coastExpired c).ch
  /-- Settle expiry: the end of the holding, then the rule of the state (R89). -/
  | ended (c : Channel) : ChannelMove c (endHolding c)
  | settled (c : Channel) : ChannelMove c (afterSettle c).ch
  /-- CLEAR_FAULT (R96). -/
  | cleared (d : Demand) (c : Channel) : ChannelMove c (clearedFault d c).ch
  /-- A grant (R88). -/
  | granted (c : Channel) : ChannelMove c (grantStart c)
  /-- A seconds tick, a completed cycle, a manual setpoint (R74, R83, R98, R179). -/
  | ticked (c : Channel) : ChannelMove c c.tick
  | counted (c : Channel) : ChannelMove c c.countCycle
  | setpoint (m : Option Nat) (c : Channel) : ChannelMove c { c with manual := m }

/-- A channel after some moves. -/
abbrev Becomes : Channel → Channel → Prop := Relation.ReflTransGen ChannelMove

theorem ChannelMove.becomes {c d : Channel} (h : ChannelMove c d) : Becomes c d := .single h

/-- Every channel of `t` was a channel of `s` or has been made since, and has moved to where it stands. -/
def Descends (s t : State) : Prop := ∀ d ∈ t.channels, ∃ c, (c ∈ s.channels ∨ Fresh c) ∧ Becomes c d

theorem Descends.same {s t : State} (h : t.channels = s.channels) : Descends s t := fun d hd => ⟨d, .inl (h ▸ hd), .refl⟩

theorem Descends.refl (s : State) : Descends s s := .same rfl

theorem Descends.trans {s t u : State} (h : Descends s t) (h' : Descends t u) : Descends s u := by
  intro e he
  obtain ⟨d, hd | hfresh, hde⟩ := h' e he
  · obtain ⟨c, hc, hcd⟩ := h d hd
    exact ⟨c, hc, hcd.trans hde⟩
  · exact ⟨d, .inr hfresh, hde⟩

/-- A change of what is no channel, before a descent. -/
theorem Descends.after {s t u : State} (h : Descends t u) (hchannels : t.channels = s.channels) : Descends s u :=
  (Descends.same hchannels).trans h

theorem Descends.fresh {s t : State} (h : ∀ d ∈ t.channels, Fresh d) : Descends s t := fun d hd => ⟨d, .inr (h d hd), .refl⟩

/-- The channels move one by one. -/
theorem Descends.map {s t : State} (f : Channel → Channel) (h : t.channels = s.channels.map f) (hf : ∀ c, Becomes c (f c)) :
    Descends s t := by
  intro d hd
  obtain ⟨c, hc, rfl⟩ := List.mem_map.mp (h ▸ hd)
  exact ⟨c, .inl hc, hf c⟩

theorem Descends.modify {s t : State} (n : Nat) (f : Channel → Channel) (h : t.channels = modify Channel.number n f s.channels)
    (hf : ∀ c, Becomes c (f c)) : Descends s t :=
  .map (fun c => if c.number = n then f c else c) h fun c => by
    split
    · exact hf c
    · exact .refl

/-! ## Events of the channels and the start queue -/

theorem lookFrom_descends (fuel : Nat) (s : State) : Descends s (lookFrom fuel s) := by
  induction fuel generalizing s with
  | zero => exact .refl s
  | succ n ih =>
    unfold lookFrom
    split
    · exact .refl s
    · split
      · exact (Descends.modify _ grantStart rfl fun c => (ChannelMove.granted c).becomes).trans (ih _)
      · exact .refl s

theorem look_descends (s : State) : Descends s (look s) := lookFrom_descends _ s

theorem applyChanges_descends (cs : List QueueChange) (s : State) : Descends s (applyChanges cs s) := by
  unfold applyChanges
  split
  · exact (look_descends _).after rfl
  · exact .same rfl

theorem fanEvent_descends {f : Channel → Eff} (s : State) (h : ∀ c, Becomes c (f c).ch) : Descends s (fanEvent f s) := by
  rw [fanEvent_eq]
  exact (Descends.map (fun c => (f c).ch) rfl h).trans (applyChanges_descends _ _)

/-- An event in which some channels have a part. -/
theorem becomes_if {p : Prop} [Decidable p] {c : Channel} {e : Eff} (h : Becomes c e.ch) :
    Becomes c (if p then e else .quiet c).ch := by
  split
  · exact h
  · exact .refl

theorem fanEventAt_descends (n : Nat) {f : Channel → Eff} (s : State) (h : ∀ c, Becomes c (f c).ch) :
    Descends s (fanEventAt n f s) := fanEvent_descends s fun c => becomes_if (h c)

theorem resolveChannels_descends (silent : Bool) (choose : Channel → Bool) (s : State) :
    Descends s (resolveChannels silent choose s) :=
  fanEvent_descends s fun c => becomes_if (ChannelMove.resolved silent _ c).becomes

theorem addProvisional_mem {channels : List Channel} {address : Nat} {c : Channel} (h : c ∈ addProvisional channels address) :
    c ∈ channels ∨ Fresh c := by
  unfold addProvisional at h
  split at h
  · exact .inl h
  · split at h
    · exact .inl h
    · rcases mem_upsert h with rfl | hc
      · exact .inr rfl
      · exact .inl hc

theorem foldl_addProvisional_mem {addresses : List Nat} {channels : List Channel} {c : Channel}
    (h : c ∈ addresses.foldl addProvisional channels) : c ∈ channels ∨ Fresh c := by
  induction addresses generalizing channels with
  | nil => exact .inl h
  | cons a addresses ih => exact (ih h).elim addProvisional_mem .inr

theorem makeProvisional_descends (addresses : List Nat) (s : State) : Descends s (makeProvisional addresses s) :=
  Descends.trans (t := { s with channels := addresses.foldl addProvisional s.channels })
    (fun d hd => ⟨d, foldl_addProvisional_mem hd, .refl⟩) (resolveChannels_descends _ _ _)

theorem driveJoins_descends (address : Nat) (s : State) : Descends s (driveJoins address s) := by
  unfold driveJoins
  split
  · exact makeProvisional_descends _ s
  · exact .refl s

theorem driveLeaves_descends (address : Nat) (s : State) : Descends s (driveLeaves address s) :=
  fanEvent_descends s fun c => becomes_if (ChannelMove.lost _ c).becomes

theorem settleExpired_descends (n : Nat) (s : State) : Descends s (settleExpired n s) := by
  unfold settleExpired
  split
  · exact .refl s
  · split
    · have hended : Descends s { s with channels := modify Channel.number n endHolding s.channels } :=
        .modify n endHolding rfl fun c => (ChannelMove.ended c).becomes
      refine Descends.trans (hended.trans ?_) (fanEventAt_descends n _ fun c => (ChannelMove.settled c).becomes)
      exact (look_descends _).after rfl
    · exact .refl s

theorem damperTimeout_descends (n : Nat) (s : State) : Descends s (damperTimeout n s) :=
  fanEventAt_descends n s fun c => becomes_if (ChannelMove.damper c).becomes

theorem coastTimeout_descends (n : Nat) (s : State) : Descends s (coastTimeout n s) :=
  fanEventAt_descends n s fun c => becomes_if (ChannelMove.coast c).becomes

theorem stall_descends (s : State) : Descends s (stall s) := by
  unfold stall
  split
  · exact .refl s
  · split <;> exact .same rfl

theorem setFeeder_descends (silent : Bool) (f : Feeder) (s : State) : Descends s (setFeeder silent f s) := by
  unfold setFeeder
  dsimp only
  split_ifs
  · exact .same rfl
  · exact (look_descends _).after rfl
  · exact (look_descends _).after rfl

/-! ## Notices, zones and claims -/

theorem raiseAll_channels (ns : List NoticeBody) (s : State) : (raiseAll ns s).channels = s.channels := by rw [raiseAll_eq]

theorem raiseMode_channels (previous : Mode) (s : State) : (raiseMode previous s).channels = s.channels := by
  unfold raiseMode
  split <;> rfl

theorem handOver_descends (silent : Bool) (changed : List Nat) (s : State) : Descends s (handOver silent changed s) :=
  (resolveChannels_descends _ _ _).after rfl

theorem commitZones_descends (zones : List Zone) (s : State) : Descends s (commitZones zones s) :=
  Descends.trans (t := handOver false (claimsChanged s.zones zones) { s with zones := zones })
    ((handOver_descends false _ _).after rfl) (.same (raiseAll_channels _ _))

theorem applyPlan_descends (line : Nat) (s : State) : Descends s (applyPlan line s) :=
  (commitZones_descends _ _).after (raiseAll_channels _ s)

theorem releaseZones_descends (cleared : List Nat) (s : State) : Descends s (releaseZones cleared s) :=
  (commitZones_descends _ _).after (raiseAll_channels _ s)

theorem boostTimeout_descends (n : Nat) (s : State) : Descends s (boostTimeout n s) := by
  unfold boostTimeout
  split
  · exact .refl s
  · split
    · exact .refl s
    · split
      · exact (commitZones_descends _ s).trans (.same rfl)
      · exact .refl s

/-! ## Latches and the service slot -/

theorem lapseWrite_channels (s : State) : (lapseWrite s).channels = s.channels := by
  unfold lapseWrite
  split
  · split <;> rfl
  · rfl

theorem lapseResult_channels (s : State) : (lapseResult s).channels = s.channels := by
  unfold lapseResult
  split
  · split <;> rfl
  · rfl

theorem setLatch_descends (line : Nat) (s : State) : Descends s (setLatch line s) := by
  unfold setLatch
  refine Descends.trans ?_ (.same (lapseWrite_channels _))
  split
  · exact (makeProvisional_descends _ _).after rfl
  · exact (applyPlan_descends line _).after rfl

theorem levelLatch_descends (s : State) : Descends s (levelLatch s) := by
  unfold levelLatch
  split
  · exact .refl s
  · dsimp only
    split
    · exact (setLatch_descends _ _).after rfl
    · exact .same rfl

theorem acceptLine_descends (line : Nat) (s : State) : Descends s (acceptLine line s) := by
  unfold acceptLine
  split
  · exact .refl s
  · dsimp only
    split
    · exact (setLatch_descends _ _).after rfl
    · exact .same rfl

theorem restartMake_descends (s : State) : Descends s (restartMake s) := by
  unfold restartMake
  dsimp only
  split
  · exact (makeProvisional_descends _ _).after rfl
  · exact .same rfl

theorem fireReset_descends (lines : OctetSet) (s : State) : Descends s (fireReset lines s).state := by
  rw [ZoneEvaluation.fireReset_state]
  refine Descends.after (t := ZoneEvaluation.listedBy lines s) ?_ rfl
  dsimp only [Answer.ok]
  unfold ZoneEvaluation.resetBy
  split_ifs
  · exact .refl _
  · exact resolveChannels_descends _ _ _
  · exact .refl _
  · exact releaseZones_descends _ _

theorem memberDone_channels (k : ServiceKey) (ms : List Member) (result : List ResultEntry) (s : State) :
    (memberDone k ms result s).channels = s.channels := by
  unfold memberDone
  split <;> rfl

theorem deliverService_channels (reply : Option ServiceReply) (s : State) : (deliverService reply s).channels = s.channels := by
  unfold deliverService
  split
  · dsimp only
    split
    · exact memberDone_channels _ _ _ s
    · exact memberDone_channels _ _ _ s
    · split
      · rfl
      · exact memberDone_channels _ _ _ s
  · rfl

/-! ## The cycle -/

theorem noteIf_channels (valid : Bool) (s : State) : (noteIf valid s).channels = s.channels := by rw [noteIf_eq]

theorem completeCycle_descends (s : State) : Descends s (completeCycle s) := by
  have hchecked : Descends s (loopCheck s) := .same (by rw [loopCheck_eq])
  have hevaluated : Descends s (if s.evaluates then evaluate (loopCheck s) else loopCheck s) := by
    split
    · exact hchecked.trans (commitZones_descends _ _)
    · exact hchecked
  exact hevaluated.trans (.map Channel.countCycle rfl fun c => (ChannelMove.counted c).becomes)

theorem startService_descends (s : State) : Descends s (startService s) := by
  unfold startService
  split
  · exact .same rfl
  · exact completeCycle_descends s

theorem nextCommand_descends (l : List Nat) (s : State) : Descends s (nextCommand l s) := by
  induction l with
  | nil => exact startService_descends s
  | cons n rest ih =>
    unfold nextCommand
    split
    · exact .same rfl
    · exact ih

theorem nextPoll_descends (l : List Poll) (s : State) : Descends s (nextPoll l s) := by
  cases l with
  | nil => exact nextCommand_descends _ s
  | cons p rest => exact .same rfl

theorem beginCycle_descends (s : State) : Descends s (beginCycle s) := (nextPoll_descends _ _).after rfl

theorem cycleBoundary_descends (s : State) : Descends s (cycleBoundary s) := by
  unfold cycleBoundary
  split
  · exact beginCycle_descends s
  · exact .refl s

/-! ## Slot ends -/

theorem deliverHead_channels (address : Nat) (f : Head → Head × List NoticeBody) (s : State) :
    (deliverHead address f s).channels = s.channels := by
  unfold deliverHead
  split
  · rfl
  · exact raiseAll_channels _ _

theorem deliverChannel_descends (c : Channel) (r : Received) (cls : PollClass) (s : State) :
    Descends s (deliverChannel c r cls s) := by
  unfold deliverChannel
  rw [countDraws_eq]
  exact (fanEventAt_descends _ s fun d => (ChannelMove.polled _ _ _ r cls d).becomes).trans (.same rfl)

theorem discover_descends (address : Nat) (kind : DeviceKind) (s : State) : Descends s (discover address kind s) := by
  unfold discover
  dsimp only
  split
  · exact (driveJoins_descends _ _).after rfl
  · exact (driveJoins_descends _ _).after rfl
  · exact (driveLeaves_descends _ _).after rfl
  · exact .same rfl

theorem miss_descends (address : Nat) (s : State) : Descends s (miss address s) := by
  unfold miss
  split
  · exact .refl s
  · split
    · dsimp only
      split
      · exact (driveLeaves_descends _ _).after rfl
      · exact .same rfl
    · exact .refl s

theorem discovery_descends (address : Nat) (r : Received) (cls : PollClass) (s : State) :
    Descends s (discovery address r cls s) := by
  unfold discovery
  split
  · exact discover_descends _ _ s
  · exact discover_descends _ _ s
  · exact miss_descends _ s

theorem deliverQuery_descends (address : Nat) (r : Received) (cls : PollClass) (s : State) :
    Descends s (deliverQuery address r cls s) := by
  unfold deliverQuery
  dsimp only
  split
  · exact discovery_descends _ _ _ s
  · exact (discovery_descends _ _ _ s).trans (deliverChannel_descends _ _ _ _)

theorem deliverPoll_descends (p : Poll) (r : Received) (cls : PollClass) (s : State) : Descends s (deliverPoll p r cls s) := by
  unfold deliverPoll
  split
  · exact .same (deliverHead_channels _ _ s)
  · split
    · exact .refl s
    · exact deliverChannel_descends _ _ _ s
  · split
    · exact deliverQuery_descends _ _ _ s
    · exact .refl s

theorem pollEnd_descends (reply : List Byte) (s : State) : Descends s (pollEnd reply s) := by
  unfold pollEnd
  split
  · exact .same rfl
  · exact ((deliverPoll_descends _ _ _ _).after (noteIf_channels _ s)).trans (nextPoll_descends _ _)
  · exact .refl s

theorem driveAnswers_channels (x : CommandExchange) (ok : Bool) (s : State) : (driveAnswers x ok s).channels = s.channels := by
  unfold driveAnswers
  split <;> rfl

theorem deliverCommand_descends (x : CommandExchange) (ok : Bool) (s : State) : Descends s (deliverCommand x ok s) := by
  unfold deliverCommand
  split
  · exact .refl s
  · refine fanEventAt_descends _ s fun c => ?_
    split
    · exact (ChannelMove.acknowledged _ c).becomes
    · exact (ChannelMove.missed _ _ c).becomes

theorem commandEnd_descends (reply : List Byte) (s : State) : Descends s (commandEnd reply s) := by
  unfold commandEnd
  split
  · exact .same (driveAnswers_channels _ _ s)
  · refine Descends.trans ((deliverCommand_descends _ _ _).after ?_) (nextCommand_descends _ _)
    exact (driveAnswers_channels _ _ _).trans (noteIf_channels _ s)
  · exact .refl s

theorem serviceEnd_descends (reply : List Byte) (s : State) : Descends s (serviceEnd reply s) := by
  unfold serviceEnd
  split
  · exact .same rfl
  · exact (completeCycle_descends _).after ((deliverService_channels _ _).trans (noteIf_channels _ s))
  · exact .refl s

/-! ## Configurations, modes and resets -/

theorem commit_descends (l : Loaded) (s : State) : Descends s (commit l s) := by
  obtain ⟨t, ht⟩ : ∃ t : State, t = { s with
      active := some l.active, staging := none, mode := .run, loop := s.loop.committed, queue := [], held := 0
      heads := l.heads.map Head.initial, channels := l.fans.map fun r => .initial r false
      zones := l.zones.map Zone.initial, handed := [], provisionalDue := false } := ⟨_, rfl⟩
  have hmade : Descends s t := .fresh fun d hd => by
    rw [ht] at hd
    obtain ⟨r, -, rfl⟩ := List.mem_map.mp hd
    rfl
  have hcommit : (commit l s).channels = (raiseMode s.mode (handOver false (t.zones.map Zone.number) t)).channels := by
    rw [ht]
    rfl
  exact (hmade.trans (handOver_descends _ _ t)).trans (.same (hcommit.trans (raiseMode_channels _ _)))

theorem restartScheduled_descends (s : State) : Descends s (restartScheduled s) := by
  unfold restartScheduled
  refine Descends.trans (.fresh fun d hd => ?_) (handOver_descends _ _ _)
  obtain ⟨c, -, rfl⟩ := List.mem_map.mp hd
  rfl

theorem manualMode_descends (mode : Mode) (setpoint : Channel → Option Nat) (s : State) :
    Descends s (resolveChannels false (fun _ => true)
      { s with mode := mode, channels := s.channels.map fun c => { c with manual := setpoint c } }) :=
  (Descends.map (fun c => { c with manual := setpoint c }) rfl fun c => (ChannelMove.setpoint _ c).becomes).trans
    (resolveChannels_descends _ _ _)

theorem afterRestart_descends (previous : Mode) (s : State) : Descends s (afterRestart previous s) :=
  (beginCycle_descends s).trans (.same (raiseMode_channels _ _))

theorem endReset_descends (cause : ResetCause) (straps : Straps) (s : State) : Descends s (endReset cause straps s) :=
  Descends.trans (t := { s.cleared with power := .running, resetCause := cause, link := .cleared (bitRateOf straps) })
    (.fresh fun _ hd => nomatch hd) (beginCycle_descends _)

theorem cleared_descends (s : State) : Descends s s.cleared := .fresh fun _ hd => nomatch hd

/-! ## Requests -/

theorem loadRecord_channels {checks : List (Nat × Bool)} {store : Staging → Answer} {s : State}
    (h : ∀ st, (store st).state.channels = s.channels) : (loadRecord checks store s).state.channels = s.channels := by
  unfold loadRecord
  split
  · rfl
  · split
    · exact h _
    · rfl

theorem loadSlot_channels (r : LoadSlot) (s : State) : (loadSlot r s).state.channels = s.channels :=
  loadRecord_channels fun st => by
    dsimp only
    split <;> rfl

theorem loadBegin_channels (s : State) : (loadBegin s).state.channels = s.channels := by
  unfold loadBegin
  split
  · exact raiseMode_channels _ _
  · rfl

theorem loadAbandon_channels (s : State) : (loadAbandon s).state.channels = s.channels := by
  unfold loadAbandon
  split
  · exact raiseMode_channels _ _
  · rfl

theorem loadCommit_descends (s : State) : Descends s (loadCommit s).state := by
  unfold loadCommit
  split
  · split
    · exact .refl s
    · split
      · exact .same rfl
      · exact commit_descends _ s
  · exact .refl s

theorem restartKeep_descends (s : State) : Descends s (restartKeep s).state := by
  refine Descends.trans (t := if s.mode.scheduled then restartScheduled s else restartUnconfigured s) ?_
    (afterRestart_descends _ _)
  split
  · exact restartScheduled_descends s
  · exact .fresh fun _ hd => nomatch hd

theorem restartClear_descends (s : State) : Descends s (restartClear s).state :=
  (Descends.trans (t := restartCleared s) (.fresh fun _ hd => nomatch hd) (afterRestart_descends _ _)).trans (.same rfl)

theorem manualEnter_descends (s : State) : Descends s (manualEnter s).state := by
  unfold manualEnter
  split
  · exact (manualMode_descends .manual (fun c => some c.target) s).trans (.same (raiseMode_channels _ _))
  · exact .refl s

theorem manualLeave_descends (s : State) : Descends s (manualLeave s).state := by
  unfold manualLeave
  split
  · exact (manualMode_descends .run (fun _ => none) s).trans (.same (raiseMode_channels _ _))
  · exact .refl s

theorem readRecord_channels (most : Nat) (inMode : Bool) (n : Nat) (record : Option ReplyBody) (s : State) :
    (readRecord most inMode n record s).state.channels = s.channels := by
  unfold readRecord
  split_ifs
  · rfl
  · rfl
  · split <;> rfl

theorem fetch_channels (count : Nat) (s : State) : (fetch count s).state.channels = s.channels := by
  unfold fetch
  split <;> rfl

theorem snapTake_channels (s : State) : (snapTake s).state.channels = s.channels := by
  unfold snapTake
  split
  · rfl
  · split <;> rfl

theorem snapRead_channels (page : Nat) (s : State) : (snapRead page s).state.channels = s.channels := by
  unfold snapRead
  split <;> rfl

theorem boost_descends (zones : ZoneSet) (speed duration : Nat) (s : State) : Descends s (boost zones speed duration s).state := by
  unfold boost
  split
  · exact .refl s
  · split
    · exact .refl s
    · split
      · exact .refl s
      · exact commitZones_descends _ s

theorem tuneZone_channels (zone : Nat) (f : Zone → Zone) (s : State) : (tuneZone zone f s).state.channels = s.channels := by
  unfold tuneZone
  split_ifs <;> rfl

theorem setLimits_channels (zone gas low1 high1 low2 high2 : Nat) (s : State) :
    (setLimits zone gas low1 high1 low2 high2 s).state.channels = s.channels := by
  unfold setLimits
  split
  · rfl
  · exact tuneZone_channels _ _ s

theorem setHold_channels (zone preload : Nat) (s : State) : (setHold zone preload s).state.channels = s.channels := by
  unfold setHold
  split
  · rfl
  · exact tuneZone_channels _ _ s

theorem applySetpoint_descends (n setpoint : Nat) (s : State) : Descends s (applySetpoint n setpoint s) :=
  (Descends.modify (t := { s with channels := modify Channel.number n (fun c => { c with manual := some setpoint }) s.channels })
    n _ rfl fun c => (ChannelMove.setpoint _ c).becomes).trans (resolveChannels_descends _ _ _)

theorem setFan_descends (n setpoint : Nat) (s : State) : Descends s (setFan n setpoint s).state := by
  unfold setFan
  split
  · exact .refl s
  · split_ifs
    · exact .refl s
    · exact .refl s
    · exact applySetpoint_descends n setpoint s

theorem clearFault_descends (n : Nat) (s : State) : Descends s (clearFault n s).state := by
  unfold clearFault
  split
  · exact .refl s
  · split
    · exact .refl s
    · split
      · exact .refl s
      · split
        · exact .refl s
        · exact fanEventAt_descends n s fun c => (ChannelMove.cleared _ c).becomes

theorem feederRequest_descends (code : Nat) (s : State) : Descends s (feederRequest code s).state := by
  unfold feederRequest
  split
  · exact .refl s
  · exact setFeeder_descends _ _ s

theorem slotAnswer_channels (key : ServiceKey) (s : State) : (slotAnswer key s).state.channels = s.channels := by
  unfold slotAnswer
  split
  · rfl
  · split <;> rfl
  · split <;> rfl

theorem serviceRequest_channels (key : ServiceKey) (s : State) : (serviceRequest key s).state.channels = s.channels := by
  unfold serviceRequest
  split_ifs
  exacts [rfl, rfl, slotAnswer_channels key s, rfl, rfl, rfl, rfl, slotAnswer_channels key s]

theorem take_descends {kind tag : Nat} {owner : State → Answer} {s : State} (h : Descends s (owner s).state) :
    Descends s (take kind tag owner s) := h.trans (.same rfl)

theorem handToOwner_descends (i : Instr) (s : State) : Descends s (handToOwner i s) := by
  cases i
  case fetch tag count => exact take_descends (.same (fetch_channels count s))
  case snapTake => exact take_descends (.same (snapTake_channels s))
  case snapRead tag page => exact take_descends (.same (snapRead_channels page s))
  case loadBegin => exact take_descends (.same (loadBegin_channels s))
  case loadLoop | loadFeeder | loadHead | loadFan | loadZone | loadLine =>
    exact take_descends (.same (loadRecord_channels fun _ => rfl))
  case loadSlot tag r => exact take_descends (.same (loadSlot_channels r s))
  case loadAbandon => exact take_descends (.same (loadAbandon_channels s))
  case loadCommit => exact take_descends (loadCommit_descends s)
  case restartKeep => exact take_descends (restartKeep_descends s)
  case restartClear => exact take_descends (restartClear_descends s)
  case manualEnter => exact take_descends (manualEnter_descends s)
  case manualLeave => exact take_descends (manualLeave_descends s)
  case getHead | getZone | getFan | getGroup => exact take_descends (.same (readRecord_channels _ _ _ _ s))
  case boost tag zones speed duration => exact take_descends (boost_descends zones speed duration s)
  case setLimits => exact take_descends (.same (setLimits_channels _ _ _ _ _ _ s))
  case setHold tag zone preload => exact take_descends (.same (setHold_channels zone preload s))
  case setFan tag n setpoint => exact take_descends (setFan_descends n setpoint s)
  case clearFault tag n => exact take_descends (clearFault_descends n s)
  case feeder tag code => exact take_descends (feederRequest_descends code s)
  case fireReset tag lines => exact take_descends (fireReset_descends lines s)
  case itemRead | itemWrite | groupRead | groupWrite => exact take_descends (.same (serviceRequest_channels _ s))
  all_goals exact .same rfl

/-! ## The host link -/

theorem takeFrame_descends (f : Frame) (s : State) : Descends s (takeFrame f s) := by
  unfold takeFrame
  split
  · exact .same rfl
  · split
    · exact .same rfl
    · split
      · exact .same rfl
      · split
        · exact .same rfl
        · exact handToOwner_descends _ s

theorem holdFrame_descends (f : Frame) (s : State) : Descends s (holdFrame f s) := by
  unfold holdFrame
  split
  · exact takeFrame_descends f s
  · exact .same rfl
  · exact .same rfl

theorem receiveByte_descends (byte : Byte) (framingError : Bool) (s : State) : Descends s (receiveByte byte framingError s) := by
  unfold receiveByte takeByte completeFrame
  split
  · split <;> exact .same rfl
  · split <;> exact .same rfl
  · split_ifs
    · exact .same rfl
    · exact .same rfl
    · exact (holdFrame_descends _ _).after rfl
    · exact .same rfl

theorem gapTimeout_channels (s : State) : (gapTimeout s).channels = s.channels := by
  unfold gapTimeout
  split <;> rfl

theorem endReply_descends (s : State) : Descends s (endReply s) := by
  unfold endReply
  split
  · exact .refl s
  · dsimp only
    split
    · exact .same rfl
    · exact (takeFrame_descends _ _).after rfl

/-! ## Commands and steps -/

theorem powered_descends {f : State → State} {s t : State} (hf : Descends s (f s)) (h : powered s f = .next t) : Descends s t := by
  rcases powered_next h with rfl | rfl
  · exact hf
  · exact .refl _

theorem next_descends {s t u : State} (h : (.next u : Host.Outcome State Fault Refusal) = .next t) (hu : Descends s u) :
    Descends s t := by
  cases h
  exact hu

/-- A request given as a command is taken as its owner takes it from a frame. -/
theorem request_descends {i : Instr} {s t : State} (h : exec i s = .next t) (howner : exec i s = powered s (handToOwner i)) :
    Descends s t := powered_descends (handToOwner_descends i s) (howner.symm.trans h)

theorem exec_descends (i : Instr) {s t : State} (h : exec i s = .next t) : Descends s t := by
  cases i
  case powerOn straps =>
    refine next_descends h ?_
    unfold powerOn
    split
    · exact endReset_descends _ _ s
    · exact cleared_descends s
  case pinReset =>
    refine next_descends h ?_
    unfold pinReset
    split
    · exact cleared_descends s
    · exact .same rfl
    · exact .same rfl
  case pinResetEnd straps =>
    refine next_descends h ?_
    unfold pinResetEnd
    split
    · exact .same rfl
    · exact endReset_descends _ _ _
    · exact .same rfl
  case supplyLoss => exact next_descends h (cleared_descends s)
  case hostByteReceived byte framingError => exact powered_descends (receiveByte_descends byte framingError s) h
  case interByteGapTimeout => exact powered_descends (.same (gapTimeout_channels s)) h
  case replySent => exact powered_descends (endReply_descends s) h
  case cycleBegin => exact powered_descends (cycleBoundary_descends s) h
  case pollSlotEnd reply => exact powered_descends (pollEnd_descends reply s) h
  case commandSlotEnd reply => exact powered_descends (commandEnd_descends reply s) h
  case serviceSlotEnd reply => exact powered_descends (serviceEnd_descends reply s) h
  case secondsTick => exact powered_descends (.map Channel.tick rfl fun c => (ChannelMove.ticked c).becomes) h
  case settleExpiry n => exact powered_descends (settleExpired_descends n s) h
  case damperTimerExpiry n => exact powered_descends (damperTimeout_descends n s) h
  case coastTimerExpiry n => exact powered_descends (coastTimeout_descends n s) h
  case holdExpiry n => exact powered_descends (commitZones_descends _ s) h
  case boostExpiry n => exact powered_descends (boostTimeout_descends n s) h
  case graceExpiry n => exact powered_descends (.same rfl) h
  case collectionExpiry => exact powered_descends (.same (lapseResult_channels s)) h
  case queueStall => exact powered_descends (stall_descends s) h
  case fireLineLevelChange line level => exact next_descends h (.same rfl)
  case fireLineAccepted line => exact powered_descends (acceptLine_descends line s) h
  case commitLevelLatch => exact powered_descends (levelLatch_descends s) h
  case restartProvisionalMake => exact powered_descends (restartMake_descends s) h
  case feedLevelChange level => exact next_descends h (.same rfl)
  case feedAccepted =>
    refine powered_descends ?_ h
    unfold feedAccepted
    split
    · exact .refl s
    · exact setFeeder_descends _ _ s
  all_goals exact request_descends h rfl

theorem step_descends {s t : State} (h : step s = .next t) : Descends s t := by
  unfold step at h
  split at h
  · exact (powered_descends (f := tenth) (.same rfl) h).after rfl
  · exact (exec_descends _ h).after rfl

/-- A law of single channels that channels just made meet and that every move keeps holds of all channels after every step. -/
theorem kept_of_channelMoves {law : Channel → Prop} (hfresh : ∀ c, Fresh c → law c)
    (hmove : ∀ c d, ChannelMove c d → law c → law d) : Kept fun s => ∀ c ∈ s.channels, law c := by
  intro s t hs hstep d hd
  obtain ⟨c, hc, hbecomes⟩ := step_descends hstep d hd
  have hlaw : law c := hc.elim (hs c) (hfresh c)
  clear hd hc
  induction hbecomes with
  | refl => exact hlaw
  | tail _ hlast ih => exact hmove _ _ hlast ih

end Sys2Proof.FanChannels
end

