-- ==== Sys2Proof/Proofs/FanCommands.lean ====
section
/-! PROOFS. No channel is commanded a nonzero speed with its damper closed, nor outside STARTING, RUNNING and LOST, at any step (R81). -/

namespace Sys2Proof.FanChannels

open Sys2Proof.Machine Sys2Proof.Claims Sys2Proof.BayLoop

/-! ## Safe images -/

/-- The law reads the image and the state alone. -/
theorem commandOk_congr {c d : Channel} (hcommand : d.command = c.command) (hstate : d.state = c.state) (h : c.commandOk) :
    d.commandOk := by
  unfold Channel.commandOk
  rw [hcommand, hstate]
  exact h

/-- An image that commands speed 0 is safe in every state. -/
theorem commandOk_stopped {c : Channel} (h : ∀ i, c.command = some i → i.setpoint = 0) : c.commandOk :=
  fun i hi hne => absurd (h i hi) hne

theorem commandOk_image_zero {c : Channel} {damper : DamperCmd} {fallback : Fallback} (h : c.command = some ⟨0, damper, fallback⟩) :
    c.commandOk := commandOk_stopped fun i hi => by
  rw [h] at hi
  cases hi
  rfl

/-- An image with the damper OPEN is safe while the fan may turn. -/
theorem commandOk_open {c : Channel} {setpoint : Nat} {fallback : Fallback} (h : c.command = some ⟨setpoint, .opn, fallback⟩)
    (hstate : c.state = .starting ∨ c.state = .running ∨ c.state = .lost) : c.commandOk := fun i hi _ => by
  rw [h] at hi
  cases hi
  exact ⟨rfl, hstate⟩

theorem commandOk_fresh {c : Channel} (h : Fresh c) : c.commandOk := by
  rw [h]
  exact fun i hi => nomatch hi

theorem setImage_command (setpoint : Nat) (damper : DamperCmd) (c : Channel) :
    (c.setImage setpoint damper).command = some ⟨setpoint, damper, c.cls.fallback⟩ := rfl

/-! ## Entries into states -/

theorem startSequence_commandOk (c : Channel) : (startSequence c).ch.commandOk := by
  unfold startSequence
  split <;> exact commandOk_image_zero rfl

theorem enterOff_commandOk (c : Channel) : (enterOff c).ch.commandOk := by
  unfold enterOff Eff.andThen
  dsimp only
  split
  · exact startSequence_commandOk _
  · exact commandOk_image_zero rfl

theorem enterStopping_commandOk (c : Channel) : (enterStopping c).ch.commandOk := commandOk_image_zero rfl

theorem enterRunning_commandOk (c : Channel) : (enterRunning c).ch.commandOk := commandOk_open rfl (.inr (.inl rfl))

theorem enterFault_commandOk (cause : FaultCause) (c : Channel) : (enterFault cause c).ch.commandOk := commandOk_image_zero rfl

/-- LOST keeps the image as it stands (R93): it was safe, and LOST may turn. -/
theorem enterLost_commandOk (want : Nat) {c : Channel} (h : c.commandOk) : (enterLost want c).ch.commandOk := by
  have himage : (enterLost want c).ch.command = some (c.command.getD ⟨0, .close, c.cls.fallback⟩) := rfl
  cases hc : c.command with
  | none =>
    rw [hc] at himage
    exact commandOk_image_zero himage
  | some i =>
    rw [hc] at himage
    intro j hj hne
    obtain rfl : i = j := Option.some.inj (himage.symm.trans hj)
    exact ⟨(h i hc hne).1, .inr (.inr rfl)⟩

/-! ## Resolutions -/

theorem demanded_commandOk (d : Demand) {c : Channel} (h : c.commandOk) : (demanded d c).commandOk := by
  intro i hi hne
  obtain ⟨j, hj, rfl⟩ := Option.map_eq_some_iff.mp hi
  exact h j hj hne

/-- A LOST channel whose image turns its fan has the damper OPEN, and keeps it so at a new speed. -/
theorem setSetpoint_commandOk {c : Channel} (setpoint : Nat) (hstate : c.state = .lost)
    (hturns : 0 < (c.command.map Image.setpoint).getD 0) (h : c.commandOk) : (c.setSetpoint setpoint).commandOk := by
  cases hc : c.command with
  | none =>
    rw [hc] at hturns
    exact absurd hturns (lt_irrefl 0)
  | some i =>
    rw [hc] at hturns
    have hdamper : i.damper = .opn := (h i hc (Nat.ne_of_gt hturns)).1
    have himage : (c.setSetpoint setpoint).command = some ⟨setpoint, i.damper, c.cls.fallback⟩ := by
      rw [Channel.setSetpoint, setImage_command, hc]
      rfl
    rw [hdamper] at himage
    exact commandOk_open himage (.inr (.inr hstate))

theorem applyTarget_commandOk {c : Channel} (h : c.commandOk) : (applyTarget c).ch.commandOk := by
  have hturning (hstate : c.state = .starting ∨ c.state = .running) : (applyTarget c).ch.commandOk := by
    rw [ZoneEvaluation.applyTarget_turning hstate]
    split
    · exact enterStopping_commandOk c
    · exact commandOk_open rfl (hstate.imp_right .inl)
  have hwaiting (hstate : c.state = .opening ∨ c.state = .queued) : (applyTarget c).ch.commandOk := by
    rw [ZoneEvaluation.applyTarget_waiting hstate]
    split
    · exact enterOff_commandOk c
    · exact h
  cases hs : c.state
  case sync => rwa [ZoneEvaluation.applyTarget_sync hs]
  case off =>
    rw [ZoneEvaluation.applyTarget_off hs]
    split
    · exact startSequence_commandOk c
    · exact h
  case opening => exact hwaiting (.inl hs)
  case queued => exact hwaiting (.inr hs)
  case starting => exact hturning (.inl hs)
  case running => exact hturning (.inr hs)
  case stopping =>
    rw [ZoneEvaluation.applyTarget_stopping hs]
    split_ifs
    · exact h
    · exact commandOk_open rfl (.inl rfl)
    · exact commandOk_image_zero rfl
  case fault =>
    rw [ZoneEvaluation.applyTarget_fault hs]
    split
    · exact commandOk_image_zero rfl
    · exact h
  case lost =>
    rw [ZoneEvaluation.applyTarget_lost hs]
    split_ifs with hisolate htarget hturns
    · exact commandOk_image_zero rfl
    · exact commandOk_image_zero rfl
    · exact setSetpoint_commandOk _ hs hturns h
    · exact h

theorem resolve_commandOk (silent : Bool) (d : Demand) {c : Channel} (h : c.commandOk) : (resolve silent d c).ch.commandOk := by
  by_cases hsame : c.cls = d.cls ∧ c.target = if c.state = .fault then 0 else d.want
  · rw [resolve_same silent hsame]
    exact h
  · rw [resolve_moved silent hsame]
    exact applyTarget_commandOk (demanded_commandOk d h)

/-! ## Reports, polls, expiries -/

theorem adopt_commandOk (r : Report) (c : Channel) : (adopt r c).ch.commandOk := by
  unfold adopt
  split
  · exact enterFault_commandOk _ c
  · split
    · unfold Eff.andThen
      dsimp only
      split
      · exact enterStopping_commandOk _
      · exact enterRunning_commandOk c
    · exact enterOff_commandOk c

theorem takeReport_commandOk (r : Report) {c : Channel} (h : c.commandOk) : (takeReport r c).ch.commandOk := by
  have hstored : (reported r c).commandOk := h
  have hsame (p : Prop) [Decidable p] {e : Eff} (he : e.ch.commandOk) :
      (if p then e else .quiet (reported r c)).ch.commandOk := by
    split
    · exact he
    · exact hstored
  have hfault (cause : FaultCause) : (enterFault cause (reported r c)).ch.commandOk := enterFault_commandOk cause _
  have htrip {e : Eff} (he : e.ch.commandOk) : (if r.trip.isSome then enterFault .trip (reported r c) else e).ch.commandOk := by
    split
    · exact hfault .trip
    · exact he
  cases hs : c.state
  case sync =>
    rw [takeReport_sync hs]
    exact adopt_commandOk r _
  case lost =>
    rw [takeReport_lost hs]
    split
    · exact h
    · exact adopt_commandOk r _
  case fault =>
    rw [takeReport_fault hs]
    exact hstored
  case off =>
    rw [takeReport_steady (.inl hs)]
    exact htrip hstored
  case starting =>
    rw [takeReport_steady (.inr hs)]
    exact htrip hstored
  case opening =>
    rw [takeReport_opening hs]
    refine htrip ?_
    split
    · exact commandOk_image_zero rfl
    · exact hsame _ (hfault .damper)
  case queued =>
    rw [takeReport_queued hs]
    exact htrip (hsame _ (hfault .damper))
  case running =>
    rw [takeReport_running hs]
    exact htrip (hsame _ (hfault .stall))
  case stopping =>
    rw [takeReport_stopping hs]
    exact htrip (hsame _ (enterOff_commandOk _))

theorem missPoll_commandOk (limit want : Nat) {c : Channel} (h : c.commandOk) : (missPoll limit want c).ch.commandOk := by
  unfold missPoll
  dsimp only
  split_ifs
  · exact h
  · exact enterLost_commandOk want h
  · exact h

theorem polled_commandOk (draws limit want : Nat) (r : Received) (cls : PollClass) {c : Channel} (h : c.commandOk) :
    (c.polled draws limit want r cls).ch.commandOk := by
  unfold Channel.polled
  split
  · exact takeReport_commandOk _ h
  · have hmissed := missPoll_commandOk limit want h
    unfold failPoll Eff.andThen mismatchPoll
    dsimp only
    split
    · exact commandOk_congr rfl rfl hmissed
    · exact hmissed

theorem ackCommand_commandOk (carried : Image) {c : Channel} (h : c.commandOk) : (ackCommand carried c).commandOk := by
  unfold ackCommand
  dsimp only
  split <;> exact h

theorem damperExpired_commandOk {c : Channel} (h : c.commandOk) : (damperExpired c).ch.commandOk := by
  unfold damperExpired
  split
  · exact enterFault_commandOk _ c
  · exact h

theorem coastExpired_commandOk {c : Channel} (h : c.commandOk) : (coastExpired c).ch.commandOk := by
  unfold coastExpired
  split
  · exact enterOff_commandOk c
  · exact h

theorem afterSettle_commandOk {c : Channel} (h : c.commandOk) : (afterSettle c).ch.commandOk := by
  have hstart (p : Prop) [Decidable p] : (if p then enterRunning c else enterFault .noStart c).ch.commandOk := by
    split
    · exact enterRunning_commandOk c
    · exact enterFault_commandOk _ c
  unfold afterSettle
  cases c.state <;> dsimp only
  case starting => split; exacts [hstart _, hstart _, enterFault_commandOk _ c]
  case off => split; exacts [startSequence_commandOk c, h]
  all_goals exact h

/-! ## Every move -/

theorem channelMove_commandOk {c d : Channel} (hmove : ChannelMove c d) (h : c.commandOk) : d.commandOk := by
  cases hmove with
  | resolved silent d => exact resolve_commandOk silent d h
  | polled draws limit want r cls => exact polled_commandOk draws limit want r cls h
  | missed limit want => exact missPoll_commandOk limit want h
  | acknowledged carried => exact ackCommand_commandOk carried h
  | lost want => exact enterLost_commandOk want h
  | damper => exact damperExpired_commandOk h
  | coast => exact coastExpired_commandOk h
  | settled => exact afterSettle_commandOk h
  | cleared d => exact enterOff_commandOk _
  | granted => exact commandOk_open rfl (.inl rfl)
  | ended | ticked | counted | setpoint => exact h

/-- Settles O58: the image is a channel's own, so the law is one of single channels, which every move keeps. -/
theorem fansNeverRunAgainstAClosedDamper : Obligations.FansNeverRunAgainstAClosedDamper :=
  kept_of_channelMoves (fun _ => commandOk_fresh) fun _ _ => channelMove_commandOk

end Sys2Proof.FanChannels
end

