-- ==== Sys2Proof/Proofs/FanReads.lean ====
section
/-! PROOFS. GET_FAN, GET_GROUP, DISCOVERED and GET_QUEUE (R101, R102, R121, R183). -/

namespace Sys2Proof.FanChannels

open Sys2Proof.Machine Sys2Proof.Claims Sys2Proof.BayLoop

theorem fanView?_absent {s : State} {n : Nat} (h : ∀ c ∈ s.channels, c.number ≠ n) : s.fanView? n = none :=
  GasHeads.map_lookup_absent s.fanView h

theorem fanView?_split {s : State} {n : Nat} {before after : List Channel} {c : Channel} (hs : s.channels = before ++ c :: after)
    (hbefore : ∀ k ∈ before, k.number ≠ n) (hc : c.number = n) : s.fanView? n = some (s.fanView c) :=
  GasHeads.map_lookup_split s.fanView hs hbefore hc

/-- The members of a group are the configured channels with its bit, in the words of the statements. -/
theorem groupMembers_eq (s : State) (n : Nat) :
    s.groupMembers n = s.channels.filter fun c => c.provisional = false ∧ c.record.groups.getLsbD n = true :=
  List.filter_congr fun c _ => by simp only [Bool.decide_and, Bool.decide_eq_true, Bool.decide_eq_false]

/-- Settles O29: each answer is a read of the state, and a reply is all that changes. -/
theorem channelsQueueAndDiscoveryAreRead : Obligations.ChannelsQueueAndDiscoveryAreRead := by
  intro tag n s hp
  have answersFan {status : Status} {body : ReplyBody} (h : getFan n s = ⟨s, status, body⟩) :
      exec (.getFan tag n) s = .next (replying 0x23 tag status body s) := (exec_getFan tag n s).trans (GasHeads.powered_take hp h)
  have answersGroup {status : Status} {body : ReplyBody} (h : getGroup n s = ⟨s, status, body⟩) :
      exec (.getGroup tag n) s = .next (replying 0x24 tag status body s) := (exec_getGroup tag n s).trans (GasHeads.powered_take hp h)
  refine ⟨fun h => answersFan (GasHeads.readRecord_beyond h), fun h hnone => answersFan ?_,
    fun before c after h hchannels hbefore hc => answersFan ?_,
    fun h => answersGroup (GasHeads.readRecord_beyond h),
    fun h hm => answersGroup (GasHeads.readRecord_wrongMode h ((unscheduled_iff _).mpr hm)),
    fun h hm => answersGroup ?_, ?_, ?_⟩
  · rw [getFan, fanView?_absent hnone]
    exact GasHeads.readRecord_absent h rfl
  · rw [getFan, fanView?_split hchannels hbefore hc, ← hc]
    exact GasHeads.readRecord_present (hc ▸ h) rfl
  · rw [getGroup, State.groupList, groupMembers_eq]
    exact GasHeads.readRecord_present h ((scheduled_iff _).mpr hm)
  · refine (exec_discovered tag s).trans (GasHeads.powered_take hp ?_)
    have hfailsafe : s.failsafe = decide (s.mode = .blank ∨ s.mode = .loading) := by
      rw [Bool.eq_iff_iff, decide_eq_true_iff]
      exact failsafe_iff s
    simp only [discoveredList, State.nextSweepCycle, hfailsafe, decide_eq_true_eq, Answer.ok]
  · exact (exec_getQueue tag s).trans (GasHeads.powered_take hp rfl)

end Sys2Proof.FanChannels
end

