-- ==== Sys2Proof/Proofs/FanQueue.lean ====
section
/-! PROOFS. The changes of the start queue and the looks at it (R105, R111 to R117, R119). -/

namespace Sys2Proof.FanChannels

open Sys2Proof.Machine Sys2Proof.Claims Sys2Proof.BayLoop

/-! ## Budgets and limits -/

theorem budgets_loaded {s : State} {a : Active} (ha : s.active = some a) (hm : s.mode.scheduled = true) :
    s.budget = a.budget ∧ s.reduced = a.reduced := by
  simp only [State.budget, State.reduced, ha, hm, if_true, and_self]

theorem budgets_unloaded {s : State} (hm : s.mode.scheduled = false) : s.budget = 1 ∧ s.reduced = 1 := by
  unfold State.budget State.reduced
  cases s.active <;> simp only [hm, Bool.false_eq_true, if_false, and_self]

/-- The limit of an entry, in the words of the statements (R116). -/
theorem limit_eq (s : State) (e : QueueEntry) :
    s.limit e = if e.cls = .fire ∨ s.feeder.effective = .normal then s.budget else s.reduced := by
  unfold State.limit
  cases e.cls <;> cases s.feeder.effective <;> rfl

theorem grantable_iff (s : State) (e : QueueEntry) :
    s.grantable e = true ↔
      s.held = 0 ∨ s.held + e.cost ≤ if e.cls = .fire ∨ s.feeder.effective = .normal then s.budget else s.reduced := by
  rw [← limit_eq]
  simp only [State.grantable, Bool.or_eq_true, beq_iff_eq, decide_eq_true_eq]

/-! ## Looks -/

theorem fixHead_eq (q : List QueueEntry) : fixHead q = headTimed q := by cases q <;> rfl

theorem fixHead_length (q : List QueueEntry) : (fixHead q).length = q.length := by
  simpa only [List.length_map] using congrArg List.length (fixHead_channels q)

theorem look_empty {s : State} (h : s.queue = []) : look s = s := by
  rw [look, h]
  rfl

/-- A look grants the head and goes on behind it, or ends. -/
theorem look_cons {s : State} {e : QueueEntry} {rest : List QueueEntry} (h : s.queue = e :: rest) :
    look s = if s.grantable e then look (grant e rest s) else s := by
  have hlength : (grant e rest s).queue.length = rest.length := fixHead_length rest
  rw [look, look, hlength, h, List.length_cons, lookFrom_cons _ h]

/-! ## Changes -/

theorem removeEntry_eq (n : Nat) (q : List QueueEntry) : removeEntry n q = q.filter fun e => e.channel ≠ n :=
  List.filter_congr fun e _ => by rw [bne, decide_not, beq_eq_decide]

theorem placeEntry_eq (e : QueueEntry) (q : List QueueEntry) : placeEntry e q =
    if e.cls = .normal then q ++ [e]
    else q.takeWhile (fun f => f.cls = .fire) ++ e :: q.dropWhile (fun f => f.cls = .fire) := by
  unfold placeEntry
  cases e.cls <;> rfl

theorem applyChange_leave (n : Nat) (q : List QueueEntry) : applyChange q (.leave n) = headTimed (q.filter fun e => e.channel ≠ n) := by
  rw [applyChange, fixHead_eq, removeEntry_eq]

theorem applyChange_join (n cost : Nat) (cls : QueueClass) (q : List QueueEntry) :
    applyChange q (.join n cls cost) = headTimed (placeEntry ⟨n, cls, cost, 0, none, false⟩ q) := fixHead_eq _

theorem applyChange_move {n : Nat} {cls : QueueClass} {q : List QueueEntry} {e : QueueEntry}
    (h : lookup QueueEntry.channel n q = some e) :
    applyChange q (.move n cls) = headTimed (placeEntry { e with cls := cls } (q.filter fun e => e.channel ≠ n)) := by
  simp only [applyChange, h]
  rw [fixHead_eq, removeEntry_eq]

theorem applyChange_move_absent {n : Nat} {cls : QueueClass} {q : List QueueEntry} (h : lookup QueueEntry.channel n q = none) :
    applyChange q (.move n cls) = q := by
  simp only [applyChange, h]

/-- A join, a move or a leave of the head calls for a look (R115). -/
theorem callsLook_iff (q : List QueueEntry) (cs : List QueueChange) : callsLook q cs = true ↔
    cs.filter QueueChange.isMove ≠ [] ∨ cs.filter QueueChange.isJoin ≠ [] ∨ ∃ e rest, q = e :: rest ∧ .leave e.channel ∈ cs := by
  have hany (p : QueueChange → Bool) : cs.any p = true ↔ cs.filter p ≠ [] := by
    rw [List.any_eq_true, Ne, List.filter_eq_nil_iff, not_forall]
    simp only [not_forall, not_not, exists_prop]
  unfold callsLook
  rw [Bool.or_eq_true, Bool.or_eq_true, hany, hany, or_comm (a := _ ≠ []), or_assoc]
  cases q with
  | nil => simp
  | cons e rest => simp

/-! ## The statement -/

/-- Settles O49: the budgets by mode, `look_cons`, one equation for each change, and `callsLook_iff`. -/
theorem looksGrantFittingHeads : Obligations.LooksGrantFittingHeads := by
  refine ⟨fun s => ⟨fun a ha hm => budgets_loaded ha ((scheduled_iff _).mpr hm), fun hm => budgets_unloaded ?_, look_empty,
    fun e rest hq => ⟨fun hheld hover => ?_, fun hfits => ?_⟩⟩, fun n cls cost q => ⟨applyChange_leave n q, ?_, fun e he => ?_,
    applyChange_move_absent⟩, fun cs s => ?_⟩
  · rwa [← Bool.not_eq_true, scheduled_iff]
  · rw [look_cons hq, if_neg]
    rw [grantable_iff]
    exact not_or.mpr ⟨hheld, Nat.not_le.mpr hover⟩
  · rw [look_cons hq, if_pos ((grantable_iff s e).mpr hfits), grant, fixHead_eq]
    rfl
  · rw [applyChange_join, placeEntry_eq]
  · rw [applyChange_move he, placeEntry_eq]
  · intro leaves moves joins calls t
    have hleaves : leaves = cs.filter QueueChange.isLeave := List.filter_congr fun x _ => by cases x <;> rfl
    have hmoves : moves = cs.filter QueueChange.isMove := List.filter_congr fun x _ => by cases x <;> rfl
    have hjoins : joins = cs.filter QueueChange.isJoin := List.filter_congr fun x _ => by cases x <;> rfl
    have hcalls : callsLook s.queue cs = true ↔ calls := by
      rw [callsLook_iff, ← hmoves, ← hjoins]
    have ht : t = { s with queue := (ordered cs).foldl applyChange s.queue } := by
      rw [ordered, ← hleaves, ← hmoves, ← hjoins]
    rw [applyChanges, ← ht]
    exact ⟨fun h => if_pos (hcalls.mpr h), fun h => if_neg (mt hcalls.mp h)⟩

end Sys2Proof.FanChannels
end

