-- ==== Sys2Proof/Proofs/FanTimers.lean ====
section
/-! PROOFS. Expiry of a channel's settle, damper and coast timers (R86, R89, R91, R118). -/

namespace Sys2Proof.FanChannels

open Sys2Proof.Machine Sys2Proof.Claims Sys2Proof.BayLoop

/-! ## Due timers -/

theorem expiryDue_of_due {t : Option Timer} {k : Timer} (ht : t = some k) (hk : k.due = true) : expiryDue t = true := by
  rw [ht]
  exact hk

theorem not_expiryDue {t : Option Timer} (h : ∀ k, t = some k → k.due = false) : ¬ expiryDue t = true := by
  cases t with
  | none => exact Bool.false_ne_true
  | some k => exact ne_true_of_eq_false (h k rfl)

/-! ## An event of one channel -/

section
variable {n : Nat} {f : Channel → Eff} {s : State} {before after : List Channel} {c : Channel}
  (hs : s.channels = before ++ c :: after) (hc : c.record.channel = n) (ho : ∀ k ∈ before ++ after, k.record.channel ≠ n)
include hs hc ho

/-- An event of one channel that tells the start queue nothing. -/
theorem fanEventAt_unqueued (h : (f c).changes = []) :
    fanEventAt n f s = { s with channels := before ++ (f c).ch :: after, ring := ringing (f c).notices s } := by
  rw [fanEventAt_split f hs hc ho, h, applyChanges_nil]

theorem fanEventAt_quiet (h : f c = .quiet c) : fanEventAt n f s = s := by
  rw [fanEventAt_unqueued hs hc ho (congrArg Eff.changes h), h]
  dsimp only [Eff.quiet]
  rw [← hs]
  rfl

/-- Two events in which the channel has the same part. -/
theorem fanEventAt_congr_at {g : Channel → Eff} (h : f c = g c) : fanEventAt n f s = fanEventAt n g s := by
  rw [fanEventAt_split f hs hc ho, fanEventAt_split g hs hc ho, h]

end

/-! ## What the channel does -/

/-- The settle judgment, in the words of the statements (R89). -/
theorem afterSettle_eq (d : Channel) : afterSettle d =
    if d.state = .starting then
      if d.reportedSinceGrant = true ∧ (d.report.map Report.run = some .running ∨ d.report.map Report.run = some .accelerating)
      then toRunning d else toFault .noStart d
    else if d.state = .off ∧ 0 < d.target then toStart d else ⟨d, [], []⟩ := by
  rw [toRunning_eq, toFault_eq, toStart_eq]
  unfold afterSettle
  cases d.state
  case starting =>
    cases hrun : d.report.map Report.run with
    | none => simp
    | some run => cases run <;> simp
  case off => simp [Eff.quiet]
  all_goals simp [Eff.quiet]

theorem damperExpired_other {c : Channel} (h : c.state ≠ .opening) : damperExpired c = .quiet c := by
  unfold damperExpired
  split
  next hopening => exact absurd hopening h
  next => rfl

theorem coastExpired_other {c : Channel} (h : c.state ≠ .stopping) : coastExpired c = .quiet c := by
  unfold coastExpired
  split
  next hstopping => exact absurd hstopping h
  next => rfl

/-- A channel that is not QUEUED and starts no settle on leaving enters FAULT without telling the start queue (R95). -/
theorem toFault_unheld {c : Channel} {was : FanState} (cause : FaultCause) (hwas : c.state = was) (hqueued : was ≠ .queued)
    (hsettle : was ≠ .starting ∨ c.holding = false) : toFault cause c =
      ⟨{ c with
        state := .fault, faultCause := some cause, target := 0, damper := none, coast := none
        command := some ⟨0, if c.cls = .isolate then .close else (c.command.map Image.damper).getD .close, c.cls.fallback⟩ },
        [.fanFault c.record.channel cause was], []⟩ := by
  subst hwas
  have hkept : settleLeft c = c.settle := if_neg fun ⟨hstarting, hholding, _⟩ =>
    hsettle.elim (fun h => h hstarting) fun h => Bool.false_ne_true (h.symm.trans hholding)
  have hleaving : leaving c = [] := if_neg hqueued
  rw [toFault, hkept, hleaving]

/-- Entry to OFF without a target (R85). -/
theorem toOff_untargeted {c : Channel} {was : FanState} (hwas : c.state = was) (hqueued : was ≠ .queued) (htarget : c.target = 0) :
    toOff c =
      ⟨{ c with state := .off, faultCause := none, damper := none, coast := none, command := some ⟨0, .close, c.cls.fallback⟩ },
        [.fanState c.record.channel .off was], []⟩ := by
  subst hwas
  have hleaves : c.leaves = [] := if_neg hqueued
  rw [toOff_eq, ZoneEvaluation.enterOff_untargeted htarget, hleaves]
  rfl

theorem toRunning_from {c : Channel} {was : FanState} (hwas : c.state = was) : toRunning c =
    ⟨{ c with state := .running, damper := none, coast := none, command := some ⟨c.target, .opn, c.cls.fallback⟩ },
      [.fanState c.record.channel .running was], []⟩ := by
  subst hwas
  rfl

/-! ## The expiries -/

section
variable {n : Nat} {s : State} {before after : List Channel} {c : Channel}
  (hs : s.channels = before ++ c :: after) (hc : c.record.channel = n) (ho : ∀ k ∈ before ++ after, k.record.channel ≠ n)
include hs hc ho

theorem settleExpired_split : settleExpired n s =
    if expiryDue c.settle then
      fanEventAt n afterSettle (look { s with held := s.held - c.record.cost, channels := before ++ endHolding c :: after })
    else s := by
  have hlookup : lookup Channel.number n s.channels = some c := by
    rw [hs]
    exact lookup_split (fun k hk => ho k (List.mem_append_left _ hk)) hc
  have hended : modify Channel.number n endHolding s.channels = before ++ endHolding c :: after := by
    rw [hs]
    exact modify_split ho hc
  simp only [settleExpired, hlookup, hended, returnUnits]

/-- Settle expiry with an empty start queue, of a channel that does not join it. -/
theorem settleExpired_unqueued {e : Eff} (hdue : expiryDue c.settle = true) (hq : s.queue = [])
    (he : afterSettle (endHolding c) = e) (h : e.changes = []) : settleExpired n s =
      { s with held := s.held - c.record.cost, channels := before ++ e.ch :: after, ring := ringing e.notices s } := by
  subst he
  have hlook : look { s with held := s.held - c.record.cost, channels := before ++ endHolding c :: after } = _ := look_empty hq
  rw [settleExpired_split hs hc ho, if_pos hdue, hlook]
  exact fanEventAt_unqueued rfl hc ho h

theorem damperTimeout_idle (h : (∀ k, c.damper = some k → k.due = false) ∨ c.state ≠ .opening) : damperTimeout n s = s := by
  refine fanEventAt_quiet hs hc ho ?_
  split
  next hdue => exact damperExpired_other (h.resolve_left fun hnot => not_expiryDue hnot hdue)
  next => rfl

theorem coastTimeout_idle (h : (∀ k, c.coast = some k → k.due = false) ∨ c.state ≠ .stopping) : coastTimeout n s = s := by
  refine fanEventAt_quiet hs hc ho ?_
  split
  next hdue => exact coastExpired_other (h.resolve_left fun hnot => not_expiryDue hnot hdue)
  next => rfl

/-- A damper timer that expires faults an OPENING channel (R86). -/
theorem damperTimeout_due (hdue : expiryDue c.damper = true) (hstate : c.state = .opening) :
    damperTimeout n s = fanEventAt n (toFault .damper) s := by
  refine fanEventAt_congr_at hs hc ho ?_
  rw [if_pos hdue, toFault_eq, damperExpired, hstate]

/-- A coast timer that expires takes a STOPPING channel to OFF (R91). -/
theorem coastTimeout_due (hdue : expiryDue c.coast = true) (hstate : c.state = .stopping) :
    coastTimeout n s = fanEventAt n toOff s := by
  refine fanEventAt_congr_at hs hc ho ?_
  rw [if_pos hdue, toOff_eq, coastExpired, hstate]

end

/-! ## The statement -/

/-- The settle judgment of a channel in STARTING, its units returned. -/
theorem afterSettle_started {c : Channel} (hstate : c.state = .starting) (hreported : c.reportedSinceGrant = true)
    (hrun : ∃ r, c.report = some r ∧ (r.run = .running ∨ r.run = .accelerating)) :
    afterSettle (endHolding c) = toRunning (endHolding c) := by
  obtain ⟨r, hr, hturns⟩ := hrun
  have hreport : (endHolding c).report.map Report.run = some r.run := congrArg (Option.map Report.run) hr
  rw [afterSettle_eq, if_pos (show (endHolding c).state = .starting from hstate), if_pos]
  rw [hreport]
  exact ⟨hreported, hturns.imp (congrArg some) (congrArg some)⟩

theorem afterSettle_notStarted {c : Channel} (hstate : c.state = .starting)
    (h : c.reportedSinceGrant = false ∨ c.report = none ∨ ∃ r, c.report = some r ∧ (r.run = .stopped ∨ r.run = .decelerating)) :
    afterSettle (endHolding c) = toFault .noStart (endHolding c) := by
  have hreport : (endHolding c).report = c.report := rfl
  have hsince : (endHolding c).reportedSinceGrant = c.reportedSinceGrant := rfl
  rw [afterSettle_eq, if_pos (show (endHolding c).state = .starting from hstate), if_neg]
  rw [hreport, hsince]
  rcases h with hnone | hnone | ⟨r, hr, hstill | hstill⟩
  · simp [hnone]
  · simp [hnone]
  · simp [hr, hstill]
  · simp [hr, hstill]

theorem afterSettle_idle {c : Channel} (hstate : c.state ≠ .starting) (h : c.state ≠ .off ∨ c.target = 0) :
    afterSettle (endHolding c) = .quiet (endHolding c) := by
  rw [afterSettle_eq, if_neg (show (endHolding c).state ≠ .starting from hstate), if_neg]
  · rfl
  · exact fun ⟨hoff, htarget⟩ => h.elim (fun hne => hne hoff) (Nat.ne_of_gt htarget)

/-- Settles O52: each expiry is one event of its channel, whose part is the entry the state calls for. -/
theorem channelTimersExpire : Obligations.ChannelTimersExpire := by
  intro n before after c s hp hs hc ho
  subst hc
  have settles {t : State} (h : settleExpired c.record.channel s = t) : exec (.settleExpiry c.record.channel) s = .next t :=
    h ▸ (exec_settleExpiry _ s).trans (powered_running hp _)
  have damps {t : State} (h : damperTimeout c.record.channel s = t) : exec (.damperTimerExpiry c.record.channel) s = .next t :=
    h ▸ (exec_damperTimerExpiry _ s).trans (powered_running hp _)
  have coasts {t : State} (h : coastTimeout c.record.channel s = t) : exec (.coastTimerExpiry c.record.channel) s = .next t :=
    h ▸ (exec_coastTimerExpiry _ s).trans (powered_running hp _)
  refine ⟨fun h => settles ?_, fun k hk hdue => ?_,
    fun k hk hdue hq => ⟨fun hstate hreported hrun => settles ?_, fun hstate hnot => settles ?_, fun hstate hidle => settles ?_⟩,
    fun h => damps (damperTimeout_idle hs rfl ho h), fun k hk hdue hstate => damps ?_,
    fun h => coasts (coastTimeout_idle hs rfl ho h), fun k hk hdue hstate htarget => coasts ?_, fun k hk hdue hstate => coasts ?_⟩
  · rw [settleExpired_split hs rfl ho, if_neg (not_expiryDue h)]
  · intro settled
    have hsettled : afterSettle = settled := funext afterSettle_eq
    refine settles ?_
    rw [settleExpired_split hs rfl ho, if_pos (expiryDue_of_due hk hdue), channelDoes_eq, hsettled]
    rfl
  · exact settleExpired_unqueued hs rfl ho (expiryDue_of_due hk hdue) hq
      ((afterSettle_started hstate hreported hrun).trans (toRunning_from hstate)) rfl
  · exact settleExpired_unqueued hs rfl ho (expiryDue_of_due hk hdue) hq
      ((afterSettle_notStarted hstate hnot).trans (toFault_unheld .noStart hstate FanState.noConfusion (.inr rfl))) rfl
  · exact settleExpired_unqueued hs rfl ho (expiryDue_of_due hk hdue) hq (afterSettle_idle hstate hidle) rfl
  · have hentry := toFault_unheld .damper hstate FanState.noConfusion (.inl FanState.noConfusion)
    rw [damperTimeout_due hs rfl ho (expiryDue_of_due hk hdue) hstate,
      fanEventAt_unqueued hs rfl ho (congrArg Eff.changes hentry), hentry]
    rfl
  · have hentry := toOff_untargeted hstate FanState.noConfusion htarget
    rw [coastTimeout_due hs rfl ho (expiryDue_of_due hk hdue) hstate,
      fanEventAt_unqueued hs rfl ho (congrArg Eff.changes hentry), hentry]
    rfl
  · rw [coastTimeout_due hs rfl ho (expiryDue_of_due hk hdue) hstate, channelDoes_eq]

end Sys2Proof.FanChannels
end

