-- ==== Sys2Proof/Proofs/FanManual.lean ====
section
/-! PROOFS. MANUAL mode, manual setpoints and CLEAR_FAULT (R96 to R98, R179). -/

namespace Sys2Proof.FanChannels

open Sys2Proof.Machine Sys2Proof.Claims Sys2Proof.BayLoop
open Sys2Proof.ZoneEvaluation (SameHolder Reported Meets Granted Books unitsOk_iff)

/-! ## A resolution of some channels -/

/-- A grant touches neither a channel's record nor its manual setpoint. -/
theorem granted_same {c d : Channel} (h : Granted c d) : d.record = c.record ∧ d.manual = c.manual := by
  rcases h with rfl | ⟨-, rfl⟩ <;> exact ⟨rfl, rfl⟩

theorem resolving_fan (choose : Channel → Bool) (s : State) : FanStep s (resolving choose s) := by
  rw [resolving_eq]
  exact resolveChannels_fan false choose s

theorem resolving_besidesFans (choose : Channel → Bool) (s : State) : sameBesidesFans s (resolving choose s) := by
  rw [resolving_eq]
  exact ZoneEvaluation.resolveChannels_besidesFans false choose s

theorem resolving_mode (choose : Channel → Bool) (s : State) : (resolving choose s).mode = s.mode := by
  obtain ⟨_, _, _, _, h⟩ := resolving_fan choose s
  rw [h]

theorem resolving_manuals (choose : Channel → Bool) (s : State) :
    (resolving choose s).channels.map (fun c => (c.number, c.manual)) = s.channels.map fun c => (c.number, c.manual) := by
  rw [resolving_eq]
  refine fanEvent_map (fun c : Channel => (c.number, c.manual)) (fun _ => rfl) (fun c => ?_) s
  split
  · obtain ⟨⟨⟨hrecord, -, hmanual, -⟩, -⟩, -⟩ := ZoneEvaluation.resolve_booked false (s.demand c) c
    rw [Channel.number, hrecord, hmanual, Channel.number]
  · rfl

/-- With the books kept, the channels after a resolution are what it made of each, with the starts granted then. -/
theorem resolving_from {choose : Channel → Bool} {s : State} (hbooks : Books s) (hok : ∀ c ∈ s.channels, c.holdingOk) {d : Channel}
    (hd : d ∈ (resolving choose s).channels) :
    ∃ c ∈ s.channels, Granted (if choose c then resolve false (s.demand c) c else .quiet c).ch d := by
  have hpart (c : Channel) (hc : c ∈ s.channels) : let e := if choose c then resolve false (s.demand c) c else .quiet c
      SameHolder c e.ch ∧ Reported c e ∧ e.ch.holdingOk := by
    dsimp only
    split
    · obtain ⟨⟨hholder, hreported, hkept⟩, -⟩ := ZoneEvaluation.resolve_booked false (s.demand c) c
      exact ⟨hholder, hreported, hkept (hok c hc)⟩
    · exact ⟨.refl c, ZoneEvaluation.reported_quiet rfl .rfl, hok c hc⟩
  obtain ⟨-, hfrom⟩ := ZoneEvaluation.fanEvent_books hbooks hpart
  rw [resolving_eq] at hd
  exact hfrom d hd

/-- With the books kept, a channel that a resolution chooses by its record is resolved by it. -/
theorem resolving_resolved {choose : Channel → Bool} (hchoose : ∀ c d, d.record = c.record → choose d = choose c) {s : State}
    (hbooks : Books s) (hok : ∀ c ∈ s.channels, c.holdingOk) {d : Channel} (hd : d ∈ (resolving choose s).channels)
    (hchosen : choose d = true) : (resolving choose s).resolved d := by
  have hdemand := ZoneEvaluation.demand_of_fan (resolving_fan choose s) d
  obtain ⟨c, -, hgranted⟩ := resolving_from hbooks hok hd
  obtain ⟨hsame, hmanual⟩ := granted_same hgranted
  obtain ⟨⟨⟨hrecord, -, hheld, -⟩, -⟩, hmeets⟩ := ZoneEvaluation.resolve_booked false (s.demand c) c
  by_cases hc : choose c = true
  · rw [if_pos hc] at hgranted hsame hmanual
    rw [ZoneEvaluation.resolved_iff, hdemand, ZoneEvaluation.demand_same (hsame.trans hrecord) (hmanual.trans hheld)]
    exact hgranted.meets hmeets
  · rw [if_neg hc] at hsame
    exact absurd (hchoose c d hsame ▸ hchosen) hc

/-- Manual setpoints changed in another mode leave the books of the start queue as they are. -/
theorem books_of_manuals {s : State} (hs : s.unitsOk) (mode : Mode) {g : Channel → Channel}
    (hg : ∀ c, ∃ m, g c = { c with manual := m }) :
    Books { s with mode := mode, channels := s.channels.map g } ∧ ∀ c ∈ s.channels.map g, c.holdingOk := by
  obtain ⟨hbooks, hok, -⟩ := (unitsOk_iff s).mp hs
  exact ZoneEvaluation.manual_books hg hbooks hok

/-! ## MANUAL mode -/

/-- The channels with the manual setpoints of MANUAL_ENTER (R179). -/
def enteredManual (s : State) : State :=
  { s with mode := .manual, channels := s.channels.map fun c => { c with manual := some c.target } }

/-- The channels without their manual setpoints (R179). -/
def leftManual (s : State) : State := { s with mode := .run, channels := s.channels.map fun c => { c with manual := none } }

theorem raiseMode_to {previous new : Mode} {t : State} (hmode : t.mode = new) (h : new ≠ previous) :
    raiseMode previous t = noticed (.mode new previous) t := by
  subst hmode
  exact raiseMode_moved h

theorem manualEnter_run {s : State} (h : s.mode = .run) :
    manualEnter s = .ok (noticed (.mode .manual .run) (resolving (fun _ => true) (enteredManual s))) .none := by
  have hraised : raiseMode .run (resolveChannels false (fun _ => true) (enteredManual s)) = _ :=
    raiseMode_to (new := .manual) ((congrArg State.mode (resolving_eq _ _)).symm.trans (resolving_mode _ _)) (by decide)
  rw [resolving_eq]
  unfold manualEnter
  rw [h]
  exact congrArg (fun t => Answer.ok t .none) hraised

theorem manualLeave_manual {s : State} (h : s.mode = .manual) :
    manualLeave s = .ok (noticed (.mode .run .manual) (resolving (fun _ => true) (leftManual s))) .none := by
  have hraised : raiseMode .manual (resolveChannels false (fun _ => true) (leftManual s)) = _ :=
    raiseMode_to (new := .run) ((congrArg State.mode (resolving_eq _ _)).symm.trans (resolving_mode _ _)) (by decide)
  rw [resolving_eq]
  unfold manualLeave
  rw [h]
  exact congrArg (fun t => Answer.ok t .none) hraised

theorem manualEnter_elsewhere {s : State} (h : s.mode ≠ .run) : manualEnter s = .refuse s .wrongMode := by
  unfold manualEnter
  split
  next hrun => exact absurd hrun h
  next => rfl

theorem manualLeave_elsewhere {s : State} (h : s.mode ≠ .manual) : manualLeave s = .refuse s .wrongMode := by
  unfold manualLeave
  split
  next hmanual => exact absurd hmanual h
  next => rfl

/-- A setpoint clipped once stays as it is when clipped again (R78, R98). -/
theorem clip_clip (r : FanRecord) (v : Nat) : r.clip (r.clip v) = r.clip v := by
  simp only [ZoneEvaluation.clip_eq]
  split_ifs <;> omega

theorem resolve_settled {d : Demand} {c : Channel} (h : Meets d c) : resolve false d c = .quiet c := by
  obtain ⟨hcls, htarget, hconflict⟩ := h
  have hnotice : conflictNotice false d c = [] := by
    unfold conflictNotice
    split
    next zone hzone =>
      rw [hzone] at hconflict
      rw [hconflict]
      rfl
    next => rfl
  rw [resolve_same false ⟨hcls, htarget⟩, hnotice, ← hconflict]
  rfl

/-- The target of a resolved channel, made its manual setpoint, is what the channel is asked for in MANUAL. -/
theorem wantOf_entered {c : Channel} {claims : List HandedClaim} (h : c.target = wantOf .run c claims) :
    wantOf .manual { c with manual := some c.target } claims = wantOf .run c claims := by
  cases hclass : classOf claims with
  | extract => rw [ZoneEvaluation.wantOf_extract hclass, ZoneEvaluation.wantOf_extract hclass]
  | isolate => rw [ZoneEvaluation.wantOf_isolate hclass, ZoneEvaluation.wantOf_isolate hclass]
  | normal =>
    rw [ZoneEvaluation.wantOf_run hclass] at h
    rw [ZoneEvaluation.wantOf_manual hclass, ZoneEvaluation.wantOf_run hclass, Option.getD_some, h, clip_clip]

theorem entered_meets {s : State} (hrun : s.mode = .run) {c : Channel} (h : s.resolved c) :
    Meets ((enteredManual s).demand { c with manual := some c.target }) { c with manual := some c.target } := by
  rw [ZoneEvaluation.resolved_iff, ZoneEvaluation.demand_of_claims (.inl hrun)] at h
  rw [ZoneEvaluation.demand_of_claims (.inr rfl)]
  obtain ⟨hcls, htarget, hconflict⟩ := h
  rw [hrun] at htarget
  refine ⟨hcls, ?_, hconflict⟩
  by_cases hfault : c.state = .fault
  · rw [if_pos hfault] at htarget ⊢
    exact htarget
  · rw [if_neg hfault] at htarget ⊢
    exact htarget.trans (wantOf_entered htarget).symm

/-- Where every channel is resolved, MANUAL_ENTER finds nothing to resolve. -/
theorem resolving_entered {s : State} (hrun : s.mode = .run) (hs : s.claimsOk) :
    resolving (fun _ => true) (enteredManual s) = enteredManual s := by
  obtain ⟨-, hresolved, -⟩ := hs
  rw [resolving_eq]
  refine fanEvent_none fun d hd => ?_
  obtain ⟨c, hc, rfl⟩ := List.mem_map.mp hd
  exact resolve_settled (entered_meets hrun (hresolved c hc))

/-! ## SET_FAN -/

/-- The channels with the manual setpoint of one of them (R98). -/
def withSetpoint (n setpoint : Nat) (s : State) : State :=
  { s with channels := s.channels.map fun c => if c.record.channel = n then { c with manual := some setpoint } else c }

theorem applySetpoint_eq (n setpoint : Nat) (s : State) :
    applySetpoint n setpoint s = resolving (fun c => c.record.channel = n) (withSetpoint n setpoint s) := by
  rw [resolving_eq]
  rfl

theorem setpoint_manual (n setpoint : Nat) (c : Channel) :
    ∃ m, (if c.record.channel = n then { c with manual := some setpoint } else c) = { c with manual := m } := by
  split
  exacts [⟨_, rfl⟩, ⟨c.manual, rfl⟩]

theorem number_good {n : Nat} (h : n ≤ 23) : within 0 23 n = true := within_iff.mpr ⟨Nat.zero_le n, h⟩

theorem number_bad {n : Nat} (h : 23 < n) : within 0 23 n = false :=
  Bool.eq_false_iff.mpr fun hw => Nat.not_lt.mpr (within_iff.mp hw).2 h

section
variable {n setpoint : Nat} {s : State}

theorem setFan_badNumber (h : 23 < n) : setFan n setpoint s = .badField s 1 := by
  simp only [setFan, firstBad, number_bad h]
  rfl

theorem setFan_badSetpoint (h : n ≤ 23) (hs : 100 < setpoint) : setFan n setpoint s = .badField s 2 := by
  have hbad : percent setpoint = false := decide_eq_false (Nat.not_le.mpr hs)
  simp only [setFan, firstBad, number_good h, hbad]
  rfl

theorem setFan_checked (h : n ≤ 23) (hs : setpoint ≤ 100) : setFan n setpoint s =
    if s.mode ≠ .manual then .refuse s .wrongMode
    else if hasKey Channel.number n s.channels = false then .refuse s .notFound
    else .ok (applySetpoint n setpoint s) (.setFan setpoint ((applySetpoint n setpoint s).targetOf n)) := by
  have hpercent : percent setpoint = true := decide_eq_true hs
  simp only [setFan, firstBad, number_good h, hpercent]
  rfl

end

/-- The manual setpoints after SET_FAN. -/
theorem setpoint_manuals (n setpoint : Nat) (s : State) :
    (applySetpoint n setpoint s).channels.map (fun c => (c.number, c.manual)) =
      s.channels.map fun c => (c.number, if c.record.channel = n then some setpoint else c.manual) := by
  rw [applySetpoint_eq, resolving_manuals, withSetpoint, List.map_map]
  refine List.map_congr_left fun c _ => ?_
  dsimp only [Function.comp]
  split <;> rfl

/-- A channel of the number named stands in the table after SET_FAN, with its setpoint. -/
theorem setpoint_found {n : Nat} (setpoint : Nat) {s : State} (h : ∃ c ∈ s.channels, c.record.channel = n) :
    ∃ d, lookup Channel.number n (applySetpoint n setpoint s).channels = some d ∧ d.manual = some setpoint := by
  have hmanuals := setpoint_manuals n setpoint s
  obtain ⟨c, hc, hnumber⟩ := h
  have hkey : (c.number, some setpoint) ∈ (applySetpoint n setpoint s).channels.map fun c => (c.number, c.manual) := by
    rw [hmanuals]
    exact List.mem_map.mpr ⟨c, hc, by rw [if_pos hnumber]⟩
  obtain ⟨k, hk, hpair⟩ := List.mem_map.mp hkey
  obtain ⟨hsame, -⟩ := Prod.mk.inj hpair
  cases hd : lookup Channel.number n (applySetpoint n setpoint s).channels with
  | none => exact absurd (hsame.trans hnumber) (lookup_eq_none.mp hd k hk)
  | some d =>
    obtain ⟨hmem, hdn⟩ := lookup_mem hd
    have hlisted : (d.number, d.manual) ∈ s.channels.map fun c => (c.number, if c.record.channel = n then some setpoint else c.manual) :=
      hmanuals ▸ List.mem_map.mpr ⟨d, hmem, rfl⟩
    obtain ⟨e, -, he⟩ := List.mem_map.mp hlisted
    obtain ⟨hen, hmanual⟩ := Prod.mk.inj he
    rw [if_pos (show e.record.channel = n from hen.trans hdn)] at hmanual
    exact ⟨d, rfl, hmanual.symm⟩

/-- A channel resolved in MANUAL whose zones claim in the NORMAL class has its own setpoint, clipped, as its target (R78). -/
theorem target_of_manual {t : State} {d : Channel} (hmanual : t.mode = .manual) (hd : t.resolved d)
    (hclaims : ∀ h ∈ t.boundClaims d.number, h.cls = .normal) (hstate : d.state ≠ .fault) :
    d.target = d.record.clip (d.manual.getD 0) := by
  obtain ⟨-, htarget, -⟩ := hd
  rw [if_neg hstate, ZoneEvaluation.demand_of_claims (.inr hmanual), hmanual] at htarget
  rw [htarget, ZoneEvaluation.wantOf_manual (ZoneEvaluation.classOf_normal hclaims)]

/-! ## CLEAR_FAULT -/

section
variable {n : Nat} {s : State}

theorem clearFault_badNumber (h : 23 < n) : clearFault n s = .badField s 1 := by
  simp only [clearFault, firstBad, number_bad h]
  rfl

theorem clearFault_absent (h : n ≤ 23) (hnone : lookup Channel.number n s.channels = none) : clearFault n s = .refuse s .notFound := by
  simp only [clearFault, firstBad, number_good h, hnone]
  rfl

variable {c : Channel} (h : n ≤ 23) (hc : lookup Channel.number n s.channels = some c)
include h hc

theorem clearFault_sound (hstate : c.state ≠ .fault) : clearFault n s = .refuse s .refused (.channelState c.state) := by
  simp only [clearFault, firstBad, number_good h, hc, if_pos hstate]
  rfl

theorem clearFault_tripped {code : Nat} (hstate : c.state = .fault) (htrip : c.report.bind Report.trip = some code) :
    clearFault n s = .refuse s .refused (.channelTrip .trip code) := by
  simp only [clearFault, firstBad, number_good h, hc, if_neg (not_not_intro hstate), htrip]
  rfl

theorem clearFault_clears (hstate : c.state = .fault) (htrip : c.report.bind Report.trip = none) :
    clearFault n s = .ok (fanEventAt n (fun d => clearedFault (s.demand d) d) s) .none := by
  simp only [clearFault, firstBad, number_good h, hc, if_neg (not_not_intro hstate), htrip]
  rfl

end

/-- A FAULT channel that CLEAR_FAULT takes to OFF (R96). -/
def clearedOff (d : Demand) (c : Channel) : Channel :=
  { c with
    faultCause := none, cls := d.cls, target := d.want, damper := none, coast := none
    state := .off, command := some ⟨0, .close, d.cls.fallback⟩ }

section
variable (d : Demand) {c : Channel} (hstate : c.state = .fault)
include hstate

theorem clearedFault_eq :
    let e : Eff := if 0 < d.want ∧ c.holding = false then toStart (clearedOff d c) else ⟨clearedOff d c, [], []⟩
    clearedFault d c = ⟨e.ch, .fanState c.record.channel .off .fault :: e.notices, e.changes⟩ := by
  have hleaving : leaving { c with target := d.want, cls := d.cls } = [] := if_neg (by rw [hstate]; decide)
  rw [clearedFault, ← toOff_eq, toOff, hleaving, hstate]
  rfl

theorem clearedFault_stays (hidle : d.want = 0 ∨ c.holding = true) :
    clearedFault d c = ⟨clearedOff d c, [.fanState c.record.channel .off .fault], []⟩ := by
  have hstays : ¬ (0 < d.want ∧ c.holding = false) := fun ⟨hwant, hfree⟩ =>
    hidle.elim (Nat.ne_of_gt hwant) (by rw [hfree]; exact Bool.false_ne_true)
  rw [clearedFault_eq d hstate, if_neg hstays]

variable (hwant : 0 < d.want) (hfree : c.holding = false)
include hwant hfree

theorem clearedFault_starts : clearedFault d c =
    ⟨(toStart (clearedOff d c)).ch, .fanState c.record.channel .off .fault :: (toStart (clearedOff d c)).notices,
      (toStart (clearedOff d c)).changes⟩ := by
  rw [clearedFault_eq d hstate, if_pos ⟨hwant, hfree⟩]

theorem clearedFault_opens (hclosed : ¬ c.report.map Report.damper = some .opn) : clearedFault d c =
    ⟨{ clearedOff d c with
        state := .opening, damper := some ⟨c.record.damperTimeout, false⟩, command := some ⟨0, .opn, d.cls.fallback⟩ },
      [.fanState c.record.channel .off .fault], []⟩ := by
  rw [clearedFault_starts d hstate hwant hfree, toStart, if_neg (show ¬ (clearedOff d c).report.map Report.damper = _ from hclosed)]
  rfl

theorem clearedFault_queues (hopened : c.report.map Report.damper = some .opn) : clearedFault d c =
    ⟨{ clearedOff d c with state := .queued, command := some ⟨0, .opn, d.cls.fallback⟩ },
      [.fanState c.record.channel .off .fault],
      [.join c.record.channel (if d.cls = .extract then .fire else .normal) c.record.cost]⟩ := by
  rw [clearedFault_starts d hstate hwant hfree, toStart, if_pos (show (clearedOff d c).report.map Report.damper = _ from hopened)]
  rfl

end

/-! ## The statement -/

/-- Settles O25: a request is a resolution of the channels with their setpoints changed, or CLEAR_FAULT's one event. -/
theorem manualModeAndChannelRequests : Obligations.ManualModeAndChannelRequests := by
  intro tag n setpoint s hp
  have enters {t : State} {status : Status} {body : ReplyBody} (h : manualEnter s = ⟨t, status, body⟩) :
      exec (.manualEnter tag) s = .next (replying 0x1B tag status body t) :=
    (exec_manualEnter tag s).trans (ZoneEvaluation.powered_answer hp h)
  have leaves {t : State} {status : Status} {body : ReplyBody} (h : manualLeave s = ⟨t, status, body⟩) :
      exec (.manualLeave tag) s = .next (replying 0x1C tag status body t) :=
    (exec_manualLeave tag s).trans (ZoneEvaluation.powered_answer hp h)
  have sets {t : State} {status : Status} {body : ReplyBody} (h : setFan n setpoint s = ⟨t, status, body⟩) :
      exec (.setFan tag n setpoint) s = .next (replying 0x33 tag status body t) :=
    (exec_setFan tag n setpoint s).trans (ZoneEvaluation.powered_answer hp h)
  have clears {t : State} {status : Status} {body : ReplyBody} (h : clearFault n s = ⟨t, status, body⟩) :
      exec (.clearFault tag n) s = .next (replying 0x34 tag status body t) :=
    (exec_clearFault tag n s).trans (ZoneEvaluation.powered_answer hp h)
  have hall (c d : Channel) (_ : d.record = c.record) : true = true := rfl
  refine ⟨fun hrun => ⟨?_, fun hclaims => enters ?_⟩, fun h => enters (manualEnter_elsewhere h), fun hmanual => ?_,
    fun h => leaves (manualLeave_elsewhere h), fun h => sets (setFan_badNumber h), fun h hs => sets (setFan_badSetpoint h hs),
    fun h hs hmode => sets ((setFan_checked h hs).trans (if_pos hmode)), fun h hs hmode hnone => sets ?_,
    fun h hs hmode hsome => ?_, fun h => clears (clearFault_badNumber h),
    fun h hnone => clears (clearFault_absent h (lookup_eq_none.mpr hnone)), fun before c after h hs ho hc => ?_⟩
  · refine ⟨enters (manualEnter_run hrun), resolving_besidesFans _ (enteredManual s), ?_, fun hunits c hc => ?_⟩
    · refine (resolving_manuals _ (enteredManual s)).trans ?_
      rw [enteredManual, List.map_map]
      rfl
    · obtain ⟨hbooks, hok⟩ := books_of_manuals hunits .manual (g := fun c => { c with manual := some c.target }) fun c => ⟨_, rfl⟩
      exact resolving_resolved hall hbooks hok hc rfl
  · rw [manualEnter_run hrun, resolving_entered hrun hclaims]
    rfl
  · refine ⟨leaves (manualLeave_manual hmanual), resolving_besidesFans _ (leftManual s), ?_, fun hunits c hc => ?_⟩
    · refine (resolving_manuals _ (leftManual s)).trans ?_
      rw [leftManual, List.map_map]
      rfl
    · obtain ⟨hbooks, hok⟩ := books_of_manuals hunits .run (g := fun c => { c with manual := none }) fun c => ⟨_, rfl⟩
      exact resolving_resolved hall hbooks hok hc rfl
  · rw [setFan_checked h hs, if_neg (not_not_intro hmode), if_pos (hasKey_false (key := Channel.number).mpr hnone)]
    rfl
  · intro t
    have ht : applySetpoint n setpoint s = t := applySetpoint_eq n setpoint s
    have htmode : t.mode = .manual := (resolving_mode _ _).trans hmode
    obtain ⟨d, hd, hset⟩ := setpoint_found setpoint hsome
    have htarget : (applySetpoint n setpoint s).targetOf n = d.target := by rw [State.targetOf, hd]; rfl
    obtain ⟨hmem, hnumber⟩ := lookup_mem hd
    rw [ht] at hd hmem
    refine ⟨d, sets ?_, hd, resolving_besidesFans _ (withSetpoint n setpoint s), ht ▸ setpoint_manuals n setpoint s, fun hunits => ?_⟩
    · have hpresent : ¬ hasKey Channel.number n s.channels = false := ne_false_of_eq_true (hasKey_iff.mpr hsome)
      rw [setFan_checked h hs, if_neg (not_not_intro hmode), if_neg hpresent, htarget, ht]
      rfl
    · obtain ⟨hbooks, hok⟩ := books_of_manuals hunits s.mode (setpoint_manual n setpoint)
      have hresolved : t.resolved d :=
        resolving_resolved (fun c e he => by rw [he]) hbooks hok hmem (decide_eq_true hnumber)
      have hbound : t.boundClaims d.number = s.boundClaims n := by
        obtain ⟨_, _, _, _, hfan⟩ := resolving_fan (fun c => c.record.channel = n) (withSetpoint n setpoint s)
        rw [hnumber, show t = _ from hfan]
        rfl
      refine ⟨hresolved, fun hnormal hstate => ?_⟩
      rw [target_of_manual htmode hresolved (hbound ▸ hnormal) hstate, hset, Option.getD_some, ZoneEvaluation.clip_eq]
  · have hfound : lookup Channel.number n s.channels = some c := by
      rw [hs]
      exact lookup_split (fun k hk => ho k (List.mem_append_left _ hk)) hc
    refine ⟨fun hstate => clears (clearFault_sound h hfound hstate), fun code hstate htrip =>
      clears (clearFault_tripped h hfound hstate htrip), fun hstate htrip => ?_⟩
    intro want fallback cleared become opened
    subst hc
    have cleared_by {e : Eff} (he : clearedFault (s.demand c) c = e) : clearFault c.record.channel s =
        .ok (applyChanges e.changes { s with channels := before ++ e.ch :: after, ring := ringing e.notices s }) .none := by
      rw [clearFault_clears h hfound hstate htrip, fanEventAt_split _ hs rfl ho, he]
    refine ⟨fun hidle => clears ?_, fun hwant hfree hclosed => clears ?_, fun hwant hfree hopened => clears ?_⟩
    · rw [cleared_by (clearedFault_stays _ hstate hidle), applyChanges_nil]
      rfl
    · rw [cleared_by (clearedFault_opens _ hstate hwant hfree hclosed), applyChanges_nil]
      rfl
    · rw [cleared_by (clearedFault_queues _ hstate hwant hfree hopened)]
      rfl

end Sys2Proof.FanChannels
end

