-- ==== Sys2Proof/Proofs/FanFailsafe.lean ====
section
/-! PROOFS. The provisional channels that a latch under the failsafe makes, and the values it hands every channel (R144, R145). -/

namespace Sys2Proof.FanChannels

open Sys2Proof.Machine Sys2Proof.Claims Sys2Proof.BayLoop
open Sys2Proof.ZoneEvaluation (Books Granted unitsOk_iff)

/-! ## The channels made -/

/-- Making a channel takes a free number, so no channel goes. -/
theorem mem_addProvisional {channels : List Channel} {c : Channel} (address : Nat) (h : c ∈ channels) :
    c ∈ addProvisional channels address := by
  unfold addProvisional
  split
  · exact h
  · split
    · exact h
    next n hn =>
      refine mem_upsert_of_ne h fun hkey => ?_
      have hfree := List.find?_some hn
      rw [Bool.not_eq_true', hasKey_false] at hfree
      exact hfree c h hkey

theorem mem_foldl_addProvisional {addresses : List Nat} {channels : List Channel} {c : Channel} (h : c ∈ channels) :
    c ∈ addresses.foldl addProvisional channels := by
  induction addresses generalizing channels with
  | nil => exact h
  | cons a addresses ih => exact ih (mem_addProvisional a h)

/-- A channel of the table with those made for some addresses: an old one, or one made for one of them. -/
theorem foldl_addProvisional_made {addresses : List Nat} {channels : List Channel} {c : Channel}
    (h : c ∈ addresses.foldl addProvisional channels) :
    c ∈ channels ∨ ∃ n, ∃ a ∈ addresses, c = .initial (.provisional n a) true := by
  induction addresses generalizing channels with
  | nil => exact .inl h
  | cons a addresses ih =>
    rcases ih h with hc | ⟨n, b, hb, hmade⟩
    · unfold addProvisional at hc
      split at hc
      · exact .inl hc
      · split at hc
        · exact .inl hc
        next n _ =>
          rcases mem_upsert hc with hmade | hc
          · exact .inr ⟨n, a, List.mem_cons_self, hmade⟩
          · exact .inl hc
    · exact .inr ⟨n, b, List.mem_cons_of_mem a hb, hmade⟩

/-- Every address has its channel, while numbers last. -/
theorem foldl_addProvisional_covers {addresses : List Nat} {a : Nat} (ha : a ∈ addresses) (channels : List Channel) :
    (∃ c ∈ addresses.foldl addProvisional channels, c.record.address = a)
      ∨ ∀ n < 24, ∃ c ∈ addresses.foldl addProvisional channels, c.number = n := by
  induction addresses generalizing channels with
  | nil => cases ha
  | cons b addresses ih =>
    rcases List.mem_cons.mp ha with rfl | ha
    · refine (provided_covers channels a).imp ?_ fun hall n hn => ?_
      · rintro ⟨c, hc, haddress⟩
        exact ⟨c, mem_foldl_addProvisional (channels := addProvisional channels a) hc, haddress⟩
      · obtain ⟨c, hc, hnumber⟩ := hall n hn
        exact ⟨c, mem_foldl_addProvisional (channels := addProvisional channels a) hc, hnumber⟩
    · exact ih ha _

/-! ## The failsafe's event -/

section
variable (addresses : List Nat) (s : State)

theorem makeProvisional_eq : makeProvisional addresses s =
    resolving (fun _ => true) { s with channels := addresses.foldl addProvisional s.channels } := (resolving_eq _ _).symm

theorem makeProvisional_records :
    (makeProvisional addresses s).channels.map Channel.record = (addresses.foldl addProvisional s.channels).map Channel.record :=
  resolveChannels_map Channel.record (fun _ _ h => h.1) _ _ _

theorem makeProvisional_covers {a : Nat} (ha : a ∈ addresses) :
    (∃ c ∈ (makeProvisional addresses s).channels, c.record.address = a)
      ∨ ∀ n < 24, ∃ c ∈ (makeProvisional addresses s).channels, c.number = n :=
  covers_of_records (makeProvisional_records addresses s) (foldl_addProvisional_covers ha s.channels)

/-- Every channel keeps its record. -/
theorem makeProvisional_keeps {k : Channel} (hk : k ∈ s.channels) :
    ∃ c ∈ (makeProvisional addresses s).channels, c.record = k.record := by
  have hmem : k.record ∈ (makeProvisional addresses s).channels.map Channel.record := by
    rw [makeProvisional_records]
    exact List.mem_map_of_mem (mem_foldl_addProvisional hk)
  exact List.mem_map.mp hmem

end

section
variable {s : State} (hbooks : Books s) (hok : ∀ c ∈ s.channels, c.holdingOk)
include hbooks hok

/-- While a latch is set under the failsafe, every channel has EXTRACT and 100 %, the target 0 in FAULT. -/
theorem makeProvisional_demands (addresses : List Nat) (hm : s.mode = .blank ∨ s.mode = .loading) (hl : s.latches ≠ []) {c : Channel}
    (hc : c ∈ (makeProvisional addresses s).channels) :
    c.cls = .extract ∧ c.target = if c.state = .fault then 0 else 100 := by
  obtain ⟨hmade, hidle⟩ := ZoneEvaluation.provisional_books addresses hbooks hok
  have hdemand : (makeProvisional addresses s).demand c = ⟨.extract, 100, none⟩ := by
    rw [ZoneEvaluation.demand_of_fan (makeProvisional_fan addresses s), ZoneEvaluation.demand_of_failsafe hm, if_neg hl]
  rw [makeProvisional_eq] at hc hdemand
  obtain ⟨hcls, htarget, -⟩ := resolving_resolved (fun _ _ _ => rfl) hmade hidle hc rfl
  rw [hdemand] at hcls htarget
  exact ⟨hcls, htarget⟩

/-- A channel after the failsafe's event stood before it, or has just been made and waits in SYNC. -/
theorem makeProvisional_from (addresses : List Nat) {c : Channel} (hc : c ∈ (makeProvisional addresses s).channels) :
    (∃ k ∈ s.channels, k.record = c.record)
      ∨ (c.state = .sync ∧ c.provisional = true ∧ ∃ n, ∃ a ∈ addresses, c.record = .provisional n a) := by
  obtain ⟨hmade, hidle⟩ := ZoneEvaluation.provisional_books addresses hbooks hok
  rw [makeProvisional_eq] at hc
  obtain ⟨k, hk, hgranted⟩ := resolving_from hmade hidle hc
  rw [if_pos rfl] at hgranted
  rcases foldl_addProvisional_made hk with hold | ⟨n, a, ha, rfl⟩
  · obtain ⟨⟨⟨hrecord, -⟩, -⟩, -⟩ := ZoneEvaluation.resolve_booked false
      (State.demand { s with channels := addresses.foldl addProvisional s.channels } k) k
    exact .inl ⟨k, hold, ((granted_same hgranted).1.trans hrecord).symm⟩
  · have hfresh : Fresh (.initial (.provisional n a) true) := rfl
    rw [resolve_fresh false _ hfresh] at hgranted
    rcases hgranted with rfl | ⟨hqueued, -⟩
    · exact .inr ⟨rfl, rfl, n, a, ha, rfl⟩
    · cases hqueued

end

end Sys2Proof.FanChannels
end

