-- ==== Sys2Proof/Proofs/FanLatches.lean ====
section
/-! PROOFS. The acceptance of a fire line's level and the latch it sets (R127 to R134, R145, R165). -/

namespace Sys2Proof.FanChannels

open Sys2Proof.Machine Sys2Proof.Claims Sys2Proof.BayLoop
open Sys2Proof.ZoneEvaluation (unitsOk_iff triggerInForce_eq)

/-! ## Acceptances -/

theorem debounceInForce_eq (s : State) (n : Nat) : s.debounceInForce n =
    if s.mode = .blank ∨ s.mode = .loading then 5 else ((s.lineRecord n).map LineRecord.debounce).getD 5 := by
  unfold State.debounceInForce
  simp only [failsafe_iff]
  cases s.lineRecord n <;> rfl

section
variable {debounce : Nat} {l : FireLine}

theorem acceptance_early
    (h : l.accepted ≠ none ∧ (l.pendingLevel = none ∨ l.heldFor = none ∨ ∃ k, l.heldFor = some k ∧ k < debounce)
      ∨ l.accepted = none ∧ l.initialHeld < debounce) : l.acceptance debounce = none := by
  rcases h with ⟨haccepted, hpending⟩ | ⟨haccepted, hheld⟩
  · obtain ⟨a, ha⟩ := Option.ne_none_iff_exists'.mp haccepted
    rcases hpending with hnone | hnone | ⟨k, hk, hshort⟩
    · exact FireLine.acceptance_none ha (.inl hnone)
    · exact FireLine.acceptance_none ha (.inr hnone)
    · cases hp : l.pendingLevel with
      | none => exact FireLine.acceptance_none ha (.inl hp)
      | some p => rw [FireLine.acceptance_pending ha hp hk, if_neg (Nat.not_le.mpr hshort)]
  · rw [FireLine.acceptance_initial haccepted, if_neg (Nat.not_le.mpr hheld)]

theorem acceptance_due {level : PinLevel} {k : Nat} (hk : debounce ≤ k)
    (h : (l.accepted = none ∧ l.pin = level ∧ l.initialHeld = k)
      ∨ (l.accepted ≠ none ∧ l.pendingLevel = some level ∧ l.heldFor = some k)) :
    l.acceptance debounce = some (level, decide (l.accepted = none)) := by
  rcases h with ⟨haccepted, hpin, hheld⟩ | ⟨haccepted, hpending, hheld⟩
  · rw [FireLine.acceptance_initial haccepted, hheld, if_pos hk, hpin, decide_eq_true haccepted]
  · obtain ⟨a, ha⟩ := Option.ne_none_iff_exists'.mp haccepted
    rw [FireLine.acceptance_pending ha hpending hheld, if_pos hk, decide_eq_false haccepted]

end

/-- Whether an accepted level meets a trigger, in the words of the statements (R129). -/
theorem sets_iff (tr : Trigger) {p : Prop} [Decidable p] (level : PinLevel) : tr.sets (decide p) level = true ↔
    (tr = .levelHigh ∧ level = .high) ∨ (tr = .levelLow ∧ level = .low)
      ∨ (¬ p ∧ ((tr = .rising ∧ level = .high) ∨ (tr = .falling ∧ level = .low) ∨ tr = .either)) := by
  cases tr <;> cases level <;> simp [Trigger.sets]

theorem latched_iff (s : State) (n : Nat) : s.latched n = true ↔ n ∈ s.latches.map Latch.line := by
  simp only [State.latched, List.any_eq_true, beq_iff_eq, List.mem_map]

/-- The state with a level accepted at one of its lines. -/
def acceptedAt (before : List FireLine) (l : FireLine) (after : List FireLine) (level : PinLevel) (s : State) : State :=
  { s with lines := before ++ l.accept level :: after }

section
variable {n : Nat} {before after : List FireLine} {l : FireLine} {s : State}
  (hs : s.lines = before ++ l :: after) (hl : l.line = n) (ho : ∀ k ∈ before ++ after, k.line ≠ n)
include hs hl ho

theorem acceptLine_none (h : l.acceptance (s.debounceInForce n) = none) : acceptLine n s = s := by
  have hlookup : lookup FireLine.line n s.lines = some l := by
    rw [hs]
    exact lookup_split (fun k hk => ho k (List.mem_append_left _ hk)) hl
  simp only [acceptLine, hlookup, Option.bind_some, h]

theorem acceptLine_some {level : PinLevel} {initial : Bool} (h : l.acceptance (s.debounceInForce n) = some (level, initial)) :
    acceptLine n s = if s.latched n = false ∧ (s.triggerInForce n).sets initial level = true then
        setLatch n (acceptedAt before l after level s) else acceptedAt before l after level s := by
  have hlookup : lookup FireLine.line n s.lines = some l := by
    rw [hs]
    exact lookup_split (fun k hk => ho k (List.mem_append_left _ hk)) hl
  have haccepted : modify FireLine.line n (FireLine.accept level) s.lines = before ++ l.accept level :: after := by
    rw [hs]
    exact modify_split ho hl
  simp only [acceptLine, hlookup, Option.bind_some, h, haccepted]
  rfl

end

/-! ## The event of a latch -/

/-- The latch in the list and its FIRE_LATCH raised (R131). -/
def latchListed (line : Nat) (s : State) : State :=
  raise (.fireLatch line (s.causeFor line) (s.latches.length + 1))
    { s with latches := s.latches ++ [⟨line, s.uptime, s.causeFor line⟩] }

/-- What the channels or the zones do about it (R132 to R134, R145). -/
def latchActed (line : Nat) (s : State) : State :=
  if s.failsafe then makeProvisional s.discoveredDrives (latchListed line s) else applyPlan line (latchListed line s)

theorem setLatch_eq (line : Nat) (s : State) : setLatch line s = lapseWrite (latchActed line s) := by
  have hlength : (s.latches ++ [(⟨line, s.uptime, s.causeFor line⟩ : Latch)]).length = s.latches.length + 1 := List.length_append
  unfold setLatch latchActed latchListed
  dsimp only
  rw [hlength]

/-- The slot after the end of a write in work (R165). -/
def slotLapsed : ServiceSlot → ServiceSlot
  | .working k ms a f r => if k.op = .itemWrite ∨ k.op = .groupWrite then .idle else .working k ms a f r
  | other => other

theorem lapseWrite_frame (s : State) : ∃ ns,
    lapseWrite s = { s with slot := slotLapsed s.slot, ring := s.ring.raised s.uptime ns } := by
  rw [lapseWrite_eq]
  split
  next k ms a f r hslot =>
    split
    next hwrites => exact ⟨[_], by rw [hslot, slotLapsed, if_pos hwrites]; rfl⟩
    next hreads => exact ⟨[], by rw [hslot, slotLapsed, if_neg hreads]; rfl⟩
  next hother =>
    refine ⟨[], ?_⟩
    have hsame : slotLapsed s.slot = s.slot := by
      cases hslot : s.slot with
      | working k ms a f r => exact absurd hslot (hother k ms a f r)
      | idle => rfl
      | ready k ms r t => rfl
    rw [hsame]
    rfl

theorem latchActed_zone (line : Nat) (s : State) : ZoneStep (latchListed line s) (latchActed line s) := by
  unfold latchActed
  split
  · exact (makeProvisional_fan _ _).zone
  · exact applyPlan_zone _ _

/-- A latch changes the list, what its event reaches, and the service slot. -/
theorem setLatch_frame (line : Nat) (s : State) : ∃ later,
    setLatch line s = { s with
      latches := s.latches ++ [⟨line, s.uptime, s.causeFor line⟩]
      zones := (latchActed line s).zones, handed := (latchActed line s).handed, channels := (latchActed line s).channels
      queue := (latchActed line s).queue, held := (latchActed line s).held, slot := slotLapsed s.slot
      ring := (s.ring.append ⟨.fireLatch line (s.causeFor line) (s.latches.length + 1), s.uptime⟩).raised s.uptime later } := by
  obtain ⟨channels, queue, held, acts, zones, handed, hacted⟩ := latchActed_zone line s
  obtain ⟨lapses, hlapsed⟩ := lapseWrite_frame (latchActed line s)
  refine ⟨acts ++ lapses, ?_⟩
  rw [setLatch_eq, hlapsed, hacted, Ring.raised_append]
  rfl

/-! ## The plan of a latched line -/

theorem assignment_of_record {s : State} {n : Nat} {r : LineRecord} (h : s.lineRecord n = some r) (zone : Nat) :
    assignment s.lineRecords n zone =
      if r.extract.getLsbD zone then some (.extract r.speed) else if r.isolate.getLsbD zone then some .isolate else none := by
  rw [← planOf_eq, planOf, h]

/-! What a latched line does to a zone (R133, R134). -/

section
variable {records : List LineRecord} {n : Nat} {z : Zone} {a : Assignment}

theorem latch_unnamed (h : assignment records n z.record.zone = none) : (z.latch records n).1 = z := by
  simp only [Zone.latch, Zone.number, h]

theorem latch_enters (h : assignment records n z.record.zone = some a) (hfire : ¬ z.state.isFire = true) :
    (z.latch records n).1 = z.enterFire n a := by
  simp only [Zone.latch, Zone.number, h, if_neg hfire]

theorem latch_ungoverned (h : assignment records n z.record.zone = some a) (hfire : z.state.isFire = true) (hg : z.governing = none) :
    (z.latch records n).1 = z := by
  simp only [Zone.latch, Zone.number, h, if_pos hfire, hg]

theorem latch_governed {g : Nat} (h : assignment records n z.record.zone = some a) (hfire : z.state.isFire = true)
    (hg : z.governing = some g) : (z.latch records n).1 =
      if assignment records g z.record.zone = some a then z else { z with conflict := z.conflict ++ [n] } := by
  simp only [Zone.latch, Zone.number, h, if_pos hfire, hg]
  split <;> rfl

end

/-- What the plan of a line record makes of a zone, in the words of the statements (R133, R134). -/
def plannedZone (records : List LineRecord) (n speed : Nat) (plan : Option Assignment) (z : Zone) : Zone :=
  if plan = none then z
  else if z.state = .fireExtract ∨ z.state = .fireIsolate then
    match z.governing with
    | none => z
    | some g => if assignment records g z.record.zone = plan then z else { z with conflict := z.conflict ++ [n] }
  else if plan = some .isolate then
    { z with state := .fireIsolate, governing := some n, hold := none, claim := 0, claimClass := .isolate, conflict := [] }
  else { z with state := .fireExtract, governing := some n, hold := none, claim := speed, claimClass := .extract, conflict := [] }

theorem latch_planned {records : List LineRecord} {n speed : Nat} {z : Zone} {e i : Bool}
    (h : assignment records n z.record.zone = if e then some (.extract speed) else if i then some .isolate else none) :
    (z.latch records n).1 = plannedZone records n speed (if e then some (.extract speed) else if i then some .isolate else none) z := by
  rw [← h, plannedZone]
  cases ha : assignment records n z.record.zone with
  | none => rw [if_pos rfl, latch_unnamed ha]
  | some a =>
    rw [if_neg (Option.some_ne_none a)]
    by_cases hburns : z.state = .fireExtract ∨ z.state = .fireIsolate
    · have hfire := (GasHeads.isFire_iff z.state).mpr hburns
      rw [if_pos hburns]
      split
      next hg => exact latch_ungoverned ha hfire hg
      next g hg => exact latch_governed ha hfire hg
    · rw [if_neg hburns, latch_enters ha (mt (GasHeads.isFire_iff z.state).mp hburns)]
      cases a with
      | isolate => rfl
      | extract v =>
        have hspeed : v = speed := by
          rw [ha] at h
          split_ifs at h
          · injection h with h
            injection h
          · cases h
        rw [hspeed]
        rfl

theorem latchActed_planned {s : State} (line : Nat) (h : s.failsafe = false) :
    (latchActed line s).zones = s.zones.map fun z => (z.latch s.lineRecords line).1 := by
  have hzones : (applyPlan line (latchListed line s)).zones = s.zones.map fun z => (z.latch s.lineRecords line).1 := by
    rw [applyPlan, commitZones_frame]
    exact List.map_map
  rw [latchActed, if_neg (ne_true_of_eq_false h), hzones]

theorem latchActed_failsafe {s : State} (line : Nat) (h : s.failsafe = true) :
    latchActed line s = makeProvisional s.discoveredDrives (latchListed line s) := if_pos h

theorem mem_discoveredDrives {s : State} {a : Nat} :
    a ∈ s.discoveredDrives ↔ ∃ d ∈ s.loop.discovered, d.kind = .drive ∧ d.address = a := by
  simp only [State.discoveredDrives, List.mem_map, List.mem_filter, decide_eq_true_eq, and_assoc]

/-- The channels after a latch under the failsafe (R144, R145). -/
theorem latchActed_channels {s : State} (n : Nat) (hm : s.mode = .blank ∨ s.mode = .loading) (hunits : s.unitsOk) :
    (∀ c ∈ (latchActed n s).channels, c.cls = .extract ∧ c.target = if c.state = .fault then 0 else 100)
    ∧ (∀ d ∈ s.loop.discovered, d.kind = .drive → (∀ m < 24, ∃ c ∈ (latchActed n s).channels, c.number = m)
        ∨ ∃ c ∈ (latchActed n s).channels, c.record.address = d.address)
    ∧ (∀ c ∈ (latchActed n s).channels, (∃ k ∈ s.channels, k.number = c.number ∧ k.record = c.record)
        ∨ (c.state = .sync ∧ c.provisional = true
          ∧ c.record = ⟨c.number, c.record.address, 0, 1, 5, 60, 30, 0, 100⟩
          ∧ ∃ d ∈ s.loop.discovered, d.kind = .drive ∧ d.address = c.record.address))
    ∧ ∀ k ∈ s.channels, ∃ c ∈ (latchActed n s).channels, c.number = k.number ∧ c.record = k.record := by
  obtain ⟨hbooks, hok, -⟩ := (unitsOk_iff s).mp hunits
  have hlisted : ZoneEvaluation.Books (latchListed n s) := hbooks
  rw [latchActed_failsafe n ((failsafe_iff s).mpr hm)]
  refine ⟨fun c hc => ?_, fun d hd hdrive => ?_, fun c hc => ?_, fun k hk => ?_⟩
  · exact makeProvisional_demands hlisted hok _ hm (List.append_ne_nil_of_right_ne_nil _ (List.cons_ne_nil _ _)) hc
  · exact (makeProvisional_covers _ _ (mem_discoveredDrives.mpr ⟨d, hd, hdrive, rfl⟩)).symm
  · rcases makeProvisional_from hlisted hok _ hc with ⟨k, hk, hrecord⟩ | ⟨hsync, hmade, m, a, ha, hrecord⟩
    · exact .inl ⟨k, hk, congrArg FanRecord.channel hrecord, hrecord⟩
    · obtain ⟨d, hd, hdrive, haddress⟩ := mem_discoveredDrives.mp ha
      refine .inr ⟨hsync, hmade, ?_, d, hd, hdrive, ?_⟩
      · rw [Channel.number, hrecord]
        rfl
      · rw [haddress, hrecord]
        rfl
  · obtain ⟨c, hc, hrecord⟩ := makeProvisional_keeps s.discoveredDrives (latchListed n s) hk
    exact ⟨c, hc, congrArg FanRecord.channel hrecord, hrecord⟩

/-- Settles O34: the acceptance due, the trigger it meets, and the event of the latch by mode. -/
theorem acceptedLevelsSetLatches : Obligations.AcceptedLevelsSetLatches := by
  intro n before after l s hp hs hl ho debounce
  have hdebounce : s.debounceInForce n = debounce := debounceInForce_eq s n
  have accepts {t : State} (h : acceptLine n s = t) : exec (.fireLineAccepted n) s = .next t :=
    h ▸ (exec_fireLineAccepted n s).trans (powered_running hp _)
  refine ⟨fun hearly => accepts (acceptLine_none hs hl ho (hdebounce ▸ acceptance_early hearly)), ?_⟩
  intro level k hdue hk t tr met cause
  have hacceptance := acceptance_due hk hdue
  rw [← hdebounce] at hacceptance
  have hstep := acceptLine_some hs hl ho hacceptance
  have hmet : (s.triggerInForce n).sets (decide (l.accepted = none)) level = true ↔ met := by
    rw [sets_iff, triggerInForce_eq]
  have hcause : t.causeFor n = cause := by
    have htrigger : t.triggerInForce n = tr := triggerInForce_eq t n
    unfold State.causeFor
    rw [htrigger]
    simp only [failsafe_iff]
    rfl
  refine ⟨fun hnot => accepts (hstep.trans (if_neg ?_)), fun hyes hnew => ?_⟩
  · rintro ⟨hunlatched, hsets⟩
    rcases hnot with hunmet | hin
    · exact hunmet (hmet.mp hsets)
    · rw [(latched_iff s n).mpr hin] at hunlatched
      cases hunlatched
  · have hsets : s.latched n = false ∧ (s.triggerInForce n).sets (decide (l.accepted = none)) level = true :=
      ⟨Bool.eq_false_iff.mpr fun h => hnew ((latched_iff s n).mp h), hmet.mpr hyes⟩
    obtain ⟨later, hframe⟩ := setLatch_frame n t
    rw [hcause] at hframe
    refine ⟨setLatch n t, accepts (hstep.trans (if_pos hsets)), ?_, ?_, ⟨later, ?_⟩, ?_, fun hm => ?_, fun hm hunits => ?_,
      fun hm r hr => ?_⟩
    · rw [← hcause, latchSets_eq]
    · rw [hframe]
    · rw [hframe]
      rfl
    · rw [hframe]
      change slotLapsed s.slot = _
      cases s.slot <;> rfl
    · rw [hframe, latchActed_failsafe n ((failsafe_iff t).mpr hm)]
      obtain ⟨_, _, _, _, hfan⟩ := makeProvisional_fan t.discoveredDrives (latchListed n t)
      rw [hfan]
      rfl
    · rw [hframe]
      exact latchActed_channels (s := t) n hm hunits
    · have hscheduled : t.failsafe = false := by
        rw [State.failsafe, (scheduled_iff t.mode).mpr hm]
        rfl
      rw [hframe]
      refine (latchActed_planned n hscheduled).trans (List.map_congr_left fun z _ => ?_)
      exact latch_planned (assignment_of_record hr z.record.zone)

end Sys2Proof.FanChannels
end

