-- ==== Sys2Proof/Proofs/QueueOrder.lean ====
section
/-! PROOFS. The order of the start queue, its head, and the class of each entry under the changes of one event (R105 to R107, R111 to
R116, R119). -/

namespace Sys2Proof.StartQueue

open Sys2Proof.Machine Sys2Proof.Claims Sys2Proof.BayLoop Sys2Proof.ZoneEvaluation

/-! ## FIRE ahead of NORMAL, and the head -/

/-- FIRE entries stand ahead of NORMAL ones (R105). -/
def FireFirst (q : List QueueEntry) : Prop := q.Pairwise fun a b => b.cls = .fire → a.cls = .fire

/-- A queue in the order of R105 with a head time at its head alone (R119). -/
def InOrder (q : List QueueEntry) : Prop := FireFirst q ∧ headed q

/-- The order is one of the classes alone. -/
theorem FireFirst.of_classes {q r : List QueueEntry} (hr : r.map QueueEntry.cls = q.map QueueEntry.cls) (h : FireFirst q) :
    FireFirst r := by
  have hclasses : (q.map QueueEntry.cls).Pairwise fun a b => b = .fire → a = .fire := List.pairwise_map.mpr h
  rw [← hr] at hclasses
  exact List.pairwise_map.mp hclasses

theorem fixHead_classes (q : List QueueEntry) : (fixHead q).map QueueEntry.cls = q.map QueueEntry.cls := by
  cases q <;> simp [fixHead, Function.comp_def]

theorem headed_fixHead (q : List QueueEntry) : headed (fixHead q) := by
  cases q with
  | nil => trivial
  | cons e q =>
    refine ⟨nofun, fun f hf => ?_⟩
    obtain ⟨g, -, rfl⟩ := List.mem_map.mp hf
    exact ⟨rfl, rfl⟩

theorem inOrder_fixHead {q : List QueueEntry} (h : FireFirst q) : InOrder (fixHead q) :=
  ⟨h.of_classes (fixHead_classes q), headed_fixHead q⟩

theorem FireFirst.removeEntry {q : List QueueEntry} (n : Nat) (h : FireFirst q) : FireFirst (Machine.removeEntry n q) :=
  List.Pairwise.filter _ h

/-- An entry goes to the end of its class: behind every FIRE entry, ahead of the NORMAL ones only when it is FIRE itself. -/
theorem FireFirst.placeEntry {q : List QueueEntry} (e : QueueEntry) (h : FireFirst q) : FireFirst (Machine.placeEntry e q) := by
  unfold Machine.placeEntry
  split
  next hfire =>
    have hahead : ∀ a ∈ q.takeWhile QueueEntry.isFire, a.cls = .fire :=
      fun a ha => of_decide_eq_true (p := a.cls = .fire) (List.mem_takeWhile_imp (p := QueueEntry.isFire) ha)
    refine List.pairwise_append.mpr ⟨h.sublist (List.takeWhile_sublist _), ?_, fun a ha b _ _ => hahead a ha⟩
    exact List.pairwise_cons.mpr ⟨fun b _ _ => hfire, h.sublist (List.dropWhile_sublist _)⟩
  next hnormal =>
    refine List.pairwise_append.mpr ⟨h, List.pairwise_singleton _ _, fun a _ b hb hfire => ?_⟩
    rw [List.mem_singleton.mp hb, hnormal] at hfire
    cases hfire

theorem applyChange_inOrder (x : QueueChange) {q : List QueueEntry} (h : InOrder q) : InOrder (applyChange q x) := by
  cases x with
  | leave n => exact inOrder_fixHead (h.1.removeEntry n)
  | join n cls cost => exact inOrder_fixHead (h.1.placeEntry _)
  | move n cls =>
    simp only [applyChange]
    split
    · exact h
    · exact inOrder_fixHead ((h.1.removeEntry n).placeEntry _)

theorem foldl_inOrder (cs : List QueueChange) {q : List QueueEntry} (h : InOrder q) : InOrder (cs.foldl applyChange q) := by
  induction cs generalizing q with
  | nil => exact h
  | cons x cs ih => exact ih (applyChange_inOrder x h)

/-! ## The class of each entry -/

/-- Whose entry it is, and its class. -/
def entryTag (e : QueueEntry) : Nat × QueueClass := (e.channel, e.cls)

/-- The channel and the class that a change gives an entry. -/
def told : QueueChange → Option (Nat × QueueClass)
  | .leave _ => none
  | .join n cls _ => some (n, cls)
  | .move n cls => some (n, cls)

/-- A change that leaves the entry of a channel in its place. -/
def Spares (x : QueueChange) (n : Nat) : Prop := x ≠ .leave n ∧ ∀ cls, x ≠ .move n cls

theorem fixHead_tags (q : List QueueEntry) : (fixHead q).map entryTag = q.map entryTag := by
  cases q <;> simp [fixHead, entryTag, Function.comp_def]

theorem mem_placeEntry {e g : QueueEntry} {q : List QueueEntry} : g ∈ placeEntry e q ↔ g = e ∨ g ∈ q := by
  rw [(placeEntry_perm e q).mem_iff, List.mem_cons]

/-- An entry after a change has the class the change gives it, or had its class before and was spared. -/
theorem applyChange_tags {x : QueueChange} {q : List QueueEntry} {t : Nat × QueueClass} (h : t ∈ (applyChange q x).map entryTag) :
    told x = some t ∨ (Spares x t.1 ∧ t ∈ q.map entryTag) := by
  cases x with
  | leave n =>
    rw [applyChange, fixHead_tags] at h
    obtain ⟨e, he, rfl⟩ := List.mem_map.mp h
    obtain ⟨hmem, hne⟩ := mem_removeEntry.mp he
    exact .inr ⟨⟨fun heq => hne (QueueChange.leave.inj heq).symm, nofun⟩, List.mem_map_of_mem hmem⟩
  | join n cls cost =>
    rw [applyChange, fixHead_tags] at h
    obtain ⟨e, he, rfl⟩ := List.mem_map.mp h
    rcases mem_placeEntry.mp he with rfl | hmem
    · exact .inl rfl
    · exact .inr ⟨⟨nofun, nofun⟩, List.mem_map_of_mem hmem⟩
  | move n cls =>
    have hspares {m : Nat} (hne : m ≠ n) : Spares (.move n cls) m := ⟨nofun, fun k heq => hne (QueueChange.move.inj heq).1.symm⟩
    simp only [applyChange] at h
    split at h
    next hnone =>
      obtain ⟨e, he, rfl⟩ := List.mem_map.mp h
      exact .inr ⟨hspares (lookup_eq_none.mp hnone e he), List.mem_map_of_mem he⟩
    next g hg =>
      rw [fixHead_tags] at h
      obtain ⟨e, he, rfl⟩ := List.mem_map.mp h
      rcases mem_placeEntry.mp he with rfl | hmem
      · exact .inl (congrArg (fun k => some (k, cls)) (lookup_mem hg).2.symm)
      · obtain ⟨hmem, hne⟩ := mem_removeEntry.mp hmem
        exact .inr ⟨hspares hne, List.mem_map_of_mem hmem⟩

theorem foldl_tags {cs : List QueueChange} {q : List QueueEntry} {t : Nat × QueueClass}
    (h : t ∈ (cs.foldl applyChange q).map entryTag) :
    (∃ x ∈ cs, told x = some t) ∨ ((∀ x ∈ cs, Spares x t.1) ∧ t ∈ q.map entryTag) := by
  induction cs generalizing q with
  | nil => exact .inr ⟨List.forall_mem_nil _, h⟩
  | cons x cs ih =>
    rcases ih h with ⟨y, hy, htold⟩ | ⟨hspared, hmem⟩
    · exact .inl ⟨y, List.mem_cons_of_mem x hy, htold⟩
    · rcases applyChange_tags hmem with htold | ⟨hspares, hmem⟩
      · exact .inl ⟨x, List.mem_cons_self, htold⟩
      · exact .inr ⟨List.forall_mem_cons.mpr ⟨hspares, hspared⟩, hmem⟩

/-- The changes of an event are taken in another order, and all of them are taken. -/
theorem mem_ordered {x : QueueChange} {cs : List QueueChange} : x ∈ ordered cs ↔ x ∈ cs := by
  cases x <;> simp [ordered, QueueChange.isLeave, QueueChange.isMove, QueueChange.isJoin]

/-! ## The law in parts -/

/-- Each entry is of its channel's class (R105). -/
def Classed (s : State) : Prop := ∀ c ∈ s.channels, ∀ cls, (c.number, cls) ∈ s.queue.map entryTag → cls = c.cls.queueClass

/-- The units held, the reduced budget and each cost are within the B in force (R106, R107). -/
def Within (s : State) : Prop := s.held ≤ s.budget ∧ s.reduced ≤ s.budget ∧ ∀ c ∈ s.channels, c.record.cost ≤ s.budget

theorem queueOk_iff (s : State) : s.queueOk ↔ InOrder s.queue ∧ Classed s ∧ Within s := by
  have hclassed : Classed s ↔ ∀ e ∈ s.queue, ∀ c ∈ s.channels, c.number = e.channel → e.cls = c.cls.queueClass := by
    constructor
    · exact fun h e he c hc hnumber => h c hc e.cls (hnumber ▸ List.mem_map_of_mem (f := entryTag) he)
    · intro h c hc cls hmem
      obtain ⟨e, he, htag⟩ := List.mem_map.mp hmem
      obtain ⟨hchannel, rfl⟩ := Prod.mk.inj htag
      exact h e he c hc hchannel.symm
  rw [hclassed]
  exact ⟨fun ⟨hfire, hclass, hhead, hwithin⟩ => ⟨⟨hfire, hhead⟩, hclass, hwithin⟩,
    fun ⟨⟨hfire, hhead⟩, hclass, hwithin⟩ => ⟨hfire, hclass, hhead, hwithin⟩⟩

/-- The budgets are those of the mode and the active tables. -/
theorem budget_congr {s t : State} (hmode : t.mode.scheduled = s.mode.scheduled) (hactive : t.active = s.active) :
    t.budget = s.budget ∧ t.reduced = s.reduced := by
  unfold State.budget State.reduced
  rw [hmode, hactive]
  exact ⟨rfl, rfl⟩

theorem budget_of_fan {s t : State} (h : FanStep s t) : t.budget = s.budget ∧ t.reduced = s.reduced := by
  obtain ⟨-, -, hmode, -, -, -, hactive, -⟩ := h.work.keeps
  exact budget_congr (congrArg Mode.scheduled hmode) hactive

/-- Channels that stand under the same numbers, with the same costs and of the same classes, keep the law. -/
theorem queueOk_of_channels {s : State} {channels : List Channel} {held : Nat} (hheld : held ≤ s.held)
    (hchannels : ∀ d ∈ channels, ∃ c ∈ s.channels, d.record = c.record ∧ d.cls = c.cls) (h : s.queueOk) :
    State.queueOk { s with channels := channels, held := held } := by
  obtain ⟨horder, hclassed, hin, hreduced, hcosts⟩ := (queueOk_iff s).mp h
  refine (queueOk_iff _).mpr ⟨horder, fun d hd cls hmem => ?_, hheld.trans hin, hreduced, fun d hd => ?_⟩
  · obtain ⟨c, hc, hrecord, hcls⟩ := hchannels d hd
    rw [hcls]
    exact hclassed c hc cls (by rwa [Channel.number, hrecord] at hmem)
  · obtain ⟨c, hc, hrecord, -⟩ := hchannels d hd
    rw [hrecord]
    exact hcosts c hc

/-! ## Looks (R115, R116) -/

/-- The limit of an entry is B or the reduced budget. -/
theorem limit_le_budget {s : State} (e : QueueEntry) (h : s.reduced ≤ s.budget) : s.limit e ≤ s.budget := by
  rw [FanChannels.limit_eq]
  split
  · exact le_rfl
  · exact h

/-- A grant keeps the units within B: the head fits its limit, or nothing else is held. -/
theorem grant_within {s : State} {e : QueueEntry} (hgrant : s.grantable e = true) (hcost : e.cost ≤ s.budget)
    (hreduced : s.reduced ≤ s.budget) : s.held + e.cost ≤ s.budget := by
  unfold State.grantable at hgrant
  rw [Bool.or_eq_true, beq_iff_eq, decide_eq_true_eq] at hgrant
  rcases hgrant with hnone | hfits
  · rwa [hnone, Nat.zero_add]
  · exact hfits.trans (limit_le_budget e hreduced)

theorem grant_queueOk {s : State} {e : QueueEntry} {rest : List QueueEntry} (hqueue : s.queue = e :: rest)
    (hgrant : s.grantable e = true) (hcost : e.cost ≤ s.budget) (h : s.queueOk) : (grant e rest s).queueOk := by
  obtain ⟨⟨hfire, -⟩, hclassed, -, hreduced, hcosts⟩ := (queueOk_iff s).mp h
  rw [hqueue] at hfire
  refine (queueOk_iff _).mpr ⟨inOrder_fixHead (List.Pairwise.tail hfire), fun d hd cls hmem => ?_, grant_within hgrant hcost hreduced,
    hreduced, fun d hd => ?_⟩
  · have hrest : (grant e rest s).queue.map entryTag = rest.map entryTag := fixHead_tags rest
    have hbefore : (d.number, cls) ∈ s.queue.map entryTag := by
      rw [hqueue]
      exact List.mem_cons_of_mem _ (hrest ▸ hmem)
    obtain ⟨b, hb, rfl⟩ := mem_modify.mp hd
    split
    next heq =>
      rw [if_pos heq] at hbefore
      exact hclassed b hb cls hbefore
    next hne =>
      rw [if_neg hne] at hbefore
      exact hclassed b hb cls hbefore
  · obtain ⟨b, hb, rfl⟩ := mem_modify.mp hd
    split <;> exact hcosts b hb

theorem lookFrom_queueOk (fuel : Nat) {s : State} (hcosts : ∀ e ∈ s.queue, e.cost ≤ s.budget) (h : s.queueOk) :
    (lookFrom fuel s).queueOk := by
  induction fuel generalizing s with
  | zero => exact h
  | succ n ih =>
    unfold lookFrom
    split
    · exact h
    next e rest hqueue =>
      rw [hqueue, List.forall_mem_cons] at hcosts
      split
      next hgrant =>
        refine ih (fun g hg => ?_) (grant_queueOk hqueue hgrant hcosts.1 h)
        have hkey : entryKey g ∈ rest.map entryKey := fixHead_keys rest ▸ List.mem_map_of_mem hg
        obtain ⟨k, hk, hkg⟩ := List.mem_map.mp hkey
        have hcost : k.cost = g.cost := congrArg Prod.snd hkg
        exact hcost ▸ hcosts.2 k hk
      · exact h

theorem look_queueOk {s : State} (hcosts : ∀ e ∈ s.queue, e.cost ≤ s.budget) (h : s.queueOk) : (look s).queueOk :=
  lookFrom_queueOk _ hcosts h

/-- The entries cost what their channels cost. -/
theorem entries_within {q : List QueueEntry} {channels : List Channel} {most : Nat}
    (hperm : (q.map entryKey).Perm (channels.flatMap waitOf)) (hcosts : ∀ c ∈ channels, c.record.cost ≤ most) :
    ∀ e ∈ q, e.cost ≤ most := by
  intro e he
  obtain ⟨c, hc, -, -, hcost⟩ := mem_waits.mp (hperm.mem_iff.mp (List.mem_map_of_mem he))
  have hsame : c.record.cost = e.cost := hcost
  exact hsame ▸ hcosts c hc

theorem look_keeps {s : State} (hbooks : Books s) (h : s.queueOk) : (look s).queueOk := by
  obtain ⟨-, -, hperm, -⟩ := hbooks
  obtain ⟨-, -, -, -, hcosts⟩ := (queueOk_iff s).mp h
  exact look_queueOk (entries_within hperm hcosts) h

/-! ## Events of the channels -/

/-- What an event tells the queue of a channel's class: what it tells is the class after it, and it tells nothing of a QUEUED channel
only when that channel's class stays (R79, R113). -/
def ClassTold (c : Channel) (e : Eff) : Prop :=
  (∀ t ∈ e.changes.filterMap told, t.2 = e.ch.cls.queueClass)
    ∧ (e.changes = [] → c.state = .queued → e.ch.cls.queueClass = c.cls.queueClass)

/-- What a channel tells the queue is about itself. -/
theorem told_number {c : Channel} {e : Eff} (h : Reported c e) : ∀ t ∈ e.changes.filterMap told, t.1 = c.number := by
  rcases h with ⟨hchanges, -⟩ | ⟨-, -, k, hchanges⟩ | ⟨-, -, k, hchanges⟩ | ⟨-, -, hchanges⟩ | ⟨-, -, k, hchanges⟩ <;>
    simp [hchanges, told]

/-- A QUEUED channel whose entry an event spares has told the queue nothing. -/
theorem spared_quiet {c : Channel} {e : Eff} (h : Reported c e) (hqueued : c.state = .queued)
    (hspared : ∀ x ∈ e.changes, Spares x c.number) : e.changes = [] := by
  rcases h with ⟨hchanges, -⟩ | ⟨-, -, k, hchanges⟩ | ⟨hnot, -⟩ | ⟨-, -, hchanges⟩ | ⟨-, -, k, hchanges⟩
  · exact hchanges
  · exact absurd rfl ((hspared (.move c.number k) (hchanges ▸ List.mem_cons_self)).2 k)
  · exact absurd hqueued hnot
  · exact absurd rfl (hspared (.leave c.number) (hchanges ▸ List.mem_cons_self)).1
  · exact absurd rfl (hspared (.leave c.number) (hchanges ▸ List.mem_cons_self)).1

/-- After the changes of an event each entry is of its channel's class. -/
theorem event_classed {f : Channel → Eff} {s : State} (hbooks : Books s) (hclassed : Classed s)
    (h : ∀ c ∈ s.channels, SameHolder c (f c).ch ∧ Reported c (f c) ∧ ClassTold c (f c)) :
    ∀ c ∈ s.channels, ∀ cls,
      (c.number, cls) ∈ ((ordered (s.channels.flatMap fun d => (f d).changes)).foldl applyChange s.queue).map entryTag →
        cls = (f c).ch.cls.queueClass := by
  obtain ⟨-, hsorted, hperm, -⟩ := hbooks
  intro c hc cls hmem
  obtain ⟨-, hreported, htold, hquiet⟩ := h c hc
  rcases foldl_tags hmem with ⟨x, hx, hxt⟩ | ⟨hspared, hbefore⟩
  · obtain ⟨d, hd, hxd⟩ := List.mem_flatMap.mp (mem_ordered.mp hx)
    obtain ⟨-, hreported', -⟩ := h d hd
    have hmem' := List.mem_filterMap.mpr ⟨x, hxd, hxt⟩
    obtain rfl : c = d := sorted_unique hsorted hc hd (told_number hreported' _ hmem')
    exact htold (c.number, cls) hmem'
  · obtain ⟨e, he, htag⟩ := List.mem_map.mp hbefore
    obtain ⟨b, hb, hqueued, hnumber, -⟩ := mem_waits.mp (hperm.mem_iff.mp (List.mem_map_of_mem he))
    obtain rfl : b = c := sorted_unique hsorted hb hc (hnumber.trans (congrArg Prod.fst htag))
    have hnone := spared_quiet hreported hqueued fun x hx =>
      hspared x (mem_ordered.mpr (List.mem_flatMap.mpr ⟨b, hb, hx⟩))
    rw [hquiet hnone hqueued]
    exact hclassed b hb cls hbefore

/-- An event of the channels keeps the law of the queue. -/
theorem fanEvent_queueOk {f : Channel → Eff} {s : State} (hbooks : Books s) (hqueue : s.queueOk)
    (h : ∀ c ∈ s.channels, SameHolder c (f c).ch ∧ Reported c (f c) ∧ ClassTold c (f c)) : (fanEvent f s).queueOk := by
  obtain ⟨horder, hclassed, hheld, hreduced, hcosts⟩ := (queueOk_iff s).mp hqueue
  obtain ⟨t, ht⟩ : ∃ t : State, t = { s with
      channels := s.channels.map fun c => (f c).ch
      ring := ringing (s.channels.flatMap fun c => (f c).notices) s
      queue := (ordered (s.channels.flatMap fun c => (f c).changes)).foldl applyChange s.queue } := ⟨_, rfl⟩
  have hevent : fanEvent f s = if callsLook s.queue (s.channels.flatMap fun c => (f c).changes) then look t else t := by
    rw [fanEvent_eq, ht]
    rfl
  have hcosts' : ∀ d ∈ t.channels, d.record.cost ≤ t.budget := by
    rw [ht]
    refine List.forall_mem_map.mpr fun c hc => ?_
    rw [(h c hc).1.1]
    exact hcosts c hc
  have hafter : t.queueOk := by
    rw [ht] at hcosts' ⊢
    refine (queueOk_iff _).mpr ⟨foldl_inOrder _ horder, ?_, hheld, hreduced, hcosts'⟩
    refine List.forall_mem_map.mpr fun c hc cls hmem => event_classed hbooks hclassed h c hc cls ?_
    rwa [Channel.number, (h c hc).1.1] at hmem
  have hentries : ∀ e ∈ t.queue, e.cost ≤ t.budget := by
    obtain ⟨-, hsorted, hperm, -⟩ := hbooks
    have hkeys := event_keys hsorted hperm fun c hc => ⟨(h c hc).1, (h c hc).2.1⟩
    refine entries_within ?_ hcosts'
    rw [ht]
    exact hkeys
  rw [hevent]
  split
  · exact look_queueOk hentries hafter
  · exact hafter

end Sys2Proof.StartQueue
end

