-- ==== Sys2Proof/Proofs/QueueClasses.lean ====
section
/-! PROOFS. The class under which each event of a channel reaches the start queue (R77, R79, R85 to R96, R105, R111 to R113). -/

namespace Sys2Proof.StartQueue

open Sys2Proof.Machine Sys2Proof.Claims Sys2Proof.BayLoop Sys2Proof.ZoneEvaluation

/-! ## Events that keep the class -/

/-- An event that keeps the channel's class and tells the queue no other. -/
def SameClass (c : Channel) (e : Eff) : Prop :=
  e.ch.cls = c.cls ∧ ∀ t ∈ e.changes.filterMap told, t.2 = c.cls.queueClass

theorem SameClass.told {c : Channel} {e : Eff} (h : SameClass c e) : ClassTold c e := by
  obtain ⟨hcls, htold⟩ := h
  exact ⟨by rwa [hcls], fun _ _ => by rw [hcls]⟩

theorem SameClass.of_cls {c k : Channel} {e : Eff} (hk : k.cls = c.cls) (h : SameClass k e) : SameClass c e := by
  unfold SameClass at h ⊢
  rwa [← hk]

theorem quiet_sameClass {c k : Channel} (h : k.cls = c.cls) : SameClass c (.quiet k) := ⟨h, List.forall_mem_nil _⟩

theorem stay_sameClass (c : Channel) : SameClass c (.quiet c) := quiet_sameClass rfl

/-- A leave tells no class. -/
theorem leaves_untold (c : Channel) : c.leaves.filterMap StartQueue.told = [] := by
  unfold Channel.leaves
  split <;> rfl

theorem SameClass.andThen {c : Channel} {e : Eff} {f : Channel → Eff} (he : SameClass c e) (hf : SameClass e.ch (f e.ch)) :
    SameClass c (e.andThen f) := by
  obtain ⟨hcls, htold⟩ := he
  obtain ⟨hcls', htold'⟩ := hf
  refine ⟨hcls'.trans hcls, ?_⟩
  have happend : ∀ t ∈ e.changes.filterMap StartQueue.told ++ (f e.ch).changes.filterMap StartQueue.told, t.2 = c.cls.queueClass := by
    rw [List.forall_mem_append]
    exact ⟨htold, hcls ▸ htold'⟩
  rwa [← List.filterMap_append] at happend

theorem sameClass_if {p : Prop} [Decidable p] {c : Channel} {e g : Eff} (he : SameClass c e) (hg : SameClass c g) :
    SameClass c (if p then e else g) := by
  split
  · exact he
  · exact hg

/-! ## Entries into states -/

theorem enterQueued_sameClass (c : Channel) : SameClass c (enterQueued c) := ⟨rfl, List.forall_mem_singleton.mpr rfl⟩

theorem startSequence_sameClass (c : Channel) : SameClass c (startSequence c) :=
  sameClass_if (enterQueued_sameClass c) (quiet_sameClass rfl)

theorem enterOff_sameClass (c : Channel) : SameClass c (enterOff c) := by
  refine SameClass.andThen ⟨rfl, ?_⟩ (sameClass_if (startSequence_sameClass _) (stay_sameClass _))
  rw [leaves_untold]
  exact List.forall_mem_nil _

theorem enterStopping_sameClass (c : Channel) : SameClass c (enterStopping c) := quiet_sameClass (leaveStart_same c).2.1

theorem enterRunning_sameClass (c : Channel) : SameClass c (enterRunning c) := ⟨rfl, List.forall_mem_nil _⟩

theorem enterFault_sameClass (cause : FaultCause) (c : Channel) : SameClass c (enterFault cause c) := by
  refine ⟨(leaveStart_same c).2.1, ?_⟩
  have huntold : (enterFault cause c).changes.filterMap told = [] := leaves_untold c
  rw [huntold]
  exact List.forall_mem_nil _

theorem enterLost_sameClass (want : Nat) (c : Channel) : SameClass c (enterLost want c) := by
  refine ⟨(leaveStart_same c).2.1, ?_⟩
  have huntold : (enterLost want c).changes.filterMap told = [] := leaves_untold c
  rw [huntold]
  exact List.forall_mem_nil _

/-! ## Reports, polls, expiries -/

theorem adopt_sameClass (r : Report) (c : Channel) : SameClass c (adopt r c) := by
  refine sameClass_if (enterFault_sameClass _ c) (sameClass_if ?_ (enterOff_sameClass c))
  exact (enterRunning_sameClass c).andThen (sameClass_if (enterStopping_sameClass _) (stay_sameClass _))

theorem takeReport_sameClass (r : Report) (c : Channel) : SameClass c (takeReport r c) := by
  have hstored : SameClass c (.quiet (FanChannels.reported r c)) := quiet_sameClass rfl
  have hfault (cause : FaultCause) : SameClass c (enterFault cause (FanChannels.reported r c)) :=
    (enterFault_sameClass cause _).of_cls rfl
  cases hs : c.state
  case sync =>
    rw [FanChannels.takeReport_sync hs]
    exact (adopt_sameClass r _).of_cls rfl
  case lost =>
    rw [FanChannels.takeReport_lost hs]
    exact sameClass_if (quiet_sameClass rfl) ((adopt_sameClass r _).of_cls rfl)
  case fault =>
    rw [FanChannels.takeReport_fault hs]
    exact hstored
  case off =>
    rw [FanChannels.takeReport_steady (.inl hs)]
    exact sameClass_if (hfault _) hstored
  case starting =>
    rw [FanChannels.takeReport_steady (.inr hs)]
    exact sameClass_if (hfault _) hstored
  case opening =>
    rw [FanChannels.takeReport_opening hs]
    exact sameClass_if (hfault _) (sameClass_if ((enterQueued_sameClass _).of_cls rfl) (sameClass_if (hfault _) hstored))
  case queued =>
    rw [FanChannels.takeReport_queued hs]
    exact sameClass_if (hfault _) (sameClass_if (hfault _) hstored)
  case running =>
    rw [FanChannels.takeReport_running hs]
    exact sameClass_if (hfault _) (sameClass_if (hfault _) hstored)
  case stopping =>
    rw [FanChannels.takeReport_stopping hs]
    exact sameClass_if (hfault _) (sameClass_if ((enterOff_sameClass _).of_cls rfl) hstored)

theorem missPoll_sameClass (limit want : Nat) (c : Channel) : SameClass c (missPoll limit want c) :=
  sameClass_if (quiet_sameClass rfl) (sameClass_if ((enterLost_sameClass want _).of_cls rfl) (quiet_sameClass rfl))

theorem polled_sameClass (draws limit want : Nat) (r : Received) (cls : PollClass) (c : Channel) :
    SameClass c (c.polled draws limit want r cls) := by
  unfold Channel.polled
  split
  · exact takeReport_sameClass _ c
  · exact (missPoll_sameClass limit want c).andThen (sameClass_if ⟨rfl, List.forall_mem_nil _⟩ (stay_sameClass _))

theorem ackCommand_sameClass (carried : Image) (c : Channel) : SameClass c (.quiet (ackCommand carried c)) := by
  refine quiet_sameClass ?_
  unfold ackCommand
  dsimp only
  split <;> rfl

theorem damperExpired_sameClass (c : Channel) : SameClass c (damperExpired c) := by
  unfold damperExpired
  split
  · exact enterFault_sameClass _ c
  · exact stay_sameClass c

theorem coastExpired_sameClass (c : Channel) : SameClass c (coastExpired c) := by
  unfold coastExpired
  split
  · exact enterOff_sameClass c
  · exact stay_sameClass c

theorem afterSettle_sameClass (c : Channel) : SameClass c (afterSettle c) := by
  have hstart (p : Prop) [Decidable p] : SameClass c (if p then enterRunning c else enterFault .noStart c) :=
    sameClass_if (enterRunning_sameClass c) (enterFault_sameClass _ c)
  unfold afterSettle
  cases c.state <;> dsimp only
  case starting => split; exacts [hstart _, hstart _, enterFault_sameClass _ c]
  case off => exact sameClass_if (startSequence_sameClass c) (stay_sameClass c)
  all_goals exact stay_sameClass c

/-! ## Resolutions -/

theorem applyTarget_sameClass (c : Channel) : SameClass c (applyTarget c) := by
  have hset (set : Nat) (damper : DamperCmd) : SameClass c (.quiet (c.setImage set damper)) := quiet_sameClass rfl
  have hspeed (set : Nat) : SameClass c (.quiet (c.setSetpoint set)) := quiet_sameClass rfl
  have hwaits (hs : c.state = .opening ∨ c.state = .queued) : SameClass c (applyTarget c) := by
    rw [applyTarget_waiting hs]
    exact sameClass_if (enterOff_sameClass c) (stay_sameClass c)
  have hturns (hs : c.state = .starting ∨ c.state = .running) : SameClass c (applyTarget c) := by
    rw [applyTarget_turning hs]
    exact sameClass_if (enterStopping_sameClass c) (hset _ _)
  cases hs : c.state
  case sync =>
    rw [applyTarget_sync hs]
    exact stay_sameClass c
  case off =>
    rw [applyTarget_off hs]
    exact sameClass_if (startSequence_sameClass c) (stay_sameClass c)
  case opening => exact hwaits (.inl hs)
  case queued => exact hwaits (.inr hs)
  case starting => exact hturns (.inl hs)
  case running => exact hturns (.inr hs)
  case stopping =>
    rw [applyTarget_stopping hs]
    exact sameClass_if (stay_sameClass c) (sameClass_if (quiet_sameClass rfl) (enterQueued_sameClass c))
  case fault =>
    rw [applyTarget_fault hs]
    split
    · exact hset _ _
    · exact stay_sameClass c
  case lost =>
    rw [applyTarget_lost hs]
    exact sameClass_if (hset _ _) (sameClass_if (hspeed _) (sameClass_if (hspeed _) (stay_sameClass c)))

/-- A resolution tells the class it resolves to, with a move where the channel stays QUEUED (R79, R113). -/
theorem resolve_classTold (silent : Bool) (d : Demand) (c : Channel) : ClassTold c (resolve silent d c) := by
  by_cases hsame : c.cls = d.cls ∧ c.target = if c.state = .fault then 0 else d.want
  · rw [resolve_same silent hsame]
    exact ⟨List.forall_mem_nil _, fun _ _ => rfl⟩
  · obtain ⟨⟨-, hreported, -⟩, -⟩ := resolve_booked silent d c
    rw [resolve_moved silent hsame] at hreported ⊢
    obtain ⟨e, he⟩ : ∃ e, e = applyTarget (demanded d c) := ⟨_, rfl⟩
    have hkept : SameClass (demanded d c) e := he ▸ applyTarget_sameClass _
    rw [← he] at hreported ⊢
    obtain ⟨hcls, htold⟩ := hkept
    refine ⟨?_, fun hnone hqueued => ?_⟩
    · dsimp only
      rw [List.filterMap_append, List.forall_mem_append]
      refine ⟨hcls ▸ htold, ?_⟩
      unfold queueMove
      split
      · exact List.forall_mem_singleton.mpr rfl
      · exact List.forall_mem_nil _
    · have hunmoved : queueMove c e.ch = [] := (List.append_eq_nil_iff.mp hnone).2
      have hstays : e.ch.state = .queued := by
        rcases hreported with ⟨-, hiff⟩ | ⟨-, hqueued', -⟩ | ⟨hnot, -⟩ | ⟨-, -, hleaves⟩ | ⟨-, hqueued', -⟩
        · exact hiff.mpr hqueued
        · exact hqueued'
        · exact absurd hqueued hnot
        · rw [hnone] at hleaves
          cases hleaves
        · exact hqueued'
      by_contra hdiffers
      have hmoves : queueMove c e.ch ≠ [] := by
        rw [queueMove, if_pos ⟨hqueued, hstays, Ne.symm hdiffers⟩]
        exact List.cons_ne_nil _ _
      exact hmoves hunmoved

/-- CLEAR_FAULT tells the class it resolves to; a QUEUED channel would leave the queue first (R96). -/
theorem clearedFault_classTold (d : Demand) (c : Channel) : ClassTold c (clearedFault d c) := by
  obtain ⟨hcls, htold⟩ := enterOff_sameClass { c with target := d.want, cls := d.cls }
  refine ⟨hcls ▸ htold, fun hnone hqueued => ?_⟩
  have hleaves : c.leaves = [] := (List.append_eq_nil_iff.mp hnone).1
  rw [Channel.leaves, if_pos hqueued] at hleaves
  cases hleaves

/-! ## Every event of one channel -/

/-- What an event of the part can do to one channel and tell the queue of it, settle expiries aside. -/
inductive ChannelEvent : Channel → Eff → Prop where
  | stays (c : Channel) : ChannelEvent c (.quiet c)
  /-- A resolution (R77 to R80). -/
  | resolved (silent : Bool) (d : Demand) (c : Channel) : ChannelEvent c (resolve silent d c)
  /-- A classified poll (R75, R76). -/
  | polled (draws limit want : Nat) (r : Received) (cls : PollClass) (c : Channel) : ChannelEvent c (c.polled draws limit want r cls)
  /-- A command, acknowledged or not (R76, R83, R88). -/
  | missed (limit want : Nat) (c : Channel) : ChannelEvent c (missPoll limit want c)
  | acknowledged (carried : Image) (c : Channel) : ChannelEvent c (.quiet (ackCommand carried c))
  /-- A drive that left the discovered list (R146). -/
  | lost (want : Nat) (c : Channel) : ChannelEvent c (enterLost want c)
  /-- Damper and coast timer expiry (R86, R91). -/
  | damper (c : Channel) : ChannelEvent c (damperExpired c)
  | coast (c : Channel) : ChannelEvent c (coastExpired c)
  /-- CLEAR_FAULT (R96). -/
  | cleared (d : Demand) (c : Channel) : ChannelEvent c (clearedFault d c)

/-- An event in which a channel may have no part. -/
theorem ChannelEvent.of_if {p : Prop} [Decidable p] {c : Channel} {e : Eff} (h : ChannelEvent c e) :
    ChannelEvent c (if p then e else .quiet c) := by
  split
  · exact h
  · exact .stays c

theorem ChannelEvent.booked {c : Channel} {e : Eff} (h : ChannelEvent c e) : Booked c e := by
  cases h with
  | stays => exact (stay_sound ⟨.normal, 0, none⟩ c).1
  | resolved silent d => exact (resolve_booked silent d c).1
  | polled draws limit want r cls => exact (polled_sound ⟨.normal, want, none⟩ draws limit r cls c).1
  | missed limit want => exact (missPoll_sound ⟨.normal, want, none⟩ limit c).1
  | acknowledged carried => exact (ackCommand_sound ⟨.normal, 0, none⟩ carried c).1
  | lost want => exact (enterLost_sound ⟨.normal, want, none⟩ c).1
  | damper => exact (damperExpired_sound ⟨.normal, 0, none⟩ c).1
  | coast => exact (coastExpired_sound ⟨.normal, 0, none⟩ c).1
  | cleared d => exact (clearedFault_sound d c).1

theorem ChannelEvent.classTold {c : Channel} {e : Eff} (h : ChannelEvent c e) : ClassTold c e := by
  cases h with
  | stays => exact (stay_sameClass c).told
  | resolved silent d => exact resolve_classTold silent d c
  | polled draws limit want r cls => exact (polled_sameClass draws limit want r cls c).told
  | missed limit want => exact (missPoll_sameClass limit want c).told
  | acknowledged carried => exact (ackCommand_sameClass carried c).told
  | lost want => exact (enterLost_sameClass want c).told
  | damper => exact (damperExpired_sameClass c).told
  | coast => exact (coastExpired_sameClass c).told
  | cleared d => exact clearedFault_classTold d c

end Sys2Proof.StartQueue
end

