-- ==== Sys2Proof/Proofs/QueueTurns.lean ====
section
/-! PROOFS. What a step can do to the channels, the start queue and the units held, said once; and that each of these turns keeps the books
and the law of the queue (R105 to R107, R111 to R119). -/

namespace Sys2Proof.StartQueue

open Sys2Proof.Machine Sys2Proof.Claims Sys2Proof.BayLoop Sys2Proof.ZoneEvaluation

/-! ## The turns -/

/-- What the books and the law of the queue read of a state. -/
def ledger (s : State) := ((s.mode.scheduled, s.active, s.staging), (s.channels, s.queue, s.held))

/-- The staged channels stand under their numbers once (R171). -/
def StagedFans (staging : Option Staging) : Prop := ∀ st, staging = some st → sorted LoadFan.channel st.fans

/-- What the books and the law of the queue read of a channel. -/
def SameEntry (c d : Channel) : Prop :=
  d.record = c.record ∧ d.state = c.state ∧ d.cls = c.cls ∧ d.holding = c.holding ∧ d.settle.isSome = c.settle.isSome

/-- An entry with its counts moved on: a head stays a head, and no other entry gets a head time or a stall (R105, R119, R120). -/
def Recounted (e f : QueueEntry) : Prop :=
  f.channel = e.channel ∧ f.cls = e.cls ∧ f.cost = e.cost ∧ (f.headTime = none ↔ e.headTime = none)
    ∧ (e.headTime = none → f.stalled = e.stalled)

/-- Channels just made, nobody waiting, nothing held, nothing staged. -/
def Emptied (t : State) : Prop := t.queue = [] ∧ t.held = 0 ∧ t.staging = none ∧ ∀ c ∈ t.channels, Fresh c

/-- One turn of the channels, the start queue and the units, or a chain of them. -/
inductive Turn : State → State → Prop where
  | beside {s t : State} (h : ledger t = ledger s) : Turn s t
  | trans {s t u : State} (h : Turn s t) (h' : Turn t u) : Turn s u
  /-- An event of the channels (R74 to R96). -/
  | fans (f : Channel → Eff) {s : State} (h : ∀ c, ChannelEvent c (f c)) : Turn s (fanEvent f s)
  | look (s : State) : Turn s (look s)
  /-- A settle expiry (R89). -/
  | settle (n : Nat) (s : State) : Turn s (settleExpired n s)
  /-- The counts of the entries (R105, R119, R120). -/
  | recounted (q : List QueueEntry) {s : State} (h : List.Forall₂ Recounted s.queue q) : Turn s { s with queue := q }
  /-- Timers, counts and manual setpoints of the channels (R74, R83, R98, R179). -/
  | channels (g : Channel → Channel) {s : State} (h : ∀ c, SameEntry c (g c)) : Turn s { s with channels := s.channels.map g }
  /-- Provisional channels made for drives (R144). -/
  | made (addresses : List Nat) {s : State} (h : s.failsafe = true) :
      Turn s { s with channels := addresses.foldl addProvisional s.channels }
  /-- Records staged, loading begun or abandoned (R170, R172, R174). -/
  | staged (mode : Mode) (staging : Option Staging) {s : State} (hmode : mode.scheduled = s.mode.scheduled)
      (h : StagedFans s.staging → StagedFans staging) : Turn s { s with mode := mode, staging := staging }
  /-- Tables that are made anew by a commit, a RESTART or a reset (R22, R178, R180 to R182). -/
  | anew {s t : State} (h : Emptied t) (hsorted : s.unitsOk → sorted Channel.number t.channels)
      (hlimits : s.queueOk → t.reduced ≤ t.budget ∧ ∀ c ∈ t.channels, c.record.cost ≤ t.budget) : Turn s t

theorem Turn.refl (s : State) : Turn s s := .beside rfl

/-- A change of what the law does not read, before a turn. -/
theorem Turn.after {s t u : State} (h' : Turn t u) (h : ledger t = ledger s) : Turn s u := .trans (.beside h) h'

theorem ledger_inj {s t : State} (h : ledger t = ledger s) :
    (t.mode.scheduled = s.mode.scheduled ∧ t.active = s.active ∧ t.staging = s.staging)
      ∧ t.channels = s.channels ∧ t.queue = s.queue ∧ t.held = s.held := by
  simpa only [ledger, Prod.mk.injEq] using h

/-! ## The books -/

/-- The books, with what each channel and the staged records keep by themselves (R105, R106, R171). -/
theorem units_congr {s t : State} (hstaging : t.staging = s.staging) (hchannels : t.channels = s.channels)
    (hqueue : t.queue.map entryKey = s.queue.map entryKey) (hheld : t.held = s.held) (h : s.unitsOk) : t.unitsOk := by
  rw [unitsOk_iff] at h ⊢
  unfold Books at h ⊢
  rwa [hstaging, hchannels, hqueue, hheld]

theorem SameEntry.holdingOk {c d : Channel} (h : SameEntry c d) (hok : c.holdingOk) : d.holdingOk := by
  obtain ⟨-, hstate, -, hholding, hsettle⟩ := h
  unfold Channel.holdingOk at hok ⊢
  rwa [hstate, hholding, hsettle]

theorem channels_units {g : Channel → Channel} {s : State} (hg : ∀ c, SameEntry c (g c)) (h : s.unitsOk) :
    State.unitsOk { s with channels := s.channels.map g } := by
  obtain ⟨⟨hheld, hsorted, hperm, hfree⟩, hok, hstaged⟩ := (unitsOk_iff s).mp h
  have hnumber (c : Channel) : (g c).number = c.number := congrArg FanRecord.channel (hg c).1
  have hunits (c : Channel) : unitsOf (g c) = unitsOf c := by
    obtain ⟨hrecord, -, -, hholding, -⟩ := hg c
    rw [unitsOf, hrecord, hholding, unitsOf]
  have hwaits (c : Channel) : waitOf (g c) = waitOf c := by
    obtain ⟨hrecord, hstate, -⟩ := hg c
    rw [waitOf, hnumber, hrecord, hstate, waitOf]
  refine (unitsOk_iff _).mpr ⟨⟨?_, sorted_map hnumber hsorted, ?_, ?_⟩, ?_, hstaged⟩
  · rw [List.map_map]
    exact hheld.trans (congrArg List.sum (List.map_congr_left fun c _ => (hunits c).symm))
  · rw [List.flatMap_map]
    exact hperm.trans (.of_eq (List.flatMap_congr fun c _ => (hwaits c).symm))
  · refine List.forall_mem_map.mpr fun c hc => ?_
    obtain ⟨-, hstate, -, hholding, -⟩ := hg c
    rw [hstate, hholding]
    exact hfree c hc
  · exact List.forall_mem_map.mpr fun c hc => (hg c).holdingOk (hok c hc)

/-- Channels as a look leaves them hold and wait as they should. -/
theorem granted_holdingOk {s t : State} (hgranted : ∀ d ∈ t.channels, ∃ c ∈ s.channels, Granted c d)
    (hok : ∀ c ∈ s.channels, c.holdingOk) : ∀ d ∈ t.channels, d.holdingOk := by
  intro d hd
  obtain ⟨c, hc, hgrant⟩ := hgranted d hd
  exact hgrant.holdingOk (hok c hc)

theorem staging_of_fan {s t : State} (h : FanStep s t) : t.staging = s.staging := by
  obtain ⟨-, -, -, -, -, hstaging, -⟩ := h.work.keeps
  exact hstaging

theorem look_units {s : State} (h : s.unitsOk) : (look s).unitsOk := by
  obtain ⟨hbooks, hok, hstaged⟩ := (unitsOk_iff s).mp h
  obtain ⟨hbooks', hgranted⟩ := look_books hbooks
  exact (unitsOk_iff _).mpr ⟨hbooks', granted_holdingOk hgranted hok, by rwa [staging_of_fan (look_fan s)]⟩

theorem fanEvent_units {f : Channel → Eff} {s : State} (hbooks : Books s) (hstaged : StagedFans s.staging)
    (h : ∀ c ∈ s.channels, SameHolder c (f c).ch ∧ Reported c (f c) ∧ (f c).ch.holdingOk) : (fanEvent f s).unitsOk := by
  obtain ⟨hbooks', hgranted⟩ := fanEvent_books hbooks h
  refine (unitsOk_iff _).mpr ⟨hbooks', fun d hd => ?_, by rwa [staging_of_fan (fanEvent_fan f s)]⟩
  obtain ⟨c, hc, hgrant⟩ := hgranted d hd
  exact hgrant.holdingOk (h c hc).2.2

theorem made_units (addresses : List Nat) {s : State} (h : s.unitsOk) :
    State.unitsOk { s with channels := addresses.foldl addProvisional s.channels } := by
  obtain ⟨hbooks, hok, hstaged⟩ := (unitsOk_iff s).mp h
  obtain ⟨hbooks', hok'⟩ := provisional_books addresses hbooks hok
  exact (unitsOk_iff _).mpr ⟨hbooks', hok', hstaged⟩

/-- Channels just made are in SYNC and hold nothing (R74). -/
theorem fresh_idle {c : Channel} (h : Fresh c) : waitOf c = [] ∧ unitsOf c = 0 ∧ c.holding = false ∧ c.holdingOk := by
  rw [h]
  exact ⟨rfl, rfl, rfl, nofun, fun _ => rfl, nofun⟩

theorem emptied_units {t : State} (h : Emptied t) (hsorted : sorted Channel.number t.channels) : t.unitsOk := by
  obtain ⟨hqueue, hheld, hstaging, hfresh⟩ := h
  have hunits : t.channels.map unitsOf = t.channels.map fun _ => 0 :=
    List.map_congr_left fun c hc => (fresh_idle (hfresh c hc)).2.1
  have hwaits : t.channels.flatMap waitOf = [] := List.flatMap_eq_nil_iff.mpr fun c hc => (fresh_idle (hfresh c hc)).1
  refine (unitsOk_iff t).mpr ⟨⟨?_, hsorted, ?_, fun c hc _ => ?_⟩, fun c hc => ?_, ?_⟩
  · rw [hheld, hunits]
    simp
  · rw [hqueue, hwaits]
    exact .nil
  · exact (fresh_idle (hfresh c hc)).2.2.1
  · exact (fresh_idle (hfresh c hc)).2.2.2
  · rw [hstaging]
    exact nofun

/-! ## Settle expiries (R89, R118) -/

/-- A channel once the units of a holding are returned and the queue has been looked at: the one whose holding ended, or another. -/
theorem mem_settled {c d : Channel} {s : State} (h : s.unitsOk) (hc : c ∈ s.channels) (hholding : c.holding = true)
    (hd : d ∈ (look (returned c.number c.record.cost s)).channels) :
    (d.number = c.number ∧ d.holding = false ∧ d.settle = none) ∨ (d.number ≠ c.number ∧ d.holdingOk) := by
  obtain ⟨hbooks, hok, -⟩ := (unitsOk_iff s).mp h
  obtain ⟨b, hb, hgrant⟩ := (look_books (returned_books hc hholding hbooks)).2 d hd
  obtain ⟨-, hsorted, -, hfree⟩ := hbooks
  obtain ⟨a, ha, rfl⟩ := mem_modify.mp hb
  by_cases hnumber : a.number = c.number
  · rw [if_pos hnumber] at hgrant
    have hnot : (endHolding a).state ≠ .queued := fun hq => by
      obtain rfl : a = c := sorted_unique hsorted ha hc hnumber
      have hnone := hfree a ha hq
      rw [hholding] at hnone
      cases hnone
    obtain rfl : d = endHolding a := hgrant.resolve_right fun hq => hnot hq.1
    exact .inl ⟨hnumber, rfl, rfl⟩
  · rw [if_neg hnumber] at hgrant
    refine .inr ⟨?_, hgrant.holdingOk (hok a ha)⟩
    rcases hgrant with rfl | ⟨-, rfl⟩
    · exact hnumber
    · exact hnumber

/-- The event of a settle expiry, once its units are returned: booked for every channel, and its class told. -/
theorem afterSettle_event {c : Channel} {s : State} (h : s.unitsOk) (hc : c ∈ s.channels) (hholding : c.holding = true) :
    ∀ d ∈ (look (returned c.number c.record.cost s)).channels,
      SameHolder d (if d.number = c.number then afterSettle d else .quiet d).ch
        ∧ Reported d (if d.number = c.number then afterSettle d else .quiet d)
        ∧ (if d.number = c.number then afterSettle d else .quiet d).ch.holdingOk
        ∧ ClassTold d (if d.number = c.number then afterSettle d else .quiet d) := by
  intro d hd
  rcases mem_settled h hc hholding hd with ⟨hnumber, hfree, hsettle⟩ | ⟨hnumber, hok⟩
  · obtain ⟨hholder, hreported, hok, -⟩ := afterSettle_booked ⟨.normal, 0, none⟩ hfree hsettle
    rw [if_pos hnumber]
    exact ⟨hholder, hreported, hok, (afterSettle_sameClass d).told⟩
  · rw [if_neg hnumber]
    exact ⟨.refl d, reported_quiet rfl .rfl, hok, (stay_sameClass d).told⟩

theorem settled_units {c : Channel} {s : State} (h : s.unitsOk) (hc : c ∈ s.channels) (hholding : c.holding = true) :
    (fanEventAt c.number afterSettle (look (returned c.number c.record.cost s))).unitsOk := by
  obtain ⟨hbooks, -, hstaged⟩ := (unitsOk_iff s).mp h
  refine fanEvent_units (look_books (returned_books hc hholding hbooks)).1 ?_ fun d hd => ?_
  · rw [staging_of_fan (look_fan _)]
    exact hstaged
  · obtain ⟨hholder, hreported, hok, -⟩ := afterSettle_event h hc hholding d hd
    exact ⟨hholder, hreported, hok⟩

theorem settled_queueOk {c : Channel} {s : State} (h : s.unitsOk) (hqueue : s.queueOk) (hc : c ∈ s.channels)
    (hholding : c.holding = true) : (fanEventAt c.number afterSettle (look (returned c.number c.record.cost s))).queueOk := by
  obtain ⟨hbooks, -, -⟩ := (unitsOk_iff s).mp h
  have hreturned := returned_books hc hholding hbooks
  have hqueue' : (returned c.number c.record.cost s).queueOk := by
    refine queueOk_of_channels (Nat.sub_le _ _) (fun d hd => ?_) hqueue
    obtain ⟨b, hb, rfl⟩ := mem_modify.mp hd
    refine ⟨b, hb, ?_⟩
    split <;> exact ⟨rfl, rfl⟩
  refine fanEvent_queueOk (look_books hreturned).1 (look_keeps hreturned hqueue') fun d hd => ?_
  obtain ⟨hholder, hreported, -, htold⟩ := afterSettle_event h hc hholding d hd
  exact ⟨hholder, hreported, htold⟩

/-- A settle expiry changes nothing, or ends a holding. -/
theorem settleExpired_cases (n : Nat) {s : State} (h : s.unitsOk) : settleExpired n s = s
    ∨ ∃ c ∈ s.channels, c.holding = true
      ∧ settleExpired n s = fanEventAt c.number afterSettle (look (returned c.number c.record.cost s)) := by
  obtain ⟨-, hok, -⟩ := (unitsOk_iff s).mp h
  unfold settleExpired
  split
  · exact .inl rfl
  next c hlookup =>
    obtain ⟨hc, rfl⟩ := lookup_mem hlookup
    split
    next hdue => exact .inr ⟨c, hc, (hok c hc).1 (isSome_of_due hdue), rfl⟩
    · exact .inl rfl

/-! ## Every turn keeps the books -/

theorem recounted_map {β : Type} {p : QueueEntry → β} (hp : ∀ e f, Recounted e f → p f = p e) {q r : List QueueEntry}
    (h : List.Forall₂ Recounted q r) : r.map p = q.map p := by
  induction h with
  | nil => rfl
  | cons hef _ ih => rw [List.map_cons, List.map_cons, hp _ _ hef, ih]

theorem turn_units {s t : State} (h : Turn s t) : s.unitsOk → t.unitsOk := by
  induction h with
  | beside h =>
    obtain ⟨⟨-, -, hstaging⟩, hchannels, hqueue, hheld⟩ := ledger_inj h
    exact units_congr hstaging hchannels (by rw [hqueue]) hheld
  | trans _ _ ih ih' => exact ih' ∘ ih
  | fans f h =>
    intro hs
    obtain ⟨hbooks, hok, hstaged⟩ := (unitsOk_iff _).mp hs
    refine fanEvent_units hbooks hstaged fun c hc => ?_
    obtain ⟨hholder, hreported, hkept⟩ := (h c).booked
    exact ⟨hholder, hreported, hkept (hok c hc)⟩
  | look s => exact look_units
  | settle n s =>
    intro hs
    rcases settleExpired_cases n hs with hsame | ⟨c, hc, hholding, hsettled⟩
    · rwa [hsame]
    · rw [hsettled]
      exact settled_units hs hc hholding
  | recounted q h =>
    refine units_congr rfl rfl (recounted_map (fun e f hef => ?_) h) rfl
    obtain ⟨hchannel, -, hcost, -⟩ := hef
    rw [entryKey, hchannel, hcost, entryKey]
  | channels g h => exact channels_units h
  | made addresses h => exact made_units addresses
  | staged mode staging hmode h =>
    intro hs
    obtain ⟨hbooks, hok, hstaged⟩ := (unitsOk_iff _).mp hs
    exact (unitsOk_iff _).mpr ⟨hbooks, hok, h hstaged⟩
  | anew h hsorted => exact fun hs => emptied_units h (hsorted hs)

/-! ## Every turn keeps the law of the queue -/

theorem queueOk_congr {s t : State} (hmode : t.mode.scheduled = s.mode.scheduled) (hactive : t.active = s.active)
    (hchannels : t.channels = s.channels) (hqueue : t.queue = s.queue) (hheld : t.held = s.held) (h : s.queueOk) : t.queueOk := by
  obtain ⟨hbudget, hreduced⟩ := budget_congr hmode hactive
  unfold State.queueOk at h ⊢
  rwa [hbudget, hreduced, hchannels, hqueue, hheld]

theorem mem_recounted {q r : List QueueEntry} (h : List.Forall₂ Recounted q r) {f : QueueEntry} (hf : f ∈ r) :
    ∃ e ∈ q, Recounted e f := by
  induction h with
  | nil => cases hf
  | cons hef _ ih =>
    rcases List.mem_cons.mp hf with rfl | hf
    · exact ⟨_, List.mem_cons_self, hef⟩
    · obtain ⟨e, he, hef⟩ := ih hf
      exact ⟨e, List.mem_cons_of_mem _ he, hef⟩

theorem headed_recounted {q r : List QueueEntry} (h : List.Forall₂ Recounted q r) (hq : headed q) : headed r := by
  cases h with
  | nil => trivial
  | cons hef hrest =>
    obtain ⟨hhead, hothers⟩ := hq
    obtain ⟨-, -, -, htime, -⟩ := hef
    refine ⟨fun hnone => hhead (htime.mp hnone), fun g hg => ?_⟩
    obtain ⟨f, hf, -, -, -, htime', hstall⟩ := mem_recounted hrest hg
    obtain ⟨hnone, hquiet⟩ := hothers f hf
    exact ⟨htime'.mpr hnone, (hstall hnone).trans hquiet⟩

theorem recounted_queueOk {q : List QueueEntry} {s : State} (hq : List.Forall₂ Recounted s.queue q) (h : s.queueOk) :
    State.queueOk { s with queue := q } := by
  obtain ⟨⟨hfire, hhead⟩, hclassed, hwithin⟩ := (queueOk_iff s).mp h
  have htags : q.map entryTag = s.queue.map entryTag := recounted_map (fun e f ⟨hchannel, hcls, _⟩ => by
    rw [entryTag, hchannel, hcls, entryTag]) hq
  refine (queueOk_iff _).mpr ⟨⟨hfire.of_classes (recounted_map (fun e f hef => hef.2.1) hq), headed_recounted hq hhead⟩,
    fun c hc cls hmem => hclassed c hc cls ?_, hwithin⟩
  rwa [← htags]

theorem mem_provisional {addresses : List Nat} {channels : List Channel} {c : Channel}
    (h : c ∈ addresses.foldl addProvisional channels) :
    c ∈ channels ∨ ∃ n address, c = .initial (.provisional n address) true := by
  induction addresses generalizing channels with
  | nil => exact .inl h
  | cons a addresses ih =>
    refine (ih h).elim (fun hc => ?_) .inr
    unfold addProvisional at hc
    split at hc
    · exact .inl hc
    · split at hc
      · exact .inl hc
      · exact (mem_upsert hc).symm.imp_right fun heq => ⟨_, _, heq⟩

/-- A provisional channel waits for nothing and costs 1, the B in force under the failsafe (R73, R107). -/
theorem made_queueOk (addresses : List Nat) {s : State} (hfailsafe : s.failsafe = true) (hs : s.unitsOk) (h : s.queueOk) :
    State.queueOk { s with channels := addresses.foldl addProvisional s.channels } := by
  obtain ⟨horder, hclassed, hheld, hreduced, hcosts⟩ := (queueOk_iff s).mp h
  obtain ⟨⟨-, hsorted, hperm, -⟩, -⟩ := (unitsOk_iff _).mp (made_units addresses hs)
  refine (queueOk_iff _).mpr ⟨horder, fun c hc cls hmem => ?_, hheld, hreduced, fun c hc => ?_⟩
  · rcases mem_provisional hc with hold | ⟨n, address, rfl⟩
    · exact hclassed c hold cls hmem
    · obtain ⟨e, he, htag⟩ := List.mem_map.mp hmem
      obtain ⟨b, hb, hqueued, hnumber, -⟩ := mem_waits.mp (hperm.mem_iff.mp (List.mem_map_of_mem he))
      rw [sorted_unique hsorted hb hc (hnumber.trans (congrArg Prod.fst htag))] at hqueued
      cases hqueued
  · rcases mem_provisional hc with hold | ⟨n, address, rfl⟩
    · exact hcosts c hold
    · have hbudget : s.budget = 1 := (FanChannels.budgets_unloaded (by simpa [State.failsafe] using hfailsafe)).1
      exact hbudget.ge

theorem turn_queueOk {s t : State} (h : Turn s t) : s.unitsOk → s.queueOk → t.queueOk := by
  induction h with
  | beside h =>
    obtain ⟨⟨hmode, hactive, -⟩, hchannels, hqueue, hheld⟩ := ledger_inj h
    exact fun _ => queueOk_congr hmode hactive hchannels hqueue hheld
  | trans h _ ih ih' => exact fun hs hq => ih' (turn_units h hs) (ih hs hq)
  | fans f h =>
    intro hs hq
    obtain ⟨hbooks, -, -⟩ := (unitsOk_iff _).mp hs
    refine fanEvent_queueOk hbooks hq fun c _ => ?_
    obtain ⟨hholder, hreported, -⟩ := (h c).booked
    exact ⟨hholder, hreported, (h c).classTold⟩
  | look s => exact fun hs => look_keeps ((unitsOk_iff s).mp hs).1
  | settle n s =>
    intro hs hq
    rcases settleExpired_cases n hs with hsame | ⟨c, hc, hholding, hsettled⟩
    · rwa [hsame]
    · rw [hsettled]
      exact settled_queueOk hs hq hc hholding
  | recounted q h => exact fun _ => recounted_queueOk h
  | channels g h =>
    refine fun _ => queueOk_of_channels le_rfl (List.forall_mem_map.mpr fun c hc => ?_)
    obtain ⟨hrecord, -, hcls, -⟩ := h c
    exact ⟨c, hc, hrecord, hcls⟩
  | made addresses h => exact made_queueOk addresses h
  | staged mode staging hmode h => exact fun _ => queueOk_congr hmode rfl rfl rfl rfl
  | anew h hsorted hlimits =>
    intro _ hq
    obtain ⟨hqueue, hheld, -⟩ := h
    obtain ⟨hreduced, hcosts⟩ := hlimits hq
    refine (queueOk_iff _).mpr ⟨?_, ?_, ?_, hreduced, hcosts⟩
    · rw [hqueue]
      exact ⟨.nil, trivial⟩
    · intro c _ cls hmem
      rw [hqueue] at hmem
      cases hmem
    · rw [hheld]
      exact Nat.zero_le _

end Sys2Proof.StartQueue
end

