-- ==== Sys2Proof/Proofs/QueueSteps.lean ====
section
/-! PROOFS. Every step as a chain of turns of the channels, the start queue and the units; with it the laws of the units and of the queue
at every step (R105 to R107, R119). -/

namespace Sys2Proof.StartQueue

open Sys2Proof.Machine Sys2Proof.Claims Sys2Proof.BayLoop Sys2Proof.ZoneEvaluation

/-! ## What turns nothing -/

theorem raiseAll_ledger (ns : List NoticeBody) (s : State) : ledger (raiseAll ns s) = ledger s := by
  rw [raiseAll_eq]
  rfl

theorem raiseMode_ledger (previous : Mode) (s : State) : ledger (raiseMode previous s) = ledger s := by
  unfold raiseMode
  split <;> rfl

theorem lapseWrite_ledger (s : State) : ledger (lapseWrite s) = ledger s := by
  unfold lapseWrite
  split
  · split <;> rfl
  · rfl

theorem lapseResult_ledger (s : State) : ledger (lapseResult s) = ledger s := by
  unfold lapseResult
  split
  · split <;> rfl
  · rfl

theorem memberDone_ledger (k : ServiceKey) (ms : List Member) (result : List ResultEntry) (s : State) :
    ledger (memberDone k ms result s) = ledger s := by
  unfold memberDone
  split <;> rfl

theorem deliverService_ledger (reply : Option ServiceReply) (s : State) : ledger (deliverService reply s) = ledger s := by
  unfold deliverService
  split
  · dsimp only
    split
    · exact memberDone_ledger _ _ _ s
    · exact memberDone_ledger _ _ _ s
    · split
      · rfl
      · exact memberDone_ledger _ _ _ s
  · rfl

theorem deliverHead_ledger (address : Nat) (f : Head → Head × List NoticeBody) (s : State) :
    ledger (deliverHead address f s) = ledger s := by
  unfold deliverHead
  split
  · rfl
  · exact raiseAll_ledger _ _

theorem noteIf_ledger (valid : Bool) (s : State) : ledger (noteIf valid s) = ledger s := by
  rw [noteIf_eq]
  rfl

theorem loopCheck_ledger (s : State) : ledger (loopCheck s) = ledger s := by
  rw [loopCheck_eq]
  rfl

theorem driveAnswers_ledger (x : CommandExchange) (ok : Bool) (s : State) : ledger (driveAnswers x ok s) = ledger s := by
  unfold driveAnswers
  split <;> rfl

/-! ## Channels and claims -/

theorem fanAt_turn (n : Nat) {f : Channel → Eff} (s : State) (h : ∀ c, ChannelEvent c (f c)) : Turn s (fanEventAt n f s) :=
  .fans _ fun c => (h c).of_if

theorem resolveChannels_turn (silent : Bool) (choose : Channel → Bool) (s : State) : Turn s (resolveChannels silent choose s) :=
  .fans _ fun c => (ChannelEvent.resolved silent _ c).of_if

theorem handOver_turn (silent : Bool) (changed : List Nat) (s : State) : Turn s (handOver silent changed s) :=
  (resolveChannels_turn _ _ _).after rfl

theorem commitZones_turn (zones : List Zone) (s : State) : Turn s (commitZones zones s) := by
  have hhanded : Turn s (handOver false (claimsChanged s.zones zones) { s with zones := zones }) :=
    (handOver_turn false _ _).after rfl
  exact hhanded.trans (.beside (raiseAll_ledger _ _))

theorem applyPlan_turn (line : Nat) (s : State) : Turn s (applyPlan line s) := (commitZones_turn _ _).after (raiseAll_ledger _ s)

theorem releaseZones_turn (cleared : List Nat) (s : State) : Turn s (releaseZones cleared s) :=
  (commitZones_turn _ _).after (raiseAll_ledger _ s)

theorem boostTimeout_turn (n : Nat) (s : State) : Turn s (boostTimeout n s) := by
  unfold boostTimeout
  split
  · exact .refl s
  · split
    · exact .refl s
    · split
      · exact (commitZones_turn _ s).trans (.beside rfl)
      · exact .refl s

theorem makeProvisional_turn (addresses : List Nat) {s : State} (h : s.failsafe = true) : Turn s (makeProvisional addresses s) :=
  (Turn.made addresses h).trans (resolveChannels_turn _ _ _)

theorem driveJoins_turn (address : Nat) {s : State} (h : s.failsafe = true) : Turn s (driveJoins address s) := by
  unfold driveJoins
  split
  · exact makeProvisional_turn _ h
  · exact .refl s

theorem driveLeaves_turn (address : Nat) (s : State) : Turn s (driveLeaves address s) :=
  .fans _ fun c => (ChannelEvent.lost _ c).of_if

theorem damperTimeout_turn (n : Nat) (s : State) : Turn s (damperTimeout n s) :=
  fanAt_turn n s fun c => (ChannelEvent.damper c).of_if

theorem coastTimeout_turn (n : Nat) (s : State) : Turn s (coastTimeout n s) :=
  fanAt_turn n s fun c => (ChannelEvent.coast c).of_if

theorem setFeeder_turn (silent : Bool) (f : Feeder) (s : State) : Turn s (setFeeder silent f s) := by
  unfold setFeeder
  dsimp only
  split_ifs
  · exact .beside rfl
  · exact (Turn.look _).after rfl
  · exact (Turn.look _).after rfl

/-! ## The counts of the entries -/

theorem Recounted.refl (e : QueueEntry) : Recounted e e := ⟨rfl, rfl, rfl, .rfl, fun _ => rfl⟩

theorem recounted_tick (e : QueueEntry) : Recounted e e.tick := by
  refine ⟨rfl, rfl, rfl, ?_, fun _ => rfl⟩
  rw [QueueEntry.tick, Option.map_eq_none_iff]

theorem secondsTick_turn (s : State) : Turn s (secondsTick s) := by
  have hqueue : Turn s { s with queue := s.queue.map QueueEntry.tick } :=
    .recounted _ (List.forall₂_map_right_iff.mpr (List.forall₂_same.mpr fun e _ => recounted_tick e))
  have hchannels := Turn.channels Channel.tick (s := { s with queue := s.queue.map QueueEntry.tick })
    fun c => ⟨rfl, rfl, rfl, rfl, by simp [Channel.tick]⟩
  exact (hqueue.trans hchannels).trans (.beside rfl)

/-- A stall is reported of a head that has a head time (R120). -/
theorem stall_turn (s : State) : Turn s (stall s) := by
  unfold stall
  split
  · exact .refl s
  next e rest hqueue =>
    split
    next hlong =>
      have htime : e.headTime ≠ none := fun hnone => by
        rw [hnone] at hlong
        exact absurd hlong.1 (by decide)
      have hcounted : List.Forall₂ Recounted s.queue ({ e with stalled := true } :: rest) := by
        rw [hqueue]
        exact .cons ⟨rfl, rfl, rfl, .rfl, fun hnone => absurd hnone htime⟩ (List.forall₂_same.mpr fun f _ => .refl f)
      exact (Turn.recounted _ hcounted).trans (.beside rfl)
    · exact .refl s

/-! ## Latches -/

theorem setLatch_turn (line : Nat) (s : State) : Turn s (setLatch line s) := by
  unfold setLatch
  refine Turn.trans ?_ (.beside (lapseWrite_ledger _))
  split
  next h =>
    refine Turn.after (makeProvisional_turn _ ?_) rfl
    exact h
  · exact (applyPlan_turn line _).after rfl

theorem levelLatch_turn (s : State) : Turn s (levelLatch s) := by
  unfold levelLatch
  split
  · exact .refl s
  · dsimp only
    split
    · exact (setLatch_turn _ _).after rfl
    · exact .beside rfl

theorem acceptLine_turn (line : Nat) (s : State) : Turn s (acceptLine line s) := by
  unfold acceptLine
  split
  · exact .refl s
  · dsimp only
    split
    · exact (setLatch_turn _ _).after rfl
    · exact .beside rfl

theorem restartMake_turn (s : State) : Turn s (restartMake s) := by
  unfold restartMake
  dsimp only
  split
  next h => exact (makeProvisional_turn (s := { s with provisionalDue := false }) _ h.2.1).after rfl
  · exact .beside rfl

theorem fireReset_turn (lines : OctetSet) (s : State) : Turn s (fireReset lines s).state := by
  rw [fireReset_state]
  refine Turn.after (t := listedBy lines s) ?_ rfl
  dsimp only [Answer.ok]
  unfold resetBy
  split_ifs
  · exact .refl _
  · exact resolveChannels_turn _ _ _
  · exact .refl _
  · exact releaseZones_turn _ _

/-! ## The cycle -/

theorem completeCycle_turn (s : State) : Turn s (completeCycle s) := by
  have hchecked : Turn s (loopCheck s) := .beside (loopCheck_ledger s)
  have hevaluated : Turn s (if s.evaluates then evaluate (loopCheck s) else loopCheck s) := by
    split
    · exact hchecked.trans (commitZones_turn _ _)
    · exact hchecked
  exact (hevaluated.trans (.channels Channel.countCycle fun c => ⟨rfl, rfl, rfl, rfl, rfl⟩)).trans (.beside rfl)

theorem startService_turn (s : State) : Turn s (startService s) := by
  unfold startService
  split
  · exact .beside rfl
  · exact completeCycle_turn s

theorem nextCommand_turn (l : List Nat) (s : State) : Turn s (nextCommand l s) := by
  induction l with
  | nil => exact startService_turn s
  | cons n rest ih =>
    unfold nextCommand
    split
    · exact .beside rfl
    · exact ih

theorem nextPoll_turn (l : List Poll) (s : State) : Turn s (nextPoll l s) := by
  cases l with
  | nil => exact nextCommand_turn _ s
  | cons p rest => exact .beside rfl

theorem beginCycle_turn (s : State) : Turn s (beginCycle s) := (nextPoll_turn _ _).after rfl

theorem cycleBoundary_turn (s : State) : Turn s (cycleBoundary s) := by
  unfold cycleBoundary
  split
  · exact beginCycle_turn s
  · exact .refl s

/-! ## Slot ends -/

theorem deliverChannel_turn (c : Channel) (r : Received) (cls : PollClass) (s : State) : Turn s (deliverChannel c r cls s) := by
  unfold deliverChannel
  rw [countDraws_eq]
  exact (fanAt_turn c.number s fun d => .polled _ _ _ r cls d).trans (.beside rfl)

theorem deliverCommand_turn (x : CommandExchange) (ok : Bool) (s : State) : Turn s (deliverCommand x ok s) := by
  unfold deliverCommand
  split
  · exact .refl s
  · refine fanAt_turn _ s fun c => ?_
    split
    · exact .acknowledged _ c
    · exact .missed _ _ c

theorem discover_turn (address : Nat) (kind : DeviceKind) {s : State} (h : s.failsafe = true) : Turn s (discover address kind s) := by
  have hjoins : Turn s (driveJoins address (recordDevice ⟨address, kind, s.loop.sweep⟩ s)) :=
    (driveJoins_turn (s := recordDevice ⟨address, kind, s.loop.sweep⟩ s) address h).after rfl
  unfold discover
  dsimp only
  split
  · exact hjoins
  · exact hjoins
  · exact (driveLeaves_turn _ _).after rfl
  · exact .beside rfl

theorem miss_turn (address : Nat) (s : State) : Turn s (miss address s) := by
  unfold miss
  split
  · exact .refl s
  · split
    · dsimp only
      split
      · exact (driveLeaves_turn _ _).after rfl
      · exact .beside rfl
    · exact .refl s

theorem discovery_turn (address : Nat) (r : Received) (cls : PollClass) {s : State} (h : s.failsafe = true) :
    Turn s (discovery address r cls s) := by
  unfold discovery
  split
  · exact discover_turn _ _ h
  · exact discover_turn _ _ h
  · exact miss_turn _ s

theorem deliverQuery_turn (address : Nat) (r : Received) (cls : PollClass) {s : State} (h : s.failsafe = true) :
    Turn s (deliverQuery address r cls s) := by
  unfold deliverQuery
  dsimp only
  split
  · exact discovery_turn _ _ _ h
  · exact (discovery_turn _ _ _ h).trans (deliverChannel_turn _ _ _ _)

theorem deliverPoll_turn (p : Poll) (r : Received) (cls : PollClass) (s : State) : Turn s (deliverPoll p r cls s) := by
  unfold deliverPoll
  split
  · exact .beside (deliverHead_ledger _ _ s)
  · split
    · exact .refl s
    · exact deliverChannel_turn _ _ _ s
  · split
    next h => exact deliverQuery_turn _ _ _ h
    · exact .refl s

theorem pollEnd_turn (reply : List Byte) (s : State) : Turn s (pollEnd reply s) := by
  unfold pollEnd
  split
  · exact .beside rfl
  · exact ((deliverPoll_turn _ _ _ _).after (noteIf_ledger _ s)).trans (nextPoll_turn _ _)
  · exact .refl s

theorem commandEnd_turn (reply : List Byte) (s : State) : Turn s (commandEnd reply s) := by
  unfold commandEnd
  split
  · exact .beside (driveAnswers_ledger _ _ s)
  · refine Turn.trans ((deliverCommand_turn _ _ _).after ?_) (nextCommand_turn _ _)
    exact (driveAnswers_ledger _ _ _).trans (noteIf_ledger _ s)
  · exact .refl s

theorem serviceEnd_turn (reply : List Byte) (s : State) : Turn s (serviceEnd reply s) := by
  unfold serviceEnd
  split
  · exact .beside rfl
  · exact (completeCycle_turn _).after ((deliverService_ledger _ _).trans (noteIf_ledger _ s))
  · exact .refl s

/-! ## Tables made anew -/

/-- A configuration without violations has its reduced budget and its costs within B (R177). -/
theorem valid_within {free : Option Nat} {l : Loaded} (h : (l.violations free).head? = none) :
    l.reduced ≤ l.budget ∧ ∀ r ∈ l.fans, r.cost ≤ l.budget := by
  have hnone {bad : Bool} {kind : RecordKind} {key : Option Nat} {reason : Reason} {detail : Option Nat}
      (hv : violatedIf bad kind key reason detail = []) : bad = false := by
    unfold violatedIf at hv
    split at hv
    · cases hv
    next hbad => exact Bool.eq_false_iff.mpr hbad
  have hempty : l.violations free = [] := List.head?_eq_none_iff.mp h
  simp only [Loaded.violations, List.append_eq_nil_iff, List.flatMap_eq_nil_iff] at hempty
  obtain ⟨⟨⟨⟨⟨⟨⟨⟨⟨⟨-, hfeeder⟩, -⟩, -⟩, hfans⟩, -⟩, -⟩, -⟩, -⟩, -⟩, -⟩ := hempty
  refine ⟨Nat.not_lt.mp (of_decide_eq_false (hnone hfeeder)), fun r hr => ?_⟩
  have hfan := hfans r hr
  simp only [Loaded.checkFan, List.append_eq_nil_iff] at hfan
  obtain ⟨⟨⟨-, hcost⟩, -⟩, -⟩ := hfan
  exact Nat.not_lt.mp (of_decide_eq_false (hnone hcost))

/-- A commit installs channels that stand under their numbers once and cost at most B (R171, R177, R178). -/
theorem commit_turn {free : Option Nat} {st : Staging} {s : State} (hstaging : s.staging = some st)
    (hvalid : (st.inForce.violations free).head? = none) : Turn s (commit st.inForce s) := by
  obtain ⟨hreduced, hcosts⟩ := valid_within hvalid
  have hinstalled : Turn s (installed st.inForce s) := by
    refine .anew ⟨rfl, rfl, rfl, List.forall_mem_map.mpr fun r _ => rfl⟩ (fun hs => ?_)
      fun _ => ⟨hreduced, List.forall_mem_map.mpr hcosts⟩
    obtain ⟨-, -, hstaged⟩ := (unitsOk_iff s).mp hs
    exact List.pairwise_map.mpr (List.pairwise_map.mpr (hstaged st hstaging))
  obtain ⟨t, ht⟩ : ∃ t : State, t = raiseMode s.mode (handOver false ((installed st.inForce s).zones.map Zone.number)
    (installed st.inForce s)) := ⟨_, rfl⟩
  have hcommit : commit st.inForce s = { t with levelLatchDue := t.linesToLatch } := by
    rw [ht]
    rfl
  have hturn : Turn s t := by
    rw [ht]
    exact (hinstalled.trans (handOver_turn _ _ _)).trans (.beside (raiseMode_ledger _ _))
  rw [hcommit]
  exact hturn.trans (.beside rfl)

theorem loadCommit_turn (s : State) : Turn s (loadCommit s).state := by
  unfold loadCommit
  split
  next st _ hstaging =>
    split
    · exact .refl s
    · split
      · exact .beside rfl
      next hvalid => exact commit_turn hstaging hvalid
  · exact .refl s

/-- A RESTART keeps the records of the channels, with the budgets they were within (R181). -/
theorem restartScheduled_turn {s : State} (h : s.mode.scheduled = true) : Turn s (restartScheduled s) := by
  have hkept : Turn s (keptTables s) := by
    refine .anew ⟨rfl, rfl, rfl, keptTables_fresh s⟩ (fun hs => ?_) fun hq => ?_
    · obtain ⟨⟨-, hsorted, -⟩, -⟩ := (unitsOk_iff s).mp hs
      exact List.pairwise_map.mpr hsorted
    · obtain ⟨-, -, -, hreduced, hcosts⟩ := (queueOk_iff s).mp hq
      obtain ⟨hbudget, hbr⟩ := budget_congr (s := s) (t := keptTables s) h.symm rfl
      rw [hbudget, hbr]
      exact ⟨hreduced, List.forall_mem_map.mpr hcosts⟩
  exact hkept.trans (handOver_turn true _ _)

/-- Without channels and active tables in force both budgets are 1 (R107). -/
theorem emptied_turn {s t : State} (hmode : t.mode.scheduled = false) (hchannels : t.channels = []) (hqueue : t.queue = [])
    (hheld : t.held = 0) (hstaging : t.staging = none) : Turn s t := by
  obtain ⟨hbudget, hreduced⟩ := FanChannels.budgets_unloaded hmode
  refine .anew ⟨hqueue, hheld, hstaging, ?_⟩ (fun _ => ?_) fun _ => ⟨?_, ?_⟩
  · rw [hchannels]
    exact List.forall_mem_nil _
  · rw [hchannels]
    exact .nil
  · rw [hbudget, hreduced]
  · rw [hchannels]
    exact List.forall_mem_nil _

theorem restartUnconfigured_turn (s : State) : Turn s (restartUnconfigured s) := emptied_turn rfl rfl rfl rfl rfl

theorem restartCleared_turn (s : State) : Turn s (restartCleared s) := emptied_turn rfl rfl rfl rfl rfl

theorem cleared_turn (s : State) : Turn s s.cleared := emptied_turn rfl rfl rfl rfl rfl

theorem afterRestart_turn (previous : Mode) (s : State) : Turn s (afterRestart previous s) :=
  (beginCycle_turn s).trans (.beside (raiseMode_ledger _ _))

theorem restartKeep_turn (s : State) : Turn s (restartKeep s).state := by
  refine Turn.trans (t := if s.mode.scheduled then restartScheduled s else restartUnconfigured s) ?_ (afterRestart_turn _ _)
  split
  next h => exact restartScheduled_turn h
  · exact restartUnconfigured_turn s

theorem restartClear_turn (s : State) : Turn s (restartClear s).state :=
  ((restartCleared_turn s).trans (afterRestart_turn _ _)).trans (.beside rfl)

theorem endReset_turn (cause : ResetCause) (straps : Straps) (s : State) : Turn s (endReset cause straps s) :=
  Turn.trans (t := { s.cleared with power := .running, resetCause := cause, link := .cleared (bitRateOf straps) })
    ((cleared_turn s).trans (.beside rfl)) (beginCycle_turn _)

/-! ## Requests -/

theorem loadRecord_turn {checks : List (Nat × Bool)} {store : Staging → Answer} {s : State}
    (h : ∀ st, s.staging = some st → Turn s (store st).state) : Turn s (loadRecord checks store s).state := by
  unfold loadRecord
  split
  · exact .refl s
  · split
    next st _ hstaging => exact h st hstaging
    · exact .refl s

/-- A record that is staged keeps the channels staged before it in their order. -/
theorem withStaging_turn {st new : Staging} {s : State} (hstaging : s.staging = some st)
    (h : sorted LoadFan.channel st.fans → sorted LoadFan.channel new.fans) : Turn s (withStaging new s) :=
  .staged s.mode (some new) rfl fun hstaged st' hst' => by
    obtain rfl : new = st' := Option.some.inj hst'
    exact h (hstaged st hstaging)

theorem loadFan_turn (r : LoadFan) (s : State) : Turn s (loadFan r s).state :=
  loadRecord_turn fun _ hst => withStaging_turn hst sorted_upsert

theorem loadSlot_turn (r : LoadSlot) (s : State) : Turn s (loadSlot r s).state :=
  loadRecord_turn fun st hst => by
    dsimp only
    split
    · exact withStaging_turn hst id
    · exact .refl s

theorem loadBegin_turn (s : State) : Turn s (loadBegin s).state := by
  unfold loadBegin
  split
  next h =>
    refine Turn.trans (.staged .loading (some .empty) (by rw [h]; rfl) fun _ st hst => ?_) (.beside (raiseMode_ledger _ _))
    obtain rfl : Staging.empty = st := Option.some.inj hst
    exact .nil
  · exact .refl s

theorem loadAbandon_turn (s : State) : Turn s (loadAbandon s).state := by
  unfold loadAbandon
  split
  next h => exact Turn.trans (.staged .blank none (by rw [h]; rfl) fun _ => nofun) (.beside (raiseMode_ledger _ _))
  · exact .refl s

/-- MANUAL mode is entered or left: the budgets stay those of the active tables. -/
theorem manualMode_turn {mode : Mode} (setpoint : Channel → Option Nat) {s : State} (h : mode.scheduled = s.mode.scheduled) :
    Turn s (resolveChannels false (fun _ => true)
      { s with mode := mode, channels := s.channels.map fun c => { c with manual := setpoint c } }) :=
  ((Turn.channels (fun c => { c with manual := setpoint c }) fun _ => ⟨rfl, rfl, rfl, rfl, rfl⟩).trans
    (.staged mode s.staging h id)).trans (resolveChannels_turn _ _ _)

theorem manualEnter_turn (s : State) : Turn s (manualEnter s).state := by
  unfold manualEnter
  split
  next h => exact (manualMode_turn (fun c => some c.target) (by rw [h]; rfl)).trans (.beside (raiseMode_ledger _ _))
  · exact .refl s

theorem manualLeave_turn (s : State) : Turn s (manualLeave s).state := by
  unfold manualLeave
  split
  next h => exact (manualMode_turn (fun _ => none) (by rw [h]; rfl)).trans (.beside (raiseMode_ledger _ _))
  · exact .refl s

theorem readRecord_ledger (most : Nat) (inMode : Bool) (n : Nat) (record : Option ReplyBody) (s : State) :
    ledger (readRecord most inMode n record s).state = ledger s := by
  unfold readRecord
  split_ifs
  · rfl
  · rfl
  · split <;> rfl

theorem fetch_ledger (count : Nat) (s : State) : ledger (fetch count s).state = ledger s := by
  unfold fetch
  split <;> rfl

theorem snapTake_ledger (s : State) : ledger (snapTake s).state = ledger s := by
  unfold snapTake
  split
  · rfl
  · split <;> rfl

theorem snapRead_ledger (page : Nat) (s : State) : ledger (snapRead page s).state = ledger s := by
  unfold snapRead
  split <;> rfl

theorem tuneZone_ledger (zone : Nat) (f : Zone → Zone) (s : State) : ledger (tuneZone zone f s).state = ledger s := by
  unfold tuneZone
  split_ifs <;> rfl

theorem setLimits_ledger (zone gas low1 high1 low2 high2 : Nat) (s : State) :
    ledger (setLimits zone gas low1 high1 low2 high2 s).state = ledger s := by
  unfold setLimits
  split
  · rfl
  · exact tuneZone_ledger _ _ s

theorem setHold_ledger (zone preload : Nat) (s : State) : ledger (setHold zone preload s).state = ledger s := by
  unfold setHold
  split
  · rfl
  · exact tuneZone_ledger _ _ s

theorem slotAnswer_ledger (key : ServiceKey) (s : State) : ledger (slotAnswer key s).state = ledger s := by
  unfold slotAnswer
  split
  · rfl
  · split <;> rfl
  · split <;> rfl

theorem serviceRequest_ledger (key : ServiceKey) (s : State) : ledger (serviceRequest key s).state = ledger s := by
  unfold serviceRequest
  split_ifs
  exacts [rfl, rfl, slotAnswer_ledger key s, rfl, rfl, rfl, rfl, slotAnswer_ledger key s]

theorem boost_turn (zones : ZoneSet) (speed duration : Nat) (s : State) : Turn s (boost zones speed duration s).state := by
  unfold boost
  split
  · exact .refl s
  · split
    · exact .refl s
    · split
      · exact .refl s
      · exact commitZones_turn _ s

theorem applySetpoint_turn (n setpoint : Nat) (s : State) : Turn s (applySetpoint n setpoint s) := by
  refine Turn.trans (.channels (fun c => if c.number = n then { c with manual := some setpoint } else c) fun c => ?_)
    (resolveChannels_turn _ _ _)
  split <;> exact ⟨rfl, rfl, rfl, rfl, rfl⟩

theorem setFan_turn (n setpoint : Nat) (s : State) : Turn s (setFan n setpoint s).state := by
  unfold setFan
  split
  · exact .refl s
  · split_ifs
    · exact .refl s
    · exact .refl s
    · exact applySetpoint_turn n setpoint s

theorem clearFault_turn (n : Nat) (s : State) : Turn s (clearFault n s).state := by
  unfold clearFault
  split
  · exact .refl s
  · split
    · exact .refl s
    · split
      · exact .refl s
      · split
        · exact .refl s
        · exact fanAt_turn n s fun c => .cleared _ c

theorem feederRequest_turn (code : Nat) (s : State) : Turn s (feederRequest code s).state := by
  unfold feederRequest
  split
  · exact .refl s
  · exact setFeeder_turn _ _ s

theorem take_turn {kind tag : Nat} {owner : State → Answer} {s : State} (h : Turn s (owner s).state) :
    Turn s (take kind tag owner s) := h.trans (.beside rfl)

theorem handToOwner_turn (i : Instr) (s : State) : Turn s (handToOwner i s) := by
  cases i
  case fetch tag count => exact take_turn (.beside (fetch_ledger count s))
  case snapTake => exact take_turn (.beside (snapTake_ledger s))
  case snapRead tag page => exact take_turn (.beside (snapRead_ledger page s))
  case loadBegin => exact take_turn (loadBegin_turn s)
  case loadLoop | loadFeeder | loadHead | loadZone | loadLine =>
    exact take_turn (loadRecord_turn fun _ hst => withStaging_turn hst id)
  case loadFan tag r => exact take_turn (loadFan_turn r s)
  case loadSlot tag r => exact take_turn (loadSlot_turn r s)
  case loadAbandon => exact take_turn (loadAbandon_turn s)
  case loadCommit => exact take_turn (loadCommit_turn s)
  case restartKeep => exact take_turn (restartKeep_turn s)
  case restartClear => exact take_turn (restartClear_turn s)
  case manualEnter => exact take_turn (manualEnter_turn s)
  case manualLeave => exact take_turn (manualLeave_turn s)
  case getHead | getZone | getFan | getGroup => exact take_turn (.beside (readRecord_ledger _ _ _ _ s))
  case boost tag zones speed duration => exact take_turn (boost_turn zones speed duration s)
  case setLimits => exact take_turn (.beside (setLimits_ledger _ _ _ _ _ _ s))
  case setHold tag zone preload => exact take_turn (.beside (setHold_ledger zone preload s))
  case setFan tag n setpoint => exact take_turn (setFan_turn n setpoint s)
  case clearFault tag n => exact take_turn (clearFault_turn n s)
  case feeder tag code => exact take_turn (feederRequest_turn code s)
  case fireReset tag lines => exact take_turn (fireReset_turn lines s)
  case itemRead | itemWrite | groupRead | groupWrite => exact take_turn (.beside (serviceRequest_ledger _ s))
  all_goals exact .beside rfl

/-! ## The host link -/

theorem takeFrame_turn (f : Frame) (s : State) : Turn s (takeFrame f s) := by
  unfold takeFrame
  split
  · exact .beside rfl
  · split
    · exact .beside rfl
    · split
      · exact .beside rfl
      · split
        · exact .beside rfl
        · exact handToOwner_turn _ s

theorem holdFrame_turn (f : Frame) (s : State) : Turn s (holdFrame f s) := by
  unfold holdFrame
  split
  · exact takeFrame_turn f s
  · exact .beside rfl
  · exact .beside rfl

theorem receiveByte_turn (byte : Byte) (framingError : Bool) (s : State) : Turn s (receiveByte byte framingError s) := by
  unfold receiveByte takeByte completeFrame
  split
  · split <;> exact .beside rfl
  · split <;> exact .beside rfl
  · split_ifs
    · exact .beside rfl
    · exact .beside rfl
    · exact (holdFrame_turn _ _).after rfl
    · exact .beside rfl

theorem gapTimeout_ledger (s : State) : ledger (gapTimeout s) = ledger s := by
  unfold gapTimeout
  split <;> rfl

theorem endReply_turn (s : State) : Turn s (endReply s) := by
  unfold endReply
  split
  · exact .refl s
  · dsimp only
    split
    · exact .beside rfl
    · exact (takeFrame_turn _ _).after rfl

/-! ## Commands and steps -/

theorem powered_turn {f : State → State} {s t : State} (hf : Turn s (f s)) (h : powered s f = .next t) : Turn s t := by
  rcases powered_next h with rfl | rfl
  · exact hf
  · exact .refl _

theorem next_turn {s t u : State} (h : (.next u : Host.Outcome State Fault Refusal) = .next t) (hu : Turn s u) : Turn s t := by
  cases h
  exact hu

/-- A request given as a command is taken as its owner takes it from a frame. -/
theorem request_turn {i : Instr} {s t : State} (h : exec i s = .next t) (howner : exec i s = powered s (handToOwner i)) : Turn s t :=
  powered_turn (handToOwner_turn i s) (howner.symm.trans h)

theorem exec_turn (i : Instr) {s t : State} (h : exec i s = .next t) : Turn s t := by
  cases i
  case powerOn straps =>
    refine next_turn h ?_
    unfold powerOn
    split
    · exact endReset_turn _ _ s
    · exact (cleared_turn s).trans (.beside rfl)
  case pinReset =>
    refine next_turn h ?_
    unfold pinReset
    split
    · exact (cleared_turn s).trans (.beside rfl)
    · exact .beside rfl
    · exact .beside rfl
  case pinResetEnd straps =>
    refine next_turn h ?_
    unfold pinResetEnd
    split
    · exact .beside rfl
    · exact (endReset_turn _ _ _).after rfl
    · exact .beside rfl
  case supplyLoss => exact next_turn h ((cleared_turn s).trans (.beside rfl))
  case hostByteReceived byte framingError => exact powered_turn (receiveByte_turn byte framingError s) h
  case interByteGapTimeout => exact powered_turn (.beside (gapTimeout_ledger s)) h
  case replySent => exact powered_turn (endReply_turn s) h
  case cycleBegin => exact powered_turn (cycleBoundary_turn s) h
  case pollSlotEnd reply => exact powered_turn (pollEnd_turn reply s) h
  case commandSlotEnd reply => exact powered_turn (commandEnd_turn reply s) h
  case serviceSlotEnd reply => exact powered_turn (serviceEnd_turn reply s) h
  case secondsTick => exact powered_turn (secondsTick_turn s) h
  case settleExpiry n => exact powered_turn (.settle n s) h
  case damperTimerExpiry n => exact powered_turn (damperTimeout_turn n s) h
  case coastTimerExpiry n => exact powered_turn (coastTimeout_turn n s) h
  case holdExpiry n => exact powered_turn (commitZones_turn _ s) h
  case boostExpiry n => exact powered_turn (boostTimeout_turn n s) h
  case graceExpiry n => exact powered_turn (.beside rfl) h
  case collectionExpiry => exact powered_turn (.beside (lapseResult_ledger s)) h
  case queueStall => exact powered_turn (stall_turn s) h
  case fireLineLevelChange line level => exact next_turn h (.beside rfl)
  case fireLineAccepted line => exact powered_turn (acceptLine_turn line s) h
  case commitLevelLatch => exact powered_turn (levelLatch_turn s) h
  case restartProvisionalMake => exact powered_turn (restartMake_turn s) h
  case feedLevelChange level => exact next_turn h (.beside rfl)
  case feedAccepted =>
    refine powered_turn ?_ h
    unfold feedAccepted
    split
    · exact .refl s
    · exact setFeeder_turn _ _ s
  all_goals exact request_turn h rfl

/-- Every step is a chain of turns of the channels, the start queue and the units. -/
theorem step_turn {s t : State} (h : step s = .next t) : Turn s t := by
  unfold step at h
  split at h
  · exact (powered_turn (f := tenth) (.beside rfl) h).after rfl
  · exact (exec_turn _ h).after rfl

/-! ## The statement -/

theorem unitsOk_kept : Kept State.unitsOk := fun _ _ hs hstep => turn_units (step_turn hstep) hs

/-- Settles O59: a step is a chain of turns; each keeps the books, and with them the law of the queue. -/
theorem unitsHeldMatchTheirHolders : Obligations.UnitsHeldMatchTheirHolders :=
  ⟨unitsOk_kept, fun s t hs hstep => ⟨unitsOk_kept s t hs.1 hstep, turn_queueOk (step_turn hstep) hs.1 hs.2⟩⟩

end Sys2Proof.StartQueue
end

