-- ==== Sys2Proof/Proofs/FeederSources.lean ====
section
/-! PROOFS. The feeder's two sources: FEEDER, the levels at FEED and their acceptance (R108 to R110, R115). -/

namespace Sys2Proof.StartQueue

open Sys2Proof.Machine Sys2Proof.Claims Sys2Proof.ZoneEvaluation

/-! ## The sources -/

/-- The effective state is CONSTRAINED while either source says so (R110). -/
theorem effective_constrained_iff (f : Feeder) :
    f.effective = .constrained ↔ f.line = .constrained ∨ f.host = .constrained := by
  unfold Feeder.effective
  cases f.line <;> cases f.host <;> simp

theorem setFeeder_same (silent : Bool) {f : Feeder} {s : State} (h : f.effective = s.feeder.effective) :
    setFeeder silent f s = { s with feeder := f } := if_pos h

theorem setFeeder_silent {f : Feeder} {s : State} (h : f.effective ≠ s.feeder.effective) :
    setFeeder true f s = look { s with feeder := f } := (if_neg h).trans (if_pos rfl)

theorem setFeeder_noticed {f : Feeder} {s : State} (h : f.effective ≠ s.feeder.effective) :
    setFeeder false f s = look (noticed (.feederState f.effective f.line f.host) { s with feeder := f }) :=
  (if_neg h).trans (if_neg Bool.false_ne_true)

theorem look_feeder (s : State) : (look s).feeder = s.feeder := by
  obtain ⟨-, -, -, -, -, -, -, hfeeder, -⟩ := (look_fan s).work.keeps
  exact hfeeder

theorem setFeeder_feeder (silent : Bool) (f : Feeder) (s : State) : (setFeeder silent f s).feeder = f := by
  unfold setFeeder
  dsimp only
  split_ifs
  · rfl
  · exact look_feeder _
  · exact look_feeder _

/-! ## FEEDER (R109) -/

theorem feederRequest_badField {code : Nat} (s : State) (h : 1 < code) : feederRequest code s = .badField s 1 := by
  obtain ⟨beyond, rfl⟩ := Nat.exists_eq_add_of_le' h
  rfl

theorem feederRequest_set {code : Nat} (s : State) (h : code ≤ 1) {host : FeederState}
    (hhost : host = if code = 0 then .normal else .constrained) :
    feederRequest code s = .ok (setFeeder false { s.feeder with host := host } s)
      (.feeder (Feeder.effective { s.feeder with host := host }) s.feeder.line host) := by
  have hstate : feederStateOf code = some host := by
    rw [hhost]
    interval_cases code <;> rfl
  rw [feederRequest, hstate]
  dsimp only
  rw [setFeeder_feeder]

/-! ## FEED (R108) -/

theorem change_same (f : Feeder) : f.change f.pin = f := if_pos rfl

theorem change_moved {level : PinLevel} {f : Feeder} (h : level ≠ f.pin) : f.change level =
    { f with pin := level, pendingLevel := if f.accepted = some level then none else some level, heldFor := 0 } := if_neg h

theorem lineState_eq (level : PinLevel) : lineState level = if level = .low then .constrained else .normal := by
  cases level <;> rfl

/-- The level under debounce is the pin's before the first acceptance, the pending one after it (R108). -/
theorem measured_iff (f : Feeder) (level : PinLevel) : f.measured = some level ↔
    (f.accepted = none ∧ f.pin = level) ∨ (f.accepted ≠ none ∧ f.pendingLevel = some level) := by
  unfold Feeder.measured
  cases f.accepted <;> simp

theorem acceptance_none {f : Feeder} (h : f.accepted ≠ none ∧ f.pendingLevel = none ∨ f.heldFor < 5) : f.acceptance = none := by
  rw [Feeder.acceptance_eq]
  split
  next hheld =>
    obtain ⟨haccepted, hpending⟩ := h.resolve_right (Nat.not_lt.mpr hheld)
    refine Option.eq_none_iff_forall_ne_some.mpr fun level hlevel => ?_
    rcases (measured_iff f level).mp hlevel with ⟨hfirst, -⟩ | ⟨-, hsome⟩
    · exact haccepted hfirst
    · rw [hpending] at hsome
      cases hsome
  · rfl

theorem acceptance_due {f : Feeder} {level : PinLevel} (hheld : 5 ≤ f.heldFor)
    (h : (f.accepted = none ∧ f.pin = level) ∨ (f.accepted ≠ none ∧ f.pendingLevel = some level)) :
    f.acceptance = some level := by
  rw [Feeder.acceptance_eq, if_pos hheld]
  exact (measured_iff f level).mpr h

theorem feedAccepted_none {s : State} (h : s.feeder.acceptance = none) : feedAccepted s = s := by
  rw [feedAccepted, h]

theorem feedAccepted_due {s : State} {level : PinLevel} (h : s.feeder.acceptance = some level) :
    feedAccepted s = setFeeder s.feeder.accepted.isNone (s.feeder.accept level) s := by
  rw [feedAccepted, h]

theorem exec_feedLevelChange (level : PinLevel) (s : State) :
    exec (.feedLevelChange level) s = .next { s with feeder := changeFeed level s } := rfl

theorem changeFeed_running {s : State} (level : PinLevel) (hp : s.power = .running) : changeFeed level s = s.feeder.change level := by
  rw [changeFeed, hp]

theorem changeFeed_dark {s : State} (level : PinLevel) (hp : s.power ≠ .running) :
    changeFeed level s = { s.feeder with pin := level } := by
  unfold changeFeed
  split
  next hrunning => exact absurd hrunning hp
  · rfl

/-! ## The statement -/

/-- Settles O32: `feederRequest_set` and `feedAccepted_due` with the three outcomes of `setFeeder`, and the debounce's `change`. -/
theorem feederSourcesAreSet : Obligations.FeederSourcesAreSet := by
  refine ⟨fun level s hp => ?_, fun tag code level s hp => ?_⟩
  · rw [exec_feedLevelChange, changeFeed_dark level hp]
  intro host f
  rw [exec_feeder, takeFeeder, exec_feedLevelChange, changeFeed_running level hp, exec_feedAccepted,
    powered_running hp feedAccepted]
  refine ⟨fun hbad => powered_answer hp (feederRequest_badField s hbad), fun hgood hsame => ?_, fun hgood hmoved => ?_,
    effective_constrained_iff s.feeder, fun hlevel => ?_, fun hlevel => ?_, fun hidle => ?_, fun hheld hdue => ?_⟩
  · refine powered_answer hp ((feederRequest_set s hgood rfl).trans ?_)
    rw [setFeeder_same false hsame]
    rfl
  · refine powered_answer hp ((feederRequest_set s hgood rfl).trans ?_)
    rw [setFeeder_noticed hmoved]
    rfl
  · rw [hlevel, change_same]
  · rw [change_moved hlevel]
  · rw [feedAccepted_none (acceptance_none hidle)]
  · intro g
    have haccept : s.feeder.accept level = g := by rw [Feeder.accept, lineState_eq]
    rw [feedAccepted_due (acceptance_due hheld hdue), haccept]
    refine ⟨fun hsame => ?_, fun hmoved hfirst => ?_, fun hmoved hlater => ?_⟩
    · rw [setFeeder_same _ hsame]
    · rw [hfirst, Option.isNone_none, setFeeder_silent hmoved]
    · rw [Option.isNone_eq_false_iff.mpr (Option.ne_none_iff_isSome.mp hlater), setFeeder_noticed hmoved]

end Sys2Proof.StartQueue
end

