-- ==== Sys2Proof/Proofs/FireLineLevels.lean ====
section
/-! PROOFS. The status lines, the levels at the fire lines' pins, and the events that follow a commit and a RESTART (R126 to R128, R130,
R131, R144, R145, R165, R200, R201, R210). -/

namespace Sys2Proof.FireLines

open Sys2Proof.Machine Sys2Proof.Claims Sys2Proof.BayLoop Sys2Proof.FanChannels
open Sys2Proof.ZoneEvaluation (unitsOk_iff triggerInForce_eq)

/-! ## The status lines (R131, R200, R201, R210) -/

section
variable (s : State)

theorem outputsFree_iff : s.outputsFree = true ↔ s.power = .running := decide_eq_true_iff

theorem attnPin_low_iff : s.attnPin = .low ↔ s.attn = true := by
  unfold State.attnPin
  split <;> simp [*]

theorem faultPin_low_iff : s.faultPin = .low ↔ s.fault = true := by
  unfold State.faultPin
  split <;> simp [*]

theorem fireOnPin_high_iff : s.fireOnPin = .high ↔ s.fireOn = true := by
  unfold State.fireOnPin
  split <;> simp [*]

end

theorem channel_faulty_iff (c : Channel) : c.faulty = true ↔ c.state = .fault ∨ c.state = .lost := by
  unfold Channel.faulty
  cases c.state <;> simp

theorem head_faulty_iff (h : Head) : h.faulty = true ↔ h.state = .lost ∨ h.state = .faulty := by
  unfold Head.faulty
  cases h.state <;> simp

theorem zone_faulty_iff (z : Zone) : z.faulty = true ↔ z.state = .blind := by
  unfold Zone.faulty
  cases z.state <;> simp

/-- The FAULT conditions, block by block (R201). -/
theorem faultStands_iff (s : State) : s.faultStands = true ↔
    s.loop.state = .down ∨ (∃ c ∈ s.channels, c.state = .fault ∨ c.state = .lost)
      ∨ (∃ h ∈ s.heads, h.state = .lost ∨ h.state = .faulty) ∨ ∃ z ∈ s.zones, z.state = .blind := by
  simp only [State.faultStands, Bool.or_eq_true, decide_eq_true_eq, List.any_eq_true, channel_faulty_iff, head_faulty_iff,
    zone_faulty_iff, or_assoc]

/-- Settles O6: each pin is at its asserted level exactly when its line is asserted, and each line is asserted exactly while a running
part's condition stands. -/
theorem statusLinesFollowConditions : Obligations.StatusLinesFollowConditions := by
  intro s
  refine ⟨(attnPin_low_iff s).trans ?_, (faultPin_low_iff s).trans ?_, (fireOnPin_high_iff s).trans ?_⟩
  · simp only [State.attn, Bool.and_eq_true, outputsFree_iff, Bool.not_eq_true', List.isEmpty_eq_false_iff]
  · simp only [State.fault, Bool.and_eq_true, outputsFree_iff, faultStands_iff]
  · simp only [State.fireOn, State.anyLatch, Bool.and_eq_true, outputsFree_iff, Bool.not_eq_true', List.isEmpty_eq_false_iff]

/-! ## Levels at the pins (R126 to R128) -/

theorem exec_fireLineLevelChange (n : Nat) (level : PinLevel) (s : State) : exec (.fireLineLevelChange n level) s =
    .next { s with lines := modify FireLine.line n (changeLine level s) s.lines } := rfl

theorem changeLine_running {s : State} (h : s.power = .running) (level : PinLevel) (l : FireLine) :
    changeLine level s l = l.change level := by
  rw [changeLine, h]

theorem changeLine_dark {s : State} (h : s.power ≠ .running) (level : PinLevel) (l : FireLine) :
    changeLine level s l = { l with pin := level } := by
  unfold changeLine
  split
  next hrunning => exact absurd hrunning h
  · rfl

/-- The records under one key are changed, in the words of the statements. -/
theorem modify_eq_map {α : Type} (key : α → Nat) (n : Nat) {f g : α → α} (h : ∀ a, f a = g a) (l : List α) :
    modify key n f l = l.map fun a => if key a ≠ n then a else g a :=
  List.map_congr_left fun a _ => by rw [ite_not, h]

/-- Settles O33: a level change is the debounce's `change` of one line while the part runs, and the pin's alone while it does not. -/
theorem fireLineLevelsAreDebounced : Obligations.FireLineLevelsAreDebounced := by
  intro n level s
  rw [exec_fireLineLevelChange]
  refine ⟨fun hp => ?_, fun hp => ?_⟩
  · rw [modify_eq_map FireLine.line n fun l => changeLine_running hp level l]
    rfl
  · rw [modify_eq_map FireLine.line n fun l => changeLine_dark hp level l]

/-! ## The lines due (R130) -/

theorem causeFor_eq (s : State) (n : Nat) : s.causeFor n = if s.mode = .blank ∨ s.mode = .loading then .failsafe
    else .trigger (((s.lineRecord n).map LineRecord.trigger).getD .disabled) := by
  unfold State.causeFor
  simp only [triggerInForce_eq, failsafe_iff]
  split_ifs <;> rfl

theorem levelLatch_nil {s : State} (h : s.levelLatchDue = []) : levelLatch s = s := by
  rw [levelLatch, h]

/-- One line due is tested again, and latched where its level trigger is still met (log 21). -/
theorem levelLatch_cons {s : State} {n : Nat} {rest : List Nat} (h : s.levelLatchDue = n :: rest) : levelLatch s =
    if s.latched n = false ∧ s.levelMet n = true then setLatch n { s with levelLatchDue := rest }
    else { s with levelLatchDue := rest } := by
  rw [levelLatch, h]
  rfl

/-! ## The provisional channels due (R144) -/

theorem restartMake_eq (s : State) : restartMake s =
    if s.provisionalDue = true ∧ s.failsafe = true ∧ s.latches ≠ [] then failsafeActs { s with provisionalDue := false }
    else { s with provisionalDue := false } := by
  simp only [restartMake, failsafeActs_eq, anyLatch_eq, decide_eq_true_eq]
  rfl

theorem failsafeActs_besidesFans (s : State) : sameBesidesFans s (failsafeActs s) :=
  resolving_besidesFans (fun _ => true) { s with channels := s.discoveredDrives.foldl addProvisional s.channels }

/-- The channels after the failsafe has acted while a latch is set (R144, R145). -/
theorem failsafeActs_channels {s : State} (hf : s.failsafe = true) (hl : s.latches ≠ []) (hunits : s.unitsOk) :
    (∀ c ∈ (failsafeActs s).channels, c.cls = .extract ∧ c.target = if c.state = .fault then 0 else 100)
    ∧ (∀ d ∈ s.loop.discovered, d.kind = .drive → (∀ n < 24, ∃ c ∈ (failsafeActs s).channels, c.number = n)
        ∨ ∃ c ∈ (failsafeActs s).channels, c.record.address = d.address)
    ∧ ∀ c ∈ (failsafeActs s).channels, (∃ k ∈ s.channels, k.number = c.number ∧ k.record = c.record)
        ∨ (c.state = .sync ∧ c.provisional = true ∧ c.record = ⟨c.number, c.record.address, 0, 1, 5, 60, 30, 0, 100⟩) := by
  obtain ⟨hbooks, hok, -⟩ := (unitsOk_iff s).mp hunits
  rw [failsafeActs_eq]
  refine ⟨fun c hc => makeProvisional_demands hbooks hok _ ((failsafe_iff s).mp hf) hl hc, fun d hd hdrive => ?_, fun c hc => ?_⟩
  · exact (makeProvisional_covers _ _ (mem_discoveredDrives.mpr ⟨d, hd, hdrive, rfl⟩)).symm
  · refine (makeProvisional_from hbooks hok _ hc).imp ?_ ?_
    · rintro ⟨k, hk, hrecord⟩
      exact ⟨k, hk, congrArg FanRecord.channel hrecord, hrecord⟩
    · rintro ⟨hsync, hmade, n, a, -, hrecord⟩
      refine ⟨hsync, hmade, ?_⟩
      rw [Channel.number, hrecord]
      rfl

/-- Settles O36: a line due is latched by `setLatch`, and the provisional channels due are made by the failsafe's event. -/
theorem eventsFollowACommitAndARestart : Obligations.EventsFollowACommitAndARestart := by
  intro s hp
  have latches {t : State} (h : levelLatch s = t) : exec .commitLevelLatch s = .next t :=
    h ▸ (exec_commitLevelLatch s).trans (powered_running hp _)
  have makes {t : State} (h : restartMake s = t) : exec .restartProvisionalMake s = .next t :=
    h ▸ (exec_restartProvisionalMake s).trans (powered_running hp _)
  refine ⟨fun hnone => latches (levelLatch_nil hnone), fun n rest hdue => ⟨fun hnot => ?_, fun hnew hmet => ?_⟩, fun hnot => ?_,
    fun hdue hf hl hunits => ?_⟩
  · refine latches ((levelLatch_cons hdue).trans (if_neg ?_))
    rintro ⟨hnew, hmet⟩
    simp [hnew, hmet] at hnot
  · intro cause
    obtain ⟨later, hframe⟩ := setLatch_frame n { s with levelLatchDue := rest }
    refine ⟨_, latches ((levelLatch_cons hdue).trans (if_pos ⟨hnew, hmet⟩)), ?_, ?_⟩
    · have hcause : cause = State.causeFor { s with levelLatchDue := rest } n := (causeFor_eq s n).symm
      rw [hcause, latchSets_eq]
    · rw [hframe]
      exact ⟨rfl, rfl, rfl, rfl, rfl, rfl, rfl, rfl, rfl, rfl, rfl⟩
  · refine makes ((restartMake_eq s).trans (if_neg ?_))
    rintro ⟨hdue, hf, hl⟩
    simp [hdue, hf, hl] at hnot
  · exact ⟨_, makes ((restartMake_eq s).trans (if_pos ⟨hdue, hf, hl⟩)), rfl, failsafeActs_besidesFans _,
      failsafeActs_channels (s := { s with provisionalDue := false }) hf hl hunits⟩

end Sys2Proof.FireLines
end

