-- ==== Sys2Proof/Proofs/FirePlans.lean ====
section
/-! PROOFS. The fire plans of the latched lines: what a zone's own events and a new latch make of a zone that follows the latch list (R45 to
R58, R63, R133, R134, R149). -/

namespace Sys2Proof.FireLines

open Sys2Proof.Machine Sys2Proof.BayLoop Sys2Proof.GasHeads Sys2Proof.FanChannels
open Sys2Proof.ZoneEvaluation (Governed fireOk_governed fireOk_ungoverned governor_mem governor_none enterFire_governed enterFire_record
  enter_record holdExpired_record)

/-! ## Events that leave the fire plans alone -/

/-- What a zone's own events keep: everything of a fire state, and outside one the absence of a governor and of conflicts. -/
def Undisturbed (z y : Zone) : Prop :=
  y.number = z.number
  ∧ (z.state.isFire = true →
      y.state = z.state ∧ y.governing = z.governing ∧ y.claim = z.claim ∧ y.claimClass = z.claimClass ∧ y.conflict = z.conflict)
  ∧ (z.state.isFire = false →
      y.state.isFire = false ∧ (z.governing = none → y.governing = none) ∧ (z.conflict = [] → y.conflict = []))

/-- A change of zones under which each goes on following the latch list, whatever the plans. -/
def Obedient (f : Zone → Zone) : Prop :=
  ∀ (records : List LineRecord) (latched : List Nat) (z : Zone), z.fireOk records latched → (f z).fireOk records latched

/-- A governed zone is in a fire state. -/
theorem governed_isFire {g : Nat} {a : Assignment} {conflict : List Nat} {z : Zone} (h : Governed g a conflict z) :
    z.state.isFire = true := by
  cases a with
  | extract speed => rw [h.1]; rfl
  | isolate => rw [h.1]; rfl

theorem governed_congr {g : Nat} {a : Assignment} {conflict : List Nat} {z y : Zone} (h : Governed g a conflict z)
    (hsame : y.state = z.state ∧ y.governing = z.governing ∧ y.claim = z.claim ∧ y.claimClass = z.claimClass
      ∧ y.conflict = z.conflict) : Governed g a conflict y := by
  obtain ⟨hstate, hgoverning, hclaim, hcls, hconflict⟩ := hsame
  cases a <;> simpa only [Governed, hstate, hgoverning, hclaim, hcls, hconflict] using h

theorem Undisturbed.fireOk {z y : Zone} (h : Undisturbed z y) {records : List LineRecord} {latched : List Nat}
    (hz : z.fireOk records latched) : y.fireOk records latched := by
  obtain ⟨hnumber, hfire, hnormal⟩ := h
  cases hg : governor records latched z.number with
  | none =>
    obtain ⟨hstate, hgoverning, hconflict⟩ := (fireOk_ungoverned hg).mp hz
    obtain ⟨hstill, hfree, hclear⟩ := hnormal hstate
    exact (fireOk_ungoverned (by rw [hnumber]; exact hg)).mpr ⟨hstill, hfree hgoverning, hclear hconflict⟩
  | some ga =>
    obtain ⟨g, a⟩ := ga
    have hgoverned := (fireOk_governed hg).mp hz
    rw [fireOk_governed (g := g) (a := a) (by rw [hnumber]; exact hg), hnumber]
    exact governed_congr hgoverned (hfire (governed_isFire hgoverned))

theorem Undisturbed.obedient {f : Zone → Zone} (h : ∀ z, Undisturbed z (f z)) : Obedient f := fun _ _ z => (h z).fireOk

theorem Undisturbed.refl (z : Zone) : Undisturbed z z := ⟨rfl, fun _ => ⟨rfl, rfl, rfl, rfl, rfl⟩, fun h => ⟨h, id, id⟩⟩

theorem Undisturbed.of_if {p : Prop} [Decidable p] {z y : Zone} (h : Undisturbed z y) : Undisturbed z (if p then y else z) := by
  split
  · exact h
  · exact .refl z

theorem Obedient.comp {f g : Zone → Zone} (hg : Obedient g) (hf : Obedient f) : Obedient fun z => g (f z) :=
  fun records latched z hz => hg records latched _ (hf records latched z hz)

/-- The claim recomputed under another boost (R60, R63). -/
theorem reclaim_undisturbed (b : Option Boost) (z : Zone) : Undisturbed z (Zone.reclaim { z with boost := b }) := by
  unfold Zone.reclaim
  split
  · exact .refl z
  next h => exact ⟨rfl, fun hfire => absurd hfire h, fun hnormal => ⟨hnormal, id, id⟩⟩

/-- Outside the fire states a zone may enter any other NORMAL state. -/
theorem enter_undisturbed {new : ZoneState} {z : Zone} (hnew : new.isFire = false) (hz : z.state.isFire = false) :
    Undisturbed z (z.enter new) := by
  refine ⟨congrArg ZoneRecord.zone (enter_record new z), fun hfire => absurd (hfire.symm.trans hz) (by decide), fun _ => ?_⟩
  rw [enter_normal hnew]
  exact ⟨hnew, fun _ => rfl, fun _ => rfl⟩

theorem holdExpired_undisturbed (z : Zone) : Undisturbed z z.holdExpired := by
  unfold Zone.holdExpired
  split
  next hstate => exact .of_if (enter_undisturbed rfl (by rw [hstate]; rfl))
  · exact .refl z

theorem graceExpired_undisturbed (z : Zone) : Undisturbed z z.graceExpired := .of_if (.refl z)

theorem setLimits_undisturbed (g : Gas) (l : Limits) (z : Zone) : Undisturbed z (z.setLimits g l) := by
  cases g <;> exact .refl z

/-! ## The evaluation (R47 to R54) -/

theorem moveOnLevels_normal {z : Zone} {new : ZoneState} (h : z.moveOnLevels = some new) : new.isFire = false := by
  unfold Zone.moveOnLevels at h
  split at h
  case h_6 | h_7 => cases h
  all_goals
    split_ifs at h
    all_goals
      cases h
      rfl

/-- An evaluation moves a zone to a NORMAL state alone. -/
theorem move_normal {z : Zone} {new : ZoneState} (h : z.move = some new) : new.isFire = false := by
  unfold Zone.move at h
  split_ifs at h
  · cases h
    rfl
  · exact moveOnLevels_normal h

theorem decided_undisturbed (z : Zone) : Undisturbed z z.decided := by
  unfold Zone.decided
  split
  next new h =>
    have hnormal : z.state.isFire = false := Bool.eq_false_iff.mpr fun hfire => by
      rw [move_of_fire hfire] at h
      cases h
    exact enter_undisturbed (move_normal h) hnormal
  · exact .refl z

theorem evaluated_obedient (heads : List Head) : Obedient (evaluated heads) :=
  (Undisturbed.obedient decided_undisturbed).comp (f := Zone.refresh heads) (Undisturbed.obedient fun z => .refl z)

/-! ## A line more in the latch list (R133, R134) -/

section
variable {records : List LineRecord} {latched : List Nat} {g line : Nat} {a : Assignment} {z : Zone}

theorem governor_assignment {n : Nat} (h : governor records latched n = some (g, a)) : assignment records g n = some a := by
  obtain ⟨l, -, hmap⟩ := List.exists_of_findSome?_eq_some h
  obtain ⟨b, hb, heq⟩ := Option.map_eq_some_iff.mp hmap
  obtain ⟨rfl, rfl⟩ := Prod.mk.inj heq
  exact hb

theorem governor_append_some {n : Nat} (h : governor records latched n = some (g, a)) :
    governor records (latched ++ [line]) n = some (g, a) := by
  rw [governor, List.findSome?_append, ← governor, h]
  rfl

theorem governor_append_none {n : Nat} (h : governor records latched n = none) : governor records (latched ++ [line]) n =
    (assignment records line n).map fun a => (line, a) := by
  rw [governor, List.findSome?_append, ← governor, h]
  simp

/-- The line joins the conflict set of a governor whose plan assigns otherwise. -/
theorem conflictSet_append {n : Nat} (hline : line ≠ g) : conflictSet records (latched ++ [line]) g n =
    conflictSet records latched g n ++
      if assignment records line n = none ∨ assignment records line n = assignment records g n then [] else [line] := by
  rw [conflictSet, List.filter_append, ← conflictSet]
  congr 1
  cases h : assignment records line n <;> simp [List.filter_cons, h, hline]

/-- Without a governor before it the line has nothing against it. -/
theorem conflictSet_governor {n : Nat} (h : governor records latched n = none) :
    conflictSet records (latched ++ [line]) line n = [] := by
  rw [conflictSet, List.filter_eq_nil_iff]
  intro l hl
  rcases List.mem_append.mp hl with hl | hl
  · simp [governor_none.mp h l hl]
  · simp [List.mem_singleton.mp hl]

/-- A zone that no latched line names enters the fire state of the line, or stays as it is. -/
theorem latch_free_fireOk (hgovernor : governor records latched z.number = none) (h : z.fireOk records latched) :
    (z.latch records line).1.fireOk records (latched ++ [line]) := by
  obtain ⟨hstate, hfree, hconflict⟩ := (fireOk_ungoverned hgovernor).mp h
  have hnext := governor_append_none (line := line) hgovernor
  cases ha : assignment records line z.number with
  | none =>
    rw [ha] at hnext
    rw [latch_unnamed ha]
    exact (fireOk_ungoverned hnext).mpr ⟨hstate, hfree, hconflict⟩
  | some a =>
    rw [ha] at hnext
    have hnumber : (z.enterFire line a).number = z.number := congrArg ZoneRecord.zone (enterFire_record line a z)
    rw [latch_enters ha (ne_true_of_eq_false hstate), fireOk_governed (by rw [hnumber]; exact hnext), hnumber,
      conflictSet_governor hgovernor]
    cases a <;> exact ⟨rfl, rfl, rfl, rfl, rfl⟩

/-- A governed zone keeps its governor; the line joins its conflict set where its plan assigns otherwise. -/
theorem latch_governed_fireOk (hnew : line ∉ latched) (hgovernor : governor records latched z.number = some (g, a))
    (h : z.fireOk records latched) : (z.latch records line).1.fireOk records (latched ++ [line]) := by
  have hgoverned := (fireOk_governed hgovernor).mp h
  obtain ⟨hgoverning, hconflict⟩ := hgoverned.fields
  have hstill := governor_append_some (line := line) hgovernor
  have hother : line ≠ g := fun heq => hnew (heq ▸ governor_mem hgovernor)
  have hset := conflictSet_append (records := records) (latched := latched) (n := z.number) hother
  have hstays (hjoins : assignment records line z.number = none ∨ assignment records line z.number = assignment records g z.number) :
      z.fireOk records (latched ++ [line]) := by
    rw [if_pos hjoins, List.append_nil] at hset
    rw [fireOk_governed hstill, hset]
    exact hgoverned
  cases hb : assignment records line z.number with
  | none =>
    rw [latch_unnamed hb]
    exact hstays (.inl hb)
  | some b =>
    have hlatched := latch_governed hb (governed_isFire hgoverned) hgoverning
    by_cases hsame : assignment records g z.number = some b
    · rw [hlatched.trans (if_pos hsame)]
      exact hstays (.inr (hb.trans hsame.symm))
    · rw [hb, if_neg (not_or.mpr ⟨Option.some_ne_none b, Ne.symm hsame⟩), ← hconflict] at hset
      rw [hlatched.trans (if_neg hsame)]
      refine (fireOk_governed (z := { z with conflict := z.conflict ++ [line] }) hstill).mpr ?_
      exact hset ▸ hgoverned.withConflict _

/-- A zone that followed the latch list follows it with one line more. -/
theorem latch_fireOk (hnew : line ∉ latched) (h : z.fireOk records latched) :
    (z.latch records line).1.fireOk records (latched ++ [line]) := by
  cases hgovernor : governor records latched z.number with
  | none => exact latch_free_fireOk hgovernor h
  | some ga => exact latch_governed_fireOk (g := ga.1) (a := ga.2) hnew hgovernor h

/-! ## Zones made anew (R45, R149) -/

/-- A zone at its initial values follows a latch list that does not name it. -/
theorem initial_fireOk {r : ZoneRecord} (h : governor records latched r.zone = none) : (Zone.initial r).fireOk records latched :=
  (fireOk_ungoverned (z := Zone.initial r) h).mpr ⟨rfl, rfl, rfl⟩

theorem restarted_fireOk (records : List LineRecord) (latched : List Nat) (z : Zone) :
    (z.restarted records latched).fireOk records latched := by
  cases hg : governor records latched z.number with
  | none =>
    rw [restarted_none hg]
    exact initial_fireOk hg
  | some ga =>
    obtain ⟨g, a⟩ := ga
    have hnumber : ((Zone.initial z.record).enterFire g a).number = z.number :=
      congrArg ZoneRecord.zone (enterFire_record g a _)
    rw [restarted_some hg]
    refine (fireOk_governed (g := g) (a := a) ?_).mpr ?_
    · exact (congrArg _ hnumber).trans hg
    · rw [← hnumber]
      exact enterFire_governed g a _ _

end

end Sys2Proof.FireLines
end

