-- ==== Sys2Proof/Proofs/FireTables.lean ====
section
/-! PROOFS. The laws of the latch list and of the zones under it, and what keeps them: a change beside the fire tables, events of the
zones, a latch, a FIRE_RESET, and tables made anew (R126, R131, R133 to R141, R149, R178, R181, R182). -/

namespace Sys2Proof.FireLines

open Sys2Proof.Machine Sys2Proof.Claims Sys2Proof.BayLoop Sys2Proof.FanChannels
open Sys2Proof.ZoneEvaluation (governor_none met_iff fireReset_state resetBy resetBy_frame resetBy_fireOk resetBy_zones_failsafe leftBy)

/-! ## The laws and the tables they read -/

/-- Every zone follows the latch list, and the active tables are there in RUN and MANUAL alone. -/
def FollowsLatches (s : State) : Prop := s.active.isSome = s.mode.scheduled ∧ s.firesOk

/-- From one state to the next both laws are kept, each by itself. -/
def Keeps (s t : State) : Prop := (s.latchesOk → t.latchesOk) ∧ (FollowsLatches s → FollowsLatches t)

/-- What the two laws read of a state. -/
def fireTables (s : State) := ((s.mode.scheduled, s.active), (s.lines, s.latches, s.zones))

theorem fireTables_inj {s t : State} (h : fireTables t = fireTables s) :
    (t.mode.scheduled = s.mode.scheduled ∧ t.active = s.active)
      ∧ t.lines = s.lines ∧ t.latches = s.latches ∧ t.zones = s.zones := by
  simpa only [fireTables, Prod.mk.injEq] using h

section
variable {s t u : State}

theorem lineRecords_congr (h : t.active = s.active) : t.lineRecords = s.lineRecords := by
  unfold State.lineRecords
  rw [h]

theorem latchedLines_congr (h : t.latches = s.latches) : t.latchedLines = s.latchedLines := congrArg (List.map Latch.line) h

/-- Under the failsafe there are no active tables, so there are no zones. -/
theorem zones_failsafe (h : FollowsLatches s) (hf : s.failsafe = true) : s.active = none ∧ s.zones = [] := by
  obtain ⟨hactive, hnone, -⟩ := h
  have hmode : s.mode.scheduled = false := by simpa [State.failsafe] using hf
  have habsent : s.active = none := Option.not_isSome_iff_eq_none.mp (by rw [hactive, hmode]; decide)
  exact ⟨habsent, hnone habsent⟩

theorem Keeps.refl (s : State) : Keeps s s := ⟨id, id⟩

theorem Keeps.trans (h : Keeps s t) (h' : Keeps t u) : Keeps s u := ⟨h'.1 ∘ h.1, h'.2 ∘ h.2⟩

/-- A change of what the laws do not read. -/
theorem Keeps.beside (h : fireTables t = fireTables s) : Keeps s t := by
  obtain ⟨⟨hmode, hactive⟩, hlines, hlatches, hzones⟩ := fireTables_inj h
  unfold Keeps State.latchesOk FollowsLatches State.firesOk
  rw [lineRecords_congr hactive, latchedLines_congr hlatches, hmode, hactive, hlines, hzones]
  exact ⟨id, id⟩

/-- A change of what the laws do not read, before another. -/
theorem Keeps.after (h' : Keeps t u) (h : fireTables t = fireTables s) : Keeps s u := (Keeps.beside h).trans h'

/-- The runtimes of the lines change, each under its number. -/
theorem Keeps.relined {l : List FireLine} (h : l.map FireLine.line = s.lines.map FireLine.line) : Keeps s { s with lines := l } :=
  ⟨fun ⟨hlines, hlatched⟩ => ⟨h.trans hlines, hlatched⟩, id⟩

/-- Each zone goes on following the latch list. -/
theorem Keeps.zones {f : Zone → Zone} (h : Obedient f) (s : State) : Keeps s { s with zones := s.zones.map f } := by
  refine ⟨id, fun ⟨hactive, hnone, hfollows⟩ => ⟨hactive, fun habsent => ?_, List.forall_mem_map.mpr fun z hz => ?_⟩⟩
  · rw [hnone habsent]
    rfl
  · exact h _ _ z (hfollows z hz)

/-- Tables are made anew: the lines keep their numbers, the list has no line it had not, and the zones follow it. -/
theorem Keeps.anew (hlines : t.lines.map FireLine.line = s.lines.map FireLine.line)
    (hlatched : t.latchedLines.Sublist s.latchedLines) (h : FollowsLatches s → FollowsLatches t) : Keeps s t :=
  ⟨fun ⟨hnumbers, honce, hrange⟩ =>
    ⟨hlines.trans hnumbers, honce.sublist hlatched, fun l hl => hrange l (hlatched.subset hl)⟩, h⟩

/-- Without active tables and zones there is nothing to follow. -/
theorem followsLatches_empty (hmode : s.mode.scheduled = false) (hactive : s.active = none) (hzones : s.zones = []) :
    FollowsLatches s := by
  refine ⟨by rw [hactive, hmode]; rfl, fun _ => hzones, ?_⟩
  rw [hzones]
  exact List.forall_mem_nil _

end

/-! ## Events beside the fire tables -/

theorem fireTables_fan {s t : State} (h : FanStep s t) : fireTables t = fireTables s := by
  obtain ⟨_, _, _, _, rfl⟩ := h
  rfl

theorem raiseMode_fireTables (previous : Mode) (s : State) : fireTables (raiseMode previous s) = fireTables s := by
  unfold raiseMode
  split <;> rfl

theorem commitZones_fireTables (zones : List Zone) (s : State) :
    fireTables (commitZones zones s) = fireTables { s with zones := zones } := by
  rw [commitZones_frame]
  rfl

theorem commitZones_keeps {f : Zone → Zone} (h : Obedient f) (s : State) : Keeps s (commitZones (s.zones.map f) s) :=
  (Keeps.zones h s).trans (.beside (commitZones_fireTables _ s))

/-! ## A latch (R131 to R134) -/

theorem setLatch_zones (line : Nat) (s : State) : (setLatch line s).zones =
    if s.failsafe = true then s.zones else s.zones.map fun z => (z.latch s.lineRecords line).1 := by
  obtain ⟨later, hframe⟩ := setLatch_frame line s
  rw [hframe]
  dsimp only
  split
  next hf =>
    rw [latchActed_failsafe line hf]
    obtain ⟨_, _, _, _, hfan⟩ := makeProvisional_fan s.discoveredDrives (latchListed line s)
    rw [hfan]
    rfl
  next hf => exact latchActed_planned line (Bool.eq_false_iff.mpr hf)

/-- The event of a latch beside its zones. -/
theorem setLatch_fireTables (line : Nat) (s : State) : fireTables (setLatch line s) = fireTables { s with
    latches := s.latches ++ [⟨line, s.uptime, s.causeFor line⟩], zones := (setLatch line s).zones } := by
  obtain ⟨later, hframe⟩ := setLatch_frame line s
  rw [hframe]
  rfl

/-- A line not latched yet joins the list, and the zones its plan names follow. -/
theorem setLatch_keeps {line : Nat} {s : State} (hnew : s.latched line = false) (hline : line ∈ s.lines.map FireLine.line) :
    Keeps s (setLatch line s) := by
  have hout : line ∉ s.latchedLines := fun h => absurd (((latched_iff s line).mpr h).symm.trans hnew) (by decide)
  obtain ⟨⟨hmode, hactive⟩, hlines, hlatches, -⟩ := fireTables_inj (setLatch_fireTables line s)
  have hlist : (setLatch line s).latchedLines = s.latchedLines ++ [line] :=
    (congrArg (List.map Latch.line) hlatches).trans List.map_append
  refine ⟨fun ⟨hnumbers, honce, hrange⟩ => ?_, fun hfollows => ?_⟩
  · refine ⟨hlines ▸ hnumbers, ?_, ?_⟩
    · rw [hlist]
      refine List.nodup_append.mpr ⟨honce, List.nodup_singleton line, fun a ha b hb heq => hout ?_⟩
      rw [← List.mem_singleton.mp hb, ← heq]
      exact ha
    · rw [hlist]
      intro l hl
      rcases List.mem_append.mp hl with hl | hl
      · exact hrange l hl
      · rw [List.mem_singleton.mp hl]
        rw [hnumbers] at hline
        exact List.mem_range.mp hline
  · have hzones := setLatch_zones line s
    refine ⟨by rw [hactive, hmode]; exact hfollows.1, ?_⟩
    unfold State.firesOk
    rw [lineRecords_congr hactive, hlist, hzones, hactive]
    split
    next hf =>
      rw [(zones_failsafe hfollows hf).2]
      exact ⟨fun _ => rfl, List.forall_mem_nil _⟩
    next hf =>
      obtain ⟨-, hnone, hall⟩ := hfollows
      refine ⟨fun habsent => by rw [hnone habsent]; rfl, List.forall_mem_map.mpr fun z hz => ?_⟩
      exact latch_fireOk hout (hall z hz)

/-- A line whose level trigger is met has its runtime. -/
theorem line_of_levelMet {s : State} {n : Nat} (h : s.levelMet n = true) : n ∈ s.lines.map FireLine.line := by
  cases hl : lookup FireLine.line n s.lines with
  | none =>
    rw [State.levelMet, hl, met_iff] at h
    simp at h
  | some l =>
    obtain ⟨hmem, hkey⟩ := lookup_mem hl
    exact List.mem_map.mpr ⟨l, hmem, hkey⟩

theorem levelLatch_keeps (s : State) : Keeps s (levelLatch s) := by
  cases hdue : s.levelLatchDue with
  | nil =>
    rw [levelLatch_nil hdue]
    exact .refl s
  | cons n rest =>
    rw [levelLatch_cons hdue]
    split
    next h =>
      obtain ⟨hnew, hmet⟩ := h
      exact (setLatch_keeps (s := { s with levelLatchDue := rest }) hnew (line_of_levelMet (s := s) hmet)).after rfl
    · exact .beside rfl

theorem acceptLine_keeps (line : Nat) (s : State) : Keeps s (acceptLine line s) := by
  unfold acceptLine
  split
  · exact .refl s
  next level initial hdue =>
    obtain ⟨l, hl, -⟩ := Option.bind_eq_some_iff.mp hdue
    obtain ⟨hmem, hkey⟩ := lookup_mem hl
    have hnumbers : (modify FireLine.line line (FireLine.accept level) s.lines).map FireLine.line = s.lines.map FireLine.line :=
      map_modify (f := FireLine.accept level) (fun _ => rfl) s.lines
    have haccepted := Keeps.relined hnumbers
    dsimp only
    split
    next h =>
      refine haccepted.trans (setLatch_keeps h.1 ?_)
      dsimp only
      rw [hnumbers]
      exact List.mem_map.mpr ⟨l, hmem, hkey⟩
    · exact haccepted

theorem restartMake_fireTables (s : State) : fireTables (restartMake s) = fireTables s := by
  unfold restartMake
  dsimp only
  split
  · exact (fireTables_fan (makeProvisional_fan _ _)).trans rfl
  · rfl

/-! ## FIRE_RESET (R137 to R141) -/

theorem resetBy_keeps (lines : OctetSet) (s : State) : Keeps s (resetBy lines s) := by
  obtain ⟨hframe, -⟩ := resetBy_frame lines s
  have htables : fireTables (resetBy lines s) =
      fireTables { s with latches := leftBy lines s, zones := (resetBy lines s).zones } := by
    rw [hframe]
    rfl
  obtain ⟨⟨hmode, hactive⟩, hlines, hlatches, -⟩ := fireTables_inj htables
  refine .anew (congrArg _ hlines) ?_ fun hfollows => ⟨by rw [hactive, hmode]; exact hfollows.1, ?_⟩
  · rw [State.latchedLines, hlatches]
    exact List.Sublist.map _ List.filter_sublist
  · by_cases hf : s.failsafe = true
    · obtain ⟨-, hnone⟩ := zones_failsafe hfollows hf
      unfold State.firesOk
      rw [resetBy_zones_failsafe hf, hnone]
      exact ⟨fun _ => rfl, List.forall_mem_nil _⟩
    · obtain ⟨hscheduled, hfires⟩ := hfollows
      have hall := resetBy_fireOk (lines := lines) (Bool.eq_false_iff.mpr hf) hfires
      refine ⟨fun habsent => ?_, ?_⟩
      · have hon : s.active.isSome = true := hscheduled.trans (by simpa [State.failsafe] using hf)
        rw [← show (resetBy lines s).active = s.active from hactive, habsent] at hon
        cases hon
      · rw [lineRecords_congr (s := s) hactive, State.latchedLines, hlatches]
        exact hall

theorem fireReset_keeps (lines : OctetSet) (s : State) : Keeps s (fireReset lines s).state := by
  rw [fireReset_state]
  exact resetBy_keeps lines s

/-! ## Tables made anew (R149, R178, R181, R182) -/

/-- A commit finds no latch, so its zones are at their initial values (R175, R178). -/
theorem commit_keeps {c : Loaded} {s : State} (hmode : s.mode = .loading) (hlatches : s.latches = []) : Keeps s (commit c s) := by
  rw [commit_eq hmode]
  refine .anew rfl (List.Sublist.refl _) fun _ => ⟨rfl, nofun, List.forall_mem_map.mpr fun r _ => ?_⟩
  refine initial_fireOk (governor_none.mpr fun l hl => ?_)
  have hnone : l ∈ s.latches.map Latch.line := hl
  rw [hlatches] at hnone
  cases hnone

/-- A RESTART with KEEP brings every zone to what the latch list asks of it (R149, R181). -/
theorem restartScheduled_keeps {s : State} (h : s.mode.scheduled = true) : Keeps s (restartScheduled s) := by
  rw [restartScheduled_eq]
  refine .anew rfl (List.Sublist.refl _) fun ⟨hactive, hnone, _⟩ => ⟨hactive.trans h, fun habsent => ?_, ?_⟩
  · exact congrArg (List.map _) (hnone habsent)
  · exact List.forall_mem_map.mpr fun z _ => restarted_fireOk _ _ z

theorem restartUnconfigured_fireTables {s : State} (h : s.mode.scheduled = false) :
    fireTables (restartUnconfigured s) = fireTables s := by
  unfold fireTables
  rw [h]
  rfl

theorem restartCleared_keeps (s : State) : Keeps s (restartCleared s) :=
  .anew rfl (List.Sublist.refl _) fun _ => followsLatches_empty rfl rfl rfl

/-- A power-on, a pin reset or a loss of supply empties the latch list and keeps the lines' numbers (R148). -/
theorem cleared_keeps (s : State) : Keeps s s.cleared :=
  .anew List.map_map (List.nil_sublist _) fun _ => followsLatches_empty rfl rfl rfl

end Sys2Proof.FireLines
end

