-- ==== Sys2Proof/Proofs/FireSteps.lean ====
section
/-! PROOFS. Every step keeps the latch list without repeats and every zone under it (R126, R131, R133 to R135). -/

namespace Sys2Proof.FireLines

open Sys2Proof.Machine Sys2Proof.Claims Sys2Proof.BayLoop

/-! ## Exchanges beside the fire tables -/

theorem raiseAll_fireTables (ns : List NoticeBody) (s : State) : fireTables (raiseAll ns s) = fireTables s :=
  fireTables_fan (raiseAll_fan ns s)

theorem lapseResult_fireTables (s : State) : fireTables (lapseResult s) = fireTables s := by
  unfold lapseResult
  split
  · split <;> rfl
  · rfl

theorem memberDone_fireTables (k : ServiceKey) (ms : List Member) (result : List ResultEntry) (s : State) :
    fireTables (memberDone k ms result s) = fireTables s := by
  unfold memberDone
  split <;> rfl

theorem deliverService_fireTables (reply : Option ServiceReply) (s : State) :
    fireTables (deliverService reply s) = fireTables s := by
  unfold deliverService
  split
  · dsimp only
    split
    · exact memberDone_fireTables _ _ _ s
    · exact memberDone_fireTables _ _ _ s
    · split
      · rfl
      · exact memberDone_fireTables _ _ _ s
  · rfl

theorem deliverHead_fireTables (address : Nat) (f : Head → Head × List NoticeBody) (s : State) :
    fireTables (deliverHead address f s) = fireTables s := by
  unfold deliverHead
  split
  · rfl
  · exact raiseAll_fireTables _ _

theorem noteIf_fireTables (valid : Bool) (s : State) : fireTables (noteIf valid s) = fireTables s := by
  rw [noteIf_eq]
  rfl

theorem driveAnswers_fireTables (x : CommandExchange) (ok : Bool) (s : State) : fireTables (driveAnswers x ok s) = fireTables s := by
  unfold driveAnswers
  split <;> rfl

theorem deliverChannel_fireTables (c : Channel) (r : Received) (cls : PollClass) (s : State) :
    fireTables (deliverChannel c r cls s) = fireTables s := by
  unfold deliverChannel
  rw [countDraws_eq]
  exact Eq.trans (b := fireTables (fanEventAt c.number _ s)) rfl (fireTables_fan (fanEventAt_fan _ _ s))

theorem deliverCommand_fireTables (x : CommandExchange) (ok : Bool) (s : State) :
    fireTables (deliverCommand x ok s) = fireTables s := by
  unfold deliverCommand
  split
  · rfl
  · exact fireTables_fan (fanEventAt_fan _ _ s)

theorem discover_fireTables (address : Nat) (kind : DeviceKind) (s : State) :
    fireTables (discover address kind s) = fireTables s := by
  unfold discover
  dsimp only
  split
  · exact (fireTables_fan (driveJoins_fan _ _)).trans rfl
  · exact (fireTables_fan (driveJoins_fan _ _)).trans rfl
  · exact (fireTables_fan (driveLeaves_fan _ _)).trans rfl
  · rfl

theorem miss_fireTables (address : Nat) (s : State) : fireTables (miss address s) = fireTables s := by
  unfold miss
  split
  · rfl
  · split
    · dsimp only
      split
      · exact (fireTables_fan (driveLeaves_fan _ _)).trans rfl
      · rfl
    · rfl

theorem discovery_fireTables (address : Nat) (r : Received) (cls : PollClass) (s : State) :
    fireTables (discovery address r cls s) = fireTables s := by
  unfold discovery
  split
  · exact discover_fireTables _ _ s
  · exact discover_fireTables _ _ s
  · exact miss_fireTables _ s

theorem deliverPoll_fireTables (p : Poll) (r : Received) (cls : PollClass) (s : State) :
    fireTables (deliverPoll p r cls s) = fireTables s := by
  unfold deliverPoll deliverQuery
  dsimp only
  split
  · exact deliverHead_fireTables _ _ s
  · split
    · rfl
    · exact deliverChannel_fireTables _ _ _ s
  · split
    · split
      · exact discovery_fireTables _ _ _ s
      · exact (deliverChannel_fireTables _ _ _ _).trans (discovery_fireTables _ _ _ s)
    · rfl

/-! ## The cycle -/

/-- A completed cycle evaluates the zones (R6, R47). -/
theorem completeCycle_keeps (s : State) : Keeps s (completeCycle s) := by
  have hchecked : Keeps s (loopCheck s) := .beside (by rw [loopCheck_eq]; rfl)
  have hevaluated : Keeps s (if s.evaluates then evaluate (loopCheck s) else loopCheck s) := by
    split
    · exact hchecked.trans (commitZones_keeps (evaluated_obedient _) _)
    · exact hchecked
  exact hevaluated.trans (.beside rfl)

theorem startService_keeps (s : State) : Keeps s (startService s) := by
  unfold startService
  split
  · exact .beside rfl
  · exact completeCycle_keeps s

theorem nextCommand_keeps (l : List Nat) (s : State) : Keeps s (nextCommand l s) := by
  induction l with
  | nil => exact startService_keeps s
  | cons n rest ih =>
    unfold nextCommand
    split
    · exact .beside rfl
    · exact ih

theorem nextPoll_keeps (l : List Poll) (s : State) : Keeps s (nextPoll l s) := by
  cases l with
  | nil => exact nextCommand_keeps _ s
  | cons p rest => exact .beside rfl

theorem beginCycle_keeps (s : State) : Keeps s (beginCycle s) := (nextPoll_keeps _ _).after rfl

theorem cycleBoundary_keeps (s : State) : Keeps s (cycleBoundary s) := by
  unfold cycleBoundary
  split
  · exact beginCycle_keeps s
  · exact .refl s

theorem pollEnd_keeps (reply : List Byte) (s : State) : Keeps s (pollEnd reply s) := by
  unfold pollEnd
  split
  · exact .beside rfl
  · exact (nextPoll_keeps _ _).after ((deliverPoll_fireTables _ _ _ _).trans (noteIf_fireTables _ s))
  · exact .refl s

theorem commandEnd_keeps (reply : List Byte) (s : State) : Keeps s (commandEnd reply s) := by
  unfold commandEnd
  split
  · exact .beside (driveAnswers_fireTables _ _ s)
  · refine (nextCommand_keeps _ _).after ((deliverCommand_fireTables _ _ _).trans ?_)
    exact (driveAnswers_fireTables _ _ _).trans (noteIf_fireTables _ s)
  · exact .refl s

theorem serviceEnd_keeps (reply : List Byte) (s : State) : Keeps s (serviceEnd reply s) := by
  unfold serviceEnd
  split
  · exact .beside rfl
  · exact (completeCycle_keeps _).after ((deliverService_fireTables _ _).trans (noteIf_fireTables _ s))
  · exact .refl s

/-! ## Zones -/

/-- One zone goes on following the latch list. -/
theorem modifyZone_keeps (n : Nat) {f : Zone → Zone} (h : ∀ z, Undisturbed z (f z)) (s : State) :
    Keeps s { s with zones := modify Zone.number n f s.zones } :=
  .zones (Undisturbed.obedient fun z => .of_if (h z)) s

theorem changeZone_keeps (n : Nat) {f : Zone → Zone} (h : ∀ z, Undisturbed z (f z)) (s : State) : Keeps s (changeZone n f s) :=
  commitZones_keeps (Undisturbed.obedient fun z => .of_if (h z)) s

theorem boostTimeout_keeps (n : Nat) (s : State) : Keeps s (boostTimeout n s) := by
  unfold boostTimeout
  split
  · exact .refl s
  · split
    · exact .refl s
    · split
      · exact (changeZone_keeps n (reclaim_undisturbed none) s).trans (.beside rfl)
      · exact .refl s

theorem secondsTick_keeps (s : State) : Keeps s (secondsTick s) :=
  (Keeps.zones (f := Zone.tick) (Undisturbed.obedient fun z => .refl z) s).trans (.beside rfl)

theorem boost_keeps (zones : ZoneSet) (speed duration : Nat) (s : State) : Keeps s (boost zones speed duration s).state := by
  unfold boost
  split
  · exact .refl s
  · split
    · exact .refl s
    · split
      · exact .refl s
      · exact commitZones_keeps (Undisturbed.obedient fun z => .of_if (reclaim_undisturbed _ z)) s

theorem tuneZone_keeps (n : Nat) {f : Zone → Zone} (h : ∀ z, Undisturbed z (f z)) (s : State) : Keeps s (tuneZone n f s).state := by
  unfold tuneZone
  split_ifs
  · exact .refl s
  · exact .refl s
  · exact modifyZone_keeps n h s

theorem setLimits_keeps (zone gas low1 high1 low2 high2 : Nat) (s : State) :
    Keeps s (setLimits zone gas low1 high1 low2 high2 s).state := by
  unfold setLimits
  split
  · exact .refl s
  · exact tuneZone_keeps zone (setLimits_undisturbed _ _) s

theorem setHold_keeps (zone preload : Nat) (s : State) : Keeps s (setHold zone preload s).state := by
  unfold setHold
  split
  · exact .refl s
  · exact tuneZone_keeps zone (f := fun z => { z with record := { z.record with hold := preload } }) (fun z => .refl z) s

/-! ## Configurations and modes -/

theorem loadRecord_fireTables {checks : List (Nat × Bool)} {store : Staging → Answer} {s : State}
    (h : ∀ st, fireTables (store st).state = fireTables s) : fireTables (loadRecord checks store s).state = fireTables s := by
  unfold loadRecord
  split
  · rfl
  · split
    · exact h _
    · rfl

theorem loadSlot_fireTables (r : LoadSlot) (s : State) : fireTables (loadSlot r s).state = fireTables s :=
  loadRecord_fireTables fun st => by
    dsimp only
    split <;> rfl

/-- A change of mode that leaves the active tables in force or out of it. -/
theorem mode_fireTables {mode : Mode} {staging : Option Staging} {s : State} (h : mode.scheduled = s.mode.scheduled) :
    fireTables { s with mode := mode, staging := staging } = fireTables s := by
  unfold fireTables
  rw [h]

theorem loadBegin_fireTables (s : State) : fireTables (loadBegin s).state = fireTables s := by
  unfold loadBegin
  split
  next h => exact (raiseMode_fireTables _ _).trans (mode_fireTables (by rw [h]; rfl))
  · rfl

theorem loadAbandon_fireTables (s : State) : fireTables (loadAbandon s).state = fireTables s := by
  unfold loadAbandon
  split
  next h => exact (raiseMode_fireTables _ _).trans (mode_fireTables (by rw [h]; rfl))
  · rfl

/-- A commit is refused while a latch is set (R175). -/
theorem loadCommit_keeps (s : State) : Keeps s (loadCommit s).state := by
  unfold loadCommit
  split
  next st hmode _ =>
    split
    · exact .refl s
    next hlatch =>
      split
      · exact .beside rfl
      · exact commit_keeps hmode (by simpa [State.anyLatch] using hlatch)
  · exact .refl s

/-- MANUAL mode is entered or left with every channel resolved. -/
theorem manualMode_fireTables {mode : Mode} (setpoint : Channel → Option Nat) {s : State} (h : mode.scheduled = s.mode.scheduled) :
    fireTables (resolveChannels false (fun _ => true)
      { s with mode := mode, channels := s.channels.map fun c => { c with manual := setpoint c } }) = fireTables s :=
  (fireTables_fan (resolveChannels_fan _ _ _)).trans (mode_fireTables (staging := s.staging) h)

theorem manualEnter_fireTables (s : State) : fireTables (manualEnter s).state = fireTables s := by
  unfold manualEnter
  split
  next h => exact (raiseMode_fireTables _ _).trans (manualMode_fireTables (fun c => some c.target) (by rw [h]; rfl))
  · rfl

theorem manualLeave_fireTables (s : State) : fireTables (manualLeave s).state = fireTables s := by
  unfold manualLeave
  split
  next h => exact (raiseMode_fireTables _ _).trans (manualMode_fireTables (fun _ => none) (by rw [h]; rfl))
  · rfl

theorem afterRestart_keeps (previous : Mode) (s : State) : Keeps s (afterRestart previous s) :=
  (beginCycle_keeps s).trans (.beside (raiseMode_fireTables _ _))

theorem restartKeep_keeps (s : State) : Keeps s (restartKeep s).state := by
  refine Keeps.trans (t := if s.mode.scheduled then restartScheduled s else restartUnconfigured s) ?_ (afterRestart_keeps _ _)
  split
  next h => exact restartScheduled_keeps h
  next h => exact .beside (restartUnconfigured_fireTables (Bool.eq_false_iff.mpr h))

theorem restartClear_keeps (s : State) : Keeps s (restartClear s).state :=
  ((restartCleared_keeps s).trans (afterRestart_keeps _ _)).trans (.beside rfl)

theorem endReset_keeps (cause : ResetCause) (straps : Straps) (s : State) : Keeps s (endReset cause straps s) :=
  Keeps.trans (t := { s.cleared with power := .running, resetCause := cause, link := .cleared (bitRateOf straps) })
    ((cleared_keeps s).trans (.beside rfl)) (beginCycle_keeps _)

/-! ## Requests beside the fire tables -/

theorem readRecord_fireTables (most : Nat) (inMode : Bool) (n : Nat) (record : Option ReplyBody) (s : State) :
    fireTables (readRecord most inMode n record s).state = fireTables s := by
  unfold readRecord
  split_ifs
  · rfl
  · rfl
  · split <;> rfl

theorem fetch_fireTables (count : Nat) (s : State) : fireTables (fetch count s).state = fireTables s := by
  unfold fetch
  split <;> rfl

theorem snapTake_fireTables (s : State) : fireTables (snapTake s).state = fireTables s := by
  unfold snapTake
  split
  · rfl
  · split <;> rfl

theorem snapRead_fireTables (page : Nat) (s : State) : fireTables (snapRead page s).state = fireTables s := by
  unfold snapRead
  split <;> rfl

theorem setFan_fireTables (n setpoint : Nat) (s : State) : fireTables (setFan n setpoint s).state = fireTables s := by
  unfold setFan
  split
  · rfl
  · split_ifs
    · rfl
    · rfl
    · exact (fireTables_fan (resolveChannels_fan _ _ _)).trans rfl

theorem clearFault_fireTables (n : Nat) (s : State) : fireTables (clearFault n s).state = fireTables s := by
  unfold clearFault
  split
  · rfl
  · split
    · rfl
    · split
      · rfl
      · split
        · rfl
        · exact fireTables_fan (fanEventAt_fan _ _ s)

theorem setFeeder_fireTables (silent : Bool) (f : Feeder) (s : State) : fireTables (setFeeder silent f s) = fireTables s := by
  unfold setFeeder
  dsimp only
  split_ifs
  · rfl
  · exact (fireTables_fan (look_fan _)).trans rfl
  · exact (fireTables_fan (look_fan _)).trans rfl

theorem feederRequest_fireTables (code : Nat) (s : State) : fireTables (feederRequest code s).state = fireTables s := by
  unfold feederRequest
  split
  · rfl
  · exact setFeeder_fireTables _ _ s

theorem slotAnswer_fireTables (key : ServiceKey) (s : State) : fireTables (slotAnswer key s).state = fireTables s := by
  unfold slotAnswer
  split
  · rfl
  · split <;> rfl
  · split <;> rfl

theorem serviceRequest_fireTables (key : ServiceKey) (s : State) : fireTables (serviceRequest key s).state = fireTables s := by
  unfold serviceRequest
  split_ifs
  exacts [rfl, rfl, slotAnswer_fireTables key s, rfl, rfl, rfl, rfl, slotAnswer_fireTables key s]

/-! ## The owners of the requests -/

theorem take_keeps {kind tag : Nat} {owner : State → Answer} {s : State} (h : Keeps s (owner s).state) :
    Keeps s (take kind tag owner s) := h.trans (.beside rfl)

theorem take_beside {kind tag : Nat} {owner : State → Answer} {s : State} (h : fireTables (owner s).state = fireTables s) :
    Keeps s (take kind tag owner s) := take_keeps (.beside h)

theorem handToOwner_keeps (i : Instr) (s : State) : Keeps s (handToOwner i s) := by
  cases i
  case fetch tag count => exact take_beside (fetch_fireTables count s)
  case snapTake => exact take_beside (snapTake_fireTables s)
  case snapRead tag page => exact take_beside (snapRead_fireTables page s)
  case loadBegin => exact take_beside (loadBegin_fireTables s)
  case loadLoop | loadFeeder | loadHead | loadFan | loadZone | loadLine => exact take_beside (loadRecord_fireTables fun _ => rfl)
  case loadSlot tag r => exact take_beside (loadSlot_fireTables r s)
  case loadAbandon => exact take_beside (loadAbandon_fireTables s)
  case loadCommit => exact take_keeps (loadCommit_keeps s)
  case restartKeep => exact take_keeps (restartKeep_keeps s)
  case restartClear => exact take_keeps (restartClear_keeps s)
  case manualEnter => exact take_beside (manualEnter_fireTables s)
  case manualLeave => exact take_beside (manualLeave_fireTables s)
  case getHead | getZone | getFan | getGroup => exact take_beside (readRecord_fireTables _ _ _ _ s)
  case boost tag zones speed duration => exact take_keeps (boost_keeps zones speed duration s)
  case setLimits => exact take_keeps (setLimits_keeps _ _ _ _ _ _ s)
  case setHold tag zone preload => exact take_keeps (setHold_keeps zone preload s)
  case setFan tag n setpoint => exact take_beside (setFan_fireTables n setpoint s)
  case clearFault tag n => exact take_beside (clearFault_fireTables n s)
  case feeder tag code => exact take_beside (feederRequest_fireTables code s)
  case fireReset tag lines => exact take_keeps (fireReset_keeps lines s)
  case itemRead | itemWrite | groupRead | groupWrite => exact take_beside (serviceRequest_fireTables _ s)
  all_goals exact .beside rfl

/-! ## The host link -/

theorem takeFrame_keeps (f : Frame) (s : State) : Keeps s (takeFrame f s) := by
  unfold takeFrame
  split
  · exact .beside rfl
  · split
    · exact .beside rfl
    · split
      · exact .beside rfl
      · split
        · exact .beside rfl
        · exact handToOwner_keeps _ s

theorem holdFrame_keeps (f : Frame) (s : State) : Keeps s (holdFrame f s) := by
  unfold holdFrame
  split
  · exact takeFrame_keeps f s
  · exact .beside rfl
  · exact .beside rfl

theorem receiveByte_keeps (byte : Byte) (framingError : Bool) (s : State) : Keeps s (receiveByte byte framingError s) := by
  unfold receiveByte takeByte completeFrame
  split
  · split <;> exact .beside rfl
  · split <;> exact .beside rfl
  · split_ifs
    · exact .beside rfl
    · exact .beside rfl
    · exact (holdFrame_keeps _ _).after rfl
    · exact .beside rfl

theorem gapTimeout_fireTables (s : State) : fireTables (gapTimeout s) = fireTables s := by
  unfold gapTimeout
  split <;> rfl

theorem endReply_keeps (s : State) : Keeps s (endReply s) := by
  unfold endReply
  split
  · exact .refl s
  · dsimp only
    split
    · exact .beside rfl
    · exact (takeFrame_keeps _ _).after rfl

/-! ## Resets -/

theorem powerOn_keeps (straps : Straps) (s : State) : Keeps s (powerOn straps s) := by
  unfold powerOn
  split
  · exact endReset_keeps _ _ s
  · exact (cleared_keeps s).trans (.beside rfl)

theorem pinReset_keeps (s : State) : Keeps s (pinReset s) := by
  unfold pinReset
  split
  · exact (cleared_keeps s).trans (.beside rfl)
  · exact .beside rfl
  · exact .beside rfl

theorem pinResetEnd_keeps (straps : Straps) (s : State) : Keeps s (pinResetEnd straps s) := by
  unfold pinResetEnd
  split
  · exact .beside rfl
  · exact (endReset_keeps _ _ _).after rfl
  · exact .beside rfl

/-! ## Levels, commands and steps -/

theorem changeLine_line (level : PinLevel) (s : State) (l : FireLine) : (changeLine level s l).line = l.line := by
  unfold changeLine FireLine.change
  split
  · split
    · split <;> rfl
    · split_ifs <;> rfl
  · rfl

theorem tenth_keeps (s : State) : Keeps s (tenth s) := by
  have hnumbers : (s.lines.map FireLine.tenth).map FireLine.line = s.lines.map FireLine.line := by
    rw [List.map_map]
    refine List.map_congr_left fun l _ => ?_
    unfold Function.comp FireLine.tenth
    split <;> rfl
  exact (Keeps.relined hnumbers).trans (.beside rfl)

theorem powered_keeps {f : State → State} {s t : State} (hf : Keeps s (f s)) (h : powered s f = .next t) : Keeps s t := by
  rcases powered_next h with rfl | rfl
  · exact hf
  · exact .refl _

theorem next_keeps {s t u : State} (h : (.next u : Host.Outcome State Fault Refusal) = .next t) (hu : Keeps s u) : Keeps s t := by
  cases h
  exact hu

/-- A request given as a command is taken as its owner takes it from a frame. -/
theorem request_keeps {i : Instr} {s t : State} (h : exec i s = .next t) (howner : exec i s = powered s (handToOwner i)) : Keeps s t :=
  powered_keeps (handToOwner_keeps i s) (howner.symm.trans h)

theorem exec_keeps (i : Instr) {s t : State} (h : exec i s = .next t) : Keeps s t := by
  cases i
  case powerOn straps => exact next_keeps h (powerOn_keeps straps s)
  case pinReset => exact next_keeps h (pinReset_keeps s)
  case pinResetEnd straps => exact next_keeps h (pinResetEnd_keeps straps s)
  case supplyLoss => exact next_keeps h ((cleared_keeps s).trans (.beside rfl))
  case hostByteReceived byte framingError => exact powered_keeps (receiveByte_keeps byte framingError s) h
  case interByteGapTimeout => exact powered_keeps (.beside (gapTimeout_fireTables s)) h
  case replySent => exact powered_keeps (endReply_keeps s) h
  case cycleBegin => exact powered_keeps (cycleBoundary_keeps s) h
  case pollSlotEnd reply => exact powered_keeps (pollEnd_keeps reply s) h
  case commandSlotEnd reply => exact powered_keeps (commandEnd_keeps reply s) h
  case serviceSlotEnd reply => exact powered_keeps (serviceEnd_keeps reply s) h
  case secondsTick => exact powered_keeps (secondsTick_keeps s) h
  case settleExpiry n => exact powered_keeps (.beside (fireTables_fan (settleExpired_fan n s))) h
  case damperTimerExpiry n => exact powered_keeps (.beside (fireTables_fan (fanEventAt_fan n _ s))) h
  case coastTimerExpiry n => exact powered_keeps (.beside (fireTables_fan (fanEventAt_fan n _ s))) h
  case holdExpiry n => exact powered_keeps (changeZone_keeps n holdExpired_undisturbed s) h
  case boostExpiry n => exact powered_keeps (boostTimeout_keeps n s) h
  case graceExpiry n => exact powered_keeps (modifyZone_keeps n graceExpired_undisturbed s) h
  case collectionExpiry => exact powered_keeps (.beside (lapseResult_fireTables s)) h
  case queueStall => exact powered_keeps (.beside (fireTables_fan (stall_fan s))) h
  case fireLineLevelChange line level => exact next_keeps h (.relined (map_modify (changeLine_line level s) s.lines))
  case fireLineAccepted line => exact powered_keeps (acceptLine_keeps line s) h
  case commitLevelLatch => exact powered_keeps (levelLatch_keeps s) h
  case restartProvisionalMake => exact powered_keeps (.beside (restartMake_fireTables s)) h
  case feedLevelChange level => exact next_keeps h (.beside rfl)
  case feedAccepted =>
    refine powered_keeps ?_ h
    unfold feedAccepted
    split
    · exact .refl s
    · exact .beside (setFeeder_fireTables _ _ s)
  all_goals exact request_keeps h rfl

/-- Every step keeps the law of the latch list, and that of the zones under it. -/
theorem step_keeps {s t : State} (h : step s = .next t) : Keeps s t := by
  unfold step at h
  split at h
  · exact (powered_keeps (tenth_keeps _) h).after rfl
  · exact (exec_keeps _ h).after rfl

/-! ## The statements -/

/-- Settles O56: a latch takes a line that is not latched, and everything else keeps the list or shortens it. -/
theorem latchListHoldsEachLineOnce : Obligations.LatchListHoldsEachLineOnce := fun _ _ hs hstep => (step_keeps hstep).1 hs

/-- Settles O57: the tables stay those of the mode, and under them a latch, a FIRE_RESET and a RESTART leave each zone as the latch list
governs it. -/
theorem zonesFollowTheLatchList : Obligations.ZonesFollowTheLatchList := by
  intro s t ⟨htables, hfires⟩ hstep
  have hkept : t.tablesOk := ZoneEvaluation.tablesFollowTheMode s t htables hstep
  obtain ⟨hactive, -⟩ := htables
  exact ⟨hkept, ((step_keeps hstep).2 ⟨hactive, hfires⟩).2⟩

end Sys2Proof.FireLines
end

