-- ==== Sys2Proof/Proofs/ItemService.lean ====
section
/-! PROOFS. The service requests, SERVICE_CANCEL and the expiry of the collection timer (R154 to R158, R162 to R164). -/

namespace Sys2Proof.ItemService

open Sys2Proof.Machine Sys2Proof.Claims Sys2Proof.BayLoop Sys2Proof.ZoneEvaluation

/-! ## What the tests ask -/

theorem writes_iff (op : Operation) : op.writes = true ↔ op = .itemWrite ∨ op = .groupWrite := by cases op <;> decide

theorem isGroup_iff (op : Operation) : op.isGroup = true ↔ op = .groupRead ∨ op = .groupWrite := by cases op <;> decide

theorem isGroup_false_iff (op : Operation) : op.isGroup = false ↔ ¬ (op = .groupRead ∨ op = .groupWrite) := by
  rw [← isGroup_iff, Bool.not_eq_true]

theorem anyLatch_iff (s : State) : s.anyLatch = true ↔ s.latches ≠ [] := by simp [State.anyLatch]

/-- A group is 0 to 7, an address 1 to 63 (R156, test 1). -/
theorem targetOk_iff (key : ServiceKey) : key.targetOk = true ↔
    if key.op = .groupRead ∨ key.op = .groupWrite then key.target ≤ 7 else 1 ≤ key.target ∧ key.target ≤ 63 := by
  unfold ServiceKey.targetOk
  simp only [isGroup_iff]
  split
  · exact within_iff.trans (and_iff_right (Nat.zero_le _))
  · exact within_iff

theorem groupMembers_eq (s : State) (group : Nat) :
    s.groupMembers group = s.channels.filter fun k => k.provisional = false ∧ k.record.groups.getLsbD group = true :=
  List.filter_congr fun k _ => by simp

theorem membersOf_eq (s : State) (key : ServiceKey) : s.membersOf key =
    if key.op = .groupRead ∨ key.op = .groupWrite then
      (s.channels.filter fun k => k.provisional = false ∧ k.record.groups.getLsbD key.target = true).map
        fun k => ⟨k.record.address, some k.record.channel⟩
    else [⟨key.target, none⟩] := by
  unfold State.membersOf
  simp only [isGroup_iff, groupMembers_eq]
  rfl

/-- The addresses of R156's tests 5 and 6. -/
theorem reachable_iff (s : State) (address : Nat) : s.reachable address = true ↔
    if s.mode = .blank ∨ s.mode = .loading then ∃ d ∈ s.loop.discovered, d.address = address
    else (∃ h ∈ s.heads, h.record.address = address) ∨ ∃ k ∈ s.channels, k.provisional = false ∧ k.record.address = address := by
  unfold State.reachable
  simp only [failsafe_iff]
  split
  · exact hasKey_iff
  · simp

/-! ## The slot's answer -/

section
variable {key k : ServiceKey} {ms : List Member} {a : Nat} {f : Bool} {r : List ResultEntry} {x : Timer} {s : State}

theorem slotAnswer_idle (h : s.slot = .idle) : slotAnswer key s =
    ⟨{ s with slot := .working key (s.membersOf key) 0 false [] }, .deferred, .progress 0 (s.membersOf key).length⟩ := by
  rw [slotAnswer, h]

theorem slotAnswer_follows (h : s.slot = .working key ms a f r) :
    slotAnswer key s = ⟨s, .deferred, .progress r.length ms.length⟩ := by
  rw [slotAnswer, h]
  exact if_pos rfl

theorem slotAnswer_collects (h : s.slot = .ready key ms r x) :
    slotAnswer key s = .ok { s with slot := .idle } (.result key (collected ms r)) := by
  rw [slotAnswer, h]
  exact if_pos rfl

theorem slotAnswer_working (h : s.slot = .working k ms a f r) (hk : s.slot.key ≠ some key) :
    slotAnswer key s = .refuse s .busy (.slot ⟨false, k.op, k.target, r.length, ms.length⟩) := by
  rw [h] at hk
  rw [slotAnswer, h]
  exact if_neg fun he => hk (congrArg some he)

theorem slotAnswer_ready (h : s.slot = .ready k ms r x) (hk : s.slot.key ≠ some key) :
    slotAnswer key s = .refuse s .busy (.slot ⟨true, k.op, k.target, r.length, ms.length⟩) := by
  rw [h] at hk
  rw [slotAnswer, h]
  exact if_neg fun he => hk (congrArg some he)

end

/-! ## The tests of a request, in order (R156) -/

/-- The target names something the operation may be done on (R156, tests 4 to 6). -/
def Admitted (key : ServiceKey) (s : State) : Prop :=
  (key.op.isGroup = true → s.failsafe = false ∧ s.groupMembers key.target ≠ [])
  ∧ (key.op.isGroup = false → s.reachable key.target = true)

section
variable {key : ServiceKey} {s : State}

theorem serviceRequest_badTarget (h : key.targetOk = false) : serviceRequest key s = .badField s 1 := if_pos h

theorem serviceRequest_badItem (ht : key.targetOk = true) (hw : key.op.writes = true) (hi : key.item ≤ 7) :
    serviceRequest key s = .badField s 2 := by
  rw [serviceRequest, if_neg (ne_false_of_eq_true ht), if_pos ⟨hw, hi⟩]

variable (ht : key.targetOk = true) (hi : key.op.writes = true → 8 ≤ key.item)
include ht hi

/-- Past the two tests of its fields a request meets the slot's key, then the tests of its target, of fire and of the slot. -/
theorem serviceRequest_fields : serviceRequest key s =
    if s.slot.key = some key then slotAnswer key s
    else if key.op.isGroup = true ∧ s.failsafe = true then .refuse s .wrongMode
    else if key.op.isGroup = false ∧ s.reachable key.target = false then .refuse s .notFound
    else if key.op.isGroup = true ∧ s.groupMembers key.target = [] then .refuse s .notFound
    else if key.op.writes = true ∧ s.anyLatch = true then .refuse s .refusedFire
    else slotAnswer key s := by
  rw [serviceRequest, if_neg (ne_false_of_eq_true ht), if_neg fun ⟨hw, hlow⟩ => absurd (hi hw) (Nat.not_le.mpr (Nat.lt_succ_of_le hlow))]

theorem serviceRequest_repeat (hk : s.slot.key = some key) : serviceRequest key s = slotAnswer key s := by
  rw [serviceRequest_fields ht hi, if_pos hk]

variable (hk : s.slot.key ≠ some key)
include hk

theorem serviceRequest_wrongMode (hg : key.op.isGroup = true) (hf : s.failsafe = true) :
    serviceRequest key s = .refuse s .wrongMode := by
  rw [serviceRequest_fields ht hi, if_neg hk, if_pos ⟨hg, hf⟩]

theorem serviceRequest_unreachable (hg : key.op.isGroup = false) (hr : s.reachable key.target = false) :
    serviceRequest key s = .refuse s .notFound := by
  simp only [serviceRequest_fields ht hi, if_neg hk, hg, hr, Bool.false_eq_true, false_and, and_self, if_false, if_true]

theorem serviceRequest_memberless (hg : key.op.isGroup = true) (hf : s.failsafe = false) (hm : s.groupMembers key.target = []) :
    serviceRequest key s = .refuse s .notFound := by
  simp only [serviceRequest_fields ht hi, if_neg hk, hg, hf, hm, Bool.false_eq_true, Bool.true_eq_false, false_and, and_false,
    and_self, if_false, if_true]

variable (ha : Admitted key s)
include ha

theorem serviceRequest_admitted : serviceRequest key s =
    if key.op.writes = true ∧ s.anyLatch = true then .refuse s .refusedFire else slotAnswer key s := by
  obtain ⟨hgroup, hitem⟩ := ha
  rw [serviceRequest_fields ht hi, if_neg hk]
  cases hg : key.op.isGroup with
  | true =>
    obtain ⟨hf, hm⟩ := hgroup hg
    simp only [hf, hm, Bool.false_eq_true, Bool.true_eq_false, false_and, and_false, if_false]
  | false => simp only [hitem hg, Bool.false_eq_true, Bool.true_eq_false, false_and, and_false, if_false]

theorem serviceRequest_fire (hw : key.op.writes = true) (hl : s.anyLatch = true) :
    serviceRequest key s = .refuse s .refusedFire := by
  rw [serviceRequest_admitted ht hi hk ha, if_pos ⟨hw, hl⟩]

theorem serviceRequest_passes (hl : key.op.writes = true → s.anyLatch = false) : serviceRequest key s = slotAnswer key s := by
  rw [serviceRequest_admitted ht hi hk ha, if_neg fun ⟨hw, hany⟩ => ne_false_of_eq_true hany (hl hw)]

end

/-! ## The end of an operation -/

section
variable {k : ServiceKey} {ms : List Member} {a : Nat} {f : Bool} {r : List ResultEntry} {x : Timer} {s : State}

theorem serviceCancel_idle (h : s.slot = .idle) : serviceCancel s = ⟨s, .ok, .cancelled none⟩ := by
  have hsame : { s with slot := .idle } = s := by rw [← h]
  rw [serviceCancel, hsame, h]
  rfl

theorem serviceCancel_view {v : SlotView} (h : s.slot.view = some v) :
    serviceCancel s = ⟨{ s with slot := .idle }, .ok, .cancelled (some v)⟩ := by
  rw [serviceCancel, h]
  rfl

theorem lapseResult_idle (h : s.slot = .idle) : lapseResult s = s := by rw [lapseResult, h]

theorem lapseResult_working (h : s.slot = .working k ms a f r) : lapseResult s = s := by rw [lapseResult, h]

theorem lapseResult_ready (h : s.slot = .ready k ms r x) : lapseResult s =
    if x.due then noticed (.remoteLapsed k.target k.op .collection) { s with slot := .idle } else s := by
  rw [lapseResult, h]
  rfl

end

/-! ## The statement -/

/-- Settles O37: test after test of `serviceRequest` and then `slotAnswer`, by the slot; `serviceCancel` and `lapseResult` by the slot. -/
theorem serviceRequestsAreTestedInOrder : Obligations.ServiceRequestsAreTestedInOrder := by
  intro tag target item value op s hp c code group writes key unloaded inRange members known
  have answers {t : State} {status : Status} {body : ReplyBody} (h : serviceRequest key s = ⟨t, status, body⟩) :
      exec c s = .next (replying code tag status body t) := by
    cases op with
    | itemRead => exact (exec_itemRead tag target item s).trans (powered_answer hp h)
    | itemWrite => exact (exec_itemWrite tag target item value s).trans (powered_answer hp h)
    | groupRead => exact (exec_groupRead tag target item s).trans (powered_answer hp h)
    | groupWrite => exact (exec_groupWrite tag target item value s).trans (powered_answer hp h)
  have cancels {t : State} {body : ReplyBody} (h : serviceCancel s = ⟨t, .ok, body⟩) :
      exec (.serviceCancel tag) s = .next (replying 0x44 tag .ok body t) :=
    (exec_serviceCancel tag s).trans (powered_answer hp h)
  have expires {t : State} (h : lapseResult s = t) : exec .collectionExpiry s = .next t := by
    rw [exec_collectionExpiry, powered_running hp, h]
  have hrange : key.targetOk = true ↔ inRange := targetOk_iff key
  have hwrites : key.op.writes = true ↔ writes := writes_iff op
  have hgroup : key.op.isGroup = true ↔ group := isGroup_iff op
  have hitem : key.op.isGroup = false ↔ ¬ group := isGroup_false_iff op
  have hunloaded : s.failsafe = true ↔ unloaded := failsafe_iff s
  have hmembers : s.groupMembers target = members := groupMembers_eq s target
  have hknown : s.reachable target = true ↔ known := reachable_iff s target
  refine ⟨fun h => answers (serviceRequest_badTarget (Bool.eq_false_iff.mpr (mt hrange.mp h))),
    fun h hw hi => answers (serviceRequest_badItem (hrange.mpr h) (hwrites.mpr hw) hi), fun h hi => ?_,
    fun hidle => ⟨cancels (serviceCancel_idle hidle), expires (lapseResult_idle hidle)⟩,
    fun k ms a f r hslot => ⟨cancels (serviceCancel_view (by rw [hslot]; rfl)), expires (lapseResult_working hslot)⟩,
    fun k ms r x hslot => ⟨cancels (serviceCancel_view (by rw [hslot]; rfl)),
      fun hdue => expires ((lapseResult_ready hslot).trans (if_pos hdue)),
      fun hdue => expires ((lapseResult_ready hslot).trans (if_neg (ne_true_of_eq_false hdue)))⟩⟩
  have ht := hrange.mpr h
  have hfield (hw : key.op.writes = true) : 8 ≤ key.item := hi (hwrites.mp hw)
  refine ⟨fun ms a f r hslot => answers ?_, fun ms r x hslot => answers ?_, fun hkey =>
    ⟨fun hg hu => answers (serviceRequest_wrongMode ht hfield hkey (hgroup.mpr hg) (hunloaded.mpr hu)),
      fun hg hn => answers (serviceRequest_unreachable ht hfield hkey (hitem.mpr hg) (Bool.eq_false_iff.mpr (mt hknown.mp hn))),
      fun hg hu hm => answers (serviceRequest_memberless ht hfield hkey (hgroup.mpr hg) (Bool.eq_false_iff.mpr (mt hunloaded.mp hu))
        (hmembers.trans hm)),
      fun hloaded hfound => ?_⟩⟩
  · exact (serviceRequest_repeat ht hfield (by rw [hslot]; rfl)).trans (slotAnswer_follows hslot)
  · exact (serviceRequest_repeat ht hfield (by rw [hslot]; rfl)).trans (slotAnswer_collects hslot)
  have hadmitted : Admitted key s := by
    refine ⟨fun hg => ?_, fun hg => hknown.mpr (hfound (hitem.mp hg))⟩
    obtain ⟨hu, hm⟩ := hloaded (hgroup.mp hg)
    exact ⟨Bool.eq_false_iff.mpr (mt hunloaded.mp hu), hmembers ▸ hm⟩
  refine ⟨fun hw hl => answers (serviceRequest_fire ht hfield hkey hadmitted (hwrites.mpr hw) ((anyLatch_iff s).mpr hl)), fun hl => ?_⟩
  have hpasses : serviceRequest key s = slotAnswer key s := serviceRequest_passes ht hfield hkey hadmitted fun hw =>
    Bool.eq_false_iff.mpr fun hany => (anyLatch_iff s).mp hany (hl (hwrites.mp hw))
  refine ⟨fun k ms a f r hslot => answers (hpasses.trans (slotAnswer_working hslot hkey)),
    fun k ms r x hslot => answers (hpasses.trans (slotAnswer_ready hslot hkey)), fun hidle => ?_⟩
  intro ms
  have hms : s.membersOf key = ms := membersOf_eq s key
  rw [← hms]
  exact answers (hpasses.trans (slotAnswer_idle hidle))

end Sys2Proof.ItemService
end

