-- ==== Sys2Proof/Proofs/ConfigurationLoad.lean ====
section
/-! PROOFS. Loading a configuration: LOAD_BEGIN and LOAD_ABANDON, the records staged between them, a refused LOAD_COMMIT, and the values in
force of what was staged (R170 to R177). -/

namespace Sys2Proof.ConfigurationLoad

open Sys2Proof.Machine Sys2Proof.Claims Sys2Proof.BayLoop Sys2Proof.ZoneEvaluation Sys2Proof.FanChannels Sys2Proof.ItemService

/-! ## The staging tables (R170, R174) -/

section
variable {s : State}

theorem loadBegin_blank (h : s.mode = .blank) : loadBegin s =
    .ok (noticed (.mode .loading .blank) { s with mode := .loading, staging := some .empty }) .none := by
  rw [loadBegin, h]
  exact congrArg (Answer.ok · .none) (raiseMode_to rfl (by decide))

theorem loadBegin_elsewhere (h : s.mode ≠ .blank) : loadBegin s = .refuse s .wrongMode := by
  unfold loadBegin
  split
  next hm => exact absurd hm h
  · rfl

theorem loadAbandon_loading (h : s.mode = .loading) : loadAbandon s =
    .ok (noticed (.mode .blank .loading) { s with mode := .blank, staging := none }) .none := by
  rw [loadAbandon, h]
  exact congrArg (Answer.ok · .none) (raiseMode_to rfl (by decide))

theorem loadAbandon_elsewhere (h : s.mode ≠ .loading) : loadAbandon s = .refuse s .wrongMode := by
  unfold loadAbandon
  split
  next hm => exact absurd hm h
  · rfl

end

/-- Settles O17: what `loadBegin` and `loadAbandon` answer in their own mode and in every other. -/
theorem stagingBeginsAndIsAbandoned : Obligations.StagingBeginsAndIsAbandoned := fun tag s hp =>
  ⟨fun h => (exec_loadBegin tag s).trans (powered_answer hp (loadBegin_blank h)),
    fun h => (exec_loadBegin tag s).trans (powered_answer hp (loadBegin_elsewhere h)),
    fun h => (exec_loadAbandon tag s).trans (powered_answer hp (loadAbandon_loading h)),
    fun h => (exec_loadAbandon tag s).trans (powered_answer hp (loadAbandon_elsewhere h))⟩

/-! ## The checks of a record (R173) -/

theorem required_iff {α : Type} {check : α → Bool} {o : Option α} :
    required check o = true ↔ ∃ a, o = some a ∧ check a = true := by cases o <;> simp [required]

theorem optional_iff {α : Type} {check : α → Bool} {o : Option α} :
    Machine.optional check o = true ↔ ∀ a, o = some a → check a = true := by cases o <;> simp [Machine.optional]

theorem percent_iff {n : Nat} : percent n = true ↔ n ≤ 100 := decide_eq_true_iff

theorem gasSet_iff {b : Byte} : gasSet b = true ↔ 1 ≤ b.toNat ∧ b.toNat ≤ 3 := within_iff

theorem numbers_iff {lo hi most : Nat} {l : List Nat} :
    numbers lo hi most l = true ↔ lo ≤ l.length ∧ l.length ≤ hi ∧ (∀ n ∈ l, n ≤ most) ∧ l.Nodup := by
  simp only [numbers, Bool.and_eq_true, within_iff, List.all_eq_true, decide_eq_true_eq, noDups_iff, and_assoc]

theorem periodOf_isSome : ∀ {n : Nat}, (periodOf n).isSome = true ↔ n ≤ 2
  | 0 | 1 | 2 => by decide
  | n + 3 => iff_of_false Bool.false_ne_true (by omega)

theorem triggerOf_isSome : ∀ {n : Nat}, (triggerOf n).isSome = true ↔ n ≤ 5
  | 0 | 1 | 2 | 3 | 4 | 5 => by decide
  | n + 6 => iff_of_false Bool.false_ne_true (by omega)

theorem noChecks_pass : (∀ p ∈ ([] : List (Nat × Bool)), p.2 = true) ↔ True := iff_of_true nofun trivial

theorem loopChecks_pass (r : LoadLoop) : (∀ p ∈ loopChecks r, p.2 = true) ↔
    (∀ p, r.period = some p → p ≤ 2) ∧ ∀ m, r.missLimit = some m → 2 ≤ m ∧ m ≤ 15 := by
  simp only [loopChecks, List.forall_mem_cons, noChecks_pass, and_true, optional_iff, periodOf_isSome, within_iff]

theorem feederChecks_pass (r : LoadFeeder) : (∀ p ∈ feederChecks r, p.2 = true) ↔
    (∀ b, r.budget = some b → 1 ≤ b ∧ b ≤ 32) ∧ ∀ b, r.reduced = some b → b ≤ 32 := by
  simp only [feederChecks, List.forall_mem_cons, noChecks_pass, and_true, optional_iff, within_iff, Nat.zero_le, true_and]

theorem lineChecks_pass (r : LoadLine) : (∀ p ∈ lineChecks r, p.2 = true) ↔
    r.line ≤ 7 ∧ (∃ t, r.trigger = some t ∧ t ≤ 5) ∧ (∀ d, r.debounce = some d → 1 ≤ d ∧ d ≤ 25)
      ∧ ∀ v, r.speed = some v → 1 ≤ v ∧ v ≤ 100 := by
  simp only [lineChecks, List.forall_mem_cons, noChecks_pass, and_true, required_iff, optional_iff, triggerOf_isSome,
    within_iff, Nat.zero_le, true_and]

theorem headChecks_pass (r : LoadHead) : (∀ p ∈ headChecks r, p.2 = true) ↔
    r.head ≤ 39 ∧ (∃ a, r.address = some a ∧ 1 ≤ a ∧ a ≤ 63) ∧ (∃ g, r.gases = some g ∧ 1 ≤ g.toNat ∧ g.toNat ≤ 3)
      ∧ ∃ l, r.zones = some l ∧ 1 ≤ l.length ∧ l.length ≤ 2 ∧ (∀ z ∈ l, z ≤ 15) ∧ l.Nodup := by
  simp only [headChecks, List.forall_mem_cons, noChecks_pass, and_true, required_iff, gasSet_iff, numbers_iff, within_iff, Nat.zero_le,
    true_and]

theorem fanChecks_pass (r : LoadFan) : (∀ p ∈ fanChecks r, p.2 = true) ↔
    r.channel ≤ 23 ∧ (∃ a, r.address = some a ∧ 1 ≤ a ∧ a ≤ 63) ∧ (∀ c, r.cost = some c → 1 ≤ c ∧ c ≤ 16)
      ∧ (∀ n, r.settle = some n → 1 ≤ n ∧ n ≤ 30) ∧ (∀ n, r.damperTimeout = some n → 10 ≤ n ∧ n ≤ 120)
      ∧ (∀ n, r.coastTimeout = some n → 5 ≤ n ∧ n ≤ 120) ∧ (∀ v, r.min = some v → v ≤ 100) ∧ ∀ v, r.max = some v → v ≤ 100 := by
  simp only [fanChecks, List.forall_mem_cons, noChecks_pass, and_true, required_iff, optional_iff, percent_iff, within_iff, Nat.zero_le,
    true_and]

/-- The thresholds of a gas keep to its range, whatever the position of the first. -/
theorem limitChecks_pass (g : Gas) (position : Nat) (l : LoadLimits) : (∀ p ∈ limitChecks g position l, p.2 = true) ↔
    (∀ v, l.low1 = some v → v ≤ g.top) ∧ (∀ v, l.high1 = some v → v ≤ g.top) ∧ (∀ v, l.low2 = some v → v ≤ g.top)
      ∧ ∀ v, l.high2 = some v → v ≤ g.top := by
  simp only [limitChecks, List.forall_mem_cons, noChecks_pass, and_true, optional_iff, within_iff, Nat.zero_le, true_and]

theorem zoneChecks_pass (r : LoadZone) : (∀ p ∈ zoneChecks r, p.2 = true) ↔
    r.zone ≤ 15
      ∧ (∃ l, r.heads = some l ∧ 1 ≤ l.length ∧ l.length ≤ 8 ∧ (∀ h ∈ l, h ≤ 39) ∧ l.Nodup)
      ∧ (∃ l, r.fans = some l ∧ 1 ≤ l.length ∧ l.length ≤ 4 ∧ (∀ c ∈ l, c ≤ 23) ∧ l.Nodup)
      ∧ (∀ v, r.co.low1 = some v → v ≤ 1000) ∧ (∀ v, r.co.high1 = some v → v ≤ 1000)
      ∧ (∀ v, r.co.low2 = some v → v ≤ 1000) ∧ (∀ v, r.co.high2 = some v → v ≤ 1000)
      ∧ (∀ v, r.no2.low1 = some v → v ≤ 250) ∧ (∀ v, r.no2.high1 = some v → v ≤ 250)
      ∧ (∀ v, r.no2.low2 = some v → v ≤ 250) ∧ (∀ v, r.no2.high2 = some v → v ≤ 250)
      ∧ (∀ v, r.idle = some v → v ≤ 100) ∧ (∀ v, r.stage1 = some v → v ≤ 100) ∧ (∀ v, r.stage2 = some v → v ≤ 100)
      ∧ (∀ v, r.blind = some v → v ≤ 100) ∧ ∀ n, r.hold = some n → 10 ≤ n ∧ n ≤ 3600 := by
  simp only [zoneChecks, List.forall_mem_append, limitChecks_pass, List.forall_mem_cons, noChecks_pass, and_true, required_iff,
    optional_iff, numbers_iff, percent_iff, within_iff, Nat.zero_le, true_and, Gas.top, and_assoc]

/-! ## The records staged (R172) -/

/-- A LOAD_* request, told by what its checks accept: stored in LOADING, refused outside it, and answered BAD_FIELD in every mode for a
record they do not accept. -/
theorem loadRecord_answers {command : Instr} {kind tag : Nat} {owner : State → Answer} {checks : List (Nat × Bool)}
    {store : Staging → Answer} {good : Prop} {s : State} (hp : s.power = .running)
    (hexec : exec command s = powered s (take kind tag owner)) (howner : owner s = loadRecord checks store s)
    (hgood : (∀ p ∈ checks, p.2 = true) ↔ good) :
    (∀ st, s.mode = .loading → s.staging = some st → good →
      exec command s = .next (replying kind tag (store st).status (store st).body (store st).state))
    ∧ (s.mode ≠ .loading → good → exec command s = .next (replying kind tag .wrongMode .none s))
    ∧ (¬ good → ∃ p, exec command s = .next (replying kind tag .badField (.badField p) s)) := by
  rw [hexec, ← hgood]
  refine ⟨fun st hm hst h => powered_answer hp (howner.trans (loadRecord_staged store h hm hst)),
    fun hm h => powered_answer hp (howner.trans (loadRecord_wrongMode store h hm)), fun h => ?_⟩
  obtain ⟨p, hbad⟩ := loadRecord_badField (s := s) store h
  exact ⟨p, powered_answer hp (howner.trans hbad)⟩

/-- Settles O18: each of the three requests is a `loadRecord`, with the checks that its `_pass` lemma spells out. -/
theorem loopFeederAndLineRecordsAreStaged : Obligations.LoopFeederAndLineRecordsAreStaged := by
  intro tag loop feeder line s hp loopGood feederGood lineGood
  obtain ⟨loopStored, loopRefused, loopBad⟩ := loadRecord_answers hp (exec_loadLoop tag loop s) rfl (loopChecks_pass loop)
  obtain ⟨feederStored, feederRefused, feederBad⟩ :=
    loadRecord_answers hp (exec_loadFeeder tag feeder s) rfl (feederChecks_pass feeder)
  obtain ⟨lineStored, lineRefused, lineBad⟩ := loadRecord_answers hp (exec_loadLine tag line s) rfl (lineChecks_pass line)
  exact ⟨fun st hm hst => ⟨loopStored st hm hst, feederStored st hm hst, lineStored st hm hst⟩,
    fun hm => ⟨loopRefused hm, feederRefused hm, lineRefused hm⟩, loopBad, feederBad, lineBad⟩

/-- Settles O19: as for O18, with the checks of heads, channels and zones. -/
theorem headFanAndZoneRecordsAreStaged : Obligations.HeadFanAndZoneRecordsAreStaged := by
  intro tag head fan zone s hp co no2 speed zoneGood headGood fanGood
  obtain ⟨headStored, headRefused, headBad⟩ := loadRecord_answers hp (exec_loadHead tag head s) rfl (headChecks_pass head)
  obtain ⟨fanStored, fanRefused, fanBad⟩ := loadRecord_answers hp (exec_loadFan tag fan s) rfl (fanChecks_pass fan)
  obtain ⟨zoneStored, zoneRefused, zoneBad⟩ := loadRecord_answers hp (exec_loadZone tag zone s) rfl (zoneChecks_pass zone)
  exact ⟨fun st hm hst => ⟨headStored st hm hst, fanStored st hm hst⟩, fun hm => ⟨headRefused hm, fanRefused hm⟩, headBad, fanBad,
    zoneStored, zoneRefused, zoneBad⟩

/-! ## A refused LOAD_COMMIT (R175, R177) -/

section
variable {s : State}

theorem loadCommit_elsewhere (h : s.mode ≠ .loading) : loadCommit s = .refuse s .wrongMode := by
  unfold loadCommit
  split
  next hm _ => exact absurd hm h
  · rfl

variable {st : Staging} (hm : s.mode = .loading) (hst : s.staging = some st)
include hm hst

theorem loadCommit_latched (h : s.latches ≠ []) : loadCommit s = .refuse s .refusedFire (.latchedLines (s.latches.map Latch.line)) := by
  simp only [loadCommit, hm, hst, (anyLatch_iff s).mpr h, if_true]
  rfl

/-- The first violation is answered; where its detail is the free value, the counter of free values moves (log 13). -/
theorem loadCommit_invalid {v : Violation} {rest : List Violation} (h : s.latches = [])
    (hv : st.inForce.violations (Config.freeDetail s.draws) = v :: rest) : loadCommit s =
      .refuse { s with draws := if v.usesFree then s.draws + 1 else s.draws } .invalid (.violation v) := by
  have hany : s.anyLatch = false := by rw [State.anyLatch, h]; rfl
  simp only [loadCommit, hm, hst, hany, hv, Bool.false_eq_true, if_false, List.head?_cons]

end

/-- Settles O21: the three refusals of `loadCommit` in R175's order; only the last touches the state, in the counter of free values. -/
theorem commitRefusalsChangeNothing : Obligations.CommitRefusalsChangeNothing := fun tag s hp =>
  ⟨fun h => (exec_loadCommit tag s).trans (powered_answer hp (loadCommit_elsewhere h)), fun _ hm hst =>
    ⟨fun h => (exec_loadCommit tag s).trans (powered_answer hp (loadCommit_latched hm hst h)), fun _ _ h hv =>
      ⟨_, (exec_loadCommit tag s).trans (powered_answer hp (loadCommit_invalid hm hst h hv))⟩⟩⟩

/-! ## The values in force (R173, R176) -/

/-- The period in force is that of the code given, 1 s for none (R173). -/
theorem inForce_period {st : Staging} {code : Option Nat} (h : st.loop.bind LoadLoop.period = code) :
    st.inForce.period = (code.bind periodOf).getD .one := by rw [← h]; rfl

/-- Settles O24: the period by its code, and every other field as its record's equation of values in force gives it. -/
theorem leftOutFieldsTakeTheirDefaults : Obligations.LeftOutFieldsTakeTheirDefaults := by
  refine ⟨rfl, fun st => ⟨inForce_period, ?_, inForce_period, rfl, rfl, rfl, rfl, rfl, rfl, rfl, rfl⟩, fun _ _ _ _ => rfl,
    fun _ _ => rfl, fun _ _ _ _ _ _ _ _ _ => rfl, fun _ _ _ => rfl, fun _ _ _ _ _ _ _ _ _ _ _ _ _ _ _ _ => rfl,
    fun _ _ _ => rfl, fun _ _ _ => rfl, fun _ _ _ _ _ => ⟨rfl, rfl, rfl, rfl, rfl, rfl⟩⟩
  rintro (h | h) <;> exact inForce_period h

end Sys2Proof.ConfigurationLoad
end

