-- ==== Sys2Proof/Proofs/HostLinkReceiver.lean ====
section
/-! PROOFS. The receiver, the receive buffer, the taking of a frame and the link's own requests (R186 to R191, R193, R194). -/

namespace Sys2Proof.HostLink

open Sys2Proof.Machine Sys2Proof.Claims Sys2Proof.ZoneEvaluation

/-! ## Discards (R189) -/

/-- The counter and its flag after a discard, without a case split on the counter. -/
theorem link_discard_eq (l : Link) : l.discard =
    { l with
      discards := if l.discards < 255 then l.discards + 1 else l.discards
      saturated := l.saturated || decide (255 ≤ l.discards) } := by
  unfold Link.discard
  by_cases h : l.discards < 255
  · simp [h, Nat.not_le.mpr h]
  · simp [h, Nat.not_lt.mp h]

theorem discard_hunting (s : State) : discard (setRx .hunting s) = frameLost s :=
  congrArg (fun l => { s with link := l }) (link_discard_eq _)

/-- A discard outside a reception: the receiver stays as it is. -/
theorem discard_eq_frameLost (s : State) : discard s = { s with link := { (frameLost s).link with rx := s.link.rx } } :=
  congrArg (fun l => { s with link := l }) (link_discard_eq _)

/-! ## The receiver (R186) -/

section
variable {s : State} (b : Byte) (e : Bool)

theorem receiveByte_start (hrx : s.link.rx = .hunting) : receiveByte 0xC3 false s = setRx .awaitLength s := by
  simp only [receiveByte, hrx, and_self, if_true]

theorem receiveByte_noStart (hrx : s.link.rx = .hunting) (h : b ≠ 0xC3 ∨ e = true) : receiveByte b e s = s := by
  have hno : ¬ (b = 0xC3 ∧ e = false) := by
    rintro ⟨rfl, rfl⟩
    simp at h
  simp only [receiveByte, hrx, if_neg hno]

theorem receiveByte_length (hrx : s.link.rx = .awaitLength) (hlow : 2 ≤ b.toNat) (hhigh : b.toNat ≤ 250) :
    receiveByte b false s = setRx (.inFrame b.toNat []) s := by
  simp only [receiveByte, hrx, within_iff.mpr ⟨hlow, hhigh⟩, and_self, if_true]

theorem receiveByte_badLength (hrx : s.link.rx = .awaitLength) (h : b.toNat < 2 ∨ 250 < b.toNat ∨ e = true) :
    receiveByte b e s = frameLost s := by
  have hbad : ¬ (e = false ∧ within 2 250 b.toNat = true) := by
    rintro ⟨rfl, hwithin⟩
    have hrange := within_iff.mp hwithin
    simp only [Bool.false_eq_true, or_false] at h
    omega
  simp only [receiveByte, hrx, if_neg hbad, discard_hunting]

variable {n : Nat} {body : List Byte}

theorem receiveByte_framingError (hrx : s.link.rx = .inFrame n body) : receiveByte b true s = frameLost s := by
  simp only [receiveByte, hrx, if_true, discard_hunting]

theorem receiveByte_inFrame (hrx : s.link.rx = .inFrame n body) : receiveByte b false s = takeByte n (body ++ [b]) s := by
  simp only [receiveByte, hrx, Bool.false_eq_true, if_false]

theorem takeByte_partial {bytes : List Byte} (h : bytes.length < n + 2) : takeByte n bytes s = setRx (.inFrame n bytes) s := if_pos h

/-! ## The CRC and the receive buffer (R187, R188) -/

variable {bytes : List Byte} (hlength : bytes.length = n + 2)
include hlength

theorem takeByte_damaged (hcrc : bytes.drop n ≠ b2 (crc (BitVec.ofNat 8 n :: bytes.take n)).toNat) : takeByte n bytes s = frameLost s := by
  rw [takeByte, if_neg (Nat.not_lt.mpr hlength.ge), completeFrame]
  exact (if_neg (Ne.symm hcrc)).trans (discard_hunting s)

theorem takeByte_checked (hcrc : bytes.drop n = b2 (crc (BitVec.ofNat 8 n :: bytes.take n)).toNat) :
    takeByte n bytes s = holdFrame (frameFrom bytes n) (setRx .hunting s) := by
  rw [takeByte, if_neg (Nat.not_lt.mpr hlength.ge), completeFrame]
  exact if_pos hcrc.symm

end

section
variable {s : State} (f : Frame)

theorem holdFrame_free (hreply : s.link.reply = none) : holdFrame f s = takeFrame f s := by simp only [holdFrame, hreply]

theorem holdFrame_waits (hreply : s.link.reply ≠ none) (hwaiting : s.link.waiting = none) :
    holdFrame f s = { s with link := { s.link with waiting := some f } } := by
  obtain ⟨r, hr⟩ := Option.ne_none_iff_exists'.mp hreply
  simp only [holdFrame, hr, hwaiting]

theorem holdFrame_full (hreply : s.link.reply ≠ none) (hwaiting : s.link.waiting ≠ none) : holdFrame f s = discard s := by
  obtain ⟨r, hr⟩ := Option.ne_none_iff_exists'.mp hreply
  obtain ⟨g, hg⟩ := Option.ne_none_iff_exists'.mp hwaiting
  simp only [holdFrame, hr, hg]

end

/-- Settles O7: the receiver's states one by one. -/
theorem receiverTakesBytes : Obligations.ReceiverTakesBytes := by
  intro b e s hp
  have received {t : State} (h : receiveByte b e s = t) : exec (.hostByteReceived b e) s = .next t := by
    rw [exec_hostByteReceived, powered_running hp, h]
  refine ⟨?_, fun hrx h => received (receiveByte_noStart b e hrx h), ?_, fun hrx h => received (receiveByte_badLength b e hrx h),
    fun n body hrx => ⟨?_, ?_⟩⟩
  · rintro hrx rfl rfl
    exact received (receiveByte_start hrx)
  · rintro hrx hlow hhigh rfl
    exact received (receiveByte_length b hrx hlow hhigh)
  · rintro rfl
    exact received (receiveByte_framingError b hrx)
  · rintro rfl hshort
    exact received ((receiveByte_inFrame b hrx).trans (takeByte_partial (by simpa using hshort)))

/-- Settles O8: the CRC first, then the room of the receive buffer. -/
theorem completeFrameIsCheckedAndHeld : Obligations.CompleteFrameIsCheckedAndHeld := by
  intro b n body s hp hrx hlength
  have received {t : State} (h : takeByte n (body ++ [b]) s = t) : exec (.hostByteReceived b false) s = .next t := by
    rw [exec_hostByteReceived, powered_running hp, receiveByte_inFrame b hrx, h]
  refine ⟨fun hcrc => received (takeByte_damaged hlength hcrc), fun hcrc hreply => ⟨fun hwaiting => ?_, fun hwaiting => ?_⟩⟩
  · exact received ((takeByte_checked hlength hcrc).trans (holdFrame_waits _ hreply hwaiting))
  · exact received (((takeByte_checked hlength hcrc).trans (holdFrame_full _ hreply hwaiting)).trans (discard_hunting s))

/-! ## Taking a frame (R190) -/

/-- The request that a frame spells acts as a command of its own does: both are its owner's event. -/
theorem exec_requestOf {kind tag : Nat} {fields : List Byte} {i : Instr} (h : requestOf kind tag fields = some i) (s : State) :
    exec i s = powered s (handToOwner i) := by
  unfold requestOf at h
  split at h
  case h_17 =>
    split at h
    all_goals cases h
    all_goals rfl
  all_goals cases h
  all_goals rfl

section
variable {f : Frame} {s : State}

theorem takeFrame_reply (h : 0x80 ≤ f.kind) : takeFrame f s = discard s := if_pos h

variable (hkind : f.kind < 0x80)
include hkind

theorem takeFrame_unknown (h : layout f.kind = none) : takeFrame f s = replying f.kind f.tag .unknownKind .none s := by
  rw [takeFrame, if_neg (Nat.not_le.mpr hkind), h]
  rfl

variable {size : Nat} (hlayout : layout f.kind = some size)
include hlayout

theorem takeFrame_misshapen (h : f.fields.length ≠ size ∨ listsFit f.kind f.fields = false) :
    takeFrame f s = replying f.kind f.tag .badField (.badField 0) s := by
  rw [takeFrame, if_neg (Nat.not_le.mpr hkind), hlayout]
  exact if_pos h

variable (hsize : f.fields.length = size) (hfit : listsFit f.kind f.fields = true)
include hsize hfit

theorem takeFrame_shaped : takeFrame f s =
    ((requestOf f.kind f.tag f.fields).map (handToOwner · s)).getD (replying f.kind f.tag .badField (.badField 1) s) := by
  have hgood : ¬ (f.fields.length ≠ size ∨ listsFit f.kind f.fields = false) := by simp [hsize, hfit]
  rw [takeFrame, if_neg (Nat.not_le.mpr hkind), hlayout]
  refine (if_neg hgood).trans ?_
  cases requestOf f.kind f.tag f.fields <;> rfl

theorem takeFrame_noRequest (h : requestOf f.kind f.tag f.fields = none) :
    takeFrame f s = replying f.kind f.tag .badField (.badField 1) s := by rw [takeFrame_shaped hkind hlayout hsize hfit, h]; rfl

theorem takeFrame_request {i : Instr} (h : requestOf f.kind f.tag f.fields = some i) : takeFrame f s = handToOwner i s := by
  rw [takeFrame_shaped hkind hlayout hsize hfit, h]; rfl

end

/-- What R190 makes of a frame taken from a running state, for a command whose whole effect is the taking. -/
theorem taken_frame {c : Instr} {f : Frame} {s t : State} (ht : t.power = .running) (hc : exec c s = .next (takeFrame f t)) :
    (0x80 ≤ f.kind → exec c s = .next (discard t))
    ∧ (f.kind < 0x80 → layout f.kind = none → exec c s = .next (replying f.kind f.tag .unknownKind .none t))
    ∧ ∀ size, f.kind < 0x80 → layout f.kind = some size →
      (f.fields.length ≠ size ∨ listsFit f.kind f.fields = false →
        exec c s = .next (replying f.kind f.tag .badField (.badField 0) t))
      ∧ (f.fields.length = size → listsFit f.kind f.fields = true →
        (requestOf f.kind f.tag f.fields = none → exec c s = .next (replying f.kind f.tag .badField (.badField 1) t))
        ∧ ∀ i, requestOf f.kind f.tag f.fields = some i → exec c s = exec i t) := by
  refine ⟨fun h => ?_, fun hkind h => ?_, fun size hkind hlayout => ⟨fun h => ?_, fun hsize hfit => ⟨fun h => ?_, fun i h => ?_⟩⟩⟩
  · rw [hc, takeFrame_reply h]
  · rw [hc, takeFrame_unknown hkind h]
  · rw [hc, takeFrame_misshapen hkind hlayout h]
  · rw [hc, takeFrame_noRequest hkind hlayout hsize hfit h]
  · rw [hc, takeFrame_request hkind hlayout hsize hfit h, exec_requestOf h, powered_running ht]

/-- Settles O9: the last byte of a good frame that finds no reply in progress is the taking of that frame. -/
theorem takenFrameDoesItsRequest : Obligations.TakenFrameDoesItsRequest := by
  intro b n body s hp hrx hlength hcrc hreply
  have hc : exec (.hostByteReceived b false) s = .next (takeFrame (frameFrom (body ++ [b]) n) (setRx .hunting s)) := by
    rw [exec_hostByteReceived, powered_running hp, receiveByte_inFrame b hrx, takeByte_checked hlength hcrc,
      holdFrame_free (s := setRx .hunting s) _ hreply]
  obtain ⟨hdiscarded, hanswered⟩ := taken_frame (t := setRx .hunting s) hp hc
  exact ⟨fun h => (hdiscarded h).trans (congrArg _ (discard_hunting s)), hanswered⟩

/-! ## Gaps and the ends of replies (R186, R188, R191) -/

theorem gapTimeout_hunting {s : State} (h : s.link.rx = .hunting) : gapTimeout s = s := by simp only [gapTimeout, h]

theorem gapTimeout_receiving {s : State} (h : s.link.rx ≠ .hunting) : gapTimeout s = frameLost s := by
  rw [← discard_hunting]
  cases hrx : s.link.rx with
  | hunting => exact absurd hrx h
  | awaitLength => simp only [gapTimeout, hrx]
  | inFrame n body => simp only [gapTimeout, hrx]

theorem endReply_rest {s : State} (h : s.link.reply = none) : endReply s = s := by simp only [endReply, h]

/-- The state as a reply ends, before the frame held behind is taken. -/
theorem endReply_sent {s : State} (h : s.link.reply ≠ none) : endReply s =
    (s.link.waiting.map takeFrame).getD id { s with link := { s.link with reply := none, waiting := none } } := by
  obtain ⟨r, hr⟩ := Option.ne_none_iff_exists'.mp h
  rw [endReply, hr]
  cases s.link.waiting <;> rfl

theorem endReply_released {s : State} (h : s.link.reply ≠ none) (hw : s.link.waiting = none) :
    endReply s = { s with link := { s.link with reply := none } } := by
  simp only [endReply_sent h, hw, Option.map_none, Option.getD_none, id]

/-- Settles O10: the gap loses the frame in progress, the end of a reply is the taking of the frame held behind. -/
theorem gapsAndReplyEnds : Obligations.GapsAndReplyEnds := by
  intro s hp
  have gap {t : State} (h : gapTimeout s = t) : exec .interByteGapTimeout s = .next t := by
    rw [exec_interByteGapTimeout, powered_running hp, h]
  have sent {t : State} (h : endReply s = t) : exec .replySent s = .next t := by rw [exec_replySent, powered_running hp, h]
  refine ⟨fun h => gap (gapTimeout_hunting h), fun h => gap (gapTimeout_receiving h), fun h => sent (endReply_rest h),
    fun h hw => sent (endReply_released h hw), fun f h hw => ?_⟩
  obtain ⟨hdiscarded, hanswered⟩ := taken_frame (c := .replySent) (s := s) (f := f)
    (t := { s with link := { s.link with reply := none, waiting := none } }) hp (sent (by rw [endReply_sent h, hw]; rfl))
  exact ⟨fun hkind => (hdiscarded hkind).trans (congrArg _ (discard_eq_frameLost _)), hanswered⟩

/-! ## The link's own requests (R193, R194) -/

/-- Settles O12: IDENTIFY's answer, and the codes that begin its fields. -/
theorem identifyReportsThePart : Obligations.IdentifyReportsThePart :=
  ⟨fun tag s hp => (exec_identify tag s).trans (powered_answer hp rfl), fun _ _ _ => rfl⟩

theorem link_frames_eq (l : Link) : l.frames = if l.waiting = none then 1 else 2 := by
  unfold Link.frames
  cases l.waiting <;> rfl

/-- Settles O13: LINK_STATUS counts its own frame and the one held behind it. -/
theorem linkStatusReportsAndClears : Obligations.LinkStatusReportsAndClears := fun tag s hp =>
  (exec_linkStatus tag s).trans (powered_answer hp (by rw [linkStatus, link_frames_eq]; rfl))

end Sys2Proof.HostLink
end

