-- ==== Sys2Proof/Proofs/HostLinkFrames.lean ====
section
/-! PROOFS. Bytes and codes: the frames on the bay loop, the layouts of the requests, the frame of a reply, the notice record (R187, R191,
R207 to R209). -/

namespace Sys2Proof.HostLink

open Sys2Proof.Machine Sys2Proof.Claims

/-! ## Numbers in bytes -/

theorem b4_eq (n : Nat) :
    b4 n = [BitVec.ofNat 8 (n / 16777216), BitVec.ofNat 8 (n / 65536), BitVec.ofNat 8 (n / 256), BitVec.ofNat 8 n] := by
  rw [b4, b2, Nat.div_div_eq_div_mul]
  rfl

/-! ## Frames on the bay loop (R209) -/

theorem byteSum_closed (bytes : List Byte) : byteSum (closed bytes) = 0 := by
  rw [closed, byteSum, List.foldl_append]
  exact BitVec.add_right_neg (byteSum bytes)

/-- A frame of the part: its check byte, its length, and the bytes before the check byte. -/
theorem loopFrame_spelled (code address : Nat) (data : List Byte) :
    byteSum (loopFrame code address data) = 0 ∧ (loopFrame code address data).length = data.length + 3
      ∧ (loopFrame code address data).dropLast = b1 code ++ b1 address ++ data :=
  ⟨byteSum_closed _, by simp [loopFrame, closed, b1], List.dropLast_concat⟩

theorem cycleMark_spelled (m : CycleMark) : byteSum m.frame = 0 ∧ m.frame.length = 6
    ∧ m.frame.dropLast = b1 0x01 ++ b1 0x00 ++ b2 m.number.toNat ++ b1 m.period.code := loopFrame_spelled 0x01 0 _

theorem poll_spelled {p : Poll} {code : Nat} (h : p.frame = loopFrame code p.address []) :
    byteSum p.frame = 0 ∧ p.frame.length = 3 ∧ p.frame.dropLast = b1 code ++ b1 p.address := h ▸ loopFrame_spelled code p.address []

theorem command_spelled (x : CommandExchange) : byteSum x.frame = 0 ∧ x.frame.length = 6
    ∧ x.frame.dropLast = b1 0x05 ++ b1 x.address ++ b1 x.image.setpoint ++ b1 x.image.damper.code ++ b1 x.image.fallback.code :=
  loopFrame_spelled 0x05 x.address x.image.bytes

theorem attempt_read {a : Attempt} (h : a.value = none) : a.frame = loopFrame 0x06 a.address (b1 a.item) := by
  rw [Attempt.frame, h]

theorem attempt_write {a : Attempt} {v : Nat} (h : a.value = some v) : a.frame = loopFrame 0x07 a.address (b1 a.item ++ b2 v) := by
  rw [Attempt.frame, h]

theorem attempt_spelled (a : Attempt) : byteSum a.frame = 0 ∧ (a.frame.length = if a.value = none then 4 else 6)
    ∧ (a.value = none → a.frame.dropLast = b1 0x06 ++ b1 a.address ++ b1 a.item)
    ∧ ∀ v, a.value = some v → a.frame.dropLast = b1 0x07 ++ b1 a.address ++ b1 a.item ++ b2 v := by
  cases hv : a.value with
  | none =>
    obtain ⟨hsum, hlength, hbytes⟩ := loopFrame_spelled 0x06 a.address (b1 a.item)
    rw [attempt_read hv]
    exact ⟨hsum, hlength, fun _ => hbytes, nofun⟩
  | some n =>
    obtain ⟨hsum, hlength, hbytes⟩ := loopFrame_spelled 0x07 a.address (b1 a.item ++ b2 n)
    rw [attempt_write hv]
    exact ⟨hsum, hlength, nofun, by rintro _ ⟨rfl⟩; exact hbytes⟩

/-! ## Layouts of the requests (R208) -/

/-- The codes of the requests, by the number of their field bytes. -/
theorem layout_eq_some (code size : Nat) : layout code = some size ↔
    (size = 0 ∧ code ∈ [0x01, 0x02, 0x04, 0x06, 0x10, 0x18, 0x19, 0x1B, 0x1C, 0x20, 0x25, 0x44])
    ∨ (size = 1 ∧ code ∈ [0x03, 0x05, 0x1A, 0x21, 0x22, 0x23, 0x24, 0x34, 0x35, 0x36])
    ∨ (size = 2 ∧ code ∈ [0x33, 0x40, 0x42]) ∨ (size = 3 ∧ code = 0x32) ∨ (size = 4 ∧ code ∈ [0x11, 0x12, 0x41, 0x43])
    ∨ (size = 5 ∧ code = 0x30) ∨ (size = 6 ∧ code = 0x16) ∨ (size = 8 ∧ code = 0x13) ∨ (size = 10 ∧ code ∈ [0x17, 0x31])
    ∨ (size = 11 ∧ code = 0x14) ∨ (size = 35 ∧ code = 0x15) := by
  constructor
  · intro h
    unfold layout at h
    split at h
    all_goals cases h
    all_goals decide
  · rintro (⟨rfl, h⟩ | ⟨rfl, h⟩ | ⟨rfl, h⟩ | ⟨rfl, rfl⟩ | ⟨rfl, h⟩ | ⟨rfl, rfl⟩ | ⟨rfl, rfl⟩ | ⟨rfl, rfl⟩ | ⟨rfl, h⟩ | ⟨rfl, rfl⟩ | ⟨rfl, rfl⟩)
    · revert code; decide
    · revert code; decide
    · revert code; decide
    · rfl
    · revert code; decide
    · rfl
    · rfl
    · rfl
    · revert code; decide
    · rfl
    · rfl

theorem listsFit_eq_false (code : Nat) (fields : List Byte) : listsFit code fields = false ↔
    (code = 0x13 ∧ 2 < (fields.getD 5 0).toNat)
    ∨ (code = 0x15 ∧ (8 < (fields.getD 3 0).toNat ∨ 4 < (fields.getD 12 0).toNat)) := by
  by_cases hhead : code = 0x13
  · rw [listsFit, if_pos hhead, decide_eq_false_iff_not, Nat.not_le]
    simp [byteAt, hhead]
  · by_cases hzone : code = 0x15
    · rw [listsFit, if_neg hhead, if_pos hzone, Bool.and_eq_false_iff, decide_eq_false_iff_not, decide_eq_false_iff_not, Nat.not_le,
        Nat.not_le]
      simp [byteAt, hzone]
    · simp [listsFit, hhead, hzone]

/-! ## Replies and notices (R191, R208) -/

theorem tx_spelled (r : Reply) (l : Link) :
    let content := b1 (r.kind + 0x80) ++ b1 r.tag ++ b1 r.status.code ++ r.body.bytes
    let covered := b1 content.length ++ content
    (l.reply = some r → l.tx = 0xC3 :: covered ++ b2 (crc covered).toNat) ∧ (l.reply = none → l.tx = []) :=
  ⟨fun h => by rw [Link.tx, h]; rfl, fun h => by rw [Link.tx, h]; rfl⟩

theorem fields_length (body : NoticeBody) : body.fields.length = 6 := by
  cases body with
  | zoneState _ _ co no2 => cases co <;> cases no2 <;> rfl
  | _ => rfl

theorem notice_length (n : Notice) : n.bytes.length = 11 := by
  simp only [Notice.bytes, List.length_append, fields_length]
  rfl

end Sys2Proof.HostLink
end

