-- ==== Sys2Proof/Proofs/HostLinkFields.lean ====
section
/-! PROOFS. The fields of a request frame: numbers, presence masks and lists, and the LOAD_* records they spell (R207, R208). -/

namespace Sys2Proof.HostLink

open Sys2Proof.Machine Sys2Proof.Claims

/-! ## Numbers -/

theorem byte_toNat {n : Nat} (h : n < 256) : (BitVec.ofNat 8 n).toNat = n := Nat.mod_eq_of_lt h

/-- Two bytes read most significant first give the number that `b2` spells. -/
theorem word_toNat {n : Nat} (h : n < 65536) : (BitVec.ofNat 8 (n / 256)).toNat * 256 + (BitVec.ofNat 8 n).toNat = n := by
  rw [byte_toNat (by omega), BitVec.toNat_ofNat]
  omega

/-! ## Presence masks -/

theorem maskOf_cons (b : Bool) (bits : List Bool) : maskOf (b :: bits) = Nat.bit b (maskOf bits) :=
  (Nat.add_comm _ _).trans (Nat.bit_val b _).symm

theorem maskOf_lt (bits : List Bool) : maskOf bits < 2 ^ bits.length := by
  induction bits with
  | nil => exact Nat.one_pos
  | cons b bits ih =>
    have hb := b.toNat_le
    rw [maskOf, List.length_cons, Nat.pow_succ]
    omega

theorem testBit_maskOf (bits : List Bool) (i : Nat) : (maskOf bits).testBit i = bits.getD i false := by
  induction bits generalizing i with
  | nil => exact Nat.zero_testBit i
  | cons b bits ih =>
    rw [maskOf_cons]
    cases i with
    | zero => exact Nat.testBit_bit_zero b _
    | succ i => exact (Nat.testBit_bit_succ _ b _).trans (ih i)

/-- A field behind a mask of two bytes reads as the record has it: left out where its bit is clear, else at its value. -/
theorem given_masked {α : Type} {bits : List Bool} {i : Nat} {o : Option α} {value : α} (hvalue : ∀ v, o = some v → value = v)
    (hbit : bits.getD i false = o.isSome) (hbits : bits.length ≤ 16) :
    given ((BitVec.ofNat 8 (maskOf bits / 256)).toNat * 256 + (BitVec.ofNat 8 (maskOf bits)).toNat) i value = o := by
  have hmask : maskOf bits < 65536 := (maskOf_lt bits).trans_le (Nat.pow_le_pow_right (by decide) hbits)
  rw [word_toNat hmask, given, testBit_maskOf, hbit]
  cases o with
  | none => rfl
  | some v => exact congrArg some (hvalue v rfl)

/-! ## Fields -/

/-- The bytes of a one-byte field: its value where it is given, any byte where it is left out. -/
def ByteField (o : Option Nat) (bytes : List Byte) : Prop := ∃ x : Byte, bytes = [x] ∧ ∀ v, o = some v → x.toNat = v

/-- The byte of a set of eight. -/
def SetField (o : Option Byte) (bytes : List Byte) : Prop := ∃ x : Byte, bytes = [x] ∧ ∀ v, o = some v → x = v

/-- The bytes of a two-byte field. -/
def WordField (o : Option Nat) (bytes : List Byte) : Prop :=
  ∃ x y : Byte, bytes = [x, y] ∧ ∀ v, o = some v → x.toNat * 256 + y.toNat = v

/-- The bytes of a list with its room: a count and the entries, whatever stands behind them in the frame. -/
def ListField (room : Nat) (o : Option (List Nat)) (bytes : List Byte) : Prop :=
  ∃ (c : Byte) (entries : List Byte), bytes = c :: entries ∧ entries.length = room
    ∧ ∀ l, o = some l → ∀ rest, ((entries ++ rest).take c.toNat).map BitVec.toNat = l

theorem byteField_of {o : Option Nat} (h : ∀ v, o = some v → v < 256) (other : Byte) :
    ByteField o [match (generalizing := false) o with | some v => BitVec.ofNat 8 v | none => other] :=
  ⟨_, rfl, by rintro v rfl; exact byte_toNat (h v rfl)⟩

theorem setField_of (o : Option Byte) (other : Byte) : SetField o [o.getD other] := ⟨_, rfl, by rintro v rfl; rfl⟩

theorem wordField_of {o : Option Nat} (h : ∀ v, o = some v → v < 65536) (x y : Byte) :
    WordField o (match (generalizing := false) o with | some v => b2 v | none => [x, y]) := by
  cases o with
  | none => exact ⟨x, y, rfl, nofun⟩
  | some n => exact ⟨_, _, rfl, by rintro v ⟨rfl⟩; exact word_toNat (h n rfl)⟩

/-- The entries of a list come back, whatever stands behind them. -/
theorem entries_read {l : List Nat} {room : Nat} (hroom : l.length ≤ room) (hentries : ∀ v ∈ l, v < 256) (more rest : List Byte) :
    (((l.map (BitVec.ofNat 8) ++ more).take room ++ rest).take l.length).map BitVec.toNat = l := by
  have hlength : (l.map (BitVec.ofNat 8)).length = l.length := List.length_map _
  have hkept : (l.map (BitVec.ofNat 8) ++ more).take room = l.map (BitVec.ofNat 8) ++ more.take (room - l.length) := by
    rw [List.take_append, List.take_of_length_le (hlength.trans_le hroom), hlength]
  rw [hkept, List.append_assoc, List.take_left' hlength, List.map_map]
  exact (List.map_congr_left fun v hv => byte_toNat (hentries v hv)).trans (List.map_id l)

theorem listField_of {room i : Nat} {o : Option (List Nat)} {fill : List Byte} (h : ∀ l, o = some l → l.length ≤ room ∧ ∀ v ∈ l, v < 256)
    (hfill : 64 ≤ fill.length) (hroom : room ≤ 64) (hi : i < 64) :
    ListField room o (match (generalizing := false) o with
      | some l => (b1 l.length ++ l.map (BitVec.ofNat 8) ++ fill).take (room + 1)
      | none => ((fill ++ List.replicate 64 0).drop i).take (room + 1)) := by
  cases o with
  | none =>
    have hlength : (((fill ++ List.replicate 64 0).drop i).take (room + 1)).length = room + 1 := by
      simp only [List.length_take, List.length_drop, List.length_append, List.length_replicate]
      omega
    obtain ⟨c, entries, hbytes, hentries⟩ := List.length_eq_succ_iff.mp hlength
    exact ⟨c, entries, hbytes.symm, hentries, nofun⟩
  | some l =>
    obtain ⟨hl, hentries⟩ := h l rfl
    refine ⟨BitVec.ofNat 8 l.length, (l.map (BitVec.ofNat 8) ++ fill).take room, rfl, ?_, ?_⟩
    · rw [List.length_take, List.length_append]
      omega
    · rintro _ ⟨rfl⟩ rest
      rw [byte_toNat (by omega)]
      exact entries_read hl hentries fill rest

/-- A set of zones behind the two bytes of its number. -/
theorem zoneSet_read {zones : Option ZoneSet} {word : Nat} (h : ∀ n, zones.map BitVec.toNat = some n → word = n) :
    ∀ v, zones = some v → BitVec.ofNat 16 word = v := by
  rintro v rfl
  rw [h v.toNat rfl, BitVec.ofNat_toNat, BitVec.setWidth_eq]

theorem limits_ext {l : LoadLimits} {low1 high1 low2 high2 : Option Nat} (h₁ : low1 = l.low1) (h₂ : high1 = l.high1)
    (h₃ : low2 = l.low2) (h₄ : high2 = l.high2) : ⟨low1, high1, low2, high2⟩ = l := by
  rw [h₁, h₂, h₃, h₄]

/-! ## The LOAD_* records

Each reads back from the bytes of its fields, whatever stands in the places of those its mask leaves out. -/

section
variable {b₁ b₂ b₃ b₄ b₅ b₆ b₇ b₈ b₉ b₁₀ b₁₁ b₁₂ b₁₃ b₁₄ b₁₅ : List Byte}

theorem readLoadLoop_spelled {period missLimit : Option Nat} : ByteField period b₁ → ByteField missLimit b₂ →
    readLoadLoop (b2 (maskOf [period.isSome, missLimit.isSome]) ++ b₁ ++ b₂) = ⟨period, missLimit⟩ := by
  rintro ⟨_, rfl, h₁⟩ ⟨_, rfl, h₂⟩
  have hbits : 2 ≤ 16 := by decide
  exact congrArg₂ LoadLoop.mk (given_masked h₁ rfl hbits) (given_masked h₂ rfl hbits)

theorem readLoadFeeder_spelled {budget reduced : Option Nat} : ByteField budget b₁ → ByteField reduced b₂ →
    readLoadFeeder (b2 (maskOf [budget.isSome, reduced.isSome]) ++ b₁ ++ b₂) = ⟨budget, reduced⟩ := by
  rintro ⟨_, rfl, h₁⟩ ⟨_, rfl, h₂⟩
  have hbits : 2 ≤ 16 := by decide
  exact congrArg₂ LoadFeeder.mk (given_masked h₁ rfl hbits) (given_masked h₂ rfl hbits)

variable {n : Nat} (hn : n < 256)
include hn

theorem readLoadHead_spelled {address : Option Nat} {gases : Option Byte} {zones : Option (List Nat)} :
    ByteField address b₁ → SetField gases b₂ → ListField 2 zones b₃ →
    readLoadHead (b1 n ++ b2 (maskOf [address.isSome, gases.isSome, zones.isSome]) ++ b₁ ++ b₂ ++ b₃) =
      ⟨n, address, gases, zones⟩ := by
  rintro ⟨_, rfl, h₁⟩ ⟨_, rfl, h₂⟩ ⟨_, entries, rfl, hroom, h₃⟩
  match entries, hroom with
  | [_, _], _ =>
    have hbits : 3 ≤ 16 := by decide
    simp only [readLoadHead, LoadHead.mk.injEq]
    exact ⟨byte_toNat hn, given_masked h₁ rfl hbits, given_masked h₂ rfl hbits, given_masked (h₃ · · []) rfl hbits⟩

theorem readLoadFan_spelled {address : Option Nat} {groups : Option Byte} {cost settle damper coast low high : Option Nat} :
    ByteField address b₁ → SetField groups b₂ → ByteField cost b₃ → ByteField settle b₄ → ByteField damper b₅ → ByteField coast b₆ →
    ByteField low b₇ → ByteField high b₈ →
    readLoadFan (b1 n
        ++ b2 (maskOf [address.isSome, groups.isSome, cost.isSome, settle.isSome, damper.isSome, coast.isSome, low.isSome, high.isSome])
        ++ b₁ ++ b₂ ++ b₃ ++ b₄ ++ b₅ ++ b₆ ++ b₇ ++ b₈) =
      ⟨n, address, groups, cost, settle, damper, coast, low, high⟩ := by
  rintro ⟨_, rfl, h₁⟩ ⟨_, rfl, h₂⟩ ⟨_, rfl, h₃⟩ ⟨_, rfl, h₄⟩ ⟨_, rfl, h₅⟩ ⟨_, rfl, h₆⟩ ⟨_, rfl, h₇⟩ ⟨_, rfl, h₈⟩
  have hbits : 8 ≤ 16 := by decide
  simp only [readLoadFan, LoadFan.mk.injEq]
  exact ⟨byte_toNat hn, given_masked h₁ rfl hbits, given_masked h₂ rfl hbits, given_masked h₃ rfl hbits, given_masked h₄ rfl hbits,
    given_masked h₅ rfl hbits, given_masked h₆ rfl hbits, given_masked h₇ rfl hbits, given_masked h₈ rfl hbits⟩

theorem readLoadZone_spelled {heads fans : Option (List Nat)} {co no2 : LoadLimits} {idle stage1 stage2 blind hold : Option Nat} :
    ListField 8 heads b₁ → ListField 4 fans b₂ →
    WordField co.low1 b₃ → WordField co.high1 b₄ → WordField co.low2 b₅ → WordField co.high2 b₆ →
    ByteField no2.low1 b₇ → ByteField no2.high1 b₈ → ByteField no2.low2 b₉ → ByteField no2.high2 b₁₀ →
    ByteField idle b₁₁ → ByteField stage1 b₁₂ → ByteField stage2 b₁₃ → ByteField blind b₁₄ → WordField hold b₁₅ →
    readLoadZone (b1 n
        ++ b2 (maskOf [heads.isSome, fans.isSome, co.low1.isSome, co.high1.isSome, co.low2.isSome, co.high2.isSome, no2.low1.isSome,
            no2.high1.isSome, no2.low2.isSome, no2.high2.isSome, idle.isSome, stage1.isSome, stage2.isSome, blind.isSome, hold.isSome])
        ++ b₁ ++ b₂ ++ b₃ ++ b₄ ++ b₅ ++ b₆ ++ b₇ ++ b₈ ++ b₉ ++ b₁₀ ++ b₁₁ ++ b₁₂ ++ b₁₃ ++ b₁₄ ++ b₁₅) =
      ⟨n, heads, fans, co, no2, idle, stage1, stage2, blind, hold⟩ := by
  rintro ⟨_, heads', rfl, hheads, h₁⟩ ⟨_, fans', rfl, hfans, h₂⟩ ⟨_, _, rfl, h₃⟩ ⟨_, _, rfl, h₄⟩ ⟨_, _, rfl, h₅⟩ ⟨_, _, rfl, h₆⟩
    ⟨_, rfl, h₇⟩ ⟨_, rfl, h₈⟩ ⟨_, rfl, h₉⟩ ⟨_, rfl, h₁₀⟩ ⟨_, rfl, h₁₁⟩ ⟨_, rfl, h₁₂⟩ ⟨_, rfl, h₁₃⟩ ⟨_, rfl, h₁₄⟩ ⟨_, _, rfl, h₁₅⟩
  match heads', hheads, fans', hfans with
  | [_, _, _, _, _, _, _, _], _, [_, _, _, _], _ =>
    have hbits : 15 ≤ 16 := by decide
    simp only [b1, b2, List.cons_append, List.nil_append, readLoadZone, LoadZone.mk.injEq]
    exact ⟨byte_toNat hn, given_masked (h₁ · · _) rfl hbits, given_masked (h₂ · · _) rfl hbits,
      limits_ext (given_masked h₃ rfl hbits) (given_masked h₄ rfl hbits) (given_masked h₅ rfl hbits) (given_masked h₆ rfl hbits),
      limits_ext (given_masked h₇ rfl hbits) (given_masked h₈ rfl hbits) (given_masked h₉ rfl hbits) (given_masked h₁₀ rfl hbits),
      given_masked h₁₁ rfl hbits, given_masked h₁₂ rfl hbits, given_masked h₁₃ rfl hbits, given_masked h₁₄ rfl hbits,
      given_masked h₁₅ rfl hbits⟩

theorem readLoadSlot_spelled {kind divider phase : Option Nat} : ByteField kind b₁ → ByteField divider b₂ → ByteField phase b₃ →
    readLoadSlot (b1 n ++ b2 (maskOf [kind.isSome, divider.isSome, phase.isSome]) ++ b₁ ++ b₂ ++ b₃) = ⟨n, kind, divider, phase⟩ := by
  rintro ⟨_, rfl, h₁⟩ ⟨_, rfl, h₂⟩ ⟨_, rfl, h₃⟩
  have hbits : 3 ≤ 16 := by decide
  simp only [readLoadSlot, LoadSlot.mk.injEq]
  exact ⟨byte_toNat hn, given_masked h₁ rfl hbits, given_masked h₂ rfl hbits, given_masked h₃ rfl hbits⟩

theorem readLoadLine_spelled {trigger debounce speed : Option Nat} {extract isolate : Option ZoneSet} :
    ByteField trigger b₁ → ByteField debounce b₂ → WordField (extract.map BitVec.toNat) b₃ → WordField (isolate.map BitVec.toNat) b₄ →
    ByteField speed b₅ →
    readLoadLine (b1 n ++ b2 (maskOf [trigger.isSome, debounce.isSome, extract.isSome, isolate.isSome, speed.isSome])
        ++ b₁ ++ b₂ ++ b₃ ++ b₄ ++ b₅) = ⟨n, trigger, debounce, extract, isolate, speed⟩ := by
  rintro ⟨_, rfl, h₁⟩ ⟨_, rfl, h₂⟩ ⟨_, _, rfl, h₃⟩ ⟨_, _, rfl, h₄⟩ ⟨_, rfl, h₅⟩
  have hbits : 5 ≤ 16 := by decide
  simp only [readLoadLine, LoadLine.mk.injEq]
  exact ⟨byte_toNat hn, given_masked h₁ rfl hbits, given_masked h₂ rfl hbits, given_masked (zoneSet_read h₃) rfl hbits,
    given_masked (zoneSet_read h₄) rfl hbits, given_masked h₅ rfl hbits⟩

end

end Sys2Proof.HostLink
end

