-- ==== Sys2Proof/Proofs/HostLinkRequests.lean ====
section
/-! PROOFS. The requests that frames spell, and what every frame says (R187, R190, R191, R207 to R209). -/

namespace Sys2Proof.HostLink

open Sys2Proof.Machine Sys2Proof.Claims

/-! ## Requests without a presence mask -/

section
variable (tag : Nat)

theorem requestOf_byte {n : Nat} (hn : n < 256) :
    requestOf 0x03 tag [BitVec.ofNat 8 n] = some (.fetch tag n)
    ∧ requestOf 0x05 tag [BitVec.ofNat 8 n] = some (.snapRead tag n)
    ∧ requestOf 0x21 tag [BitVec.ofNat 8 n] = some (.getHead tag n)
    ∧ requestOf 0x22 tag [BitVec.ofNat 8 n] = some (.getZone tag n)
    ∧ requestOf 0x23 tag [BitVec.ofNat 8 n] = some (.getFan tag n)
    ∧ requestOf 0x24 tag [BitVec.ofNat 8 n] = some (.getGroup tag n)
    ∧ requestOf 0x34 tag [BitVec.ofNat 8 n] = some (.clearFault tag n)
    ∧ requestOf 0x35 tag [BitVec.ofNat 8 n] = some (.feeder tag n) := by
  have spells (request : Nat → Instr) : some (request (byteAt [BitVec.ofNat 8 n] 0)) = some (request n) :=
    congrArg (some ∘ request) (byte_toNat hn)
  exact ⟨spells _, spells _, spells _, spells _, spells _, spells _, spells _, spells _⟩

theorem requestOf_bytes {a c : Nat} (ha : a < 256) (hc : c < 256) :
    requestOf 0x33 tag [BitVec.ofNat 8 a, BitVec.ofNat 8 c] = some (.setFan tag a c)
    ∧ requestOf 0x40 tag [BitVec.ofNat 8 a, BitVec.ofNat 8 c] = some (.itemRead tag a c)
    ∧ requestOf 0x42 tag [BitVec.ofNat 8 a, BitVec.ofNat 8 c] = some (.groupRead tag a c) := by
  have spells (request : Nat → Nat → Instr) : let f := [BitVec.ofNat 8 a, BitVec.ofNat 8 c]
      some (request (byteAt f 0) (byteAt f 1)) = some (request a c) :=
    congrArg some (congrArg₂ request (byte_toNat ha) (byte_toNat hc))
  exact ⟨spells _, spells _, spells _⟩

theorem requestOf_setHold {a v : Nat} (ha : a < 256) (hv : v < 65536) :
    requestOf 0x32 tag (BitVec.ofNat 8 a :: b2 v) = some (.setHold tag a v) :=
  congrArg some (congrArg₂ (Instr.setHold tag) (byte_toNat ha) (word_toNat hv))

theorem requestOf_write {a c v : Nat} (ha : a < 256) (hc : c < 256) (hv : v < 65536) :
    requestOf 0x41 tag (BitVec.ofNat 8 a :: BitVec.ofNat 8 c :: b2 v) = some (.itemWrite tag a c v)
    ∧ requestOf 0x43 tag (BitVec.ofNat 8 a :: BitVec.ofNat 8 c :: b2 v) = some (.groupWrite tag a c v) := by
  have spells (request : Nat → Nat → Nat → Instr) : let f := BitVec.ofNat 8 a :: BitVec.ofNat 8 c :: b2 v
      some (request (byteAt f 0) (byteAt f 1) (wordAt f 2)) = some (request a c v) :=
    congrArg some (congr (congrArg₂ request (byte_toNat ha) (byte_toNat hc)) (word_toNat hv))
  exact ⟨spells _, spells _⟩

theorem requestOf_boost (zones : ZoneSet) {speed duration : Nat} (hs : speed < 256) (hd : duration < 65536) :
    requestOf 0x30 tag (b2 zones.toNat ++ b1 speed ++ b2 duration) = some (.boost tag zones speed duration) := by
  have hzones : BitVec.ofNat 16 (wordAt (b2 zones.toNat) 0) = zones :=
    zoneSet_read (zones := some zones) (by rintro _ ⟨rfl⟩; exact word_toNat zones.isLt) zones rfl
  exact congrArg some (congr (congrArg₂ (Instr.boost tag) hzones (byte_toNat hs)) (word_toNat hd))

theorem requestOf_setLimits {zone gas p q r t : Nat} (hz : zone < 256) (hg : gas < 256) (hp : p < 65536) (hq : q < 65536)
    (hr : r < 65536) (ht : t < 65536) :
    requestOf 0x31 tag (b1 zone ++ b1 gas ++ b2 p ++ b2 q ++ b2 r ++ b2 t) = some (.setLimits tag zone gas p q r t) :=
  congrArg some (congr (congr (congr (congr (congrArg₂ (Instr.setLimits tag) (byte_toNat hz) (byte_toNat hg)) (word_toNat hp))
    (word_toNat hq)) (word_toNat hr)) (word_toNat ht))

end

/-- Settles O11: the loop frames, the layouts, the requests, the reply frame and the notice record, each by its own lemma; the codes and
places that R208 lists are those of the definitions. -/
theorem framesSpellAndCheck : Obligations.FramesSpellAndCheck := by
  refine ⟨fun n => ⟨rfl, rfl, b4_eq n⟩, cycleMark_spelled, ?poll, command_spelled, attempt_spelled, layout_eq_some, listsFit_eq_false,
    ?crc, ?requests, tx_spelled, rfl, fun n => ⟨rfl, notice_length n⟩, ?notices⟩
  case poll =>
    rintro ⟨address, (_ | _) | _⟩
    all_goals exact poll_spelled rfl
  case crc => decide +kernel
  case requests =>
    intro tag
    refine ⟨rfl, rfl, rfl, rfl, rfl, rfl, rfl, rfl, rfl, rfl, rfl, rfl, rfl, rfl, fun _ => requestOf_byte tag, fun _ => rfl,
      fun _ _ => requestOf_bytes tag, fun _ _ => requestOf_setHold tag, fun _ _ _ => requestOf_write tag,
      fun zones _ _ => requestOf_boost tag zones, fun _ _ _ _ _ _ => requestOf_setLimits tag, ?_⟩
    intro n fill hn byte set word list one two many
    have hbyte {o : Option Nat} (h : one o) (i : Nat) : ByteField o (byte o i) := byteField_of h _
    have hset (o : Option Byte) (i : Nat) : SetField o (set o i) := setField_of o _
    have hword {o : Option Nat} (h : two o) (i : Nat) : WordField o (word o i) := wordField_of h _ _
    have hlist {room : Nat} {o : Option (List Nat)} (h : many room o) (hfill : 64 ≤ fill.length) (hroom : room ≤ 64) (i : Nat)
        (hi : i < 64) : ListField room o (list room o i) := listField_of h hfill hroom hi
    refine ⟨fun a b ha hb => ⟨?loop, ?feeder⟩, fun a g l ha hl hfill => ?head, fun a g c p d o lo hi ha hc hp hd ho hlo hhi => ?fan,
      fun h f a b c d e g i j p q r u w hh hf hfill ha hb hc hd he hg hi hj hp hq hr hu hw => ?zone,
      fun k d p hk hd hp => ?slot, fun t d x i v ht hd hv => ?line⟩
    case loop => exact congrArg (some ∘ Instr.loadLoop tag) (readLoadLoop_spelled (hbyte ha 0) (hbyte hb 1))
    case feeder => exact congrArg (some ∘ Instr.loadFeeder tag) (readLoadFeeder_spelled (hbyte ha 0) (hbyte hb 1))
    case head =>
      exact congrArg (some ∘ Instr.loadHead tag)
        (readLoadHead_spelled hn (hbyte ha 0) (hset g 1) (hlist hl hfill (by decide) 2 (by decide)))
    case fan =>
      exact congrArg (some ∘ Instr.loadFan tag) (readLoadFan_spelled hn (hbyte ha 0) (hset g 1) (hbyte hc 2) (hbyte hp 3) (hbyte hd 4)
        (hbyte ho 5) (hbyte hlo 6) (hbyte hhi 7))
    case zone =>
      exact congrArg (some ∘ Instr.loadZone tag) (readLoadZone_spelled (co := ⟨a, b, c, d⟩) (no2 := ⟨e, g, i, j⟩) hn
        (hlist hh hfill (by decide) 0 (by decide)) (hlist hf hfill (by decide) 9 (by decide))
        (hword ha 14) (hword hb 16) (hword hc 18) (hword hd 20) (hbyte he 22) (hbyte hg 23) (hbyte hi 24) (hbyte hj 25)
        (hbyte hp 26) (hbyte hq 27) (hbyte hr 28) (hbyte hu 29) (hword hw 30))
    case slot =>
      exact congrArg (some ∘ Instr.loadSlot tag) (readLoadSlot_spelled hn (hbyte hk 0) (hbyte hd 1) (hbyte hp 2))
    case line =>
      have hzones (z : Option ZoneSet) : two (z.map BitVec.toNat) := by
        cases z with
        | none => exact nofun
        | some z => rintro _ ⟨rfl⟩; exact z.isLt
      exact congrArg (some ∘ Instr.loadLine tag) (readLoadLine_spelled hn (hbyte ht 0) (hbyte hd 1) (hword (hzones x) 2)
        (hword (hzones i) 4) (hbyte hv 6))
  case notices =>
    intro a b c d o p u
    refine ⟨fun _ => rfl, fun _ _ => rfl, fun _ _ => rfl, fun _ _ => rfl, fun _ _ => rfl, fun _ => rfl, fun _ _ => rfl, fun _ => rfl, rfl,
      rfl, rfl, rfl, fun _ => rfl, fun _ _ => rfl, fun _ _ _ => rfl, fun _ _ => rfl, fun _ => rfl, fun s => ?levels, ?_⟩
    case levels => cases o <;> cases p <;> rfl
    exact ⟨fun _ _ => rfl, fun _ _ => rfl, fun _ _ => rfl, fun _ _ => rfl, fun _ => rfl, fun _ _ => rfl, fun _ => rfl, rfl, rfl, rfl, rfl,
      fun _ => rfl, fun _ _ => rfl, fun _ _ _ => rfl, fun _ _ => rfl, fun _ => rfl, rfl, rfl, rfl, rfl, rfl, rfl, rfl, rfl, rfl, rfl, rfl⟩

end Sys2Proof.HostLink
end

