-- ==== Sys2Proof/Proofs/NoticeRing.lean ====
section
/-! PROOFS. The notice ring and FETCH: what an arriving notice does at each length of the ring, and the bounds of the ring and of its loss
count under each of the moves a ring can make (R196, R198, R199). -/

namespace Sys2Proof.Notices

open Sys2Proof.Machine Sys2Proof.Claims Sys2Proof.BayLoop Sys2Proof.ZoneEvaluation

/-! ## An arriving notice (R198) -/

section
variable {n : Notice} {r : Ring}

theorem lose_eq (r : Ring) :
    r.lose = ⟨r.notices, if r.lost < 127 then r.lost + 1 else r.lost, r.saturated || decide (127 ≤ r.lost)⟩ := by
  unfold Ring.lose
  simp only [Config.lossMax]
  by_cases h : r.lost < 127
  · simp [h, Nat.not_le.mpr h]
  · simp [h, Nat.not_lt.mp h]

theorem append_room (h : r.notices.length < 64) : r.append n = { r with notices := r.notices ++ [n] } := if_pos h

theorem append_full (h : 64 ≤ r.notices.length) : r.append n =
    if n.body.isFire && r.notices.any (fun m => !m.body.isFire) then { r.lose with notices := dropOldestRoutine r.notices ++ [n] }
    else r.lose := if_neg (Nat.not_lt.mpr h)

/-- At a full ring a non-fire notice is dropped. -/
theorem append_full_routine (h : 64 ≤ r.notices.length) (hn : n.body.isFire = false) : r.append n = r.lose := by
  rw [append_full h, hn]
  rfl

/-- A ring full of fire notices drops every notice. -/
theorem append_full_fires (h : 64 ≤ r.notices.length) (hall : ∀ k ∈ r.notices, k.body.isFire = true) : r.append n = r.lose := by
  have hnone : r.notices.any (fun m => !m.body.isFire) = false := by simpa using hall
  rw [append_full h, hnone, Bool.and_false]
  rfl

theorem dropOldestRoutine_split {before after : List Notice} {m : Notice} (hbefore : ∀ k ∈ before, k.body.isFire = true)
    (hm : m.body.isFire = false) : dropOldestRoutine (before ++ m :: after) = before ++ after := by
  induction before with
  | nil => simp [dropOldestRoutine, hm]
  | cons k before ih =>
    obtain ⟨hk, hbefore⟩ := List.forall_mem_cons.mp hbefore
    simp [dropOldestRoutine, hk, ih hbefore]

/-- At a full ring a fire notice displaces the oldest non-fire notice. -/
theorem append_displaces {before after : List Notice} {m : Notice} (h : 64 ≤ r.notices.length) (hn : n.body.isFire = true)
    (hsplit : r.notices = before ++ m :: after) (hbefore : ∀ k ∈ before, k.body.isFire = true) (hm : m.body.isFire = false) :
    r.append n = { r.lose with notices := before ++ after ++ [n] } := by
  have hany : r.notices.any (fun m => !m.body.isFire) = true := List.any_eq_true.mpr ⟨m, by simp [hsplit], by simp [hm]⟩
  rw [append_full h, hn, hany, hsplit, dropOldestRoutine_split hbefore hm]
  rfl

/-- A notice's arrival is no loss, or one loss. -/
theorem append_counts (n : Notice) (r : Ring) :
    ((r.append n).lost = r.lost ∧ (r.append n).saturated = r.saturated)
      ∨ ((r.append n).lost = r.lose.lost ∧ (r.append n).saturated = r.lose.saturated) := by
  by_cases h : r.notices.length < 64
  · rw [append_room h]
    exact .inl ⟨rfl, rfl⟩
  · rw [append_full (Nat.not_lt.mp h)]
    split <;> exact .inr ⟨rfl, rfl⟩

end

/-! ## FETCH (R199) -/

section
variable {count : Nat}

theorem fetch_within (hlow : 1 ≤ count) (hhigh : count ≤ 8) (s : State) : fetch count s =
    ⟨{ s with ring := ⟨s.ring.notices.drop count, 0, false⟩ }, .ok,
      .fetch (s.ring.notices.take count) (s.ring.notices.length - count) s.ring.lost s.ring.saturated⟩ := by
  have hgood : firstBad [(1, within 1 8 count)] = none := firstBad_eq_none.mpr (by simpa [within_iff] using ⟨hlow, hhigh⟩)
  rw [fetch, hgood, ← List.length_drop]
  rfl

theorem fetch_beyond (h : count < 1 ∨ 8 < count) (s : State) : fetch count s = .badField s 1 := by
  have hbad : within 1 8 count = false := by
    rw [← Bool.not_eq_true, within_iff]
    omega
  rw [fetch, hbad]
  rfl

theorem exec_fetch_within (hlow : 1 ≤ count) (hhigh : count ≤ 8) (tag : Nat) {s : State} (hp : s.power = .running) :
    exec (.fetch tag count) s = .next (replying 0x03 tag .ok
      (.fetch (s.ring.notices.take count) (s.ring.notices.length - count) s.ring.lost s.ring.saturated)
      { s with ring := ⟨s.ring.notices.drop count, 0, false⟩ }) :=
  (exec_fetch tag count s).trans (powered_answer hp (fetch_within hlow hhigh s))

end

/-- Settles O14: the two answers of `fetch`. -/
theorem fetchTakesTheOldest : Obligations.FetchTakesTheOldest := fun tag count s hp =>
  ⟨fun hlow hhigh => exec_fetch_within hlow hhigh tag hp,
    fun h => (exec_fetch tag count s).trans (powered_answer hp (fetch_beyond h s))⟩

/-- Settles O15: an arrival at a ring with room, at a full one, and at one full of fire notices; the kinds by their constructors. -/
theorem ringTakesANotice : Obligations.RingTakesANotice := by
  intro n r
  refine ⟨append_room, fun h hn => (append_full_routine h hn).trans (lose_eq r), fun before m after h hn hsplit hbefore hm => ?displaced,
    fun h hall => (append_full_fires h hall).trans (lose_eq r), fun h => ?bounded,
    ⟨fun _ _ => ⟨rfl, rfl⟩, fun _ _ _ => rfl, fun _ _ _ => rfl⟩, fun a b c o p => ?routine, fun tag count s hp hlow hhigh => ?fetched⟩
  case displaced =>
    rw [append_displaces h hn hsplit hbefore hm, lose_eq]
  case bounded =>
    obtain ⟨-, hlost⟩ := Ring.append_bounds n r
    exact hlost.trans (max_le le_rfl h)
  case routine =>
    exact ⟨fun _ => rfl, fun _ => rfl, fun _ _ => rfl, fun _ => rfl, fun _ _ => rfl, fun _ _ => rfl, fun _ _ => rfl, fun _ _ => rfl, rfl,
      fun _ _ _ => rfl, fun _ => rfl, fun _ _ => rfl, fun _ _ => rfl⟩
  case fetched => exact ⟨_, exec_fetch_within hlow hhigh tag hp, rfl, rfl, rfl⟩

/-! ## The moves of the ring -/

/-- What can happen to the ring: a notice arrives, FETCH takes the oldest, a reset empties it. -/
inductive RingMove : Ring → Ring → Prop where
  | arrived (n : Notice) (r : Ring) : RingMove r (r.append n)
  | fetched (count : Nat) (r : Ring) : RingMove r ⟨r.notices.drop count, 0, false⟩
  | emptied (r : Ring) : RingMove r ⟨[], 0, false⟩

/-- The law of `State.ringOk`, of a ring alone (R196, R198). -/
def WithinRoom (r : Ring) : Prop := r.notices.length ≤ 64 ∧ r.lost ≤ 127 ∧ (r.saturated = true → r.lost = 127)

theorem ringOk_iff (s : State) : s.ringOk ↔ WithinRoom s.ring := .rfl

/-- The flag is set only by a loss that finds the count at its bound, and stands there from then on. -/
theorem lose_saturated {r : Ring} (hlost : r.lost ≤ 127) (hflag : r.saturated = true → r.lost = 127) (h : r.lose.saturated = true) :
    r.lose.lost = 127 := by
  rw [lose_eq] at h ⊢
  have hfull : r.lost = 127 := by
    rcases Bool.or_eq_true _ _ |>.mp h with h | h
    · exact hflag h
    · exact hlost.antisymm (of_decide_eq_true h)
  simp [hfull]

theorem append_withinRoom (n : Notice) {r : Ring} (h : WithinRoom r) : WithinRoom (r.append n) := by
  obtain ⟨hroom, hlost, hflag⟩ := h
  obtain ⟨happended, hcounted⟩ := Ring.append_bounds n r
  refine ⟨happended.trans (max_le le_rfl hroom), hcounted.trans (max_le le_rfl hlost), fun hset => ?_⟩
  rcases append_counts n r with ⟨hl, hs⟩ | ⟨hl, hs⟩
  · exact hl.trans (hflag (hs.symm.trans hset))
  · exact hl.trans (lose_saturated hlost hflag (hs.symm.trans hset))

theorem RingMove.withinRoom {r q : Ring} (h : RingMove r q) (hr : WithinRoom r) : WithinRoom q := by
  cases h with
  | arrived n => exact append_withinRoom n hr
  | fetched count =>
    obtain ⟨hroom, -, -⟩ := hr
    exact ⟨by rw [List.length_drop]; omega, Nat.zero_le _, nofun⟩
  | emptied => exact ⟨Nat.zero_le _, Nat.zero_le _, nofun⟩

end Sys2Proof.Notices
end

