-- ==== Sys2Proof/Proofs/RingSteps.lean ====
section
/-! PROOFS. Every step as a chain of moves of the ring; with it the ring's bounds at every step (R196 to R199). -/

namespace Sys2Proof.Notices

open Sys2Proof.Machine Sys2Proof.Claims Sys2Proof.BayLoop Sys2Proof.ZoneEvaluation

/-! ## Chains of moves -/

/-- The ring of `t` comes from that of `s` by moves of the ring. -/
def RingMoves (s t : State) : Prop := Relation.ReflTransGen RingMove s.ring t.ring

theorem RingMoves.same {s t : State} (h : t.ring = s.ring) : RingMoves s t := by
  rw [RingMoves, h]

theorem RingMoves.refl (s : State) : RingMoves s s := .same rfl

theorem RingMoves.trans {s t u : State} (h : RingMoves s t) (h' : RingMoves t u) : RingMoves s u := Relation.ReflTransGen.trans h h'

/-- A change beside the ring, before a chain. -/
theorem RingMoves.after {s t u : State} (h : RingMoves t u) (hring : t.ring = s.ring) : RingMoves s u := (RingMoves.same hring).trans h

theorem RingMoves.emptied {s t : State} (h : t.ring = ⟨[], 0, false⟩) : RingMoves s t := by
  rw [RingMoves, h]
  exact .single (.emptied _)

/-- Notices raised arrive one after another (R197). -/
theorem raised_moves (u : Uptime) (ns : List NoticeBody) (r : Ring) : Relation.ReflTransGen RingMove r (r.raised u ns) := by
  induction ns generalizing r with
  | nil => exact .refl
  | cons n ns ih => exact .head (.arrived ⟨n, u⟩ r) (ih _)

/-- No event of the loop, the lines, the zones or the channels does more to the ring than raise notices. -/
theorem ringMoves_of_work {s t : State} (h : WorkStep s t) : RingMoves s t := by
  obtain ⟨_, _, _, ns, _, _, _, _, _, _, _, _, rfl⟩ := h
  exact raised_moves _ ns _

theorem ringMoves_of_zone {s t : State} (h : ZoneStep s t) : RingMoves s t := ringMoves_of_work h.work

theorem ringMoves_of_fan {s t : State} (h : FanStep s t) : RingMoves s t := ringMoves_of_work h.work

theorem withinRoom_of_moves {r q : Ring} (h : Relation.ReflTransGen RingMove r q) (hr : WithinRoom r) : WithinRoom q := by
  induction h with
  | refl => exact hr
  | tail _ hlast ih => exact hlast.withinRoom ih

/-! ## Lines, latches and the feeder -/

theorem raiseMode_ringMoves (previous : Mode) (s : State) : RingMoves s (raiseMode previous s) := by
  unfold raiseMode
  split
  · exact .refl s
  · exact ringMoves_of_fan (raise_fan _ s)

theorem acceptLine_ringMoves (line : Nat) (s : State) : RingMoves s (acceptLine line s) := by
  unfold acceptLine
  split
  · exact .refl s
  · dsimp only
    split
    · exact (ringMoves_of_work (setLatch_work line _)).after rfl
    · exact .same rfl

theorem restartMake_ringMoves (s : State) : RingMoves s (restartMake s) := by
  unfold restartMake
  dsimp only
  split
  · exact (ringMoves_of_fan (makeProvisional_fan _ _)).after rfl
  · exact .same rfl

theorem fireReset_ringMoves (lines : OctetSet) (s : State) : RingMoves s (fireReset lines s).state := by
  rw [fireReset_state]
  exact RingMoves.trans (t := listedBy lines s) (raised_moves _ _ _) (ringMoves_of_zone (resetBy_zone lines s))

theorem setFeeder_ringMoves (silent : Bool) (f : Feeder) (s : State) : RingMoves s (setFeeder silent f s) := by
  unfold setFeeder
  dsimp only
  split_ifs
  · exact .same rfl
  · exact (ringMoves_of_fan (look_fan _)).after rfl
  · exact (ringMoves_of_fan ((raise_fan _ _).trans (look_fan _))).after rfl

theorem feedAccepted_ringMoves (s : State) : RingMoves s (feedAccepted s) := by
  unfold feedAccepted
  split
  · exact .refl s
  · exact setFeeder_ringMoves _ _ s

/-! ## Configurations, modes and resets -/

/-- New tables, the claims handed over, MODE: what the ring sees of a commit (R178). -/
theorem commit_ringMoves (l : Loaded) (s : State) : RingMoves s (commit l s) := by
  obtain ⟨t, ht⟩ : ∃ t : State, t = { s with
      active := some l.active, staging := none, mode := .run, loop := s.loop.committed, queue := [], held := 0
      heads := l.heads.map Head.initial, channels := l.fans.map fun r => .initial r false
      zones := l.zones.map Zone.initial, handed := [], provisionalDue := false } := ⟨_, rfl⟩
  have hring : t.ring = s.ring := by rw [ht]
  have hcommit : (commit l s).ring = (raiseMode s.mode (handOver false (t.zones.map Zone.number) t)).ring := by
    rw [ht]
    rfl
  have hhanded : RingMoves s (handOver false (t.zones.map Zone.number) t) := (ringMoves_of_zone (handOver_zone _ _ t)).after hring
  exact (hhanded.trans (raiseMode_ringMoves _ _)).trans (.same hcommit)

theorem manualMode_ringMoves (mode : Mode) (setpoint : Channel → Option Nat) (s : State) :
    RingMoves s (raiseMode s.mode (resolveChannels false (fun _ => true)
      { s with mode := mode, channels := s.channels.map fun c => { c with manual := setpoint c } })) := by
  refine RingMoves.trans ?_ (raiseMode_ringMoves _ _)
  exact (ringMoves_of_fan (resolveChannels_fan _ _ _)).after rfl

theorem afterRestart_ringMoves (previous : Mode) (s : State) : RingMoves s (afterRestart previous s) :=
  (ringMoves_of_work (beginCycle_work s)).trans (raiseMode_ringMoves _ _)

theorem restartScheduled_ringMoves (s : State) : RingMoves s (restartScheduled s) := (ringMoves_of_zone (handOver_zone _ _ _)).after rfl

theorem endReset_ringMoves (cause : ResetCause) (straps : Straps) (s : State) : RingMoves s (endReset cause straps s) :=
  RingMoves.trans (t := { s.cleared with power := .running, resetCause := cause, link := .cleared (bitRateOf straps) })
    (.emptied rfl) (ringMoves_of_work (beginCycle_work _))

theorem powerOn_ringMoves (straps : Straps) (s : State) : RingMoves s (powerOn straps s) := by
  unfold powerOn
  split
  · exact endReset_ringMoves _ _ s
  · exact .emptied rfl

theorem pinReset_ringMoves (s : State) : RingMoves s (pinReset s) := by
  unfold pinReset
  split
  · exact .emptied rfl
  · exact .same rfl
  · exact .same rfl

theorem pinResetEnd_ringMoves (straps : Straps) (s : State) : RingMoves s (pinResetEnd straps s) := by
  unfold pinResetEnd
  split
  · exact .same rfl
  · exact (endReset_ringMoves _ _ _).after rfl
  · exact .same rfl

/-! ## Requests that raise notices or take them -/

theorem fetch_ringMoves (count : Nat) (s : State) : RingMoves s (fetch count s).state := by
  by_cases h : 1 ≤ count ∧ count ≤ 8
  · obtain ⟨hlow, hhigh⟩ := h
    rw [fetch_within hlow hhigh]
    exact .single (.fetched count s.ring)
  · rw [fetch_beyond (by omega)]
    exact .refl s

theorem loadBegin_ringMoves (s : State) : RingMoves s (loadBegin s).state := by
  unfold loadBegin
  split
  · exact (raiseMode_ringMoves _ _).after rfl
  · exact .refl s

theorem loadAbandon_ringMoves (s : State) : RingMoves s (loadAbandon s).state := by
  unfold loadAbandon
  split
  · exact (raiseMode_ringMoves _ _).after rfl
  · exact .refl s

theorem loadCommit_ringMoves (s : State) : RingMoves s (loadCommit s).state := by
  unfold loadCommit
  split
  · split
    · exact .refl s
    · split
      · exact .same rfl
      · exact commit_ringMoves _ s
  · exact .refl s

theorem restartKeep_ringMoves (s : State) : RingMoves s (restartKeep s).state := by
  refine RingMoves.trans (t := if s.mode.scheduled then restartScheduled s else restartUnconfigured s) ?_ (afterRestart_ringMoves _ _)
  split
  · exact restartScheduled_ringMoves s
  · exact .same rfl

theorem restartClear_ringMoves (s : State) : RingMoves s (restartClear s).state :=
  ((afterRestart_ringMoves s.mode (restartCleared s)).after rfl).trans (.same rfl)

theorem manualEnter_ringMoves (s : State) : RingMoves s (manualEnter s).state := by
  unfold manualEnter
  split
  · exact manualMode_ringMoves .manual (fun c => some c.target) s
  · exact .refl s

theorem manualLeave_ringMoves (s : State) : RingMoves s (manualLeave s).state := by
  unfold manualLeave
  split
  · exact manualMode_ringMoves .run (fun _ => none) s
  · exact .refl s

theorem boost_ringMoves (zones : ZoneSet) (speed duration : Nat) (s : State) : RingMoves s (boost zones speed duration s).state := by
  unfold boost
  split
  · exact .refl s
  · split
    · exact .refl s
    · split
      · exact .refl s
      · exact ringMoves_of_zone (boostZones_zone _ _ s)

theorem setFan_ringMoves (n setpoint : Nat) (s : State) : RingMoves s (setFan n setpoint s).state := by
  unfold setFan
  split
  · exact .refl s
  · split_ifs
    · exact .refl s
    · exact .refl s
    · exact (ringMoves_of_fan (resolveChannels_fan _ _ _)).after rfl

theorem clearFault_ringMoves (n : Nat) (s : State) : RingMoves s (clearFault n s).state := by
  unfold clearFault
  split
  · exact .refl s
  · split
    · exact .refl s
    · split
      · exact .refl s
      · split
        · exact .refl s
        · exact ringMoves_of_fan (fanEventAt_fan n _ s)

theorem feederRequest_ringMoves (code : Nat) (s : State) : RingMoves s (feederRequest code s).state := by
  unfold feederRequest
  split
  · exact .refl s
  · exact setFeeder_ringMoves _ _ s

/-! ## Requests beside the ring -/

theorem loadRecord_ring {checks : List (Nat × Bool)} {store : Staging → Answer} {s : State}
    (h : ∀ st, (store st).state.ring = s.ring) : (loadRecord checks store s).state.ring = s.ring := by
  unfold loadRecord
  split
  · rfl
  · split
    · exact h _
    · rfl

theorem loadSlot_ring (r : LoadSlot) (s : State) : (loadSlot r s).state.ring = s.ring :=
  loadRecord_ring fun st => by
    dsimp only
    split <;> rfl

theorem readRecord_ring (most : Nat) (inMode : Bool) (n : Nat) (record : Option ReplyBody) (s : State) :
    (readRecord most inMode n record s).state.ring = s.ring := by
  unfold readRecord
  split_ifs
  · rfl
  · rfl
  · split <;> rfl

theorem snapTake_ring (s : State) : (snapTake s).state.ring = s.ring := by
  unfold snapTake
  split
  · rfl
  · split <;> rfl

theorem snapRead_ring (page : Nat) (s : State) : (snapRead page s).state.ring = s.ring := by
  unfold snapRead
  split <;> rfl

theorem tuneZone_ring (zone : Nat) (f : Zone → Zone) (s : State) : (tuneZone zone f s).state.ring = s.ring := by
  unfold tuneZone
  split_ifs <;> rfl

theorem setLimits_ring (zone gas low1 high1 low2 high2 : Nat) (s : State) :
    (setLimits zone gas low1 high1 low2 high2 s).state.ring = s.ring := by
  unfold setLimits
  split
  · rfl
  · exact tuneZone_ring _ _ s

theorem setHold_ring (zone preload : Nat) (s : State) : (setHold zone preload s).state.ring = s.ring := by
  unfold setHold
  split
  · rfl
  · exact tuneZone_ring _ _ s

theorem slotAnswer_ring (key : ServiceKey) (s : State) : (slotAnswer key s).state.ring = s.ring := by
  unfold slotAnswer
  split
  · rfl
  · split <;> rfl
  · split <;> rfl

theorem serviceRequest_ring (key : ServiceKey) (s : State) : (serviceRequest key s).state.ring = s.ring := by
  unfold serviceRequest
  split_ifs
  exacts [rfl, rfl, slotAnswer_ring key s, rfl, rfl, rfl, rfl, slotAnswer_ring key s]

/-! ## The owners of the requests -/

theorem take_ringMoves {kind tag : Nat} {owner : State → Answer} {s : State} (h : RingMoves s (owner s).state) :
    RingMoves s (take kind tag owner s) := h.trans (.same rfl)

theorem handToOwner_ringMoves (i : Instr) (s : State) : RingMoves s (handToOwner i s) := by
  cases i
  case fetch tag count => exact take_ringMoves (fetch_ringMoves count s)
  case snapTake => exact take_ringMoves (.same (snapTake_ring s))
  case snapRead tag page => exact take_ringMoves (.same (snapRead_ring page s))
  case loadBegin => exact take_ringMoves (loadBegin_ringMoves s)
  case loadLoop | loadFeeder | loadHead | loadFan | loadZone | loadLine => exact take_ringMoves (.same (loadRecord_ring fun _ => rfl))
  case loadSlot tag r => exact take_ringMoves (.same (loadSlot_ring r s))
  case loadAbandon => exact take_ringMoves (loadAbandon_ringMoves s)
  case loadCommit => exact take_ringMoves (loadCommit_ringMoves s)
  case restartKeep => exact take_ringMoves (restartKeep_ringMoves s)
  case restartClear => exact take_ringMoves (restartClear_ringMoves s)
  case manualEnter => exact take_ringMoves (manualEnter_ringMoves s)
  case manualLeave => exact take_ringMoves (manualLeave_ringMoves s)
  case getHead | getZone | getFan | getGroup => exact take_ringMoves (.same (readRecord_ring _ _ _ _ s))
  case boost tag zones speed duration => exact take_ringMoves (boost_ringMoves zones speed duration s)
  case setLimits => exact take_ringMoves (.same (setLimits_ring _ _ _ _ _ _ s))
  case setHold tag zone preload => exact take_ringMoves (.same (setHold_ring zone preload s))
  case setFan tag n setpoint => exact take_ringMoves (setFan_ringMoves n setpoint s)
  case clearFault tag n => exact take_ringMoves (clearFault_ringMoves n s)
  case feeder tag code => exact take_ringMoves (feederRequest_ringMoves code s)
  case fireReset tag lines => exact take_ringMoves (fireReset_ringMoves lines s)
  case itemRead | itemWrite | groupRead | groupWrite => exact take_ringMoves (.same (serviceRequest_ring _ s))
  all_goals exact .same rfl

/-! ## The host link -/

theorem takeFrame_ringMoves (f : Frame) (s : State) : RingMoves s (takeFrame f s) := by
  unfold takeFrame
  split
  · exact .same rfl
  · split
    · exact .same rfl
    · split
      · exact .same rfl
      · split
        · exact .same rfl
        · exact handToOwner_ringMoves _ s

theorem holdFrame_ringMoves (f : Frame) (s : State) : RingMoves s (holdFrame f s) := by
  unfold holdFrame
  split
  · exact takeFrame_ringMoves f s
  · exact .same rfl
  · exact .same rfl

theorem receiveByte_ringMoves (byte : Byte) (framingError : Bool) (s : State) : RingMoves s (receiveByte byte framingError s) := by
  unfold receiveByte takeByte completeFrame
  split
  · split <;> exact .same rfl
  · split <;> exact .same rfl
  · split_ifs
    · exact .same rfl
    · exact .same rfl
    · exact (holdFrame_ringMoves _ _).after rfl
    · exact .same rfl

theorem gapTimeout_ring (s : State) : (gapTimeout s).ring = s.ring := by
  unfold gapTimeout
  split <;> rfl

theorem endReply_ringMoves (s : State) : RingMoves s (endReply s) := by
  unfold endReply
  split
  · exact .refl s
  · dsimp only
    split
    · exact .same rfl
    · exact (takeFrame_ringMoves _ _).after rfl

/-! ## Commands and steps -/

theorem powered_ringMoves {f : State → State} {s t : State} (hf : RingMoves s (f s)) (h : powered s f = .next t) : RingMoves s t := by
  rcases powered_next h with rfl | rfl
  · exact hf
  · exact .refl _

theorem next_ringMoves {s t u : State} (h : (.next u : Host.Outcome State Fault Refusal) = .next t) (hu : RingMoves s u) : RingMoves s t := by
  cases h
  exact hu

/-- A request given as a command is taken as its owner takes it from a frame. -/
theorem request_ringMoves {i : Instr} {s t : State} (h : exec i s = .next t) (howner : exec i s = powered s (handToOwner i)) : RingMoves s t :=
  powered_ringMoves (handToOwner_ringMoves i s) (howner.symm.trans h)

theorem exec_ringMoves (i : Instr) {s t : State} (h : exec i s = .next t) : RingMoves s t := by
  cases i
  case powerOn straps => exact next_ringMoves h (powerOn_ringMoves straps s)
  case pinReset => exact next_ringMoves h (pinReset_ringMoves s)
  case pinResetEnd straps => exact next_ringMoves h (pinResetEnd_ringMoves straps s)
  case supplyLoss => exact next_ringMoves h (.emptied rfl)
  case hostByteReceived byte framingError => exact powered_ringMoves (receiveByte_ringMoves byte framingError s) h
  case interByteGapTimeout => exact powered_ringMoves (.same (gapTimeout_ring s)) h
  case replySent => exact powered_ringMoves (endReply_ringMoves s) h
  case cycleBegin => exact powered_ringMoves (ringMoves_of_work (cycleBoundary_work s)) h
  case pollSlotEnd reply => exact powered_ringMoves (ringMoves_of_work (pollEnd_work reply s)) h
  case commandSlotEnd reply => exact powered_ringMoves (ringMoves_of_work (commandEnd_work reply s)) h
  case serviceSlotEnd reply => exact powered_ringMoves (ringMoves_of_work (serviceEnd_work reply s)) h
  case secondsTick => exact powered_ringMoves (f := secondsTick) (.same rfl) h
  case settleExpiry n => exact powered_ringMoves (ringMoves_of_fan (settleExpired_fan n s)) h
  case damperTimerExpiry n => exact powered_ringMoves (ringMoves_of_fan (fanEventAt_fan n _ s)) h
  case coastTimerExpiry n => exact powered_ringMoves (ringMoves_of_fan (fanEventAt_fan n _ s)) h
  case holdExpiry n => exact powered_ringMoves (ringMoves_of_zone (changeZone_zone n _ s)) h
  case boostExpiry n => exact powered_ringMoves (ringMoves_of_zone (boostTimeout_zone n s)) h
  case graceExpiry n => exact powered_ringMoves (f := graceTimeout n) (.same rfl) h
  case collectionExpiry => exact powered_ringMoves (ringMoves_of_work (lapseResult_work s)) h
  case queueStall => exact powered_ringMoves (ringMoves_of_fan (stall_fan s)) h
  case fireLineLevelChange line level => exact next_ringMoves h (.same rfl)
  case fireLineAccepted line => exact powered_ringMoves (acceptLine_ringMoves line s) h
  case commitLevelLatch => exact powered_ringMoves (ringMoves_of_work (levelLatch_work s)) h
  case restartProvisionalMake => exact powered_ringMoves (restartMake_ringMoves s) h
  case feedLevelChange level => exact next_ringMoves h (.same rfl)
  case feedAccepted => exact powered_ringMoves (feedAccepted_ringMoves s) h
  all_goals exact request_ringMoves h rfl

/-- The ring changes at a step by arrivals, a FETCH or a reset alone. -/
theorem step_ringMoves {s t : State} (h : step s = .next t) : RingMoves s t := by
  unfold step at h
  split at h
  · exact (powered_ringMoves (f := tenth) (.same rfl) h).after rfl
  · exact (exec_ringMoves _ h).after rfl

/-- Settles O54: a step is a chain of moves of the ring, and each move keeps the bounds. -/
theorem ringStaysWithinItsRoom : Obligations.RingStaysWithinItsRoom := fun s t hs hstep =>
  (ringOk_iff t).mpr (withinRoom_of_moves (step_ringMoves hstep) ((ringOk_iff s).mp hs))

end Sys2Proof.Notices
end

