-- ==== Sys2Proof/Proofs/Snapshot.lean ====
section
/-! PROOFS. The snapshot requests and the pages of the image (R203 to R206). -/

namespace Sys2Proof.Notices

open Sys2Proof.Machine Sys2Proof.Claims Sys2Proof.ZoneEvaluation

/-! ## Pages (R204) -/

section
variable {p : Nat} (i : SnapImage)

theorem page_zones (h : p < 4) : i.page (1 + p) = .zones ((i.zones.drop (4 * p)).take 4) := by
  rw [SnapImage.page, if_neg (by omega), if_pos (by omega), Nat.add_sub_cancel_left]

theorem page_channels (h : p < 8) : i.page (5 + p) = .channels ((i.channels.drop (3 * p)).take 3) := by
  rw [SnapImage.page, if_neg (by omega), if_neg (by omega), if_pos (by omega), Nat.add_sub_cancel_left]

theorem page_heads (p : Nat) : i.page (13 + p) = .heads ((i.heads.drop (5 * p)).take 5) := by
  rw [SnapImage.page, if_neg (by omega), if_neg (by omega), if_neg (by omega), Nat.add_sub_cancel_left]

end

/-- The records of a page: those of the numbers from its first on. -/
theorem take_drop_map_range {α : Type} (f : Nat → α) {n k m : Nat} (h : k + m ≤ n) :
    (((List.range n).map f).drop k).take m = (List.range m).map fun j => f (k + j) := by
  refine List.ext_getElem ?_ fun j _ _ => ?_
  · simp only [List.length_take, List.length_drop, List.length_map, List.length_range]
    omega
  · simp only [List.getElem_take, List.getElem_drop, List.getElem_map, List.getElem_range]

section
variable {p : Nat} (s : State)

theorem image_page_zones (h : p < 4) : s.image.page (1 + p) =
    .zones [s.zoneView? (4 * p), s.zoneView? (4 * p + 1), s.zoneView? (4 * p + 2), s.zoneView? (4 * p + 3)] :=
  (page_zones s.image h).trans (congrArg Page.zones (take_drop_map_range s.zoneView? (by omega)))

theorem image_page_channels (h : p < 8) : s.image.page (5 + p) =
    .channels [s.fanView? (3 * p), s.fanView? (3 * p + 1), s.fanView? (3 * p + 2)] :=
  (page_channels s.image h).trans (congrArg Page.channels (take_drop_map_range s.fanView? (by omega)))

theorem image_page_heads (h : p < 8) : s.image.page (13 + p) =
    .heads [s.headView? (5 * p), s.headView? (5 * p + 1), s.headView? (5 * p + 2), s.headView? (5 * p + 3),
      s.headView? (5 * p + 4)] :=
  (page_heads s.image p).trans (congrArg Page.heads (take_drop_map_range s.headView? (by omega)))

end

/-! ## The requests (R203, R205, R206) -/

section
variable {page : Nat} {s : State} {held : Snapshot}

theorem snapRead_beyond (h : 20 < page) : snapRead page s = .badField s 1 := by
  have hbad : within 0 20 page = false := by
    rw [← Bool.not_eq_true, within_iff]
    omega
  rw [snapRead, hbad]
  rfl

theorem snapRead_page_good (h : page ≤ 20) : firstBad [(1, within 0 20 page)] = none :=
  firstBad_eq_none.mpr (by simpa [within_iff] using h)

theorem snapRead_empty (h : page ≤ 20) (hs : s.snapshot = none) : snapRead page s = .refuse s .notFound := by
  rw [snapRead, snapRead_page_good h, hs]

theorem addPage_eq (page : Nat) (read : List Nat) : addPage page read = if page ∈ read then read else read ++ [page] := by
  simp only [addPage, List.contains_iff_mem]

theorem snapRead_held (h : page ≤ 20) (hs : s.snapshot = some held) : snapRead page s =
    ⟨{ s with snapshot := if 21 ≤ (addPage page held.read).length then none else some { held with read := addPage page held.read } },
      .ok, .snapPage (held.image.page page) held.takenAt (21 - (addPage page held.read).length)⟩ := by
  rw [snapRead, snapRead_page_good h, hs]
  rfl

theorem snapTake_failsafe (h : s.failsafe = true) : snapTake s = .refuse s .wrongMode := if_pos h

theorem snapTake_held (h : s.failsafe = false) (hs : s.snapshot = some held) :
    snapTake s = .refuse s .held (.snapAge (s.uptime - held.takenAt)) := by
  rw [snapTake, if_neg (by simp [h]), hs]

theorem snapTake_free (h : s.failsafe = false) (hs : s.snapshot = none) :
    snapTake s = .ok { s with snapshot := some ⟨s.image, s.uptime, []⟩ } (.snapTaken s.uptime) := by
  rw [snapTake, if_neg (by simp [h]), hs]

end

/-- Settles O16: the answers of the three requests, and the pages of the image. -/
theorem snapshotIsTakenReadAndReleased : Obligations.SnapshotIsTakenReadAndReleased := by
  intro tag page s hp
  have answersRead {status : Status} {body : ReplyBody} {t : State} (h : snapRead page s = ⟨t, status, body⟩) :
      exec (.snapRead tag page) s = .next (replying 0x05 tag status body t) := (exec_snapRead tag page s).trans (powered_answer hp h)
  have answersTake {status : Status} {body : ReplyBody} {t : State} (h : snapTake s = ⟨t, status, body⟩) :
      exec (.snapTake tag) s = .next (replying 0x04 tag status body t) := (exec_snapTake tag s).trans (powered_answer hp h)
  refine ⟨fun h => answersRead (snapRead_beyond h), fun h hs => answersRead (snapRead_empty h hs), fun held h hs => ?page,
    (exec_snapRelease tag s).trans (powered_answer hp rfl), fun hm => answersTake (snapTake_failsafe (failsafe_true hm)),
    fun hm => ⟨fun held hs => answersTake (snapTake_held (failsafe_false hm) hs),
      fun hs => answersTake (snapTake_free (failsafe_false hm) hs)⟩,
    rfl, fun p h => image_page_zones s h, fun p h => image_page_channels s h, fun p h => image_page_heads s h⟩
  case page =>
    rw [← addPage_eq]
    exact answersRead (snapRead_held h hs)

end Sys2Proof.Notices
end

