-- ==== Sys2Proof/Proofs/Step.lean ====
section
/-! PROOFS. The step of a queue with a command at its front; `BayLoop.step_of_empty` has the empty queue. -/

namespace Sys2Proof.Stepping

open Sys2Proof.Machine

theorem step_of_front {s : State} {c : Instr} {rest : List Instr} (h : s.pending = c :: rest) :
    step s = exec c { s with pending := rest } := by
  simp only [step, h]

/-- Settles O1: `step` branches on the queue alone, and `step_of_front` is its branch for a command at the front. -/
theorem stepRunsFrontCommand : Obligations.StepRunsFrontCommand :=
  fun _ _ _ hq => step_of_front hq

end Sys2Proof.Stepping
end
